-- ==== Sys2Proof/Word.lean ====
section
/-! DEFINITION. The two word types of the block: the byte every memory access moves (20_memory.md R90) and the
32-bit register word (10_state.md R23, R37). -/

namespace Sys2Proof

/-- A byte: 8 bits, a value 0 to 255 (00_scope.md R11). -/
abbrev Byte := BitVec 8

/-- A 32-bit register (10_state.md R23, R37). -/
abbrev Word := BitVec 32

end Sys2Proof
end

