-- ==== Sys2Proof/Machine/Sparse.lean ====
section
/-! DEFINITION. Tables and memories as plain data: a list of (index, entry) pairs in one canonical form, the
indices strictly rising and no entry equal to the table's default. Every scratch table of 10_state.md (`head`,
`link`, `isNode`, `stat`, …) and the byte memories of 20_memory.md R80 are such lists. -/

namespace Sys2Proof

/-- A table indexed by natural numbers, as the list of its entries that differ from the default. -/
abbrev Sparse (β : Type) := List (Nat × β)

namespace Sparse

variable {β : Type}

/-- The entry listed at index `a`, if any. The search stops at the first larger index. -/
def look : Sparse β → Nat → Option β
  | [], _ => none
  | (k, v) :: t, a => if a < k then none else if a = k then some v else look t a

/-- The list without its leading entries at indices up to `a` (none, when the indices rise strictly and start
above `a`). -/
def dropUpTo : Sparse β → Nat → Sparse β
  | [], _ => []
  | (k, v) :: t, a => if k ≤ a then dropUpTo t a else (k, v) :: t

/-- Store `o` at index `a`: `some v` lists the entry, `none` takes it off the list. -/
def put : Sparse β → Nat → Option β → Sparse β
  | [], _, none => []
  | [], a, some v => [(a, v)]
  | (k, x) :: t, a, o =>
    if a < k then
      match o with
      | none => (k, x) :: t
      | some v => (a, v) :: (k, x) :: t
    else if a = k then
      match o with
      | none => dropUpTo t a
      | some v => (a, v) :: t
    else (k, x) :: put t a o

/-- The entry at `a`, `d` where nothing is listed. -/
def getD (t : Sparse β) (d : β) (a : Nat) : β := (look t a).getD d

/-- Store `v` at `a` in a table whose default entry is `d`: the default is never listed. -/
def setD [DecidableEq β] (t : Sparse β) (d : β) (a : Nat) (v : β) : Sparse β :=
  put t a (if v = d then none else some v)

/-- The indices rise strictly. -/
def sorted : Sparse β → Bool
  | [] => true
  | [_] => true
  | (k, _) :: (k', v') :: t => decide (k < k') && sorted ((k', v') :: t)

/-- The canonical form of a table with default `d`: strictly rising indices, no entry equal to the default. -/
def canonical [DecidableEq β] (d : β) (t : Sparse β) : Bool :=
  sorted t && t.all (fun e => decide (e.2 ≠ d))

end Sparse

end Sys2Proof
end

