-- ==== Sys2Proof/Config.lean ====
section
/-! DEFINITION. What an implementation fixes: the constants of 00_scope.md R8, the open parameters of R9 (a record
every statement quantifies over, since it is part of the state), and the free values, constants without a body that
no proof can look into. -/

namespace Sys2Proof

namespace Config

/-! Constants OSM fixes (00_scope.md R8). -/

/-- `RP_MAX_DIST`: the largest distance the RefPack matcher may select. -/
abbrev rpMaxDist : Nat := 131071
/-- `RP_MAX_LEN`: the largest RefPack match length. -/
abbrev rpMaxLen : Nat := 1028
/-- `RP_MIN_LEN`: the smallest accepted RefPack match length. -/
abbrev rpMinLen : Nat := 3
/-- `RP_LIT_CHUNK_MAX`: the largest literal-run payload. -/
abbrev rpLitChunkMax : Nat := 112
/-- `RP_EOF_BASE`: the end marker is this plus the trailing literal count. -/
abbrev rpEofBase : Nat := 0xFC
/-- The number of entries of `link` (10_state.md R39, R40). -/
abbrev rpLinkSize : Nat := 131072
/-- `HR_RUN_CAP`: the cap on a counted run. -/
abbrev hrRunCap : Nat := 30000
/-- `HR_MAXBITS`: the longest Huffman-with-Runlength code. -/
abbrev hrMaxBits : Nat := 15
/-- `LZ_MIN`: the smallest LightZhl match length. -/
abbrev lzMin : Nat := 4
/-- `LZ_MAXMATCH = LZ_MIN + LZ_MAX_EXCESS` (46 R421). -/
abbrev lzMaxMatch : Nat := 521
/-- `LZ_GROUPS`: the group slots of the LightZhl coder. -/
abbrev lzGroups : Nat := 16
/-- `LZ_NSYM`: the size of the alphabet (46 R421). -/
abbrev lzNsym : Nat := 274
/-- The widest in-group index (30 R151). -/
abbrev lzMaxWidth : Nat := 12
/-- `LZ_RECALC_LEN`: emitted symbols between table rebuilds. -/
abbrev lzRecalcLen : Nat := 4096
/-- The symbol that announces a rebuild (30 R153). -/
abbrev lzRecalcSym : Nat := 272
/-- The symbol that ends a stream (30 R153). -/
abbrev lzEofSym : Nat := 273
/-- The range of the reference LightZhl hashes, 15 bits (46 R452, R453). -/
abbrev lzHashRange : Nat := 32768

/-! Free values. -/

/-- The contents of `DST` after a failed `ENCODE` or `DECODE`: "unspecified" (60 R510), one byte string for each
failure (log 2). -/
opaque freeDst : Nat → List Byte

/-- `SIG[c]` of engine number `c`: not in source (10_state.md R31, log 3). -/
opaque descSig : Nat → Word

/-- `VERSION[c]`: not in source (10_state.md R31, log 3). -/
opaque descVersion : Nat → Word

/-- The length of `SHORT_NAME[c]`, which `ABOUT` writes in one byte (40 R181, log 3). -/
opaque descShortLen : Nat → Byte

/-- The bytes of `SHORT_NAME[c]` (log 3). -/
opaque descShortByte : Nat → Nat → Byte

/-- The length of `LONG_NAME[c]` (log 3). -/
opaque descLongLen : Nat → Byte

/-- The bytes of `LONG_NAME[c]` (log 3). -/
opaque descLongByte : Nat → Nat → Byte

/-! The functions of instances that do not use the spec's reference functions (00_scope.md R9), numbered (log 5). -/

/-- An `rp_hash` (43 R262), before it is reduced to its range. -/
opaque otherRpHash : Nat → Byte → Byte → Byte → Nat

/-- An insertion policy of the RefPack encoder (43 R270): whether, after the step at `cp` that passed `L` bytes with the
flag `quick`, position `p` is inserted. -/
opaque otherRpPolicy : Nat → (quick : Bool) → (cp L p : Nat) → Bool

/-- A LightZhl hash (46 R452, R453), before it is reduced to its range. -/
opaque otherLzHash : Nat → Byte → Byte → Byte → Byte → Nat

/-- An `lz_calc_groups` (46 R442), from the counts and the order. -/
opaque otherLzGroups : Nat → Sparse Nat → List Nat → List Nat

end Config

/-- `HR_CHAINSAW_PICK` (00_scope.md R9, 45 R372). -/
inductive ChainsawPick where
  | shortest
  | longestBelow
  deriving DecidableEq, Repr

/-- The function an instance uses for a function-valued parameter of 00_scope.md R9, as plain data: the spec's reference
function, or another one, by its number (log 5). -/
inductive FnPick where
  | reference
  | other (k : Nat)
  deriving DecidableEq, Repr

/-- The open parameters of 00_scope.md R9, all but `BT_PAIRS_PER_PASS`, `BT_THRESHOLD` and `OUT_LIMIT`, which are host
registers (10_state.md R23, R33). -/
structure Params where
  /-- `MAX_LEN`. -/
  maxLen : Nat
  /-- `RP_HASH_SIZE`. -/
  rpHashSize : Nat
  /-- `rp_hash`. -/
  rpHashFn : FnPick
  /-- `RP_DIST_BIAS`. -/
  rpDistBias : Nat
  /-- The semantics of `RP_QUICK` (43 R270). -/
  rpPolicyFn : FnPick
  /-- `BT_STACK_DEPTH`. -/
  btStackDepth : Nat
  /-- `HR_RUN_MIN`. -/
  hrRunMin : Nat
  /-- `HR_CHAINSAW_PICK`. -/
  hrChainsawPick : ChainsawPick
  /-- `LZ_BUF_BITS`. -/
  lzBufBits : Nat
  /-- `LZ_TABLE_BITS`. -/
  lzTableBits : Nat
  /-- `lz_hash_fast`. -/
  lzFastFn : FnPick
  /-- `lz_hash_slow`. -/
  lzSlowFn : FnPick
  /-- `LZ_CHAIN_LIMIT`; 0 means no bound beyond the window (46 R422). -/
  lzChainLimit : Nat
  /-- `lz_calc_groups`. -/
  lzGroupsFn : FnPick
  deriving DecidableEq, Repr

/-- The defaults of 00_scope.md R9. -/
def Params.default : Params where
  maxLen := 2 ^ 31 - 1
  rpHashSize := 65536
  rpHashFn := .reference
  rpDistBias := 0
  rpPolicyFn := .reference
  btStackDepth := 256
  hrRunMin := 4
  hrChainsawPick := .shortest
  lzBufBits := 16
  lzTableBits := 15
  lzFastFn := .reference
  lzSlowFn := .reference
  lzChainLimit := 0
  lzGroupsFn := .reference

/-- The ranges of 00_scope.md R9. -/
abbrev Params.legal (p : Params) : Prop :=
  1 ≤ p.maxLen ∧ p.maxLen < 2 ^ 32 ∧ 1 ≤ p.rpHashSize ∧ p.rpDistBias ≤ 1 ∧ 256 ≤ p.btStackDepth ∧ 1 ≤ p.hrRunMin ∧
    8 ≤ p.lzBufBits ∧ p.lzBufBits ≤ 16

/-- `LZ_SIZE = 2^LZ_BUF_BITS` (46 R421). -/
def Params.lzSize (p : Params) : Nat := 2 ^ p.lzBufBits

end Sys2Proof
end

