-- ==== Sys2Proof/Syntax.lean ====
section
/-! DEFINITION. The instructions: the host operations and the stream commands (00_scope.md R10), one constructor for
each mnemonic of opcode_table.json (the three rows of RP.LITERAL are one instruction, log 16), and the code tables a
stream command's encoding depends on. -/

namespace Sys2Proof

/-- The four engines (10_state.md R26). -/
inductive Codec where
  | rp
  | bt
  | hr
  | lz
  deriving DecidableEq, Repr

/-- The stage of a LightZhl decode that a failure is reported in (10_state.md R35, 46 R449). -/
inductive Stage where
  | none
  | table
  | symbol
  | extra
  | disp
  | copy
  deriving DecidableEq, Repr

/-- Host operations and stream commands. Lengths, counts and distances are the values of the rules (`P`, `L`, `D`,
`k`), not raw fields. -/
inductive Instr where
  /-- `ABOUT` (40 R181). -/
  | about (c : Codec)
  /-- `IS_VALID` (40 R182, R187). -/
  | isValid (c : Codec)
  /-- `EXTRACT_SIZE` (40 R183, R187). -/
  | extractSize (c : Codec)
  /-- `ENCODE` (40 R184). -/
  | encode (c : Codec)
  /-- `DECODE` (40 R185). -/
  | decode (c : Codec)
  /-- Reserved `OP` 5 (30 R172). -/
  | hostopReserved5 (c : Codec)
  /-- Reserved `OP` 6 (30 R172). -/
  | hostopReserved6 (c : Codec)
  /-- Reserved `OP` 7 (30 R172). -/
  | hostopReserved7 (c : Codec)
  /-- `RP.SHORT` (30 R131, 42 R233). -/
  | rpShort (P L D : Nat)
  /-- `RP.INT` (30 R132, 42 R234). -/
  | rpInt (P L D : Nat)
  /-- `RP.LONG` (30 R133, 42 R235). -/
  | rpLong (P L D : Nat)
  /-- `RP.LITERAL` (30 R134, 42 R237). -/
  | rpLiteral (P : Nat)
  /-- `RP.EOF` (30 R135, 42 R238). -/
  | rpEof (P : Nat)
  /-- `BT.LEAF` (30 R141, 44 R305). -/
  | btLeaf (b : Byte)
  /-- `BT.NODE` (30 R141, 44 R306). -/
  | btNode (b : Byte)
  /-- `BT.ESC`: the clue, then the escaped byte (30 R141, 44 R307). -/
  | btEsc (c e : Byte)
  /-- `BT.END`: the clue, then 0 (30 R141, 44 R308). -/
  | btEnd (c : Byte)
  /-- `HR.LIT` (30 R147, 45 R399). -/
  | hrLit (s : Byte)
  /-- `HR.RUN` (30 R147, 45 R400). -/
  | hrRun (k : Nat)
  /-- `HR.ESC` (30 R147, 45 R401). -/
  | hrEsc (b : Byte)
  /-- `HR.EOF` (30 R147, 45 R402). -/
  | hrEof
  /-- `LZ.LIT` (30 R153, 46 R432). -/
  | lzLit (s : Byte)
  /-- `LZ.MATCHS`, length 4 to 11 (30 R153, 46 R433). -/
  | lzMatchS (L D : Nat)
  /-- `LZ.MATCHX`, length 12 to 521 (30 R153, R154, 46 R434). -/
  | lzMatchX (L D : Nat)
  /-- `LZ.RECALC` with the new group widths (30 R151, R153, 46 R438). -/
  | lzRecalc (t : List Nat)
  /-- `LZ.EOF` (30 R153, 46 R439). -/
  | lzEof
  deriving DecidableEq, Repr

/-- The Huffman table of one stream (10_state.md R43): `bl` holds the number of codes of length 1, 2, …, `maxlen`, and
`syms` the symbols in canonical order. -/
structure HrTab where
  /-- The clue symbol. -/
  clue : Byte
  /-- The longest code length in use. -/
  maxlen : Nat
  /-- The per-length counts, length 1 first. -/
  bl : List Nat
  /-- The symbols in canonical order. -/
  syms : List Byte
  deriving DecidableEq, Repr

/-- The group tables of the LightZhl coder (10_state.md R45). -/
structure LzTab where
  /-- The symbols by descending count. -/
  order : List Nat
  /-- The in-group index widths. -/
  nbits : List Nat
  /-- The sorted position of the first symbol of each group. -/
  base : List Nat
  deriving DecidableEq, Repr

/-- A format with the tables its words are read by (30 R120): `HOSTOP`; the RefPack commands; the BinaryTree items
under a clue and a node table; the Huffman items under a code; the LightZhl symbols under the group tables and
`LZ_BUF_BITS`. -/
inductive Format where
  | hostop
  | rp
  | bt (clue : Byte) (isNode : Sparse Bool)
  | hr (t : HrTab)
  | lz (bufBits : Nat) (t : LzTab)
  deriving DecidableEq, Repr

end Sys2Proof
end

