-- ==== Sys2Proof/Machine/Tables.lean ====
section
/-! DEFINITION. The code tables read as codes: the canonical Huffman code of 45 R375, and the group code of 46 R444,
R445 with the constant tables of 30 R154, R155. -/

namespace Sys2Proof

/-! ## The canonical Huffman code (45 R375, R398) -/

namespace HrTab

/-- The length and the code of the symbol at canonical position `m`: lengths are tried upward, `first` is the first
code of the length and `idx` the position of its first symbol (45 R375, R398). -/
def codeAt (m : Nat) : List Nat → (len first idx : Nat) → Option (Nat × Nat)
  | [], _, _, _ => none
  | c :: cs, len, first, idx =>
    if m < idx + c then some (len, first + (m - idx))
    else codeAt m cs (len + 1) ((first + c) * 2) (idx + c)

/-- The code of symbol `s` under the table, if it has one: (length, code). -/
def codeOf (t : HrTab) (s : Byte) : Option (Nat × Nat) :=
  if t.syms.contains s then codeAt (t.syms.idxOf s) t.bl 1 0 0 else none

/-- The weighted length sum `Σ bl[l]·2^(maxlen−l)` (45 R396), `maxlen` the number of entries. -/
def kraft : List Nat → Nat
  | [] => 0
  | c :: cs => c * 2 ^ cs.length + kraft cs

/-- What a table read by 45 R396, R397 satisfies. -/
def valid (t : HrTab) : Bool :=
  decide (1 ≤ t.maxlen) && decide (t.maxlen ≤ Config.hrMaxBits) && decide (t.bl.length = t.maxlen) &&
    decide (t.bl.sum = t.syms.length) && decide (t.syms.Nodup) && decide (kraft t.bl ≤ 2 ^ t.maxlen) &&
    t.syms.contains t.clue

end HrTab

/-! ## The group code (46 R440 to R445) -/

/-- `base[0] = 0`, `base[g+1] = base[g] + 2^nbits[g]` (46 R444). -/
def lzBaseFrom (b : Nat) : List Nat → List Nat
  | [] => []
  | w :: ws => b :: lzBaseFrom (b + 2 ^ w) ws

/-- The `base` table of the group widths (46 R444). -/
def lzBase (nbits : List Nat) : List Nat := lzBaseFrom 0 nbits

/-- The order at the start of a call: `order[p] = 273 − p` (46 R440). -/
def lzInitOrder : List Nat := (List.range Config.lzNsym).map (fun p => 273 - p)

namespace LzTab

/-- `nbits[g]`. -/
def width (t : LzTab) (g : Nat) : Nat := t.nbits.getD g 0

/-- `base[g]`. -/
def start (t : LzTab) (g : Nat) : Nat := t.base.getD g 0

/-- The largest group of `0 … g` whose range starts at or before position `p` (46 R445). -/
def groupOf (t : LzTab) (p : Nat) : Nat → Nat
  | 0 => 0
  | g + 1 => if t.start (g + 1) ≤ p then g + 1 else groupOf t p g

/-- The group and the in-group index of symbol `s`, if the widths reach its position (46 R442, R445). -/
def codeOf (t : LzTab) (s : Nat) : Option (Nat × Nat) :=
  let p := t.order.idxOf s
  let g := t.groupOf p 15
  if p < t.order.length ∧ p - t.start g < 2 ^ t.width g then some (g, p - t.start g) else none

/-- What the group tables of a running decode satisfy: a permutation of the alphabet, sixteen widths of at most 12
bits, the bases of the widths (46 R440, R442, R444). -/
def valid (t : LzTab) : Bool :=
  decide (t.order.length = Config.lzNsym) && decide (t.order.Nodup) &&
    t.order.all (fun s => decide (s < Config.lzNsym)) && decide (t.nbits.length = Config.lzGroups) &&
    t.nbits.all (fun w => decide (w ≤ Config.lzMaxWidth)) && decide (t.base = lzBase t.nbits)

end LzTab

/-- `XBASE[k] = 6 + 2^k` (30 R154). -/
def lzXBase (k : Nat) : Nat := 6 + 2 ^ k

/-- The largest `k` of `1 … k` whose base is at most the excess `e` (46 R451). -/
def lzExtraClass (e : Nat) : Nat → Nat
  | 0 => 1
  | k + 1 => if lzXBase (k + 1) ≤ e then k + 1 else lzExtraClass e k

/-- `DNB[p]` (30 R155). -/
def lzDnb (p : Nat) : Nat := p - 1

/-- `DBASE[p]` (30 R155). -/
def lzDbase (p : Nat) : Nat := if p = 0 then 0 else 2 ^ (p - 1)

/-- `bitlen(m)`: the number of bits of `m`, 0 for 0 (00_scope.md R13). -/
def bitlen (m : Nat) : Nat := if m = 0 then 0 else Nat.log2 m + 1

/-- The prefix `p` of displacement `D` (46 R451). -/
def lzDispClass (bufBits D : Nat) : Nat := bitlen (D / 2 ^ (bufBits - 7))

end Sys2Proof
end

