-- ==== Sys2Proof/WellFormed.lean ====
section
/-! DEFINITION. Which instructions a format can encode: every operand within the range its encoding gives it
(30_encoding.md R131 to R136, R141, R146, R147, R151 to R155), under the tables the format carries. -/

namespace Sys2Proof

/-- The byte value `b` is a dictionary node (10_state.md R41). -/
def isNodeByte (isNode : Sparse Bool) (b : Byte) : Bool := isNode.getD false b.toNat

/-- RefPack commands: the operand ranges of 30 R136. -/
def wellFormedRp : Instr → Bool
  | .rpShort P L D => decide (P ≤ 3) && decide (3 ≤ L) && decide (L ≤ 10) && decide (1 ≤ D) && decide (D ≤ 1024)
  | .rpInt P L D => decide (P ≤ 3) && decide (4 ≤ L) && decide (L ≤ 67) && decide (1 ≤ D) && decide (D ≤ 16384)
  | .rpLong P L D => decide (P ≤ 3) && decide (5 ≤ L) && decide (L ≤ 1028) && decide (1 ≤ D) && decide (D ≤ 131072)
  | .rpLiteral P => decide (4 ≤ P) && decide (P ≤ 112) && decide (P % 4 = 0)
  | .rpEof P => decide (P ≤ 3)
  | _ => false

/-- BinaryTree items: the classes of 30 R141 under the clue and the node table. -/
def wellFormedBt (clue : Byte) (isNode : Sparse Bool) : Instr → Bool
  | .btLeaf b => decide (b ≠ clue) && !isNodeByte isNode b
  | .btNode b => decide (b ≠ clue) && isNodeByte isNode b
  | .btEsc c e => decide (c = clue) && decide (e ≠ 0)
  | .btEnd c => decide (c = clue)
  | _ => false

/-- Huffman items: the symbol has a code (30 R147); the run count is one the NUM code carries (R146). -/
def wellFormedHr (t : HrTab) : Instr → Bool
  | .hrLit s => decide (s ≠ t.clue) && (t.codeOf s).isSome
  | .hrRun k => decide (1 ≤ k) && decide (k ≤ 65534) && (t.codeOf t.clue).isSome
  | .hrEsc _ => (t.codeOf t.clue).isSome
  | .hrEof => (t.codeOf t.clue).isSome
  | _ => false

/-- LightZhl symbols: the symbol's position is within the groups' reach (46 R442), the displacement fits its field
(30 R155; 0 is encodable and is refused by the decoder, 46 R435), sixteen widths of at most 12 (30 R151). -/
def wellFormedLz (bufBits : Nat) (t : LzTab) : Instr → Bool
  | .lzLit s => (t.codeOf s.toNat).isSome
  | .lzMatchS L D =>
    decide (4 ≤ L) && decide (L ≤ 11) && decide (D < 2 ^ bufBits) && (t.codeOf (256 + (L - 4))).isSome
  | .lzMatchX L D =>
    decide (12 ≤ L) && decide (L ≤ 521) && decide (D < 2 ^ bufBits) &&
      (t.codeOf (263 + lzExtraClass (L - 4) 8)).isSome
  | .lzRecalc ws =>
    decide (ws.length = Config.lzGroups) && ws.all (fun w => decide (w ≤ Config.lzMaxWidth)) &&
      (t.codeOf Config.lzRecalcSym).isSome
  | .lzEof => (t.codeOf Config.lzEofSym).isSome
  | _ => false

/-- Host operations: every value of the two registers is one (30 R173, R172). -/
def wellFormedHostop : Instr → Bool
  | .about _ | .isValid _ | .extractSize _ | .encode _ | .decode _ => true
  | .hostopReserved5 _ | .hostopReserved6 _ | .hostopReserved7 _ => true
  | _ => false

/-- The instruction is one the format encodes. -/
def wellFormed (f : Format) (i : Instr) : Bool :=
  match f with
  | .hostop => wellFormedHostop i
  | .rp => wellFormedRp i
  | .bt clue isNode => wellFormedBt clue isNode i
  | .hr t => wellFormedHr t i
  | .lz bufBits t => wellFormedLz bufBits t i

end Sys2Proof
end

