-- ==== Sys2Proof/Decode.lean ====
section
/-! DEFINITION. From stream words to instructions: the bit reader of 41_bitio.md, the decoders of the five formats of
30_encoding.md (total, rejecting by name), the table blocks at the head of a Huffman or LightZhl stream, and the
encoder, written from the same encoding rules. -/

namespace Sys2Proof

/-! ## Why a word is rejected -/

/-- The causes a fetch can fail with (60 R505). -/
inductive Reject where
  /-- The stream ends inside the word (20 R84). -/
  | truncated
  /-- No code of the table (45 R398), or a sorted position of 274 or more (46 R445). -/
  | badCode
  /-- Sixteen leading zeros in a `NUM` (30 R146). -/
  | badNumber
  /-- An illegal table (45 R396, R397; 46 R444). -/
  | badTable
  deriving DecidableEq, Repr

/-! ## The bit reader (41 R217) -/

/-- The unread end of `SRC`: the bytes not yet fetched, how many have been fetched from it, and the bit accumulator
with its count of valid bits. -/
structure BitSrc where
  /-- The bytes from `sp` to the end of `SRC`. -/
  bytes : List Byte
  /-- The bytes fetched by this reader: what `sp` has advanced by. -/
  used : Nat
  /-- The accumulator. -/
  acc : Word
  /-- The number of fetched bits not yet consumed. -/
  nacc : Nat
  deriving DecidableEq, Repr

/-- A reading: a value and the reader after it, or a rejection with the reader as it stands and the LightZhl stage
(46 R449). -/
inductive Rd (α : Type) where
  | ok (a : α) (r : BitSrc)
  | err (e : Reject) (st : Stage) (r : BitSrc)
  deriving DecidableEq, Repr

/-- Read on with the value read. -/
def Rd.bind {α β : Type} (x : Rd α) (f : α → BitSrc → Rd β) : Rd β :=
  match x with
  | .ok a r => f a r
  | .err e st r => .err e st r

/-- The bits of the `n` low positions of `v`, most significant first (20 R88). -/
def natBits : Nat → Nat → List Bool
  | 0, _ => []
  | n + 1, v => v.testBit n :: natBits n v

/-- The bits of a byte, bit 7 first (20 R88). -/
def byteBits (b : Byte) : List Bool := natBits 8 b.toNat

/-- The bits of a byte string in stream order (20 R89). -/
def bytesBits : List Byte → List Bool
  | [] => []
  | b :: bs => byteBits b ++ bytesBits bs

/-- The bits the reader has not consumed, in stream order: what is left in the accumulator, then the unread bytes. -/
def BitSrc.bits (r : BitSrc) : List Bool := natBits r.nacc r.acc.toNat ++ bytesBits r.bytes

/-- Fetch bytes until the accumulator holds `nb` bits; none when the stream ends first (41 R217). -/
def refill (st : Stage) (nb : Nat) : List Byte → Nat → Word → Nat → Rd Unit
  | [], used, acc, nacc =>
    if nb ≤ nacc then .ok () ⟨[], used, acc, nacc⟩ else .err .truncated st ⟨[], used, acc, nacc⟩
  | b :: bs, used, acc, nacc =>
    if nb ≤ nacc then .ok () ⟨b :: bs, used, acc, nacc⟩
    else refill st nb bs (used + 1) ((acc <<< 8) ||| b.setWidth 32) (nacc + 8)

/-- The low `n` bits of an accumulator. -/
def lowBits (acc : Word) (n : Nat) : Word := acc &&& BitVec.ofNat 32 (2 ^ n - 1)

/-- `getbits(nb)` (41 R217): the next `nb` bits as a number, the first the most significant. -/
def getbits (st : Stage) (nb : Nat) (r : BitSrc) : Rd Nat :=
  (refill st nb r.bytes r.used r.acc r.nacc).bind fun _ r =>
    .ok (lowBits (r.acc >>> (r.nacc - nb)) nb).toNat
      { r with acc := lowBits r.acc (r.nacc - nb), nacc := r.nacc - nb }

/-- `fetch()` of one whole byte (42 R232). -/
def getByte (r : BitSrc) : Rd Byte :=
  match r.bytes with
  | [] => .err .truncated .none r
  | b :: bs => .ok b { r with bytes := bs, used := r.used + 1 }

/-! ## The NUM code (30 R146, 45 R395) -/

/-- Count zero bits up to the first 1; the sixteenth zero is refused. The last argument is how many zeros are still
allowed. -/
def countZeros (z : Nat) : Nat → BitSrc → Rd Nat
  | 0, r => (getbits .none 1 r).bind fun b r => if b = 0 then .err .badNumber .none r else .ok z r
  | k + 1, r => (getbits .none 1 r).bind fun b r => if b = 0 then countZeros (z + 1) k r else .ok z r

/-- Append `k` bits to the number `m`. -/
def appendBits (m : Nat) : Nat → BitSrc → Rd Nat
  | 0, r => .ok m r
  | k + 1, r => (getbits .none 1 r).bind fun b r => appendBits (m * 2 + b) k r

/-- `getnum()` (45 R395). -/
def getnum (r : BitSrc) : Rd Nat :=
  (countZeros 0 15 r).bind fun z r => (appendBits 1 z r).bind fun m r => .ok (m - 1) r

/-! ## Host operations (30 R173) -/

/-- `CODEC_SEL` values (10_state.md R26). -/
def Codec.ofSel (v : BitVec 2) : Codec :=
  match v.toNat with
  | 0 => .rp
  | 1 => .bt
  | 2 => .hr
  | _ => .lz

/-- The engine's number (10_state.md R26). -/
def Codec.sel : Codec → BitVec 2
  | .rp => 0
  | .bt => 1
  | .hr => 2
  | .lz => 3

/-- The operation the pair of host registers names (10_state.md R27). -/
def decodeHostop (codecSel : BitVec 2) (op : BitVec 3) : Instr :=
  let c := Codec.ofSel codecSel
  match op.toNat with
  | 0 => .about c
  | 1 => .isValid c
  | 2 => .extractSize c
  | 3 => .encode c
  | 4 => .decode c
  | 5 => .hostopReserved5 c
  | 6 => .hostopReserved6 c
  | _ => .hostopReserved7 c

/-! ## RefPack commands (30 R130 to R135) -/

/-- One RefPack command; its literal bytes stay in the stream. -/
def decodeRp (r : BitSrc) : Rd Instr :=
  (getByte r).bind fun b0 r =>
    let v0 := b0.toNat
    if v0 < 0x80 then
      (getByte r).bind fun b1 r =>
        .ok (.rpShort (v0 % 4) (v0 / 4 % 8 + 3) (v0 / 32 % 4 * 256 + b1.toNat + 1)) r
    else if v0 < 0xC0 then
      (getByte r).bind fun b1 r => (getByte r).bind fun b2 r =>
        .ok (.rpInt (b1.toNat / 64) (v0 % 64 + 4) (b1.toNat % 64 * 256 + b2.toNat + 1)) r
    else if v0 < 0xE0 then
      (getByte r).bind fun b1 r => (getByte r).bind fun b2 r => (getByte r).bind fun b3 r =>
        .ok (.rpLong (v0 % 4) (v0 / 4 % 4 * 256 + b3.toNat + 5)
          (v0 / 16 % 2 * 65536 + b1.toNat * 256 + b2.toNat + 1)) r
    else if v0 < 0xFC then .ok (.rpLiteral ((v0 % 32 + 1) * 4)) r
    else .ok (.rpEof (v0 % 4)) r

/-! ## BinaryTree items (30 R141, 44 R300) -/

/-- One BinaryTree item; the clue is tested first. -/
def decodeBt (clue : Byte) (isNode : Sparse Bool) (r : BitSrc) : Rd Instr :=
  (getByte r).bind fun b r =>
    if b = clue then (getByte r).bind fun e r => if e = 0 then .ok (.btEnd b) r else .ok (.btEsc b e) r
    else if isNodeByte isNode b then .ok (.btNode b) r
    else .ok (.btLeaf b) r

/-! ## Huffman items (30 R147, 45 R393, R398) -/

/-- `getsym()` bit by bit (45 R398): `c` the code read so far, `first` and `idx` those of the length tried next. -/
def getsymFrom (syms : List Byte) : List Nat → (c first idx : Nat) → BitSrc → Rd Byte
  | [], _, _, _, r => .err .badCode .none r
  | n :: ns, c, first, idx, r =>
    (getbits .none 1 r).bind fun b r =>
      let c := c * 2 + b
      if 0 < n ∧ first ≤ c ∧ c < first + n then .ok (syms.getD (idx + (c - first)) 0) r
      else getsymFrom syms ns c ((first + n) * 2) (idx + n) r

/-- `getsym()` (45 R398). -/
def getsym (t : HrTab) (r : BitSrc) : Rd Byte := getsymFrom t.syms t.bl 0 0 0 r

/-- One Huffman item (45 R393). -/
def decodeHr (t : HrTab) (r : BitSrc) : Rd Instr :=
  (getsym t r).bind fun s r =>
    if s ≠ t.clue then .ok (.hrLit s) r
    else (getnum r).bind fun k r =>
      if 1 ≤ k then .ok (.hrRun k) r
      else (getbits .none 1 r).bind fun b r =>
        if b = 1 then .ok .hrEof r
        else (getbits .none 8 r).bind fun e r => .ok (.hrEsc (BitVec.ofNat 8 e)) r

/-! ## LightZhl symbols (30 R150 to R155, 46 R444, R445) -/

/-- The two fields of a symbol's code, as (group, symbol) (46 R445). -/
def getCode (t : LzTab) (r : BitSrc) : Rd (Nat × Nat) :=
  (getbits .symbol 4 r).bind fun g r => (getbits .symbol (t.width g) r).bind fun i r =>
    if Config.lzNsym ≤ t.start g + i then .err .badCode .symbol r
    else .ok (g, t.order.getD (t.start g + i) 0) r

/-- The displacement field (46 R435); whether the distance is valid is the command's own check. -/
def getDisp (bufBits : Nat) (r : BitSrc) : Rd Nat :=
  (getbits .disp 3 r).bind fun p r => (getbits .disp (lzDnb p + (bufBits - 7)) r).bind fun v r =>
    .ok (lzDbase p * 2 ^ (bufBits - 7) + v) r

/-- `k` group widths, each refused above 12 as it is read (46 R444). -/
def getWidths : Nat → BitSrc → Rd (List Nat)
  | 0, r => .ok [] r
  | k + 1, r =>
    (getbits .table 4 r).bind fun w r =>
      if Config.lzMaxWidth < w then .err .badTable .table r
      else (getWidths k r).bind fun ws r => .ok (w :: ws) r

/-- The fields that follow symbol `s` (30 R153). -/
def lzFields (bufBits : Nat) (s : Nat) (r : BitSrc) : Rd Instr :=
  if s < 256 then .ok (.lzLit (BitVec.ofNat 8 s)) r
  else if s < 264 then (getDisp bufBits r).bind fun d r => .ok (.lzMatchS (s - 256 + 4) d) r
  else if s < 272 then
    (getbits .extra (s - 263) r).bind fun x r => (getDisp bufBits r).bind fun d r =>
      .ok (.lzMatchX (lzXBase (s - 263) + x + 4) d) r
  else if s = Config.lzRecalcSym then (getWidths Config.lzGroups r).bind fun ws r => .ok (.lzRecalc ws) r
  else .ok .lzEof r

/-- One LightZhl symbol with its fields. -/
def decodeLz (bufBits : Nat) (t : LzTab) (r : BitSrc) : Rd Instr :=
  (getCode t r).bind fun gs r => lzFields bufBits gs.2 r

/-! ## The decoder -/

/-- Decode one word of the format at the reader. -/
def decode (f : Format) (r : BitSrc) : Rd Instr :=
  match f with
  | .hostop =>
    (getbits .none 5 r).bind fun w r => .ok (decodeHostop (BitVec.ofNat 2 (w / 8)) (BitVec.ofNat 3 w)) r
  | .rp => decodeRp r
  | .bt clue isNode => decodeBt clue isNode r
  | .hr t => decodeHr t r
  | .lz bufBits t => decodeLz bufBits t r

/-! ## The table blocks -/

/-- `k` numbers of the bit-count table (45 R396). -/
def getNums : Nat → BitSrc → Rd (List Nat)
  | 0, r => .ok [] r
  | k + 1, r => (getnum r).bind fun v r => (getNums k r).bind fun vs r => .ok (v :: vs) r

/-- Walk `k` unassigned values upward from `t`, cyclically, and give the last (45 R397). The first argument bounds
the walk: 256 steps meet every value. -/
def leapTo (assigned : Sparse Bool) : Nat → (k t : Nat) → Nat
  | 0, _, t => t
  | f + 1, k, t =>
    let t := (t + 1) % 256
    if assigned.getD false t then leapTo assigned f k t
    else if k ≤ 1 then t
    else leapTo assigned f (k - 1) t

/-- The leapfrog bookkeeping (10_state.md R43): the symbols read so far in reverse order, which values are assigned,
the cursor. -/
structure Leap where
  /-- The symbols read, last first. -/
  symsRev : List Byte
  /-- `assigned[v]`. -/
  assigned : Sparse Bool
  /-- `cur`. -/
  cur : Nat
  deriving DecidableEq, Repr

/-- Nothing assigned, cursor 255 (45 R397). -/
def Leap.init : Leap := ⟨[], [], 255⟩

/-- `k` skips of the leapfrog order (45 R397). -/
def getLeaps : Nat → Leap → BitSrc → Rd Leap
  | 0, l, r => .ok l r
  | k + 1, l, r =>
    (getnum r).bind fun v r =>
      if 256 - l.symsRev.length < v + 1 then .err .badTable .none r
      else
        let t := leapTo l.assigned 256 (v + 1) l.cur
        getLeaps k ⟨BitVec.ofNat 8 t :: l.symsRev, l.assigned.setD false t true, t⟩ r

/-- The table at the head of a Huffman stream: clue, `maxlen`, the counts, the leapfrog order (30 R145, 45 R396,
R397), with the final bookkeeping. -/
def getHrTab (r : BitSrc) : Rd (HrTab × Leap) :=
  (getbits .none 8 r).bind fun clue r => (getbits .none 4 r).bind fun maxlen r =>
    if maxlen = 0 then .err .badTable .none r
    else (getNums maxlen r).bind fun bl r =>
      if bl.sum = 0 ∨ 256 < bl.sum ∨ 2 ^ maxlen < HrTab.kraft bl then .err .badTable .none r
      else (getLeaps bl.sum Leap.init r).bind fun l r =>
        if l.assigned.getD false clue then .ok (⟨BitVec.ofNat 8 clue, maxlen, bl, l.symsRev.reverse⟩, l) r
        else .err .badTable .none r

/-- The `TABLE` block of a LightZhl stream (30 R151, 46 R444). -/
def getLzTab (r : BitSrc) : Rd (List Nat) := getWidths Config.lzGroups r

/-! ## The encoder -/

/-- A number as a byte; used on values below 256. -/
def toByte (v : Nat) : Byte := BitVec.ofNat 8 v

/-- `OP` of a host operation (10_state.md R27) with its engine; none for a stream command. -/
def hostopOf : Instr → Option (Codec × BitVec 3)
  | .about c => some (c, 0)
  | .isValid c => some (c, 1)
  | .extractSize c => some (c, 2)
  | .encode c => some (c, 3)
  | .decode c => some (c, 4)
  | .hostopReserved5 c => some (c, 5)
  | .hostopReserved6 c => some (c, 6)
  | .hostopReserved7 c => some (c, 7)
  | _ => none

/-- The command bytes of a RefPack command (30 R131 to R135; 43 R272 to R275). -/
def encodeRp : Instr → List Byte
  | .rpShort P L D => [toByte ((D - 1) / 256 * 32 + (L - 3) * 4 + P), toByte (D - 1)]
  | .rpInt P L D => [toByte (0x80 + (L - 4)), toByte (P * 64 + (D - 1) / 256), toByte (D - 1)]
  | .rpLong P L D =>
    [toByte (0xC0 + (D - 1) / 65536 * 16 + (L - 5) / 256 * 4 + P), toByte ((D - 1) / 256), toByte (D - 1),
      toByte (L - 5)]
  | .rpLiteral P => [toByte (0xE0 + P / 4 - 1)]
  | .rpEof P => [toByte (Config.rpEofBase + P)]
  | _ => []

/-- The bytes of a BinaryTree item (30 R141). -/
def encodeBt : Instr → List Byte
  | .btLeaf b => [b]
  | .btNode b => [b]
  | .btEsc c e => [c, e]
  | .btEnd c => [c, 0]
  | _ => []

/-- `NUM(v)`: `t − 1` zeros, then `v + 1` in `t` bits (30 R146). -/
def numBits (v : Nat) : List Bool :=
  List.replicate (bitlen (v + 1) - 1) false ++ natBits (bitlen (v + 1)) (v + 1)

/-- The code of a symbol as bits. -/
def hrCodeBits (t : HrTab) (s : Byte) : List Bool :=
  match t.codeOf s with
  | some (len, code) => natBits len code
  | none => []

/-- The bits of a Huffman item (30 R147). -/
def encodeHr (t : HrTab) : Instr → List Bool
  | .hrLit s => hrCodeBits t s
  | .hrRun k => hrCodeBits t t.clue ++ numBits k
  | .hrEsc b => hrCodeBits t t.clue ++ numBits 0 ++ [false] ++ byteBits b
  | .hrEof => hrCodeBits t t.clue ++ numBits 0 ++ [true]
  | _ => []

/-- The code of a LightZhl symbol as bits (46 R445). -/
def lzCodeBits (t : LzTab) (s : Nat) : List Bool :=
  match t.codeOf s with
  | some (g, i) => natBits 4 g ++ natBits (t.width g) i
  | none => []

/-- The displacement field as bits (46 R451). -/
def dispBits (bufBits D : Nat) : List Bool :=
  let p := lzDispClass bufBits D
  natBits 3 p ++ natBits (lzDnb p + (bufBits - 7)) (D - lzDbase p * 2 ^ (bufBits - 7))

/-- Group widths as bits (30 R151). -/
def widthsBits : List Nat → List Bool
  | [] => []
  | w :: ws => natBits 4 w ++ widthsBits ws

/-- The bits of a LightZhl symbol with its fields (30 R150 to R155). -/
def encodeLz (bufBits : Nat) (t : LzTab) : Instr → List Bool
  | .lzLit s => lzCodeBits t s.toNat
  | .lzMatchS L D => lzCodeBits t (256 + (L - 4)) ++ dispBits bufBits D
  | .lzMatchX L D =>
    let k := lzExtraClass (L - 4) 8
    lzCodeBits t (263 + k) ++ natBits k (L - 4 - lzXBase k) ++ dispBits bufBits D
  | .lzRecalc ws => lzCodeBits t Config.lzRecalcSym ++ widthsBits ws
  | .lzEof => lzCodeBits t Config.lzEofSym
  | _ => []

/-- The bits of an instruction in its format; the literal bytes of a RefPack command are not part of them. -/
def encode (f : Format) (i : Instr) : List Bool :=
  match f with
  | .hostop =>
    match hostopOf i with
    | some (c, op) => natBits 2 c.sel.toNat ++ natBits 3 op.toNat
    | none => []
  | .rp => bytesBits (encodeRp i)
  | .bt _ _ => bytesBits (encodeBt i)
  | .hr t => encodeHr t i
  | .lz bufBits t => encodeLz bufBits t i

/-! ## Words of opcode_table.json -/

/-- The bytes of an `n`-byte table word, first byte first: the table numbers a row's bits as ONE big-endian number,
bit 0 the least significant bit of the LAST byte (log 11). -/
def tableBytes : Nat → Nat → List Byte
  | 0, _ => []
  | n + 1, w => toByte (w / 256 ^ n) :: tableBytes n w

/-- The format a table word of `nbits` bits is read in (log 11): words of at most 8 bits below 32 are `HOSTOP` words;
other 8-bit words from 0xE0 are RefPack commands, below that BinaryTree leaves; 16-bit words with bit 15 set are
BinaryTree items whose first byte is the clue; every other word is a RefPack command. -/
def tableFormat (nbits w : Nat) : Format :=
  if nbits ≤ 8 then
    if w < 32 then .hostop else if 0xE0 ≤ w then .rp else .bt 0 []
  else if nbits = 16 ∧ 0x8000 ≤ w then .bt (toByte (w / 256)) []
  else .rp

/-- The longest instruction in bytes, its literal bytes included: `RP.LITERAL` with 112 of them (30 R134). -/
def maxInstrBytes : Nat := 113

/-- The bytes of a table word as they stand in `SRC`: the word, then zeros. -/
def tableStream (nbits w : Nat) : List Byte :=
  tableBytes ((nbits + 7) / 8) w ++ List.replicate maxInstrBytes 0

/-- The instruction the decoder reads from a table word; none where it rejects the word. -/
def decodeTableWord (nbits w : Nat) : Option Instr :=
  match tableFormat nbits w with
  | .hostop => some (decodeHostop (BitVec.ofNat 2 (w / 8)) (BitVec.ofNat 3 w))
  | f =>
    match decode f ⟨tableStream nbits w, 0, 0, 0⟩ with
    | .ok i _ => some i
    | .err _ _ _ => none

end Sys2Proof
end

