-- ==== Sys2Proof/Machine/Memory.lean ====
section
/-! DEFINITION. The byte memories: `SRC`, `DST` and the circular buffer (20_memory.md R80, 10_state.md R45), each a
list of `Host.Cell` in the canonical form of Machine/Sparse.lean. -/

namespace Sys2Proof

/-- A byte memory: (address, byte) pairs, addresses strictly rising, no byte equal to `Memory.unlisted`. -/
abbrev Memory := List Host.Cell

namespace Memory

/-- What an unlisted address reads as. DESIGN CHOICE (log 1, unsafe): the contents of `SRC` and `DST` after
power-on reset are unspecified (70 R541), and so are scratch entries never written (70 R542). -/
def unlisted : Byte := 0

/-- Read one byte; no read has a side effect (20_memory.md R91). -/
def read (m : Memory) (a : Nat) : Byte := Sparse.getD m unlisted a

/-- Write one byte (20_memory.md R90). -/
def write (m : Memory) (a : Nat) (b : Byte) : Memory := Sparse.setD m unlisted a b

/-- The canonical form. -/
def wf (m : Memory) : Bool := Sparse.canonical unlisted m

/-- The `n` bytes from address `a` upward. -/
def bytesFrom (m : Memory) (a : Nat) : Nat → List Byte
  | 0 => []
  | n + 1 => read m a :: bytesFrom m (a + 1) n

/-- Write a list of bytes from address `a` upward, in ascending address order. -/
def writeList (m : Memory) (a : Nat) : List Byte → Memory
  | [] => m
  | b :: bs => writeList (write m a b) (a + 1) bs

/-- The memory that holds the bytes from address 0 and nothing else. -/
def ofBytes (bs : List Byte) : Memory := writeList [] 0 bs

end Memory

end Sys2Proof
end

