-- ==== Sys2Proof/Machine/State.lean ====
section
/-! DEFINITION. The machine's state as plain data (10_state.md): host interface registers, configuration,
descriptors, open parameters, the memories `SRC` and `DST`, and the per-call context of the four engines. -/

namespace Sys2Proof.Machine

/-! ## Outcome registers (10_state.md R28, R29) -/

/-- `STATUS`: OSM's three failure classes and success (R28). -/
inductive Status where
  | ok
  | formatInvalid
  | malformed
  | unsupported
  deriving DecidableEq, Repr

/-- `CAUSE` (R29, 60 R505). -/
inductive Cause where
  | none
  | badMagic
  | truncated
  | badDistance
  | outputOverrun
  | lengthMismatch
  | badTable
  | stackOverflow
  | badCode
  | badNumber
  | badRun
  | noDirection
  | lengthUnrepresentable
  | noNativeHeader
  | badOp
  | badConfig
  deriving DecidableEq, Repr

/-- `DIAG`, the diagnostic record (R35). -/
structure Diag where
  /-- `DIAG.sp`. -/
  sp : Word
  /-- `DIAG.dp`. -/
  dp : Word
  /-- `DIAG.stage`. -/
  stage : Stage
  /-- `DIAG.acc`. -/
  acc : Word
  /-- `DIAG.nacc`. -/
  nacc : BitVec 6
  /-- `DIAG.wp`. -/
  wp : Word
  /-- `DIAG.group`. -/
  group : BitVec 4
  /-- `DIAG.symbol`. -/
  symbol : BitVec 9
  deriving DecidableEq, Repr

/-- All members zero (R35: after a success; 70 R541: after reset). -/
def Diag.zero : Diag := ⟨0, 0, .none, 0, 0, 0, 0, 0⟩

/-! ## Configuration and descriptors (10_state.md R31 to R34) -/

/-- `CFG` (R33). -/
structure Cfg where
  /-- `RP_QUICK`. -/
  rpQuick : Bool
  /-- `HR_DELTA_PASSES`. -/
  hrDeltaPasses : BitVec 2
  /-- `LZ_HASH_SEL`: false = `fast`, true = `slow`. -/
  lzHashSel : Bool
  /-- `BT_PAIRS_PER_PASS`. -/
  btPairsPerPass : BitVec 16
  /-- `BT_THRESHOLD`. -/
  btThreshold : Word
  /-- `BT_MAX_PASSES`. -/
  btMaxPasses : BitVec 16
  deriving DecidableEq, Repr

/-- The reset values of `CFG` (70 R541). -/
def Cfg.reset : Cfg := ⟨false, 0, false, 1, 3, 256⟩

/-- A codec descriptor (R31). -/
structure Descriptor where
  /-- `SIG`: four ASCII characters, the first in the top byte. -/
  sig : Word
  /-- `CAN_ENCODE`. -/
  canEncode : Bool
  /-- `CAN_DECODE`. -/
  canDecode : Bool
  /-- `SIZE32`. -/
  size32 : Bool
  /-- `VERSION`. -/
  version : Word
  /-- `SHORT_NAME`. -/
  shortName : List Byte
  /-- `LONG_NAME`. -/
  longName : List Byte
  deriving DecidableEq, Repr

/-- The descriptors of the four engines. -/
structure Descriptors where
  /-- RefPack. -/
  rp : Descriptor
  /-- BinaryTree. -/
  bt : Descriptor
  /-- Huffman-with-Runlength. -/
  hr : Descriptor
  /-- LightZhl. -/
  lz : Descriptor
  deriving DecidableEq, Repr

/-- `DESC[c]`. -/
def Descriptors.of (d : Descriptors) : Codec → Descriptor
  | .rp => d.rp
  | .bt => d.bt
  | .hr => d.hr
  | .lz => d.lz

/-- The first `n` bytes of a byte sequence. -/
def bytesOf (f : Nat → Byte) (n : Nat) : List Byte := (List.range n).map f

/-- The descriptor of engine number `c`: signature, version and names are free values (log 3); both directions are
implemented (R32). -/
def Descriptor.free (c : Nat) (size32 : Bool) : Descriptor where
  sig := Config.descSig c
  canEncode := true
  canDecode := true
  size32 := size32
  version := Config.descVersion c
  shortName := bytesOf (Config.descShortByte c) (Config.descShortLen c).toNat
  longName := bytesOf (Config.descLongByte c) (Config.descLongLen c).toNat

/-- The descriptors of the block (R32: `SIZE32` is 1 for RP and HR). -/
def Descriptors.reset : Descriptors :=
  ⟨Descriptor.free 0 true, Descriptor.free 1 false, Descriptor.free 2 true, Descriptor.free 3 false⟩

/-! ## The per-call context (10_state.md R37 to R45) -/

/-- RefPack decoder registers (R38). -/
structure RpDec where
  /-- First command byte. -/
  b0 : Byte
  /-- Second command byte. -/
  b1 : Byte
  /-- Third command byte. -/
  b2 : Byte
  /-- Fourth command byte. -/
  b3 : Byte
  /-- Literal count of the command. -/
  P : Nat
  /-- Copy length. -/
  L : Nat
  /-- Distance. -/
  D : Nat
  deriving DecidableEq, Repr

/-- RefPack encoder state (R39). -/
structure RpEnc where
  /-- Current input position. -/
  cp : Nat
  /-- Length of the literal run. -/
  run : Nat
  /-- `head[h]`: the most recent position of hash `h`; unlisted = `NONE`. -/
  head : Sparse Nat
  /-- `link[i]`: the older position chained behind position `i` modulo the table size; unlisted = `NONE`. -/
  link : Sparse Nat
  /-- Best length of the search. -/
  bL : Nat
  /-- Cost of the best match. -/
  bC : Nat
  /-- Distance of the best match. -/
  bD : Nat
  deriving DecidableEq, Repr

/-- BinaryTree decoder state (R41); `stk` is the length of `stack`. -/
structure BtDec where
  /-- The escape byte. -/
  clue : Byte
  /-- The number of triples. -/
  count : Byte
  /-- `is_node[v]`. -/
  isNode : Sparse Bool
  /-- `left[v]`. -/
  left : Memory
  /-- `right[v]`. -/
  right : Memory
  /-- The expansion stack, top first. -/
  stack : List Byte
  deriving DecidableEq, Repr

/-- BinaryTree encoder state (R42). -/
structure BtEnc where
  /-- The current buffer. -/
  buf : List Byte
  /-- `freq[v]`. -/
  freq : Sparse Nat
  /-- Values not used yet. -/
  free : List Byte
  /-- The chosen escape byte. -/
  clue : Byte
  /-- `pair[a][b]` at index `256·a + b`. -/
  pair : Sparse Nat
  /-- The merges, in creation order: (node, left, right). -/
  nodes : List (Byte × Byte × Byte)
  /-- Merge passes done. -/
  passes : Nat
  deriving DecidableEq, Repr

/-- Huffman-with-Runlength state (R43). -/
structure HrCtx where
  /-- `clue`, `maxlen`, `bl`, `syms`. -/
  tab : HrTab
  /-- Delta filter passes. -/
  passes : Nat
  /-- `cnt[s]`. -/
  cnt : Sparse Nat
  /-- `len[s]`, 0 = no code. -/
  len : Sparse Nat
  /-- `code[s]`. -/
  code : Sparse Nat
  /-- `assigned[v]`. -/
  assigned : Sparse Bool
  /-- Leapfrog cursor. -/
  cur : Nat
  /-- The input after delta filtering. -/
  data : List Byte
  deriving DecidableEq, Repr

/-- LightZhl state (R45, and the last symbol decoded, R35). -/
structure LzCtx where
  /-- The circular buffer. -/
  cbuf : Memory
  /-- Logical write cursor. -/
  wp : Nat
  /-- `stat[s]`. -/
  stat : Sparse Nat
  /-- `order`, `nbits`, `base`. -/
  tab : LzTab
  /-- The group of the last symbol decoded. -/
  group : Nat
  /-- The last symbol decoded. -/
  symbol : Nat
  /-- Symbols emitted since the last table. -/
  nsym : Nat
  /-- `lzhead[h]`; unlisted = `NONE`. -/
  lzhead : Sparse Nat
  /-- `lzlink[i]`; unlisted = `NONE`. -/
  lzlink : Sparse Nat
  /-- Current input position of the encoder. -/
  pos : Nat
  /-- Pending literals. -/
  nraw : Nat
  deriving DecidableEq, Repr

/-- The context of one call: the working registers of R37 and the state of each engine. -/
structure Ctx where
  /-- Source cursor, the program counter (R24). -/
  sp : Nat
  /-- Destination cursor (R25). -/
  dp : Nat
  /-- Header magic. -/
  magic : BitVec 16
  /-- Declared uncompressed length. -/
  ulen : Nat
  /-- Bit accumulator. -/
  acc : Word
  /-- Valid bits in `acc`. -/
  nacc : Nat
  /-- Input length. -/
  n : Nat
  /-- RefPack decoder. -/
  rp : RpDec
  /-- RefPack encoder. -/
  rpEnc : RpEnc
  /-- BinaryTree decoder. -/
  bt : BtDec
  /-- BinaryTree encoder. -/
  btEnc : BtEnc
  /-- Huffman-with-Runlength, decoder and encoder. -/
  hr : HrCtx
  /-- LightZhl, decoder and encoder. -/
  lz : LzCtx
  deriving DecidableEq, Repr

/-- The fresh context of a call on `n` input bytes (70 R542). -/
def Ctx.fresh (n : Nat) : Ctx where
  sp := 0
  dp := 0
  magic := 0
  ulen := 0
  acc := 0
  nacc := 0
  n := n
  rp := ⟨0, 0, 0, 0, 0, 0, 0⟩
  rpEnc := ⟨0, 0, [], [], 0, 0, 0⟩
  bt := ⟨0, 0, [], [], [], []⟩
  btEnc := ⟨[], [], [], 0, [], [], 0⟩
  hr := ⟨⟨0, 0, [], []⟩, 0, [], [], [], [], 255, []⟩
  lz := ⟨[], 0, [], ⟨lzInitOrder, [], []⟩, 0, 0, 0, [], [], 0, 0⟩

/-! ## The state -/

/-- The machine. -/
structure State where
  /-- `CODEC_SEL` (R26). -/
  codecSel : BitVec 2
  /-- `OP` (R27). -/
  op : BitVec 3
  /-- `START` (R23). -/
  start : Bool
  /-- `BUSY` (R23). -/
  busy : Bool
  /-- `DONE` (R23). -/
  done : Bool
  /-- `STATUS` (R28). -/
  status : Status
  /-- `CAUSE` (R29). -/
  cause : Cause
  /-- `RESULT` (R30). -/
  result : Word
  /-- `SRC_LEN` (R23). -/
  srcLen : Word
  /-- `DST_LEN` (R23). -/
  dstLen : Word
  /-- `OUT_LIMIT` (R23, 46 R431). -/
  outLimit : Word
  /-- `CFG` (R33). -/
  cfg : Cfg
  /-- `DIAG` (R35). -/
  diag : Diag
  /-- The codec descriptors (R31). -/
  desc : Descriptors
  /-- The open parameters of this instance (00_scope.md R9). -/
  params : Params
  /-- `SRC` (20 R80). -/
  src : Memory
  /-- `DST` (20 R80). -/
  dst : Memory
  /-- The per-call context (R21, R22). -/
  ctx : Ctx
  /-- The model's own counter of free values (log 2). -/
  freeCount : Nat
  deriving DecidableEq, Repr

/-- Where the machine stops: moves no source defines, and states no run reaches. -/
inductive Fault where
  /-- `START` is 1 while `BUSY` is 1: raised by every host operation. The host must not write it then (20 R101,
  70 R557, 93 U1: stuck). Safe: nothing is proved of such a machine (log 8). -/
  | startWhileBusy
  /-- `BUSY` is 1 and the running operation is no `DECODE`: raised by `step`. Every other operation ends within its own
  step, so no run reaches such a state. Safe (log 9). -/
  | busyWithoutDecode
  /-- The host writes a register or `SRC` while `BUSY` is 1: raised by `hostWrite` (70 R557, 93 U1: stuck). Safe
  (log 8). -/
  | hostWriteWhileBusy
  /-- The host reads `DST` while `BUSY` is 1, before `DONE`, or after a failure: raised by `hostReadDst` (70 R557,
  93 U2, U3). Safe (log 8). -/
  | hostReadRefused
  deriving DecidableEq, Repr

/-- Where an instruction has no meaning. -/
inductive Refusal where
  /-- The instruction has no meaning in this model yet: raised by `exec` alone. Safe. -/
  | notModelled (mnemonic : String)
  /-- A stream command executed where no `DECODE` of its engine runs: there is no stream to take it from. Raised by
  the meanings of the stream commands. `step` never executes one so. Safe (log 9). -/
  | noDecodeRunning
  deriving DecidableEq, Repr

/-- Power-on reset of an instance with the descriptors `d` and the open parameters `p` (70 R541; 10_state.md R32 and
00_scope.md R9 make both parameters of the model). -/
def State.resetWith (d : Descriptors) (p : Params) : State where
  codecSel := 0
  op := 0
  start := false
  busy := false
  done := false
  status := .ok
  cause := .none
  result := 0
  srcLen := 0
  dstLen := 0
  outLimit := BitVec.ofNat 32 p.maxLen
  cfg := Cfg.reset
  diag := Diag.zero
  desc := d
  params := p
  src := []
  dst := []
  ctx := Ctx.fresh 0
  freeCount := 0

/-- Power-on reset of the instance the spec gives: the descriptors of R32, the defaults of R9. -/
def State.reset : State := State.resetWith Descriptors.reset Params.default

/-- The three outcomes of a step, with the machine's own reasons. -/
abbrev Outcome := Host.Outcome State Fault Refusal

end Sys2Proof.Machine
end

