-- ==== Sys2Proof/Machine/Flags.lean ====
section
/-! DEFINITION. The block has no condition codes, carry or overflow (10_state.md R36); its only status is the outcome
of an operation. Here stand the numbers and classes of the outcome registers (R28, R29, R35; 60 R505). -/

namespace Sys2Proof.Machine

/-- The number of a `STATUS` value (R28). -/
def Status.code : Status → BitVec 2
  | .ok => 0
  | .formatInvalid => 1
  | .malformed => 2
  | .unsupported => 3

/-- The number of a `CAUSE` value (R29). -/
def Cause.code : Cause → BitVec 4
  | .none => 0
  | .badMagic => 1
  | .truncated => 2
  | .badDistance => 3
  | .outputOverrun => 4
  | .lengthMismatch => 5
  | .badTable => 6
  | .stackOverflow => 7
  | .badCode => 8
  | .badNumber => 9
  | .badRun => 10
  | .noDirection => 11
  | .lengthUnrepresentable => 12
  | .noNativeHeader => 13
  | .badOp => 14
  | .badConfig => 15

/-- The class of each cause (60 R505). -/
def Cause.status : Cause → Status
  | .none => .ok
  | .badMagic => .formatInvalid
  | .truncated | .badDistance | .outputOverrun | .lengthMismatch | .badTable => .malformed
  | .stackOverflow | .badCode | .badNumber | .badRun => .malformed
  | .noDirection | .lengthUnrepresentable | .noNativeHeader | .badOp | .badConfig => .unsupported

/-- The number of a `DIAG.stage` value (R35). -/
def stageCode : Stage → BitVec 3
  | .none => 0
  | .table => 1
  | .symbol => 2
  | .extra => 3
  | .disp => 4
  | .copy => 5

/-- The cause a rejected word raises (60 R505). -/
def Cause.ofReject : Reject → Cause
  | .truncated => .truncated
  | .badCode => .badCode
  | .badNumber => .badNumber
  | .badTable => .badTable

end Sys2Proof.Machine
end

