-- ==== Sys2Proof/Machine/Ops.lean ====
section
/-! DEFINITION. The shared operations: starting an operation, raising a failure, ending with success, and the byte
transfers the commands are written in (40 R180, 60 R504, 42 R232, R236, 46 R431, R437). -/

namespace Sys2Proof.Machine

/-! ## The reader of the running stream -/

/-- The bytes of `SRC` not yet fetched. -/
def State.rest (s : State) : List Byte := Memory.bytesFrom s.src s.ctx.sp (s.srcLen.toNat - s.ctx.sp)

/-- The stream at its present position, for the bit reader (41 R217; 10_state.md R24). -/
def State.reader (s : State) : BitSrc := ⟨s.rest, 0, s.ctx.acc, s.ctx.nacc⟩

/-- The state after the reader `r`, which started from `s.reader`, has fetched its bytes. -/
def State.setReader (s : State) (r : BitSrc) : State :=
  { s with ctx := { s.ctx with sp := s.ctx.sp + r.used, acc := r.acc, nacc := r.nacc } }

/-! ## Start and end of an operation -/

/-- What `START` does before the operation's own rule runs (40 R180): the registers cleared, a fresh context (70 R542).
The operation's word IS the pair of host registers (30 R173), so executing it leaves the pair there (log 20). -/
def beginOp (c : Codec) (op : BitVec 3) (s : State) : State :=
  { s with
    codecSel := c.sel
    op := op
    start := false
    busy := true
    done := false
    status := .ok
    cause := .none
    result := 0
    dstLen := 0
    diag := Diag.zero
    ctx := Ctx.fresh s.srcLen.toNat }

/-- `raise` (60 R504): the one way a failure is reported. The status is the cause's class (60 R505); the context is
discarded. -/
def raise (c : Cause) (d : Diag) (s : State) : State :=
  { s with
    status := c.status
    cause := c
    diag := d
    dstLen := 0
    result := 0
    busy := false
    done := true
    ctx := Ctx.fresh 0 }

/-- `DIAG` of every engine: the cursors at the failing check (10_state.md R35). -/
def diagHere (s : State) : Diag :=
  { Diag.zero with sp := BitVec.ofNat 32 s.ctx.sp, dp := BitVec.ofNat 32 s.ctx.dp }

/-- `DIAG` of a failing LightZhl decode (10_state.md R35, 46 R449). -/
def diagLz (st : Stage) (s : State) : Diag where
  sp := BitVec.ofNat 32 s.ctx.sp
  dp := BitVec.ofNat 32 s.ctx.dp
  stage := st
  acc := s.ctx.acc
  nacc := BitVec.ofNat 6 s.ctx.nacc
  wp := BitVec.ofNat 32 s.ctx.lz.wp
  group := BitVec.ofNat 4 s.ctx.lz.group
  symbol := BitVec.ofNat 9 s.ctx.lz.symbol

/-- "No partial output": after a failed `ENCODE` or `DECODE` the contents of `DST` are unspecified (60 R510): a free
value (log 2). -/
def withdrawDst (s : State) : State :=
  { s with dst := Memory.ofBytes (Config.freeDst s.freeCount), freeCount := s.freeCount + 1 }

/-- A failure of `IS_VALID`, `EXTRACT_SIZE` or a reserved operation, which write no memory (20 R81, 30 R172). -/
def refuse (c : Cause) (s : State) : State := raise c (diagHere s) s

/-- A failure of `ENCODE` or `DECODE`. -/
def fail (c : Cause) (s : State) : State := raise c (diagHere s) (withdrawDst s)

/-- A failure of a LightZhl `DECODE`. -/
def failLz (c : Cause) (st : Stage) (s : State) : State := raise c (diagLz st s) (withdrawDst s)

/-- The successful end of `ENCODE`, `DECODE` and `ABOUT`: `DST_LEN <- dp; STATUS <- OK` (10_state.md R25, 40 R180). -/
def finish (s : State) : State :=
  { s with
    status := .ok
    dstLen := BitVec.ofNat 32 s.ctx.dp
    busy := false
    done := true
    ctx := Ctx.fresh 0 }

/-- The successful end of `IS_VALID` and `EXTRACT_SIZE` (10_state.md R30). -/
def finishResult (v : Nat) (s : State) : State :=
  { s with
    status := .ok
    result := BitVec.ofNat 32 v
    busy := false
    done := true
    ctx := Ctx.fresh 0 }

/-! ## Sequencing -/

/-- How a piece of an operation ends: the operation goes on, or it has ended (with success or failure, nothing of it
executes any more: 60 R504). -/
inductive Flow where
  | cont (s : State)
  | ended (s : State)

/-- Go on unless the operation has ended. -/
def Flow.andThen (f : Flow) (k : State → Flow) : Flow :=
  match f with
  | .cont s => k s
  | .ended s => .ended s

/-- The state of either end. -/
def Flow.state : Flow → State
  | .cont s => s
  | .ended s => s

/-- Either way the machine has a next state. -/
def Flow.outcome (f : Flow) : Outcome := .next f.state

/-- A host operation (40 R180): started while `BUSY = 1` it has no defined outcome (20 R101, 70 R557). -/
def hostOp (c : Codec) (op : BitVec 3) (s : State) (f : State → Flow) : Outcome :=
  if s.busy then .fault .startWhileBusy else (f (beginOp c op s)).outcome

/-- A `DECODE` of engine `c` is running. -/
def State.decoding (c : Codec) (s : State) : Bool :=
  s.busy && decide (s.codecSel = c.sel) && decide (s.op = 4)

/-- A stream command belongs to a running `DECODE` of its engine (00_scope.md R10). -/
def streamOp (c : Codec) (s : State) (f : State → Flow) : Outcome :=
  if s.decoding c then (f s).outcome else .refused .noDecodeRunning

/-! ## Output -/

/-- `DST[dp] <- b; dp <- dp + 1`, with no bound: an encoder's `emit` (20 R82). -/
def emitRaw (b : Byte) (s : State) : State :=
  { s with dst := s.dst.write s.ctx.dp b, ctx := { s.ctx with dp := s.ctx.dp + 1 } }

/-- Emit a list of bytes. -/
def emitAll : List Byte → State → State
  | [], s => s
  | b :: bs, s => emitAll bs (emitRaw b s)

/-- `emit(b)` in a decode of a headed stream (20 R86). -/
def emit (b : Byte) (s : State) : Flow :=
  if s.ctx.dp < s.ctx.ulen then .cont (emitRaw b s) else .ended (fail .outputOverrun s)

/-- A byte emitted by the LightZhl decoder: into the circular buffer and into `DST` (46 R431). -/
def lzEmitRaw (b : Byte) (s : State) : State :=
  { s with
    dst := s.dst.write s.ctx.dp b
    ctx := { s.ctx with
      dp := s.ctx.dp + 1
      lz := { s.ctx.lz with
        cbuf := s.ctx.lz.cbuf.write (s.ctx.lz.wp % s.params.lzSize) b
        wp := s.ctx.lz.wp + 1 } } }

/-- `emit(b)` of the LightZhl decoder (46 R431). -/
def lzEmit (b : Byte) (s : State) : Flow :=
  if s.ctx.dp < s.outLimit.toNat then .cont (lzEmitRaw b s) else .ended (failLz .outputOverrun .copy s)

/-! ## Transfers -/

/-- `fetch()` (42 R232): one stream byte, then go on with it. -/
def fetchByte (s : State) (k : Byte → State → Flow) : Flow :=
  if s.ctx.sp < s.srcLen.toNat then
    k (s.src.read s.ctx.sp) { s with ctx := { s.ctx with sp := s.ctx.sp + 1 } }
  else .ended (fail .truncated s)

/-- `lits(P)` (42 R232): each byte fetched before it is emitted. -/
def lits : Nat → State → Flow
  | 0, s => .cont s
  | n + 1, s => fetchByte s fun b s => (emit b s).andThen (lits n)

/-- The loop of `copy(L, D)`, byte by byte in write order (20 R92, 42 R236). -/
def copyLoop (D : Nat) : Nat → State → Flow
  | 0, s => .cont s
  | n + 1, s => (emit (s.dst.read (s.ctx.dp - D)) s).andThen (copyLoop D n)

/-- `copy(L, D)` (42 R236): the distance is checked once, before the first byte. -/
def copy (L D : Nat) (s : State) : Flow :=
  if s.ctx.dp < D then .ended (fail .badDistance s) else copyLoop D L s

/-- `k` times the byte `b` (45 R400). -/
def emitRun (b : Byte) : Nat → State → Flow
  | 0, s => .cont s
  | n + 1, s => (emit b s).andThen (emitRun b n)

/-- The loop of the LightZhl copy, through the circular buffer (46 R437). -/
def lzCopy (D : Nat) : Nat → State → Flow
  | 0, s => .cont s
  | n + 1, s =>
    (lzEmit (s.ctx.lz.cbuf.read ((s.ctx.lz.wp - D) % s.params.lzSize)) s).andThen (lzCopy D n)

/-- The end-of-stream check of a headed stream: `dp ≠ ulen` is the last failure (20 R86, 60 R509). -/
def endHeaded (s : State) (k : State → Flow) : Flow :=
  if s.ctx.dp = s.ctx.ulen then k s else .ended (fail .lengthMismatch s)

end Sys2Proof.Machine
end

