-- ==== Sys2Proof/Machine/Operands.lean ====
section
/-! DEFINITION. Operand forms shared by the operations: big-endian fields (41 R210, R211), the native header (30 R121 to
R128), and the bit writer (41 R213, R216). -/

namespace Sys2Proof.Machine

/-! ## Big-endian fields -/

/-- The value of `k` bytes at `a`, most significant first (20 R89, 41 R210). -/
def beVal (m : Memory) (a : Nat) : Nat → Nat
  | 0 => 0
  | k + 1 => (m.read a).toNat * 256 ^ k + beVal m (a + 1) k

/-- `get_be(k)` at `a` of a buffer of `len` bytes; none when the field runs past the end (41 R210). -/
def getBe (m : Memory) (len a k : Nat) : Option Nat := if a + k ≤ len then some (beVal m a k) else none

/-- `put_be(k, v)` (41 R211). -/
def putBe : Nat → Nat → List Byte
  | 0, _ => []
  | k + 1, v => toByte (v / 256 ^ k) :: putBe k v

/-! ## The native header (format HDR) -/

/-- `MAGICS[c]` (30 R122, R124, R126); LightZhl has none (R127). -/
def magics : Codec → List Nat
  | .rp => [0x10FB, 0x11FB, 0x90FB, 0x91FB]
  | .bt => [0x46FB, 0x47FB]
  | .hr => [0x30FB, 0x31FB, 0x32FB, 0x33FB, 0x34FB, 0x35FB, 0xB0FB, 0xB1FB, 0xB2FB, 0xB3FB, 0xB4FB, 0xB5FB]
  | .lz => []

/-- A parsed header: the magic, the declared length, where the body starts. -/
structure Header where
  /-- `magic`. -/
  magic : Nat
  /-- `ulen`. -/
  ulen : Nat
  /-- `sp` after the header. -/
  bodyAt : Nat
  deriving DecidableEq, Repr

/-- `W`, the width of the length field: magic bit 15 (30 R121). -/
def lengthWidth (magic : Nat) : Nat := if magic.testBit 15 then 4 else 3

/-- The bytes the skip field takes: none without magic bit 8; `W` for RP and HR, 3 for BT (30 R121, R123, R124). -/
def skipWidth (c : Codec) (magic : Nat) : Nat :=
  if magic.testBit 8 then
    match c with
    | .bt => 3
    | _ => lengthWidth magic
  else 0

/-- The header parse (30 R121) with the bound on the declared length (40 R183, log 23): the failing cause with `sp` as
it stands at the check (60 R504). -/
def parseHeader (c : Codec) (m : Memory) (len maxLen : Nat) : Except (Cause × Nat) Header :=
  if len < 2 then .error (.badMagic, 0)
  else
    let magic := beVal m 0 2
    if magic ∉ magics c then .error (.badMagic, 2)
    else
      let at2 := 2 + skipWidth c magic
      if len < at2 then .error (.truncated, 2)
      else
        match getBe m len at2 (lengthWidth magic) with
        | none => .error (.truncated, at2)
        | some ulen =>
          if maxLen < ulen then .error (.lengthMismatch, at2 + lengthWidth magic)
          else .ok ⟨magic, ulen, at2 + lengthWidth magic⟩

/-- The header of the running operation. -/
def State.header (c : Codec) (s : State) : Except (Cause × Nat) Header :=
  parseHeader c s.src s.srcLen.toNat s.params.maxLen

/-- Parse the header in a `DECODE`: its registers written, or the failure raised with `sp` at the failing field. -/
def readHeader (c : Codec) (s : State) (k : State → Flow) : Flow :=
  match s.header c with
  | .error (cause, sp) => .ended (fail cause { s with ctx := { s.ctx with sp := sp } })
  | .ok h => k { s with ctx := { s.ctx with sp := h.bodyAt, magic := BitVec.ofNat 16 h.magic, ulen := h.ulen } }

/-! ## The bit writer (41 R213, R216) -/

/-- The accumulator, its count of valid bits, and the bytes emitted so far. -/
structure BitSink where
  /-- `acc`. -/
  acc : Word
  /-- `nacc`. -/
  nacc : Nat
  /-- The bytes emitted, in order. -/
  out : List Byte
  deriving DecidableEq, Repr

/-- Emit the oldest eight bits while at least eight are held (41 R213); the first argument bounds the loop by the
accumulator's four bytes. -/
def drain (acc : Word) : Nat → Nat → List Byte → BitSink
  | 0, nacc, out => ⟨lowBits acc nacc, nacc, out⟩
  | f + 1, nacc, out =>
    if 8 ≤ nacc then drain acc f (nacc - 8) (out ++ [(acc >>> (nacc - 8)).setWidth 8])
    else ⟨lowBits acc nacc, nacc, out⟩

/-- `putbits(nb, v)` (41 R213). -/
def BitSink.put (w : BitSink) (nb v : Nat) : BitSink :=
  drain ((w.acc <<< nb) ||| BitVec.ofNat 32 v) 4 (w.nacc + nb) w.out

/-- `flushbits()` (41 R216). -/
def BitSink.flush (w : BitSink) : BitSink := if 0 < w.nacc then w.put (8 - w.nacc) 0 else w

/-- `write NUM(v)` (45 R350, 30 R146). -/
def BitSink.putNum (w : BitSink) (v : Nat) : BitSink :=
  (w.put (bitlen (v + 1) - 1) 0).put (bitlen (v + 1)) (v + 1)

/-! ## The input of an encoder -/

/-- The `n` bytes of an input from position `a` upward. -/
def bytesAt (src : Nat → Byte) (a : Nat) : Nat → List Byte
  | 0 => []
  | n + 1 => src a :: bytesAt src (a + 1) n

/-- How many of the next `limit` bytes at `q` and at `p` agree (43 R264, 46 R455). -/
def matchLen (src : Nat → Byte) : (limit q p : Nat) → Nat
  | 0, _, _ => 0
  | k + 1, q, p => if src q = src p then matchLen src k (q + 1) (p + 1) + 1 else 0

end Sys2Proof.Machine
end

