-- ==== Sys2Proof/Machine/BinaryTree.lean ====
section
/-! DEFINITION. The BinaryTree decoder: the start of its `DECODE`, the items, the explicit-stack expansion (44 R300 to
R313). -/

namespace Sys2Proof.Machine

/-! ## The start of a decode -/

/-- One triple in the node tables (44 R304). -/
def setBtNode (nd l r : Byte) (s : State) : State :=
  { s with ctx := { s.ctx with bt := { s.ctx.bt with
      isNode := s.ctx.bt.isNode.setD false nd.toNat true
      left := s.ctx.bt.left.write nd.toNat l
      right := s.ctx.bt.right.write nd.toNat r } } }

/-- `load_table()` (44 R304): a triple is fetched whole, then checked. -/
def loadTriples : Nat → State → Flow
  | 0, s => .cont s
  | k + 1, s =>
    fetchByte s fun nd s => fetchByte s fun l s => fetchByte s fun r s =>
      if nd = s.ctx.bt.clue ∨ isNodeByte s.ctx.bt.isNode nd then .ended (fail .badTable s)
      else loadTriples k (setBtNode nd l r s)

/-- The clue and the node count of a stream in their registers (10_state.md R41). -/
def setBtHead (clue count : Byte) (s : State) : State :=
  { s with ctx := { s.ctx with bt := { s.ctx.bt with clue := clue, count := count, isNode := [] } } }

/-- `BT_DECODE` up to its loop: header, clue, count, node tables (44 R300). -/
def decodeBtOp (s : State) : Flow :=
  readHeader .bt s fun s => fetchByte s fun clue s => fetchByte s fun count s =>
    loadTriples count.toNat (setBtHead clue count s)

/-! ## The items -/

/-- `BT.LEAF` (44 R305). -/
def execBtLeaf (b : Byte) (s : State) : Outcome := streamOp .bt s (emit b)

/-- The stack of the expansion, top first. -/
def setBtStack (st : List Byte) (s : State) : State :=
  { s with ctx := { s.ctx with bt := { s.ctx.bt with stack := st } } }

/-- The loop of `expand` (44 R309): pop a value; a node pushes its right and then its left child, a leaf is emitted.
The first argument bounds the loop by the measure of 70 R556. -/
def btExpand : Nat → State → Flow
  | 0, s => .cont s
  | f + 1, s =>
    match s.ctx.bt.stack with
    | [] => .cont s
    | v :: st =>
      if isNodeByte s.ctx.bt.isNode v then
        if s.params.btStackDepth < st.length + 2 then .ended (fail .stackOverflow (setBtStack st s))
        else btExpand f (setBtStack (s.ctx.bt.left.read v.toNat :: s.ctx.bt.right.read v.toNat :: st) s)
      else (emit v (setBtStack st s)).andThen (btExpand f)

/-- A bound on the pops of one expansion (70 R556): each pop of a node deepens the stack by one, each pop of a leaf
emits one byte. -/
def btExpandBound (s : State) : Nat := 2 * (s.ctx.ulen - s.ctx.dp) + s.params.btStackDepth + 2

/-- `expand(nd)` (44 R309). -/
def btExpandNode (nd : Byte) (s : State) : Flow := btExpand (btExpandBound s) (setBtStack [nd] s)

/-- `BT.NODE` (44 R306). -/
def execBtNode (b : Byte) (s : State) : Outcome := streamOp .bt s (btExpandNode b)

/-- `BT.ESC`: the escaped byte as it is (44 R307); the clue `_c` was the escape. -/
def execBtEsc (_c e : Byte) (s : State) : Outcome := streamOp .bt s (emit e)

/-- `BT.END` (44 R308). -/
def execBtEnd (_c : Byte) (s : State) : Outcome :=
  streamOp .bt s fun s => endHeaded s fun s => .ended (finish s)

end Sys2Proof.Machine
end

