-- ==== Sys2Proof/Machine/BinaryTreeEnc.lean ====
section
/-! DEFINITION. The BinaryTree encoder: the greedy byte-pair dictionary builder (44 R320 to R331). -/

namespace Sys2Proof.Machine

/-- Add one to a counter table. -/
def bump (t : Sparse Nat) (i : Nat) : Sparse Nat := t.setD 0 i (t.getD 0 i + 1)

/-- `freq[v]` of a byte string (44 R320). -/
def btFreq : List Byte → Sparse Nat → Sparse Nat
  | [], f => f
  | b :: bs, f => btFreq bs (bump f b.toNat)

/-- All byte values, ascending. -/
def allBytes : List Byte := (List.range 256).map toByte

/-- The unused values, ascending (44 R320). -/
def btUnused (f : Sparse Nat) : List Byte := allBytes.filter fun v => f.getD 0 v.toNat = 0

/-- The value of the list with the smallest count, the first of equals; `d` for the empty list. -/
def leastFrequent (f : Sparse Nat) (d : Byte) : List Byte → Byte
  | [] => d
  | v :: vs => if f.getD 0 v.toNat < f.getD 0 d.toNat then leastFrequent f v vs else leastFrequent f d vs

/-- The clue and the values left free (44 R322): the smallest unused value, else the least frequent of 1 … 255. -/
def btClue (f : Sparse Nat) : Byte × List Byte :=
  match btUnused f with
  | c :: free => (c, free)
  | [] => (leastFrequent f 1 (allBytes.drop 2), [])

/-- `pair[a][b]` of the buffer, every adjacent position counted, none that holds the clue (44 R324). -/
def btPairs (clue : Byte) : List Byte → Sparse Nat → Sparse Nat
  | a :: b :: t, m =>
    btPairs clue (b :: t) (if a ≠ clue ∧ b ≠ clue then bump m (256 * a.toNat + b.toNat) else m)
  | _, m => m

/-- The candidates in order: descending count, then ascending first and second byte (44 R325). The table lists its
entries by ascending pair, and the insertion sort keeps that order among equals. -/
def btCandidates (threshold : Nat) (m : Sparse Nat) : List (Nat × Nat) :=
  (m.filter fun e => threshold < e.2).insertionSort fun x y => y.2 ≤ x.2

/-- A pair table index as its two bytes. -/
def pairOf (i : Nat) : Byte × Byte := (toByte (i / 256), toByte i)

/-- The selected pairs with their join bytes: the first `k` candidates, the smallest free values (44 R320). -/
def btSelect (k : Nat) (cand : List (Nat × Nat)) (free : List Byte) : List ((Byte × Byte) × Byte) :=
  ((cand.take k).map fun e => pairOf e.1).zip (free.take k)

/-- The join byte of a pair, if it was selected. -/
def joinOf (sel : List ((Byte × Byte) × Byte)) (a b : Byte) : Option Byte :=
  (sel.find? fun e => decide (e.1 = (a, b))).map Prod.snd

/-- `JoinNodes(buf, sel)`: one linear rewrite, leftmost first, a matched pair consuming both bytes (44 R326). -/
def joinNodes (sel : List ((Byte × Byte) × Byte)) : List Byte → List Byte
  | a :: b :: t =>
    match joinOf sel a b with
    | some j => j :: joinNodes sel t
    | none => a :: joinNodes sel (b :: t)
  | l => l

/-- The passes (44 R320): the first argument counts down `BT_MAX_PASSES`. -/
def btPasses (perPass threshold : Nat) : Nat → BtEnc → BtEnc
  | 0, e => e
  | k + 1, e =>
    if e.free = [] then e
    else
      let pair := btPairs e.clue e.buf []
      let cand := btCandidates threshold pair
      let e := { e with passes := e.passes + 1, pair := pair }
      if cand = [] then e
      else
        let m := min perPass (min e.free.length cand.length)
        let sel := btSelect m cand e.free
        btPasses perPass threshold k
          { e with
            free := e.free.drop m
            nodes := e.nodes ++ sel.map fun x => (x.2, x.1.1, x.1.2)
            buf := joinNodes sel e.buf }

/-- The encoder state before the first pass (44 R320, R322). -/
def btStart (input : List Byte) : BtEnc :=
  let f := btFreq input []
  let (clue, free) := btClue f
  { buf := input, freq := f, free := free, clue := clue, pair := [], nodes := [], passes := 0 }

/-- The rewritten stream: an occurrence of the clue is escaped (44 R330). -/
def btBody (clue : Byte) : List Byte → List Byte
  | [] => []
  | b :: bs => if b = clue then clue :: b :: btBody clue bs else b :: btBody clue bs

/-- The triples (30 R140). -/
def btTriples : List (Byte × Byte × Byte) → List Byte
  | [] => []
  | (j, a, b) :: ns => j :: a :: b :: btTriples ns

/-- The output (44 R330). -/
def btOutput (n : Nat) (e : BtEnc) : List Byte :=
  putBe 2 0x46FB ++ putBe 3 n ++ [e.clue, toByte e.nodes.length] ++ btTriples e.nodes ++ btBody e.clue e.buf ++
    [e.clue, 0]

/-- `BT_ENCODE` after its checks (44 R320). -/
def btEncode (perPass threshold maxPasses : Nat) (input : List Byte) : BtEnc × List Byte :=
  let e := btPasses perPass threshold maxPasses (btStart input)
  (e, btOutput input.length e)

/-- `ENCODE` on the BinaryTree engine with the refusals of 44 R321, in the order that rule lists them (log 22). -/
def encodeBtOp (s : State) : Flow :=
  if 2 ^ 24 ≤ s.ctx.n then .ended (fail .lengthUnrepresentable s)
  else if s.cfg.btPairsPerPass = 0 then .ended (fail .badConfig s)
  else
    let (e, out) := btEncode s.cfg.btPairsPerPass.toNat s.cfg.btThreshold.toNat s.cfg.btMaxPasses.toNat
      (Memory.bytesFrom s.src 0 s.ctx.n)
    .ended (finish (emitAll out { s with ctx := { s.ctx with btEnc := e } }))

end Sys2Proof.Machine
end

