-- ==== Sys2Proof/Machine/Huffman.lean ====
section
/-! DEFINITION. The Huffman-with-Runlength decoder: the start of its `DECODE`, the items, the inverse delta filter (45
R353, R393 to R406). -/

namespace Sys2Proof.Machine

/-! ## The start of a decode -/

/-- `passes <- magic[10:9]` (45 R394). -/
def passesOf (magic : BitVec 16) : Nat := magic.toNat / 512 % 4

/-- The table of a stream in its registers, with the leapfrog bookkeeping (10_state.md R43). -/
def setHrTab (t : HrTab) (l : Leap) (s : State) : State :=
  { s with ctx := { s.ctx with hr := { s.ctx.hr with
      tab := t, passes := passesOf s.ctx.magic, assigned := l.assigned, cur := l.cur } } }

/-- `HR_DECODE` up to its loop: header, clue, table (45 R393, R396, R397). -/
def decodeHrOp (s : State) : Flow :=
  readHeader .hr s fun s =>
    match getHrTab s.reader with
    | .ok tl r => .cont (setHrTab tl.1 tl.2 (s.setReader r))
    | .err e _ r => .ended (fail (Cause.ofReject e) (s.setReader r))

/-! ## The items -/

/-- `HR.LIT` (45 R399). -/
def execHrLit (b : Byte) (s : State) : Outcome := streamOp .hr s (emit b)

/-- `run(k)` (45 R400): the last byte output, `k` times. -/
def hrRunOp (k : Nat) (s : State) : Flow :=
  if s.ctx.dp = 0 then .ended (fail .badRun s) else emitRun (s.dst.read (s.ctx.dp - 1)) k s

/-- `HR.RUN` (45 R400). -/
def execHrRun (k : Nat) (s : State) : Outcome := streamOp .hr s (hrRunOp k)

/-- `HR.ESC` (45 R401). -/
def execHrEsc (b : Byte) (s : State) : Outcome := streamOp .hr s (emit b)

/-! ## The end of a stream -/

/-- `delta_inverse` of a byte string whose byte before the first is `prev` (45 R353). -/
def undeltaFrom (prev : Byte) : List Byte → List Byte
  | [] => []
  | b :: bs => (b + prev) :: undeltaFrom (b + prev) bs

/-- `delta_inverse` (45 R353). -/
def deltaInverse (x : List Byte) : List Byte := undeltaFrom 0 x

/-- `passes` applications of the inverse filter (45 R393). -/
def deltaUndo : Nat → List Byte → List Byte
  | 0, x => x
  | k + 1, x => deltaUndo k (deltaInverse x)

/-- The inverse filter on `DST[0 … ulen)` (45 R393). -/
def undoDelta (s : State) : State :=
  { s with dst := s.dst.writeList 0 (deltaUndo s.ctx.hr.passes (s.dst.bytesFrom 0 s.ctx.ulen)) }

/-- `HR.EOF` (45 R402, R393). -/
def execHrEof (s : State) : Outcome :=
  streamOp .hr s fun s => endHeaded s fun s => .ended (finish (undoDelta s))

end Sys2Proof.Machine
end

