-- ==== Sys2Proof/Machine/HuffmanEnc.lean ====
section
/-! DEFINITION. The Huffman-with-Runlength encoder: delta filter, code construction, tokens, bit stream (45 R350 to R384).
-/

namespace Sys2Proof.Machine

/-! ## Delta filter -/

/-- `delta_forward` of a byte string whose byte before the first is `prev` (45 R352). -/
def deltaFrom (prev : Byte) : List Byte → List Byte
  | [] => []
  | b :: bs => (b - prev) :: deltaFrom b bs

/-- `delta_forward` (45 R352). -/
def deltaForward (x : List Byte) : List Byte := deltaFrom 0 x

/-- `passes` applications of the filter (45 R350). -/
def deltaPasses : Nat → List Byte → List Byte
  | 0, x => x
  | k + 1, x => deltaPasses k (deltaForward x)

/-! ## Code lengths from counts -/

/-- A live entry of the merge (45 R370): its count, its index, the symbols under it. -/
structure HuffNode where
  /-- The count. -/
  count : Nat
  /-- The index: a symbol, or 256, 257, … in creation order. -/
  idx : Nat
  /-- The symbols under it. -/
  under : List Nat

/-- The (count, index) order of 45 R370. -/
def HuffNode.before (x y : HuffNode) : Bool :=
  decide (x.count < y.count) || (decide (x.count = y.count) && decide (x.idx < y.idx))

/-- The smallest entry of `m` and a list, and the others: an exhaustive scan (45 R370). -/
def takeMin (m : HuffNode) : List HuffNode → HuffNode × List HuffNode
  | [] => (m, [])
  | x :: xs =>
    if x.before m then
      let (b, r) := takeMin x xs
      (b, m :: r)
    else
      let (b, r) := takeMin m xs
      (b, x :: r)

/-- One more merge step for each symbol of a list. -/
def deepen (depth : Sparse Nat) : List Nat → Sparse Nat
  | [] => depth
  | s :: ss => deepen (depth.setD 0 s (depth.getD 0 s + 1)) ss

/-- The merge loop (45 R370): each step takes one entry off the live set, which the first argument counts. -/
def mergeLoop : Nat → (next : Nat) → List HuffNode → Sparse Nat → Sparse Nat
  | f + 1, next, x :: y :: t, depth =>
    let (a, rest) := takeMin x (y :: t)
    match rest with
    | [] => depth
    | z :: zs =>
      let (b, rest) := takeMin z zs
      mergeLoop f (next + 1) (⟨a.count + b.count, next, a.under ++ b.under⟩ :: rest)
        (deepen depth (a.under ++ b.under))
  | _, _, _, depth => depth

/-- The symbols with a count, ascending. -/
def liveSyms (cnt : Sparse Nat) : List Nat := (List.range 256).filter fun s => 0 < cnt.getD 0 s

/-- `depth[s]` (45 R370); a single live symbol has depth 1 (45 R371). -/
def huffDepths (cnt : Sparse Nat) : Sparse Nat :=
  match liveSyms cnt with
  | [s] => Sparse.setD [] 0 s 1
  | live => mergeLoop live.length 256 (live.map fun s => ⟨cnt.getD 0 s, s, [s]⟩) []

/-- The histogram `bl[l]`, indexed by `l` from 0 to 255 (45 R373). -/
def histogram (cnt depth : Sparse Nat) : List Nat :=
  (List.range 256).map fun l =>
    if l = 0 then 0 else ((liveSyms cnt).filter fun s => depth.getD 0 s = l).length

/-- `Lmax`: the largest index with a nonzero count, 0 if there is none (45 R373). -/
def lmax (bl : List Nat) : Nat :=
  ((List.range bl.length).filter fun l => 0 < bl.getD l 0).getLastD 0

/-- The length the chainsaw lengthens (45 R372), if one is eligible. -/
def chainsawPick (pick : ChainsawPick) (bl : List Nat) (top : Nat) : Option Nat :=
  let eligible := (List.range (top - 1)).filter fun l => 1 ≤ l ∧ 0 < bl.getD l 0
  match pick with
  | .shortest => eligible.head?
  | .longestBelow => eligible.getLast?

/-- One chainsaw step at `Lmax = top` and `j` (45 R372). -/
def chainsawStep (bl : List Nat) (top j : Nat) : List Nat :=
  let bl := bl.set top (bl.getD top 0 - 2)
  let bl := bl.set (top - 1) (bl.getD (top - 1) 0 + 1)
  let bl := bl.set j (bl.getD j 0 - 1)
  bl.set (j + 1) (bl.getD (j + 1) 0 + 2)

/-- The chainsaw (45 R372). Each step lowers `Σ l·bl[l]`, at most 255·256, which the first argument counts. -/
def chainsaw (pick : ChainsawPick) : Nat → List Nat → List Nat
  | 0, bl => bl
  | f + 1, bl =>
    let top := lmax bl
    if Config.hrMaxBits < top then
      match chainsawPick pick bl top with
      | some j => chainsaw pick f (chainsawStep bl top j)
      | none => bl
    else bl

/-- The per-length counts after the chainsaw, length 1 first, up to `maxlen` (45 R350, R372). -/
def codeCounts (pick : ChainsawPick) (cnt : Sparse Nat) : List Nat :=
  let bl := chainsaw pick 65280 (histogram cnt (huffDepths cnt))
  (bl.take (lmax bl + 1)).drop 1

/-- The live symbols by descending count, then descending index (45 R374). -/
def rankOrder (cnt : Sparse Nat) : List Nat :=
  (liveSyms cnt).insertionSort fun x y =>
    cnt.getD 0 y < cnt.getD 0 x ∨ (cnt.getD 0 x = cnt.getD 0 y ∧ y ≤ x)

/-- Hand out the lengths by rank (45 R374): pairs (length, symbol). -/
def lengthsByRank : List Nat → (len : Nat) → List Nat → List (Nat × Nat)
  | [], _, _ => []
  | c :: cs, len, syms => (syms.take c).map (fun s => (len, s)) ++ lengthsByRank cs (len + 1) (syms.drop c)

/-- The canonical order: ascending length, then ascending symbol (45 R375). -/
def canonicalOrder (lens : List (Nat × Nat)) : List (Nat × Nat) :=
  lens.insertionSort fun x y => x.1 < y.1 ∨ (x.1 = y.1 ∧ x.2 ≤ y.2)

/-- The canonical codes (45 R375): `prev` the length before, `next` the next code of it. -/
def assignCodes (prev next : Nat) : List (Nat × Nat) → Sparse Nat → Sparse Nat
  | [], t => t
  | (len, s) :: rest, t =>
    let code := next * 2 ^ (len - prev)
    assignCodes len (code + 1) rest (t.setD 0 s code)

/-- `len[s]` of a list of (length, symbol). -/
def lenTable : List (Nat × Nat) → Sparse Nat → Sparse Nat
  | [], t => t
  | (len, s) :: rest, t => lenTable rest (t.setD 0 s len)

/-! ## Leapfrog order -/

/-- The skip count from cursor `t` to symbol `s` (45 R377); the first argument bounds the walk. -/
def leapSkip (assigned : Sparse Bool) (s : Nat) : Nat → (t : Nat) → Nat
  | 0, _ => 0
  | f + 1, t =>
    let t := (t + 1) % 256
    if t = s then 0
    else (if assigned.getD false t then 0 else 1) + leapSkip assigned s f t

/-- The skips of the symbols in canonical order, with the final bookkeeping (45 R377). -/
def leapSkips : List Byte → Sparse Bool → (cur : Nat) → List Nat × Sparse Bool × Nat
  | [], assigned, cur => ([], assigned, cur)
  | s :: ss, assigned, cur =>
    let skip := leapSkip assigned s.toNat 256 cur
    let (more, assigned, cur) := leapSkips ss (assigned.setD false s.toNat true) s.toNat
    (skip :: more, assigned, cur)

/-! ## Tokens -/

/-- A token of 45 R380. -/
inductive HrTok where
  | lit (s : Byte)
  | esc (b : Byte)
  | run (r : Nat)
  deriving DecidableEq, Repr

/-- How many of the leading bytes equal `b`, up to `cap`. -/
def runLen (b : Byte) : (cap : Nat) → List Byte → Nat
  | k + 1, c :: cs => if c = b then runLen b k cs + 1 else 0
  | _, _ => 0

/-- `tokens(data, clue)` (45 R380); the first argument bounds the loop by the input's length. -/
def hrTokens (clue : Byte) (runMin : Nat) : Nat → List Byte → List HrTok
  | f + 1, b :: bs =>
    let tok := if b = clue then HrTok.esc b else HrTok.lit b
    let r := runLen b Config.hrRunCap bs
    if runMin ≤ r then tok :: .run r :: hrTokens clue runMin f (bs.drop r)
    else tok :: hrTokens clue runMin f bs
  | _, _ => []

/-- Counts of a byte string. -/
def countBytes : List Byte → Sparse Nat → Sparse Nat
  | [], t => t
  | b :: bs, t => countBytes bs (t.setD 0 b.toNat (t.getD 0 b.toNat + 1))

/-- The first value of `0 … 255` with the smallest count (45 R381): `best` the best so far, `v` the next to try. -/
def fewest (t : Sparse Nat) : (left v best : Nat) → Nat
  | 0, _, best => best
  | k + 1, v, best => fewest t k (v + 1) (if t.getD 0 v < t.getD 0 best then v else best)

/-- The clue (45 R381). -/
def hrClue (data : List Byte) : Byte := toByte (fewest (countBytes data []) 255 1 0)

/-- The symbol a token is counted under (45 R382). -/
def tokSym (clue : Byte) : HrTok → Byte
  | .lit s => s
  | .esc _ => clue
  | .run _ => clue

/-- `cnt[s]`: the tokens and the end item (45 R382). -/
def hrCounts (clue : Byte) (toks : List HrTok) : Sparse Nat :=
  countBytes (toks.map (tokSym clue) ++ [clue]) []

/-! ## The encode -/

/-- The encoder state with its code built from a filtered input (45 R350). -/
def hrBuild (passes runMin : Nat) (pick : ChainsawPick) (data : List Byte) : HrCtx :=
  let clue := hrClue data
  let cnt := hrCounts clue (hrTokens clue runMin data.length data)
  let bl := codeCounts pick cnt
  let order := canonicalOrder (lengthsByRank bl 1 (rankOrder cnt))
  let syms := order.map fun x => toByte x.2
  let (_, assigned, cur) := leapSkips syms [] 255
  { tab := ⟨clue, bl.length, bl, syms⟩
    passes := passes
    cnt := cnt
    len := lenTable order []
    code := assignCodes 0 0 order []
    assigned := assigned
    cur := cur
    data := data }

/-- Write a list of numbers in the `NUM` code. -/
def putNums : List Nat → BitSink → BitSink
  | [], w => w
  | v :: vs, w => putNums vs (w.putNum v)

/-- Write the code of a symbol (45 R383). -/
def hrPutCode (h : HrCtx) (s : Byte) (w : BitSink) : BitSink :=
  w.put (h.len.getD 0 s.toNat) (h.code.getD 0 s.toNat)

/-- Write one token (45 R383). -/
def hrPutTok (h : HrCtx) (w : BitSink) : HrTok → BitSink
  | .lit s => hrPutCode h s w
  | .run r => (hrPutCode h h.tab.clue w).putNum r
  | .esc b => (((hrPutCode h h.tab.clue w).putNum 0).put 1 0).put 8 b.toNat

/-- Write the tokens. -/
def hrPutToks (h : HrCtx) : List HrTok → BitSink → BitSink
  | [], w => w
  | t :: ts, w => hrPutToks h ts (hrPutTok h w t)

/-- The header (45 R350, 30 R128). -/
def hrHeaderBytes (passes n : Nat) : List Byte :=
  if n < 2 ^ 24 then putBe 2 (0x30FB + 0x0200 * passes) ++ putBe 3 n
  else putBe 2 (0x30FB + 0x0200 * passes + 0x8000) ++ putBe 4 n

/-- The body: clue, table, coded stream, end item (45 R350). -/
def hrBody (h : HrCtx) (runMin : Nat) (w : BitSink) : BitSink :=
  let w := (w.put 8 h.tab.clue.toNat).put 4 h.tab.maxlen
  let w := putNums h.tab.bl w
  let w := putNums (leapSkips h.tab.syms [] 255).1 w
  let w := hrPutToks h (hrTokens h.tab.clue runMin h.data.length h.data) w
  (((hrPutCode h h.tab.clue w).putNum 0).put 1 1).flush

/-- `HR_ENCODE` after its check (45 R350). -/
def hrEncode (passes runMin : Nat) (pick : ChainsawPick) (input : List Byte) : HrCtx × List Byte :=
  let h := hrBuild passes runMin pick (deltaPasses passes input)
  (h, (hrBody h runMin ⟨0, 0, hrHeaderBytes passes input.length⟩).out)

/-- `ENCODE` on the Huffman-with-Runlength engine (40 R184, 45 R350). -/
def encodeHrOp (s : State) : Flow :=
  if s.cfg.hrDeltaPasses = 3 then .ended (fail .badConfig s)
  else
    let (h, out) := hrEncode s.cfg.hrDeltaPasses.toNat s.params.hrRunMin s.params.hrChainsawPick
      (Memory.bytesFrom s.src 0 s.ctx.n)
    .ended (finish (emitAll out { s with ctx := { s.ctx with hr := h } }))

end Sys2Proof.Machine
end

