-- ==== Sys2Proof/Machine/LightZhlCoder.lean ====
section
/-! DEFINITION. The coder model the LightZhl encoder and decoder share: counts, aging, the sorted order (46 R440, R441,
R446). -/

namespace Sys2Proof.Machine

/-- The group widths an encoder may choose (46 R442). -/
abbrev groupWidthsLegal (ws : List Nat) : Prop :=
  ws.length = Config.lzGroups ∧ (∀ w ∈ ws, w ≤ Config.lzMaxWidth) ∧
    Config.lzNsym ≤ (ws.map fun w => 2 ^ w).sum

/-- One more occurrence of symbol `s` (46 R441). -/
def lzCount (stat : Sparse Nat) (s : Nat) : Sparse Nat := stat.setD 0 s (stat.getD 0 s + 1)

/-- Halve every count; a count that becomes 0 is the table's default and is not listed (46 R441, R446). -/
def lzAge : Sparse Nat → Sparse Nat
  | [] => []
  | (s, c) :: t => if c / 2 = 0 then lzAge t else (s, c / 2) :: lzAge t

/-- The symbols by descending count, then descending index (46 R440). -/
def lzSort (stat : Sparse Nat) : List Nat :=
  (((List.range Config.lzNsym).reverse.map fun s => (stat.getD 0 s, s)).insertionSort fun x y =>
    y.1 < x.1 ∨ (x.1 = y.1 ∧ y.2 ≤ x.2)).map Prod.snd

end Sys2Proof.Machine
end

