-- ==== Sys2Proof/Machine/LightZhl.lean ====
section
/-! DEFINITION. The LightZhl decoder: the start of its `DECODE` and the symbols (46 R430 to R439, R449). -/

namespace Sys2Proof.Machine

/-! ## Tables -/

/-- New group widths with their bases (46 R444). -/
def setLzWidths (ws : List Nat) (s : State) : State :=
  { s with ctx := { s.ctx with lz := { s.ctx.lz with
      tab := { s.ctx.lz.tab with nbits := ws, base := lzBase ws } } } }

/-- `LZ_DECODE` up to its loop: the first table (46 R430). -/
def decodeLzOp (s : State) : Flow :=
  match getLzTab s.reader with
  | .ok ws r => .cont (setLzWidths ws (s.setReader r))
  | .err e st r => .ended (failLz (Cause.ofReject e) st (s.setReader r))

/-! ## The symbols -/

/-- `LZ.LIT` (46 R432). -/
def execLzLit (b : Byte) (s : State) : Outcome := streamOp .lz s (lzEmit b)

/-- The end of `get_disp` and the copy (46 R435, R437). -/
def lzMatch (L D : Nat) (s : State) : Flow :=
  if D = 0 ∨ s.ctx.lz.wp < D then .ended (failLz .badDistance .disp s) else lzCopy D L s

/-- `LZ.MATCHS` (46 R433). -/
def execLzMatchS (L D : Nat) (s : State) : Outcome := streamOp .lz s (lzMatch L D)

/-- `LZ.MATCHX` (46 R434). -/
def execLzMatchX (L D : Nat) (s : State) : Outcome := streamOp .lz s (lzMatch L D)

/-- Halve the counts and sort the order again (46 R438). -/
def lzRecalcOrder (s : State) : State :=
  { s with ctx := { s.ctx with lz := { s.ctx.lz with
      stat := lzAge s.ctx.lz.stat
      tab := { s.ctx.lz.tab with order := lzSort (lzAge s.ctx.lz.stat) } } } }

/-- `LZ.RECALC` with the new widths (46 R438); its symbol was counted when it was fetched. -/
def execLzRecalc (t : List Nat) (s : State) : Outcome :=
  streamOp .lz s fun s => .cont (setLzWidths t (lzRecalcOrder s))

/-- `LZ.EOF` (46 R439). -/
def execLzEof (s : State) : Outcome := streamOp .lz s fun s => .ended (finish s)

end Sys2Proof.Machine
end

