-- ==== Sys2Proof/Machine/LightZhlEnc.lean ====
section
/-! DEFINITION. The LightZhl encoder: group selection, symbol coder, hash-chain matcher with lazy, backward and overlap
extension (46 R443 to R446, R450 to R458). -/

namespace Sys2Proof.Machine

/-- What an encode depends on: the input, `n`, and the parameters of 46. -/
structure LzEnv where
  /-- `SRC`. -/
  src : Nat → Byte
  /-- The input length. -/
  n : Nat
  /-- `LZ_BUF_BITS`. -/
  bufBits : Nat
  /-- `LZ_CHAIN_LIMIT`. -/
  chainLimit : Nat
  /-- The hash of four bytes. -/
  hash : Byte → Byte → Byte → Byte → Nat
  /-- `lz_calc_groups`, from the counts in sorted order. -/
  groups : Sparse Nat → List Nat → List Nat

/-! ## Hashes -/

/-- One byte of the `fast` hash (46 R452). -/
def lzFastByte (h : Nat) (b : Byte) : Nat := ((h * 16) ^^^ b.toNat) % Config.lzHashRange

/-- The `fast` hash (46 R452). -/
def lzHashFast (b0 b1 b2 b3 : Byte) : Nat := lzFastByte (lzFastByte (lzFastByte (lzFastByte 0 b0) b1) b2) b3

/-- One byte of the `slow` hash: a 15-bit left rotation by 5, then the byte (46 R453). -/
def lzSlowByte (h : Nat) (b : Byte) : Nat := (h * 32 % Config.lzHashRange + h / 1024) ^^^ b.toNat

/-- The `slow` hash (46 R453). -/
def lzHashSlow (b0 b1 b2 b3 : Byte) : Nat := lzSlowByte (lzSlowByte (lzSlowByte (lzSlowByte 0 b0) b1) b2) b3

/-! ## Group selection -/

/-- The least `b` from the present one on with `2^b ≥ R` (46 R443, the last group); the first argument bounds it. -/
def coverWidth (R : Nat) : Nat → (b : Nat) → Nat
  | 0, b => b
  | f + 1, b => if 2 ^ b < R then coverWidth R f (b + 1) else b

/-- Widen a group while positions are left and its weight is below the target (46 R443). -/
def targetWidth (pos target : Nat) (ws : List Nat) : Nat → (b : Nat) → Nat
  | 0, b => b
  | f + 1, b =>
    if pos + 2 ^ b < Config.lzNsym ∧ (ws.take (2 ^ b)).sum < target then targetWidth pos target ws f (b + 1) else b

/-- The widths of the last groups (46 R443): the first argument is how many groups remain, `ws` the weights of the
positions from `pos` on, `done` the weight before them. -/
def calcGroupsFrom (total : Nat) : Nat → (pos done : Nat) → List Nat → List Nat
  | 0, _, _, _ => []
  | g + 1, pos, done, ws =>
    if Config.lzNsym ≤ pos then 0 :: calcGroupsFrom total g pos done ws
    else
      let b :=
        if g = 0 then coverWidth (Config.lzNsym - pos) 10 0
        else targetWidth pos ((total - done + g) / (g + 1)) ws 10 0
      b :: calcGroupsFrom total g (pos + 2 ^ b) (done + (ws.take (2 ^ b)).sum) (ws.drop (2 ^ b))

/-- The reference `lz_calc_groups` (46 R443). -/
def lzCalcGroups (stat : Sparse Nat) (order : List Nat) : List Nat :=
  let ws := order.map fun s => stat.getD 0 s + 1
  calcGroupsFrom ws.sum Config.lzGroups 0 0 ws

/-! ## The symbol coder -/

/-- An encode under way: the state of 10_state.md R45 and the bit writer. -/
structure LzRun where
  /-- The encoder state. -/
  c : LzCtx
  /-- The bit writer. -/
  w : BitSink

/-- Write group widths (46 R444). -/
def putWidths : List Nat → BitSink → BitSink
  | [], w => w
  | v :: vs, w => putWidths vs (w.put 4 v)

/-- `put_table()` (46 R444). -/
def lzPutTable (v : LzEnv) (r : LzRun) : LzRun :=
  let nbits := v.groups r.c.stat r.c.tab.order
  ⟨{ r.c with tab := { r.c.tab with nbits := nbits, base := lzBase nbits } }, putWidths nbits r.w⟩

/-- `put_code(s)` (46 R445). -/
def lzPutCode (s : Nat) (r : LzRun) : LzRun :=
  let p := r.c.tab.order.idxOf s
  let g := r.c.tab.groupOf p 15
  ⟨{ r.c with stat := lzCount r.c.stat s }, (r.w.put 4 g).put (r.c.tab.width g) (p - r.c.tab.start g)⟩

/-- The rebuild (46 R446): the counts halved, the order sorted again. -/
def lzRebuild (c : LzCtx) : LzCtx :=
  let stat := lzAge c.stat
  { c with stat := stat, tab := { c.tab with order := lzSort stat } }

/-- `put_symbol(s)` (46 R446). -/
def lzPutSymbol (v : LzEnv) (s : Nat) (r : LzRun) : LzRun :=
  let r :=
    if r.c.nsym = Config.lzRecalcLen then
      let r := lzPutCode Config.lzRecalcSym r
      let r := lzPutTable v ⟨lzRebuild r.c, r.w⟩
      ⟨{ r.c with nsym := 0 }, r.w⟩
    else r
  let r := lzPutCode s r
  ⟨{ r.c with nsym := r.c.nsym + 1 }, r.w⟩

/-- Write literals. -/
def lzPutLits (v : LzEnv) : List Byte → LzRun → LzRun
  | [], r => r
  | b :: bs, r => lzPutLits v bs (lzPutSymbol v b.toNat r)

/-- `put_match(L, D)` (46 R451). -/
def lzPutMatch (v : LzEnv) (L D : Nat) (r : LzRun) : LzRun :=
  let e := L - Config.lzMin
  let r :=
    if e < 8 then lzPutSymbol v (256 + e) r
    else
      let k := lzExtraClass e 8
      let r := lzPutSymbol v (263 + k) r
      ⟨r.c, r.w.put k (e - lzXBase k)⟩
  let p := lzDispClass v.bufBits D
  ⟨r.c, (r.w.put 3 p).put (lzDnb p + (v.bufBits - 7)) (D - lzDbase p * 2 ^ (v.bufBits - 7))⟩

/-! ## The matcher -/

/-- The hash of the four bytes at `p`. -/
def LzEnv.hashAt (v : LzEnv) (p : Nat) : Nat := v.hash (v.src p) (v.src (p + 1)) (v.src (p + 2)) (v.src (p + 3))

/-- `insert(p)` (46 R454). -/
def lzInsert (v : LzEnv) (p : Nat) (c : LzCtx) : LzCtx :=
  if p + 4 ≤ v.n then
    { c with
      lzlink := Sparse.put c.lzlink (p % 2 ^ v.bufBits) (Sparse.look c.lzhead (v.hashAt p))
      lzhead := Sparse.put c.lzhead (v.hashAt p) (some p) }
  else c

/-- Insert the `k` positions from `p` upward. -/
def lzInsertRange (v : LzEnv) : (k p : Nat) → LzCtx → LzCtx
  | 0, _, c => c
  | k + 1, p, c => lzInsertRange v k (p + 1) (lzInsert v p c)

/-- One candidate (46 R455): it replaces the best only if strictly longer. -/
def lzConsider (v : LzEnv) (p mlen q : Nat) (best : Option (Nat × Nat)) : Option (Nat × Nat) :=
  let L := matchLen v.src mlen q p
  if Config.lzMin ≤ L ∧ best.all (fun b => decide (b.1 < L)) then some (L, p - q) else best

/-- The chain walk (46 R455); the first argument bounds it, since positions along a chain strictly decrease (R460). -/
def lzWalk (v : LzEnv) (link : Sparse Nat) (p mlen : Nat) :
    Nat → (seen : Nat) → Option Nat → Option (Nat × Nat) → Option (Nat × Nat)
  | _, _, none, best => best
  | 0, _, _, best => best
  | f + 1, seen, some q, best =>
    if p - q < 2 ^ v.bufBits ∧ (v.chainLimit = 0 ∨ seen < v.chainLimit) then
      lzWalk v link p mlen f (seen + 1) (Sparse.look link (q % 2 ^ v.bufBits)) (lzConsider v p mlen q best)
    else best

/-- `find(p)` (46 R455): length and distance of the longest match. -/
def lzFind (v : LzEnv) (c : LzCtx) (p : Nat) : Option (Nat × Nat) :=
  if v.n < p + 4 then none
  else lzWalk v c.lzlink p (min Config.lzMaxMatch (v.n - p)) (p + 1) 0 (Sparse.look c.lzhead (v.hashAt p)) none

/-- The backward step (46 R457): the start, the length and the pending literals; the first argument bounds it by the
pending literals. -/
def lzBackward (v : LzEnv) (D : Nat) : Nat → (start L nraw : Nat) → Nat × Nat × Nat
  | 0, start, L, nraw => (start, L, nraw)
  | f + 1, start, L, nraw =>
    if 0 < nraw ∧ L < Config.lzMaxMatch ∧ D + 1 ≤ start ∧ v.src (start - 1) = v.src (start - 1 - D) then
      lzBackward v D f (start - 1) (L + 1) (nraw - 1)
    else (start, L, nraw)

/-- The match a position commits to (46 R450, R456): the position, the pending literals, the match, and the first
position not yet inserted, with `pos` itself inserted. -/
def lzLazy (v : LzEnv) (c : LzCtx) (m : Nat × Nat) : Nat × Nat × (Nat × Nat) × Nat :=
  match lzFind v c (c.pos + 1) with
  | some m2 => if m.1 < m2.1 then (c.pos + 1, c.nraw + 1, m2, c.pos + 1) else (c.pos, c.nraw, m, c.pos + 1)
  | none => (c.pos, c.nraw, m, c.pos + 1)

/-- One iteration of the main loop (46 R450). -/
def lzEncStep (v : LzEnv) (r : LzRun) : LzRun :=
  match lzFind v r.c r.c.pos with
  | none =>
    let c := lzInsert v r.c.pos r.c
    ⟨{ c with pos := c.pos + 1, nraw := c.nraw + 1 }, r.w⟩
  | some m =>
    let c := lzInsert v r.c.pos r.c
    let (pos, nraw, m, first) := lzLazy v c m
    let (start, L, nraw) := lzBackward v m.2 nraw pos m.1 nraw
    let r := lzPutLits v (bytesAt v.src (start - nraw) nraw) ⟨c, r.w⟩
    let r := lzPutMatch v L m.2 r
    ⟨{ lzInsertRange v (start + L - first) first r.c with pos := start + L, nraw := 0 }, r.w⟩

/-- `while pos < n` (46 R450); every iteration raises `pos`, so `n` iterations suffice (46 R461). -/
def lzEncLoop (v : LzEnv) : Nat → LzRun → LzRun
  | 0, r => r
  | f + 1, r => if r.c.pos < v.n then lzEncLoop v f (lzEncStep v r) else r

/-- `LZ_ENCODE` (46 R450): the encoder state at the end and the whole output. -/
def lzEncode (v : LzEnv) (c : LzCtx) : LzCtx × List Byte :=
  let r := lzEncLoop v v.n (lzPutTable v ⟨c, ⟨0, 0, []⟩⟩)
  let r := lzPutLits v (bytesAt v.src (v.n - r.c.nraw) r.c.nraw) r
  let r := lzPutSymbol v Config.lzEofSym r
  (r.c, r.w.flush.out)

/-- The hash an instance uses for one value of `LZ_HASH_SEL`, a function into `[0, 2^LZ_TABLE_BITS)` (00_scope.md R9, 46
R452, R453, log 5). -/
def lzHashOf (p : Params) (slow : Bool) (b0 b1 b2 b3 : Byte) : Nat :=
  (if slow then
    match p.lzSlowFn with
    | .reference => lzHashSlow b0 b1 b2 b3
    | .other k => Config.otherLzHash k b0 b1 b2 b3
  else
    match p.lzFastFn with
    | .reference => lzHashFast b0 b1 b2 b3
    | .other k => Config.otherLzHash k b0 b1 b2 b3) % 2 ^ p.lzTableBits

/-- `lz_calc_groups` of an instance (00_scope.md R9, log 5): a function that meets 46 R442, so where another function does
not, the reference function stands in. -/
def lzGroupsOf (p : Params) (stat : Sparse Nat) (order : List Nat) : List Nat :=
  match p.lzGroupsFn with
  | .reference => lzCalcGroups stat order
  | .other k =>
    if groupWidthsLegal (Config.otherLzGroups k stat order) then Config.otherLzGroups k stat order
    else lzCalcGroups stat order

/-- The environment of the running `ENCODE`. -/
def lzEnvOf (s : State) : LzEnv where
  src := fun i => s.src.read i
  n := s.ctx.n
  bufBits := s.params.lzBufBits
  chainLimit := s.params.lzChainLimit
  hash := lzHashOf s.params s.cfg.lzHashSel
  groups := lzGroupsOf s.params

/-- `ENCODE` on the LightZhl engine (40 R184, 46 R450). -/
def encodeLzOp (s : State) : Flow :=
  let (c, out) := lzEncode (lzEnvOf s) s.ctx.lz
  .ended (finish (emitAll out { s with ctx := { s.ctx with lz := c } }))

end Sys2Proof.Machine
end

