-- ==== Sys2Proof/Machine/RefPack.lean ====
section
/-! DEFINITION. The RefPack decoder: the start of its `DECODE` and the commands (42 R230 to R244). -/

namespace Sys2Proof.Machine

/-- `RP_DECODE` up to its loop: the header (42 R230). -/
def decodeRpOp (s : State) : Flow := readHeader .rp s .cont

/-- The fields of a command in their registers (10_state.md R38). -/
def setRpFields (P L D : Nat) (s : State) : State :=
  { s with ctx := { s.ctx with rp := { s.ctx.rp with P := P, L := L, D := D } } }

/-- A match command: its literals, then its copy (42 R233 to R235, 70 R555). -/
def rpMatch (P L D : Nat) (s : State) : Flow := (lits P (setRpFields P L D s)).andThen (copy L D)

/-- `RP.SHORT` (42 R233). -/
def execRpShort (P L D : Nat) (s : State) : Outcome := streamOp .rp s (rpMatch P L D)

/-- `RP.INT` (42 R234). -/
def execRpInt (P L D : Nat) (s : State) : Outcome := streamOp .rp s (rpMatch P L D)

/-- `RP.LONG` (42 R235). -/
def execRpLong (P L D : Nat) (s : State) : Outcome := streamOp .rp s (rpMatch P L D)

/-- The literal count of a command without a copy in its register (10_state.md R38). -/
def setRpCount (P : Nat) (s : State) : State :=
  { s with ctx := { s.ctx with rp := { s.ctx.rp with P := P } } }

/-- `RP.LITERAL` (42 R237). -/
def execRpLiteral (P : Nat) (s : State) : Outcome := streamOp .rp s fun s => lits P (setRpCount P s)

/-- `RP.EOF`: the trailing literals, then the end of the stream (42 R238, R230). -/
def execRpEof (P : Nat) (s : State) : Outcome :=
  streamOp .rp s fun s => (lits P (setRpCount P s)).andThen fun s => endHeaded s fun s => .ended (finish s)

end Sys2Proof.Machine
end

