-- ==== Sys2Proof/Machine/RefPackEnc.lean ====
section
/-! DEFINITION. The RefPack encoder: hash-chain matcher and command encoder (43 R260 to R275). -/

namespace Sys2Proof.Machine

/-- What an encode depends on: the input, `n`, and the parameters of 43. -/
structure RpEnv where
  /-- `SRC`. -/
  src : Nat → Byte
  /-- The input length. -/
  n : Nat
  /-- `RP_DIST_BIAS`. -/
  bias : Nat
  /-- `CFG.RP_QUICK`. -/
  quick : Bool
  /-- `rp_hash`. -/
  hash : Byte → Byte → Byte → Nat
  /-- The semantics of the flag (43 R270): whether, after the step at `cp` that passed `L` bytes, position `p` is
  inserted. -/
  policy : (quick : Bool) → (cp L p : Nat) → Bool

/-- The default `rp_hash` (43 R262). -/
def rpHash (b0 b1 b2 : Byte) : Nat := (b0.toNat * 256 + b2.toNat) ^^^ (b1.toNat * 16)

/-- The default policy (43 R270): every position passed, or with the flag only the first of them. -/
def rpPolicy (quick : Bool) (cp _L p : Nat) : Bool := decide (cp ≤ p) && (!quick || decide (p = cp))

/-- An encode under way: the encoder state and the bytes of `DST` written so far. -/
structure RpRun where
  /-- The state of 10_state.md R39. -/
  e : RpEnc
  /-- One more than the last position inserted: positions are inserted in strictly increasing order (43 R263). -/
  next : Nat
  /-- `DST[0 … dp)`. -/
  out : List Byte

/-- The hash of the three bytes at `p`. -/
def RpEnv.hashAt (v : RpEnv) (p : Nat) : Nat := v.hash (v.src p) (v.src (p + 1)) (v.src (p + 2))

/-- `insert(p)` (43 R263). -/
def rpInsert (v : RpEnv) (p : Nat) (e : RpEnc) : RpEnc :=
  if p + 3 ≤ v.n then
    { e with
      link := Sparse.put e.link (p % Config.rpLinkSize) (Sparse.look e.head (v.hashAt p))
      head := Sparse.put e.head (v.hashAt p) (some p) }
  else e

/-- Insert those of the `k` positions from `p` upward that `take` takes, in increasing order; `next` is one more than the
last position inserted. -/
def rpInsertSome (v : RpEnv) (take : Nat → Bool) : (k p next : Nat) → RpEnc → Nat × RpEnc
  | 0, _, next, e => (next, e)
  | k + 1, p, next, e =>
    if take p then rpInsertSome v take k (p + 1) (p + 1) (rpInsert v p e)
    else rpInsertSome v take k (p + 1) next e

/-- `cost(D, L)` (43 R266). -/
def rpCost (bias D L : Nat) : Nat :=
  if D - bias < 1024 ∧ L ≤ 10 then 2
  else if D - bias < 16384 ∧ L ≤ 67 then 3
  else 4

/-- The best match of a search: length, cost, distance, and whether a candidate replaced the pseudo-match. -/
structure RpBest where
  /-- `bL`. -/
  L : Nat
  /-- `bC`. -/
  C : Nat
  /-- `bD`. -/
  D : Nat
  /-- `found`. -/
  found : Bool

/-- One candidate: it replaces the best only with a strictly greater score `L − C` (43 R267). -/
def rpConsider (v : RpEnv) (cp mlen q : Nat) (b : RpBest) : RpBest :=
  let L := matchLen v.src mlen q cp
  let C := rpCost v.bias (cp - q) L
  if b.L + C < L + b.C then ⟨L, C, cp - q, true⟩ else b

/-- The chain walk (43 R265), closest candidate first, down to `minpos`. The first argument bounds it: the positions of
a chain strictly decrease (10_state.md R40). -/
def rpWalk (v : RpEnv) (link : Sparse Nat) (cp mlen minpos : Nat) : Nat → Option Nat → RpBest → RpBest
  | _, none, b => b
  | 0, _, b => b
  | f + 1, some q, b =>
    if q < minpos then b
    else rpWalk v link cp mlen minpos f (Sparse.look link (q % Config.rpLinkSize)) (rpConsider v cp mlen q b)

/-- `search(cp)` (43 R264, R267). -/
def rpSearch (v : RpEnv) (e : RpEnc) : RpBest :=
  if v.n - e.cp < 3 then ⟨2, 2, 0, false⟩
  else
    rpWalk v e.link e.cp (min Config.rpMaxLen (v.n - e.cp)) (e.cp - Config.rpMaxDist) (e.cp + 1)
      (Sparse.look e.head (v.hashAt e.cp)) ⟨2, 2, 0, false⟩

/-- `flush_literals()` (43 R271) on the run that starts at `rp`: the bytes written, and the 0 to 3 bytes left. The first
argument bounds the loop: every command takes at least four bytes. -/
def rpFlush (src : Nat → Byte) : Nat → (rp run : Nat) → List Byte × Nat
  | 0, _, run => ([], run)
  | f + 1, rp, run =>
    if 3 < run then
      let t := min Config.rpLitChunkMax (run / 4 * 4)
      let (more, left) := rpFlush src f (rp + t) (run - t)
      (toByte (0xE0 + t / 4 - 1) :: bytesAt src rp t ++ more, left)
    else ([], run)

/-- The command bytes of a match of cost `C` with `P` embedded literals (43 R272, R273, R274). -/
def rpMatchBytes (C P L D : Nat) : List Byte :=
  if C = 2 then encodeRp (.rpShort P L D)
  else if C = 3 then encodeRp (.rpInt P L D)
  else encodeRp (.rpLong P L D)

/-- The insertions of a step that passed `L` bytes at `cp` (43 R269, R270): of the positions below `cp + L` that are not
behind the last one inserted, those the policy takes. -/
def rpInsertPassed (v : RpEnv) (L next : Nat) (e : RpEnc) : Nat × RpEnc :=
  rpInsertSome v (v.policy v.quick e.cp L) (e.cp + L - next) next next e

/-- One iteration of the main loop (43 R260, R268, R269). -/
def rpEncStep (v : RpEnv) (r : RpRun) : RpRun :=
  let b := rpSearch v r.e
  let e := { r.e with bL := b.L, bC := b.C, bD := b.D }
  if b.found ∧ 3 ≤ b.L ∧ b.C < b.L then
    let (flushed, left) := rpFlush v.src e.run (e.cp - e.run) e.run
    let (next, e') := rpInsertPassed v b.L r.next e
    ⟨{ e' with cp := e.cp + b.L, run := 0 }, next,
      r.out ++ flushed ++ rpMatchBytes b.C left b.L b.D ++ bytesAt v.src (e.cp - left) left⟩
  else
    let (next, e') := rpInsertPassed v 1 r.next e
    ⟨{ e' with cp := e.cp + 1, run := e.run + 1 }, next, r.out⟩

/-- `while cp < n` (43 R260); every iteration raises `cp`, so `n` iterations suffice (70 R556). -/
def rpEncLoop (v : RpEnv) : Nat → RpRun → RpRun
  | 0, r => r
  | f + 1, r => if r.e.cp < v.n then rpEncLoop v f (rpEncStep v r) else r

/-- `finish()` (43 R275). -/
def rpFinish (v : RpEnv) (r : RpRun) : List Byte :=
  let (flushed, left) := rpFlush v.src r.e.run (r.e.cp - r.e.run) r.e.run
  r.out ++ flushed ++ encodeRp (.rpEof left) ++ bytesAt v.src (v.n - left) left

/-- The header (43 R261, 30 R128). -/
def rpHeaderBytes (n : Nat) : List Byte :=
  if n < 2 ^ 24 then putBe 2 0x10FB ++ putBe 3 n else putBe 2 0x90FB ++ putBe 4 n

/-- `RP_ENCODE` (43 R260): the encoder state at the end and the whole output. -/
def rpEncode (v : RpEnv) (e : RpEnc) : RpEnc × List Byte :=
  let r := rpEncLoop v v.n ⟨e, 0, rpHeaderBytes v.n⟩
  (r.e, rpFinish v r)

/-- `rp_hash` of an instance, a function into `[0, RP_HASH_SIZE)` (00_scope.md R9, 43 R262, log 5). -/
def rpHashOf (p : Params) (b0 b1 b2 : Byte) : Nat :=
  (match p.rpHashFn with
    | .reference => rpHash b0 b1 b2
    | .other k => Config.otherRpHash k b0 b1 b2) % p.rpHashSize

/-- The insertion policy of an instance (00_scope.md R9, 43 R270, log 5). -/
def rpPolicyOf (p : Params) : (quick : Bool) → (cp L p : Nat) → Bool :=
  match p.rpPolicyFn with
  | .reference => rpPolicy
  | .other k => Config.otherRpPolicy k

/-- The environment of the running `ENCODE`. -/
def rpEnvOf (s : State) : RpEnv where
  src := fun i => s.src.read i
  n := s.ctx.n
  bias := s.params.rpDistBias
  quick := s.cfg.rpQuick
  hash := rpHashOf s.params
  policy := rpPolicyOf s.params

/-- `ENCODE` on the RefPack engine (40 R184, 43 R260). -/
def encodeRpOp (s : State) : Flow :=
  let (e, out) := rpEncode (rpEnvOf s) s.ctx.rpEnc
  .ended (finish (emitAll out { s with ctx := { s.ctx with rpEnc := e } }))

end Sys2Proof.Machine
end

