-- ==== Sys2Proof/Machine/HostOps.lean ====
section
/-! DEFINITION. The host operations (40 R180 to R187, 30 R172). -/

namespace Sys2Proof.Machine

/-! ## ABOUT -/

/-- The flags byte of a descriptor: `CAN_ENCODE` bit 0, `CAN_DECODE` bit 1, `SIZE32` bit 2 (40 R181). -/
def descFlags (d : Descriptor) : Byte :=
  toByte (d.canEncode.toNat + 2 * d.canDecode.toNat + 4 * d.size32.toNat)

/-- The layout `ABOUT` writes (40 R181). -/
def descBytes (d : Descriptor) : List Byte :=
  putBe 4 d.sig.toNat ++ [descFlags d] ++ putBe 4 d.version.toNat ++
    toByte d.shortName.length :: d.shortName ++ toByte d.longName.length :: d.longName

/-- `ABOUT` (40 R181). -/
def execAbout (c : Codec) (s : State) : Outcome :=
  hostOp c 0 s fun s => .ended (finish (emitAll (descBytes (s.desc.of c)) s))

/-! ## IS_VALID and EXTRACT_SIZE -/

/-- The Boolean of `IS_VALID` (40 R182). -/
def magicValid (c : Codec) (m : Memory) (len : Nat) : Bool :=
  decide (2 ≤ len) && decide (beVal m 0 2 ∈ magics c)

/-- `IS_VALID` (40 R182); refused on LightZhl (40 R187). -/
def execIsValid (c : Codec) (s : State) : Outcome :=
  hostOp c 1 s fun s =>
    .ended (if c = .lz then refuse .noNativeHeader s
      else finishResult (magicValid c s.src s.srcLen.toNat).toNat s)

/-- `EXTRACT_SIZE` of a headed engine (40 R183). -/
def extractSizeOp (c : Codec) (s : State) : State :=
  match s.header c with
  | .error (cause, sp) => refuse cause { s with ctx := { s.ctx with sp := sp } }
  | .ok h => finishResult h.ulen s

/-- `EXTRACT_SIZE` (40 R183); refused on LightZhl (40 R187). -/
def execExtractSize (c : Codec) (s : State) : Outcome :=
  hostOp c 2 s fun s => .ended (if c = .lz then refuse .noNativeHeader s else extractSizeOp c s)

/-! ## ENCODE and DECODE -/

/-- The encoder of an engine (40 R184). -/
def encodeOp : Codec → State → Flow
  | .rp => encodeRpOp
  | .bt => encodeBtOp
  | .hr => encodeHrOp
  | .lz => encodeLzOp

/-- `ENCODE` (40 R184, R186). -/
def execEncode (c : Codec) (s : State) : Outcome :=
  hostOp c 3 s fun s => if (s.desc.of c).canEncode then encodeOp c s else .ended (fail .noDirection s)

/-- The decoder of an engine up to its loop (40 R185). -/
def decodeOp : Codec → State → Flow
  | .rp => decodeRpOp
  | .bt => decodeBtOp
  | .hr => decodeHrOp
  | .lz => decodeLzOp

/-- `DECODE` (40 R185, R186): the header and the tables; the stream commands follow, one step each (log 6). -/
def execDecode (c : Codec) (s : State) : Outcome :=
  hostOp c 4 s fun s => if (s.desc.of c).canDecode then decodeOp c s else .ended (fail .noDirection s)

/-! ## Reserved operations -/

/-- Reserved `OP` 5 (30 R172). -/
def execHostopReserved5 (c : Codec) (s : State) : Outcome := hostOp c 5 s fun s => .ended (refuse .badOp s)

/-- Reserved `OP` 6 (30 R172). -/
def execHostopReserved6 (c : Codec) (s : State) : Outcome := hostOp c 6 s fun s => .ended (refuse .badOp s)

/-- Reserved `OP` 7 (30 R172). -/
def execHostopReserved7 (c : Codec) (s : State) : Outcome := hostOp c 7 s fun s => .ended (refuse .badOp s)

end Sys2Proof.Machine
end

