-- ==== Sys2Proof/Machine/Dispatch.lean ====
section
/-! DEFINITION. The meaning of every instruction, one arm per constructor. -/

namespace Sys2Proof.Machine

def exec (i : Instr) (s : State) : Host.Outcome State Fault Refusal :=
  match i with
  | .about c => Sys2Proof.Machine.execAbout c s
  | .isValid c => Sys2Proof.Machine.execIsValid c s
  | .extractSize c => Sys2Proof.Machine.execExtractSize c s
  | .encode c => Sys2Proof.Machine.execEncode c s
  | .decode c => Sys2Proof.Machine.execDecode c s
  | .hostopReserved5 c => Sys2Proof.Machine.execHostopReserved5 c s
  | .hostopReserved6 c => Sys2Proof.Machine.execHostopReserved6 c s
  | .hostopReserved7 c => Sys2Proof.Machine.execHostopReserved7 c s
  | .rpShort P L D => Sys2Proof.Machine.execRpShort P L D s
  | .rpInt P L D => Sys2Proof.Machine.execRpInt P L D s
  | .rpLong P L D => Sys2Proof.Machine.execRpLong P L D s
  | .rpLiteral P => Sys2Proof.Machine.execRpLiteral P s
  | .rpEof P => Sys2Proof.Machine.execRpEof P s
  | .btLeaf b => Sys2Proof.Machine.execBtLeaf b s
  | .btNode b => Sys2Proof.Machine.execBtNode b s
  | .btEsc c e => Sys2Proof.Machine.execBtEsc c e s
  | .btEnd c => Sys2Proof.Machine.execBtEnd c s
  | .hrLit b => Sys2Proof.Machine.execHrLit b s
  | .hrRun k => Sys2Proof.Machine.execHrRun k s
  | .hrEsc b => Sys2Proof.Machine.execHrEsc b s
  | .hrEof => Sys2Proof.Machine.execHrEof s
  | .lzLit b => Sys2Proof.Machine.execLzLit b s
  | .lzMatchS L D => Sys2Proof.Machine.execLzMatchS L D s
  | .lzMatchX L D => Sys2Proof.Machine.execLzMatchX L D s
  | .lzRecalc t => Sys2Proof.Machine.execLzRecalc t s
  | .lzEof => Sys2Proof.Machine.execLzEof s

end Sys2Proof.Machine
end

