-- ==== Sys2Proof/Machine/Fetch.lean ====
section
/-! DEFINITION. Fetching the next command of a running `DECODE` (42 R230, 44 R300, 45 R393, 46 R430), and placing a
word of opcode_table.json where the next step reads it. -/

namespace Sys2Proof.Machine

/-- What a fetch gives: the command with the state after its words, or the failure it raised. -/
inductive Fetched where
  | instr (i : Instr) (s : State)
  | ended (s : State)

/-- The command bytes fetched so far in `b0 … b3` (10_state.md R38); a byte not fetched leaves its register. -/
def setRpBytes (bs : List Byte) (r : RpDec) : RpDec :=
  { r with
    b0 := bs.getD 0 r.b0
    b1 := bs.getD 1 r.b1
    b2 := bs.getD 2 r.b2
    b3 := bs.getD 3 r.b3 }

/-- The command bytes of `s` in its registers, `k` of them. -/
def noteRpBytes (k : Nat) (s : State) : State :=
  { s with ctx := { s.ctx with rp := setRpBytes (s.rest.take k) s.ctx.rp } }

/-- A RefPack command (42 R230). -/
def fetchRp (s : State) : Fetched :=
  match decodeRp s.reader with
  | .ok i r => .instr i ((noteRpBytes r.used s).setReader r)
  | .err e _ r => .ended (fail (Cause.ofReject e) (s.setReader r))

/-- A BinaryTree item (44 R300). -/
def fetchBt (s : State) : Fetched :=
  match decodeBt s.ctx.bt.clue s.ctx.bt.isNode s.reader with
  | .ok i r => .instr i (s.setReader r)
  | .err e _ r => .ended (fail (Cause.ofReject e) (s.setReader r))

/-- A Huffman item (45 R393). -/
def fetchHr (s : State) : Fetched :=
  match decodeHr s.ctx.hr.tab s.reader with
  | .ok i r => .instr i (s.setReader r)
  | .err e _ r => .ended (fail (Cause.ofReject e) (s.setReader r))

/-- A decoded symbol: counted, and noted for the diagnostic record (46 R445, R449). -/
def noteLzSymbol (g sym : Nat) (s : State) : State :=
  { s with ctx := { s.ctx with lz := { s.ctx.lz with
      stat := lzCount s.ctx.lz.stat sym, group := g, symbol := sym } } }

/-- A LightZhl symbol, counted before its fields are read (46 R430, R445). -/
def fetchLz (s : State) : Fetched :=
  match getCode s.ctx.lz.tab s.reader with
  | .err e st r => .ended (failLz (Cause.ofReject e) st (s.setReader r))
  | .ok gs r =>
    match lzFields s.params.lzBufBits gs.2 r with
    | .err e st r => .ended (failLz (Cause.ofReject e) st ((noteLzSymbol gs.1 gs.2 s).setReader r))
    | .ok i r => .instr i ((noteLzSymbol gs.1 gs.2 s).setReader r)

/-- The next command of the running `DECODE`. -/
def fetchCommand (s : State) : Fetched :=
  match Codec.ofSel s.codecSel with
  | .rp => fetchRp s
  | .bt => fetchBt s
  | .hr => fetchHr s
  | .lz => fetchLz s

/-! ## Placing a word of opcode_table.json (log 7, log 11) -/

/-- The context of a `DECODE` of engine `c` whose header and tables stand read: the registers a header of
`declared` output bytes leaves. -/
def ctxAtBody (c : Codec) (declared n : Nat) : Ctx :=
  { Ctx.fresh n with magic := BitVec.ofNat 16 ((magics c).headD 0), ulen := declared }

/-- A state in which a `DECODE` of engine `c` runs: `s` itself if it does already. -/
def startedDecode (c : Codec) (s : State) : State :=
  if s.decoding c && !s.start then s
  else
    { s with
      codecSel := c.sel
      op := 4
      start := false
      busy := true
      done := false
      ctx := ctxAtBody c s.params.maxLen s.srcLen.toNat }

/-- The bytes of a stream from `sp` on, with `SRC_LEN` covering them. -/
def placeStream (bs : List Byte) (s : State) : State :=
  { s with
    src := s.src.writeList s.ctx.sp bs
    srcLen := if s.srcLen.toNat < s.ctx.sp + bs.length then BitVec.ofNat 32 (s.ctx.sp + bs.length) else s.srcLen }

/-- The clue and node table of a BinaryTree format. -/
def setBtFormat (clue : Byte) (isNode : Sparse Bool) (s : State) : State :=
  { s with ctx := { s.ctx with bt := { s.ctx.bt with clue := clue, isNode := isNode } } }

/-- `s` with a table word placed where the next step fetches: a host operation in the host registers with `START`
written; a stream command in the stream of a running `DECODE` of its engine. -/
def placeTableWord (nbits w : Nat) (s : State) : State :=
  match tableFormat nbits w with
  | .hostop =>
    { s with codecSel := BitVec.ofNat 2 (w / 8), op := BitVec.ofNat 3 w, start := true, busy := false }
  | .bt clue isNode => placeStream (tableStream nbits w) (setBtFormat clue isNode (startedDecode .bt s))
  | _ => placeStream (tableStream nbits w) (startedDecode .rp s)

end Sys2Proof.Machine
end

