-- ==== Sys2Proof/Machine/Sequencer.lean ====
section
/-! DEFINITION. One step of the sequencer (10_state.md R20, 40 R180, 42 R231). -/

namespace Sys2Proof.Machine

/-- Run what a fetch gave: a failed fetch has ended the operation. -/
def runFetched : Fetched → Outcome
  | .instr i s => exec i s
  | .ended s => .next s

/-- With `START` written, the operation in the host registers; with `BUSY`, the next command of the running `DECODE`;
idle, nothing happens. -/
def sequence (s : State) : Outcome :=
  if s.start then exec (decodeHostop s.codecSel s.op) s
  else if s.busy then
    if s.op = 4 then runFetched (fetchCommand s) else .fault .busyWithoutDecode
  else .next s

end Sys2Proof.Machine
end

