-- ==== Sys2Proof/Machine/Step.lean ====
section
/-! DEFINITION. One step of the machine, and the word the host places for it. -/

namespace Sys2Proof.Machine

/-- One instruction (log 6). -/
def step (s : State) : Host.Outcome State Fault Refusal := sequence s

/-- `s` with a word of opcode_table.json placed where `step` takes its next instruction from (log 7, log 11). -/
def State.withFetchWord (s : State) (nbits w : Nat) : State := placeTableWord nbits w s

end Sys2Proof.Machine
end

