-- ==== Sys2Proof/Machine/HostIface.lean ====
section
/-! DEFINITION. The host's moves (20_memory.md R101, 70 R543, R557, 10_state.md R23, R33): the host is outside the block,
so these are no steps of it. -/

namespace Sys2Proof.Machine

/-- A write of the host. -/
inductive HostWrite where
  /-- `CODEC_SEL`. -/
  | codecSel (v : BitVec 2)
  /-- `OP`. -/
  | op (v : BitVec 3)
  /-- 1 to `START`. -/
  | start
  /-- `SRC_LEN`. -/
  | srcLen (v : Word)
  /-- One byte of `SRC`. -/
  | src (a : Nat) (b : Byte)
  /-- `CFG`. -/
  | cfg (v : Cfg)
  /-- `OUT_LIMIT`. -/
  | outLimit (v : Word)
  deriving DecidableEq, Repr

/-- The register or byte a host write changes. -/
def applyHostWrite (w : HostWrite) (s : State) : State :=
  match w with
  | .codecSel v => { s with codecSel := v }
  | .op v => { s with op := v }
  | .start => { s with start := true }
  | .srcLen v => { s with srcLen := v }
  | .src a b => { s with src := s.src.write a b }
  | .cfg v => { s with cfg := v }
  | .outLimit v => { s with outLimit := v }

/-- A host write; while `BUSY = 1`, which it is from `START` on, no source defines it (70 R557). -/
def hostWrite (w : HostWrite) (s : State) : Outcome :=
  if s.busy || s.start then .fault .hostWriteWhileBusy else .next (applyHostWrite w s)

/-- The host reads the output (70 R543, R557): only after a success. -/
def hostReadDst (s : State) : Except Fault (List Byte) :=
  if s.done && !s.busy && !s.start && decide (s.status = .ok) then .ok (s.dst.bytesFrom 0 s.dstLen.toNat)
  else .error .hostReadRefused

end Sys2Proof.Machine
end

