-- ==== Sys2Proof/Safety.lean ====
section
/-! DEFINITION. What a safe run is, and the vocabulary of the statements: the invariants of a run, the states an operation
starts and ends in, and the closed forms of the transfers. -/

namespace Sys2Proof.Machine

/-! ## Invariants -/

/-- Every byte memory, the LightZhl counts and the node table are in their canonical forms. -/
def MemoriesCanonical (s : State) : Prop :=
  s.src.wf = true ∧ s.dst.wf = true ∧ s.ctx.lz.cbuf.wf = true ∧ s.ctx.bt.left.wf = true ∧
    s.ctx.bt.right.wf = true ∧ s.ctx.bt.isNode.canonical false = true ∧ s.ctx.lz.stat.canonical 0 = true

/-- The outcome registers agree with each other and with `BUSY` (60 R500, R504, R505, R510, 40 R180, 10_state.md R30,
R35): while an operation runs they are clear and the operation is a `DECODE`; between operations there is no context;
`STATUS` is the class of `CAUSE`; a failure leaves no output and no result; a success leaves no diagnostic record. -/
def RegistersConsistent (s : State) : Prop :=
  (s.busy = true → s.op = 4 ∧ s.done = false ∧ s.cause = .none ∧ s.result = 0 ∧ s.dstLen = 0) ∧
  (s.busy = false → s.ctx = Ctx.fresh 0) ∧
  s.status = s.cause.status ∧
  (s.status ≠ .ok → s.dstLen = 0 ∧ s.result = 0) ∧
  (s.status = .ok → s.diag = Diag.zero)

/-- The cursors of a running `DECODE` stay inside their buffers (20_memory.md R84, R86, 46 R424, R431, 41 R217), and
`DIAG.sp` inside the input (10_state.md R35). -/
def CursorsInBounds (s : State) : Prop :=
  (s.busy = true →
    s.ctx.sp ≤ s.srcLen.toNat ∧ s.ctx.nacc ≤ 7 ∧ s.ctx.acc.toNat < 2 ^ s.ctx.nacc ∧
    (s.codecSel ≠ 3 → s.ctx.dp ≤ s.ctx.ulen ∧ s.ctx.ulen ≤ s.params.maxLen) ∧
    (s.codecSel = 3 → s.ctx.lz.wp = s.ctx.dp ∧ s.ctx.dp ≤ s.outLimit.toNat)) ∧
  s.diag.sp.toNat ≤ s.srcLen.toNat

/-- The tables of a running `DECODE` are codes (45 R396, R397; 46 R440, R442, R444; 44 R304). -/
def TablesValid (s : State) : Prop :=
  s.busy = true →
    (s.codecSel = 1 → isNodeByte s.ctx.bt.isNode s.ctx.bt.clue = false) ∧
    (s.codecSel = 2 → s.ctx.hr.tab.valid = true ∧ s.ctx.hr.passes ≤ 2) ∧
    (s.codecSel = 3 → s.ctx.lz.tab.valid = true)

/-- The circular buffer holds the most recent output bytes (10_state.md R46, 46 R436, R437). -/
def BufferMirrors (s : State) : Prop :=
  s.busy = true → s.codecSel = 3 →
    s.ctx.lz.wp = s.ctx.dp ∧
    ∀ d, 1 ≤ d → d ≤ s.ctx.lz.wp → d ≤ s.params.lzSize →
      s.ctx.lz.cbuf.read ((s.ctx.lz.wp - d) % s.params.lzSize) = s.dst.read (s.ctx.dp - d)

/-- What every run keeps. -/
structure Inv (s : State) : Prop where
  /-- Memories. -/
  memories : MemoriesCanonical s
  /-- Outcome registers. -/
  registers : RegistersConsistent s
  /-- Cursors. -/
  cursors : CursorsInBounds s
  /-- Tables. -/
  tables : TablesValid s
  /-- The circular buffer. -/
  buffer : BufferMirrors s

/-! ## Safe runs -/

/-- The one thing a host must not do: write `START` while an operation runs (20_memory.md R101, 70 R557). -/
def HostKeepsRules (s : State) : Prop := ¬(s.start = true ∧ s.busy = true)

/-- `k` steps from `s` neither fault nor refuse. -/
def SafeFor (k : Nat) (s : State) : Prop := ∃ t, Sys2Proof.core.run k s = .next t

/-! ## Starting and ending an operation -/

/-- The host's writes before an operation: input, engine, operation, `START` (70 R543). -/
def loaded (s : State) (c : Codec) (op : BitVec 3) (input : List Byte) : State :=
  { s with
    codecSel := c.sel
    op := op
    start := true
    src := Memory.ofBytes input
    srcLen := BitVec.ofNat 32 input.length }

/-- An operation has ended with success and left `out` in `DST[0 … DST_LEN)`. -/
def EndedWith (out : List Byte) (t : State) : Prop :=
  t.busy = false ∧ t.done = true ∧ t.status = .ok ∧ t.cause = .none ∧ t.result = 0 ∧ t.diag = Diag.zero ∧
    t.dstLen = BitVec.ofNat 32 out.length ∧ t.dst.bytesFrom 0 out.length = out

/-- An operation has ended in the failure `c` (60 R504). -/
def FailedWith (c : Cause) (t : State) : Prop :=
  t.busy = false ∧ t.done = true ∧ t.status = c.status ∧ t.cause = c ∧ t.result = 0 ∧ t.dstLen = 0 ∧
    t.ctx = Ctx.fresh 0

/-- A running `DECODE` of engine `c` whose stream is at the first command: nothing put out, the outcome registers clear
(40 R180). -/
def BodyReached (c : Codec) (sp : Nat) (t : State) : Prop :=
  t.decoding c = true ∧ t.start = false ∧ t.done = false ∧ t.status = .ok ∧ t.cause = .none ∧ t.result = 0 ∧
    t.dstLen = 0 ∧ t.diag = Diag.zero ∧ t.ctx.sp = sp ∧ t.ctx.dp = 0

/-- What no operation changes: the input, the configuration, the descriptors, the parameters, the host's own
registers. -/
def InputsKept (s t : State) : Prop :=
  t.src = s.src ∧ t.srcLen = s.srcLen ∧ t.cfg = s.cfg ∧ t.desc = s.desc ∧ t.params = s.params ∧
    t.outLimit = s.outLimit

/-- The causes each operation can end in (60 R506). -/
def operationCauses (c : Codec) (op : BitVec 3) : List Cause :=
  match op.toNat, c with
  | 0, _ => []
  | 1, .lz | 2, .lz => [.noNativeHeader]
  | 1, _ => []
  | 2, _ => [.badMagic, .truncated, .lengthMismatch]
  | 3, .rp | 3, .lz => [.noDirection]
  | 3, .bt => [.noDirection, .lengthUnrepresentable, .badConfig]
  | 3, .hr => [.noDirection, .badConfig]
  | 4, .rp => [.noDirection, .badMagic, .truncated, .badDistance, .outputOverrun, .lengthMismatch]
  | 4, .bt => [.noDirection, .badMagic, .truncated, .badTable, .stackOverflow, .outputOverrun, .lengthMismatch]
  | 4, .hr =>
    [.noDirection, .badMagic, .truncated, .badTable, .badCode, .badNumber, .badRun, .outputOverrun, .lengthMismatch]
  | 4, .lz => [.noDirection, .truncated, .badTable, .badCode, .badDistance, .outputOverrun]
  | _, _ => [.badOp]

/-- The stream the encoder of engine `c` makes of `SRC[0 … SRC_LEN)` under the state's configuration and parameters
(40 R184). -/
def encoderOutput (c : Codec) (s : State) : List Byte :=
  let b := beginOp c 3 s
  match c with
  | .rp => (rpEncode (rpEnvOf b) b.ctx.rpEnc).2
  | .bt =>
    (btEncode s.cfg.btPairsPerPass.toNat s.cfg.btThreshold.toNat s.cfg.btMaxPasses.toNat
      (s.src.bytesFrom 0 s.srcLen.toNat)).2
  | .hr =>
    (hrEncode s.cfg.hrDeltaPasses.toNat s.params.hrRunMin s.params.hrChainsawPick
      (s.src.bytesFrom 0 s.srcLen.toNat)).2
  | .lz => (lzEncode (lzEnvOf b) b.ctx.lz).2

/-- The encoder of engine `c` accepts the request (40 R184; 44 R321, 45 R350). -/
def encodable (c : Codec) (s : State) : Prop :=
  (s.desc.of c).canEncode = true ∧ (c = .bt → s.srcLen.toNat < 2 ^ 24 ∧ s.cfg.btPairsPerPass ≠ 0) ∧
    (c = .hr → s.cfg.hrDeltaPasses ≠ 3)

/-! ## Closed forms of the transfers -/

/-- The bytes of a copy of `L` bytes at distance `D` onto position `at` of `m`: the last `D` bytes repeat (42 R236). -/
def backBytes (m : Memory) (dp L D : Nat) : List Byte :=
  (List.range L).map fun i => m.read (dp - D + i % D)

/-- `s` after the bytes `out` were emitted. -/
def emitted (out : List Byte) (s : State) : State :=
  { s with dst := s.dst.writeList s.ctx.dp out, ctx := { s.ctx with dp := s.ctx.dp + out.length } }

/-- `s` after `n` stream bytes were fetched. -/
def fetched (n : Nat) (s : State) : State := { s with ctx := { s.ctx with sp := s.ctx.sp + n } }

/-- The literal bytes of a RefPack command: the next `P` bytes of the stream. -/
def literals (P : Nat) (s : State) : List Byte := s.src.bytesFrom s.ctx.sp P

/-- The whole output of a match command: its literals, then the copy, whose distance counts from behind them (42 R233,
70 R555). -/
def matchBytes (P L D : Nat) (s : State) : List Byte :=
  literals P s ++ backBytes (s.dst.writeList s.ctx.dp (literals P s)) (s.ctx.dp + P) L D

/-- The leaves of the tree under byte `v`, left to right, if no path has more than `h` nodes (44 R306, R309). -/
def btLeaves (isNode : Sparse Bool) (left right : Memory) : (h : Nat) → Byte → Option (List Byte)
  | 0, v => if isNodeByte isNode v then none else some [v]
  | h + 1, v =>
    if isNodeByte isNode v then
      match btLeaves isNode left right h (left.read v.toNat), btLeaves isNode left right h (right.read v.toNat) with
      | some a, some b => some (a ++ b)
      | _, _ => none
    else some [v]

/-- The bits of a stream that are not consumed yet: `8·(SRC_LEN − sp) + nacc` (10_state.md R24). -/
def bitsLeft (s : State) : Nat := 8 * (s.srcLen.toNat - s.ctx.sp) + s.ctx.nacc

/-! ## The bits of a Huffman table (45 R396, R397) -/

/-- The skip of symbol number `i` in the leapfrog order: how many values not assigned before lie strictly between the
symbol before (255 before the first) and it, going upward and around (45 R397). -/
def leapfrogSkip (syms : List Byte) (i : Nat) : Nat :=
  let prev : Byte := if i = 0 then 255 else syms.getD (i - 1) 0
  let t := syms.getD i 0
  let dist := if t = prev then 256 else (t - prev).toNat
  ((List.range (dist - 1)).filter fun j => decide (prev + toByte (j + 1) ∉ syms.take i)).length

/-- The numbers of a table: the counts, or the skips, in the `NUM` code. -/
def numsBits (vs : List Nat) : List Bool := vs.flatMap numBits

/-- The head of a table: clue in 8 bits, `maxlen` in 4, the counts (30 R145, 45 R396). -/
def hrHeadBits (clue maxlen : Nat) (bl : List Nat) : List Bool :=
  natBits 8 clue ++ natBits 4 maxlen ++ numsBits bl

/-- The skips of the first symbols of a table (45 R397). -/
def hrSkipBits (syms : List Byte) : List Bool :=
  numsBits ((List.range syms.length).map (leapfrogSkip syms))

/-- A whole table at the head of a stream (30 R145). -/
def hrTableBits (t : HrTab) : List Bool := hrHeadBits t.clue.toNat t.maxlen t.bl ++ hrSkipBits t.syms

end Sys2Proof.Machine
end

