-- ==== Sys2Proof/Certificates/Slice0/Obligations.lean ====
section
/-! DEFINITION. The statements for the provers. A docstring names the rules of spec/ a statement formalises, and the log
entries (notes/assumptions) it rests on where a clause is the model's own choice. -/

open Sys2Proof Sys2Proof.Machine

/-! ## Encodings -/

/-- 10_state.md R26, R27, 30 R173: the five-bit host operation word, read and written. -/
def Obligations.HostopWordsAgree : Prop :=
  (∀ i c op, hostopOf i = some (c, op) → decodeHostop c.sel op = i) ∧
  (∀ sel op, hostopOf (decodeHostop sel op) = some (Codec.ofSel sel, op)) ∧
  (∀ c : Codec, Codec.ofSel c.sel = c)

/-- Words written out from 30 R131 to R135, R141 and R173 (fields worked in 95_test_vectors.md 4.1). -/
def Obligations.WrittenWordsDecode : Prop :=
  decode .hostop ⟨[0b01100000], 0, 0, 0⟩ = .ok (.decode .bt) ⟨[], 1, 0, 3⟩ ∧
  decode .rp ⟨[0b01111111, 0xFF], 0, 0, 0⟩ = .ok (.rpShort 3 10 1024) ⟨[], 2, 0, 0⟩ ∧
  decode .rp ⟨[0b10000111, 0b10000000, 0x05], 0, 0, 0⟩ = .ok (.rpInt 2 11 6) ⟨[], 3, 0, 0⟩ ∧
  decode .rp ⟨[0b11000001, 0, 0, 0x5E], 0, 0, 0⟩ = .ok (.rpLong 1 99 1) ⟨[], 4, 0, 0⟩ ∧
  decode .rp ⟨[0b11111011], 0, 0, 0⟩ = .ok (.rpLiteral 112) ⟨[], 1, 0, 0⟩ ∧
  decode .rp ⟨[0b11111110], 0, 0, 0⟩ = .ok (.rpEof 2) ⟨[], 1, 0, 0⟩ ∧
  decode (.bt 0 [(1, true)]) ⟨[0x61], 0, 0, 0⟩ = .ok (.btLeaf 0x61) ⟨[], 1, 0, 0⟩ ∧
  decode (.bt 0 [(1, true)]) ⟨[0x01], 0, 0, 0⟩ = .ok (.btNode 0x01) ⟨[], 1, 0, 0⟩ ∧
  decode (.bt 0 [(1, true)]) ⟨[0x00, 0x01], 0, 0, 0⟩ = .ok (.btEsc 0 1) ⟨[], 2, 0, 0⟩ ∧
  decode (.bt 0 [(1, true)]) ⟨[0x00, 0x00], 0, 0, 0⟩ = .ok (.btEnd 0) ⟨[], 2, 0, 0⟩

/-- 30 R131 to R136: a RefPack command is read back from its bytes with every operand, whatever follows it. -/
def Obligations.RefPackDecodeOfEncode : Prop :=
  ∀ i, wellFormed .rp i = true → ∀ (rest : List Byte) (used : Nat) (acc : Word) (nacc : Nat),
    bytesBits (encodeRp i) = encode .rp i ∧
    decode .rp ⟨encodeRp i ++ rest, used, acc, nacc⟩ = .ok i ⟨rest, used + (encodeRp i).length, acc, nacc⟩

/-- 30 R141: a BinaryTree item is read back from its bytes under the clue and node table of its stream. -/
def Obligations.BinaryTreeDecodeOfEncode : Prop :=
  ∀ clue isNode i, wellFormed (.bt clue isNode) i = true →
    ∀ (rest : List Byte) (used : Nat) (acc : Word) (nacc : Nat),
      decode (.bt clue isNode) ⟨encodeBt i ++ rest, used, acc, nacc⟩ =
        .ok i ⟨rest, used + (encodeBt i).length, acc, nacc⟩

/-- 30 R146, R147, 45 R375, R395, R398: a Huffman item is read back from its bits under any valid table, at any position
of the accumulator. -/
def Obligations.HuffmanDecodeOfEncode : Prop :=
  ∀ t : HrTab, t.valid = true → ∀ i, wellFormed (.hr t) i = true →
    ∀ (r : BitSrc) (tail : List Bool), r.nacc ≤ 7 → r.acc.toNat < 2 ^ r.nacc → r.bits = encode (.hr t) i ++ tail →
      ∃ r', decode (.hr t) r = .ok i r' ∧ r'.bits = tail ∧ r'.nacc ≤ 7 ∧ r'.acc.toNat < 2 ^ r'.nacc

/-- 30 R151 to R155, 46 R445, R451: a LightZhl symbol with its fields is read back from its bits under any valid group
tables, at any position of the accumulator. -/
def Obligations.LightZhlDecodeOfEncode : Prop :=
  ∀ (bufBits : Nat) (t : LzTab), 8 ≤ bufBits → bufBits ≤ 16 → t.valid = true →
    ∀ i, wellFormed (.lz bufBits t) i = true →
      ∀ (r : BitSrc) (tail : List Bool), r.nacc ≤ 7 → r.acc.toNat < 2 ^ r.nacc →
        r.bits = encode (.lz bufBits t) i ++ tail →
        ∃ r', decode (.lz bufBits t) r = .ok i r' ∧ r'.bits = tail ∧ r'.nacc ≤ 7 ∧ r'.acc.toNat < 2 ^ r'.nacc

/-- What any decoder accepts is a well-formed instruction of its format (30 R136, R141, R147, R153), and the RefPack
decoder has no illegal opcode: it fails only where the stream ends (42 R230). -/
def Obligations.DecodedInstructionsWellFormed : Prop :=
  (∀ r i r', decode .hostop r = .ok i r' → wellFormed .hostop i = true) ∧
  (∀ r i r', decode .rp r = .ok i r' → wellFormed .rp i = true) ∧
  (∀ clue isNode r i r', decode (.bt clue isNode) r = .ok i r' → wellFormed (.bt clue isNode) i = true) ∧
  (∀ (t : HrTab) r i r', t.valid = true → decode (.hr t) r = .ok i r' → wellFormed (.hr t) i = true) ∧
  (∀ bufBits (t : LzTab) r i r', 8 ≤ bufBits → t.valid = true → decode (.lz bufBits t) r = .ok i r' →
    wellFormed (.lz bufBits t) i = true) ∧
  (∀ r e st r', decode .rp r = .err e st r' → e = .truncated ∧ r'.bytes = [])

/-- 41 R217, 20_memory.md R88: the bit reader takes the next bits, first bit most significant, or reports the end of the
stream after fetching every byte. -/
def Obligations.BitReaderTakesNextBits : Prop :=
  ∀ (st : Stage) (nb : Nat) (r : BitSrc), nb ≤ 16 → r.nacc ≤ 7 → r.acc.toNat < 2 ^ r.nacc →
    (nb ≤ r.bits.length → ∃ v r', getbits st nb r = .ok v r' ∧ natBits nb v = r.bits.take nb ∧
      r'.bits = r.bits.drop nb ∧ v < 2 ^ nb ∧ r'.nacc ≤ 7 ∧ r'.acc.toNat < 2 ^ r'.nacc ∧
      r'.used + r'.bytes.length = r.used + r.bytes.length) ∧
    (r.bits.length < nb → ∃ r', getbits st nb r = .err .truncated st r' ∧ r'.bytes = [] ∧
      r'.used = r.used + r.bytes.length)

/-- 41 R213: the bit writer appends the bits of a value, and between calls holds at most seven. -/
def Obligations.BitWriterAppendsBits : Prop :=
  ∀ (w : BitSink) (nb v : Nat), nb ≤ 16 → v < 2 ^ nb → w.nacc ≤ 7 → w.acc.toNat < 2 ^ w.nacc →
    bytesBits (w.put nb v).out ++ natBits (w.put nb v).nacc (w.put nb v).acc.toNat =
        bytesBits w.out ++ natBits w.nacc w.acc.toNat ++ natBits nb v ∧
      (w.put nb v).nacc ≤ 7 ∧ (w.put nb v).acc.toNat < 2 ^ (w.put nb v).nacc

/-! ## The step -/

/-- A step runs the instruction its words decode to: the operation in the host registers once `START` is written (40
R180); in a running `DECODE` the next command of its stream, on the state after its words (42 R230, 44 R300, 45 R393, 46
R430), the LightZhl symbol counted first (46 R445). An idle block stays as it is (the model's choice, log 7). -/
def Obligations.StepRunsDecodedInstruction : Prop :=
  (∀ s, s.start = true → step s = exec (decodeHostop s.codecSel s.op) s) ∧
  (∀ s i r, s.start = false → s.decoding .rp = true → decode .rp s.reader = .ok i r →
    step s = exec i ((noteRpBytes r.used s).setReader r)) ∧
  (∀ s i r, s.start = false → s.decoding .bt = true →
    decode (.bt s.ctx.bt.clue s.ctx.bt.isNode) s.reader = .ok i r → step s = exec i (s.setReader r)) ∧
  (∀ s i r, s.start = false → s.decoding .hr = true → decode (.hr s.ctx.hr.tab) s.reader = .ok i r →
    step s = exec i (s.setReader r)) ∧
  (∀ s i r, s.start = false → s.decoding .lz = true →
    decode (.lz s.params.lzBufBits s.ctx.lz.tab) s.reader = .ok i r →
    ∃ g sym, (∃ r₀, getCode s.ctx.lz.tab s.reader = .ok (g, sym) r₀) ∧
      step s = exec i ((noteLzSymbol g sym s).setReader r)) ∧
  (∀ s, s.start = false → s.busy = false → step s = .next s)

/-- A command whose words the stream cannot supply or that are no code ends the operation with the cause the decoder
names (42 R232, 45 R395, R398, 46 R444, R445; 60 R504), `DIAG.sp` where the reader stood. -/
def Obligations.StepRejectsBadWords : Prop :=
  ∀ s e st r, s.start = false →
    (s.decoding .rp = true ∧ decode .rp s.reader = .err e st r ∨
      s.decoding .bt = true ∧ decode (.bt s.ctx.bt.clue s.ctx.bt.isNode) s.reader = .err e st r ∨
      s.decoding .hr = true ∧ decode (.hr s.ctx.hr.tab) s.reader = .err e st r ∨
      s.decoding .lz = true ∧ decode (.lz s.params.lzBufBits s.ctx.lz.tab) s.reader = .err e st r) →
    ∃ t, step s = .next t ∧ FailedWith (Cause.ofReject e) t ∧ InputsKept s t ∧
      t.diag.sp = BitVec.ofNat 32 (s.ctx.sp + r.used) ∧ t.diag.dp = BitVec.ofNat 32 s.ctx.dp ∧
      (s.decoding .lz = true → t.diag.stage = st ∧ t.diag.acc = r.acc ∧ t.diag.wp = BitVec.ofNat 32 s.ctx.lz.wp)

/-- No step of a machine whose registers are consistent faults or refuses, unless the host writes `START` while an
operation runs (20_memory.md R101, 70 R557; then the machine stops: the model's choice, log 8). A stream command outside a
running operation has no meaning (00_scope.md R10; the refusal is the model's choice, log 9). -/
def Obligations.StepStopsOnlyOnForbiddenStart : Prop :=
  (∀ s, RegistersConsistent s → HostKeepsRules s → ∃ t, step s = .next t) ∧
  (∀ s, s.start = true → s.busy = true → step s = .fault .startWhileBusy) ∧
  (∀ i s, hostopOf i ≠ none → s.busy = true → exec i s = .fault .startWhileBusy) ∧
  (∀ i s, hostopOf i = none → s.busy = false → exec i s = .refused .noDecodeRunning)

/-! ## Reset -/

/-- 70 R541, 10_state.md R32: the values after power-on reset, for every descriptor and every open parameter; the
capability bits of this spec's descriptors; and an engine without a direction fails the operation. -/
def Obligations.ResetValues : Prop :=
  (∀ d p, Params.legal p →
    let r := State.resetWith d p
    r.codecSel = 0 ∧ r.op = 0 ∧ r.start = false ∧ r.busy = false ∧ r.done = false ∧
    r.status.code = 0 ∧ r.cause.code = 0 ∧ r.result = 0 ∧ r.srcLen = 0 ∧ r.dstLen = 0 ∧
    r.outLimit.toNat = r.params.maxLen ∧ r.diag = ⟨0, 0, .none, 0, 0, 0, 0, 0⟩ ∧
    r.cfg.rpQuick = false ∧ r.cfg.hrDeltaPasses = 0 ∧ r.cfg.lzHashSel = false ∧
    r.cfg.btPairsPerPass = 1 ∧ r.cfg.btThreshold = 3 ∧ r.cfg.btMaxPasses = 256 ∧ r.desc = d ∧ r.params = p) ∧
  State.reset = State.resetWith Descriptors.reset Params.default ∧ Params.legal Params.default ∧
  (∀ c, (State.reset.desc.of c).canEncode = true ∧ (State.reset.desc.of c).canDecode = true ∧
    (State.reset.desc.of c).size32 = decide (c = .rp ∨ c = .hr)) ∧
  (∀ c d p, (d.of c).canEncode = false →
    ∃ t, exec (.encode c) (State.resetWith d p) = .next t ∧ t.status = .unsupported ∧ t.cause = .noDirection) ∧
  (∀ c d p, (d.of c).canDecode = false →
    ∃ t, exec (.decode c) (State.resetWith d p) = .next t ∧ t.status = .unsupported ∧ t.cause = .noDirection)

/-- 40 R180, 70 R542: what `START` clears, and the fresh context of a call on `n` bytes. -/
def Obligations.StartGivesFreshContext : Prop :=
  ∀ c op s,
    let b := beginOp c op s
    b.busy = true ∧ b.start = false ∧ b.done = false ∧ b.status = .ok ∧ b.cause = .none ∧ b.result = 0 ∧
    b.dstLen = 0 ∧ b.diag = Diag.zero ∧ InputsKept s b ∧ b.dst = s.dst ∧
    b.ctx.sp = 0 ∧ b.ctx.dp = 0 ∧ b.ctx.acc = 0 ∧ b.ctx.nacc = 0 ∧ b.ctx.n = s.srcLen.toNat ∧
    b.ctx.rpEnc.cp = 0 ∧ b.ctx.rpEnc.run = 0 ∧ (∀ h, b.ctx.rpEnc.head.look h = none) ∧
    (∀ v, isNodeByte b.ctx.bt.isNode v = false) ∧ b.ctx.bt.stack = [] ∧
    b.ctx.btEnc.nodes = [] ∧ b.ctx.btEnc.passes = 0 ∧
    (∀ v, b.ctx.hr.cnt.getD 0 v = 0 ∧ b.ctx.hr.len.getD 0 v = 0 ∧ b.ctx.hr.assigned.getD false v = false) ∧
    (∀ l, b.ctx.hr.tab.bl.getD l 0 = 0) ∧ b.ctx.hr.cur = 255 ∧
    (∀ v, b.ctx.lz.stat.getD 0 v = 0) ∧ (∀ p, p < 274 → b.ctx.lz.tab.order[p]? = some (273 - p)) ∧
    b.ctx.lz.wp = 0 ∧ b.ctx.lz.nsym = 0 ∧ b.ctx.lz.pos = 0 ∧ b.ctx.lz.nraw = 0 ∧
    (∀ h, b.ctx.lz.lzhead.look h = none)

/-! ## Failures -/

/-- 60 R504, R505, R506, R510: every step that ends an operation without success leaves the registers of a raised failure,
and its cause is one the operation can end in. -/
def Obligations.OperationsFailOnlyAsListed : Prop :=
  ∀ s t, (s.start = true ∨ s.busy = true) → step s = .next t → t.busy = false → t.status ≠ .ok →
    FailedWith t.cause t ∧ InputsKept s t ∧ t.cause ∈ operationCauses (Codec.ofSel s.codecSel) s.op

/-! ## Host operations -/

/-- 40 R181: `ABOUT` writes the descriptor in this layout, and nothing else. -/
def Obligations.AboutWritesDescriptor : Prop :=
  ∀ c s, s.busy = false →
    let d := s.desc.of c
    let out : List Byte :=
      [d.sig.extractLsb' 24 8, d.sig.extractLsb' 16 8, d.sig.extractLsb' 8 8, d.sig.extractLsb' 0 8,
        BitVec.ofNat 8 (d.canEncode.toNat + d.canDecode.toNat * 2 + d.size32.toNat * 4),
        d.version.extractLsb' 24 8, d.version.extractLsb' 16 8, d.version.extractLsb' 8 8,
        d.version.extractLsb' 0 8, BitVec.ofNat 8 d.shortName.length] ++ d.shortName ++
        [BitVec.ofNat 8 d.longName.length] ++ d.longName
    ∃ t, exec (.about c) s = .next t ∧ EndedWith out t ∧ InputsKept s t ∧
      t.dstLen = BitVec.ofNat 32 (11 + d.shortName.length + d.longName.length) ∧
      t.codecSel = c.sel ∧ t.op = 0 ∧ t.start = false ∧ t.ctx = Ctx.fresh 0 ∧ t.freeCount = s.freeCount ∧
      ∀ a, out.length ≤ a → t.dst.read a = s.dst.read a

/-- 40 R182, for the three headed engines with the magics of 30 R122, R124, R126: `RESULT` is 1 exactly when the first two
bytes are a magic of the engine; no memory is written (20_memory.md R81). -/
def Obligations.IsValidAnswers : Prop :=
  ∀ c s, c ≠ .lz → s.busy = false →
    let magic := (s.src.read 0).toNat * 256 + (s.src.read 1).toNat
    let known : Bool :=
      match c with
      | .rp => decide (magic ∈ [0x10FB, 0x11FB, 0x90FB, 0x91FB])
      | .bt => decide (magic ∈ [0x46FB, 0x47FB])
      | _ => decide (magic % 256 = 0xFB ∧ 0x30 ≤ magic / 256 % 128 ∧ magic / 256 % 128 ≤ 0x35)
    ∃ t, exec (.isValid c) s = .next t ∧ t.status = .ok ∧ t.cause = .none ∧ t.done = true ∧ t.busy = false ∧
      t.dstLen = 0 ∧ t.diag = Diag.zero ∧ t.result = (if 2 ≤ s.srcLen.toNat ∧ known = true then 1 else 0) ∧
      t.dst = s.dst ∧ InputsKept s t ∧ t.codecSel = c.sel ∧ t.op = 1 ∧ t.start = false ∧ t.ctx = Ctx.fresh 0 ∧
      t.freeCount = s.freeCount

/-- 40 R183 with the header of 30 R121 to R126: the declared length, or the failure of the first check that fails; no
memory is written. The widths are worked out from the magic here. -/
def Obligations.ExtractSizeAnswers : Prop :=
  ∀ c s, c ≠ .lz → s.busy = false →
    let magic := (s.src.read 0).toNat * 256 + (s.src.read 1).toNat
    let n := s.srcLen.toNat
    let w := if 0x8000 ≤ magic then 4 else 3
    let skip := if magic / 256 % 2 = 1 then w else 0
    let at0 := 2 + skip
    let ulen :=
      if w = 4 then
        (s.src.read at0).toNat * 2 ^ 24 + (s.src.read (at0 + 1)).toNat * 2 ^ 16 +
          (s.src.read (at0 + 2)).toNat * 2 ^ 8 + (s.src.read (at0 + 3)).toNat
      else
        (s.src.read at0).toNat * 2 ^ 16 + (s.src.read (at0 + 1)).toNat * 2 ^ 8 + (s.src.read (at0 + 2)).toNat
    ∃ t, exec (.extractSize c) s = .next t ∧ t.dst = s.dst ∧ InputsKept s t ∧ t.codecSel = c.sel ∧ t.op = 2 ∧
      (n < 2 ∨ magic ∉ magics c → FailedWith .badMagic t) ∧
      (2 ≤ n → magic ∈ magics c → n < at0 + w → FailedWith .truncated t) ∧
      (2 ≤ n → magic ∈ magics c → at0 + w ≤ n → s.params.maxLen < ulen → FailedWith .lengthMismatch t) ∧
      (2 ≤ n → magic ∈ magics c → at0 + w ≤ n → ulen ≤ s.params.maxLen →
        t.status = .ok ∧ t.cause = .none ∧ t.done = true ∧ t.busy = false ∧ t.dstLen = 0 ∧ t.diag = Diag.zero ∧
          t.result = BitVec.ofNat 32 ulen)

/-- 30 R172, 40 R187: a reserved `OP` ends with `BAD_OP`, and `IS_VALID` and `EXTRACT_SIZE` of LightZhl with
`NO_NATIVE_HEADER`; no memory is written (20_memory.md R81). That no free value is drawn is the model's own clause (log
2). -/
def Obligations.UnsupportedRequestsRefused : Prop :=
  ∀ s, s.busy = false →
    (∀ c, ∀ i ∈ [Instr.hostopReserved5 c, .hostopReserved6 c, .hostopReserved7 c],
      ∃ t, exec i s = .next t ∧ t.status = .unsupported ∧ t.cause = .badOp ∧ t.dstLen = 0 ∧ t.result = 0 ∧
        t.busy = false ∧ t.done = true ∧ t.start = false ∧ t.dst = s.dst ∧ InputsKept s t ∧
        t.freeCount = s.freeCount) ∧
    (∀ i ∈ [Instr.isValid .lz, .extractSize .lz],
      ∃ t, exec i s = .next t ∧ t.status = .unsupported ∧ t.cause = .noNativeHeader ∧ t.dstLen = 0 ∧
        t.result = 0 ∧ t.busy = false ∧ t.done = true ∧ t.start = false ∧ t.dst = s.dst ∧ InputsKept s t ∧
        t.freeCount = s.freeCount)

/-- 40 R184, R185, R186, 44 R321, 45 R350: the refusals of `ENCODE` and `DECODE`, decided before the input is read; the
length check of BinaryTree comes before its configuration check (read from R321, log 22), and `DIAG` is zero (log 24). -/
def Obligations.EncodeDecodeRefusals : Prop :=
  ∀ s, s.busy = false →
    (∀ c, (s.desc.of c).canEncode = false →
      ∃ t, exec (.encode c) s = .next t ∧ FailedWith .noDirection t ∧ t.diag = Diag.zero ∧ InputsKept s t) ∧
    (∀ c, (s.desc.of c).canDecode = false →
      ∃ t, exec (.decode c) s = .next t ∧ FailedWith .noDirection t ∧ t.diag = Diag.zero ∧ InputsKept s t) ∧
    (s.desc.bt.canEncode = true → 2 ^ 24 ≤ s.srcLen.toNat →
      ∃ t, exec (.encode .bt) s = .next t ∧ FailedWith .lengthUnrepresentable t ∧ t.diag = Diag.zero ∧
        InputsKept s t) ∧
    (s.desc.bt.canEncode = true → s.srcLen.toNat < 2 ^ 24 → s.cfg.btPairsPerPass = 0 →
      ∃ t, exec (.encode .bt) s = .next t ∧ FailedWith .badConfig t ∧ t.diag = Diag.zero ∧ InputsKept s t) ∧
    (s.desc.hr.canEncode = true → s.cfg.hrDeltaPasses = 3 →
      ∃ t, exec (.encode .hr) s = .next t ∧ FailedWith .badConfig t ∧ t.diag = Diag.zero ∧ InputsKept s t)

/-- 40 R184, 60 R507: `ENCODE` ends with success on every input its engine's header can express, whatever the bytes, with
the encoder's stream in `DST` and nothing else changed. -/
def Obligations.EncodeNeverFailsOnData : Prop :=
  ∀ c s, s.busy = false → encodable c s →
    ∃ t, exec (.encode c) s = .next t ∧ EndedWith (encoderOutput c s) t ∧ InputsKept s t ∧ t.codecSel = c.sel ∧
      t.op = 3 ∧ t.start = false ∧ t.ctx = Ctx.fresh 0 ∧ t.freeCount = s.freeCount ∧
      ∀ a, (encoderOutput c s).length ≤ a → t.dst.read a = s.dst.read a

/-- 30 R121, 42 R230: `DECODE` of RefPack reaches its first command behind a header that parses. On every headed engine a
header that does not parse ends the operation with that cause (60 R505, R509). That a declared length above `MAX_LEN` is
`LENGTH_MISMATCH` in a `DECODE` of BinaryTree and Huffman too is the model's reading (log 23), and so is `DIAG.sp` at the
failing field (log 19). -/
def Obligations.DecodeReadsHeader : Prop :=
  (∀ s h, s.busy = false → s.desc.rp.canDecode = true →
    parseHeader .rp s.src s.srcLen.toNat s.params.maxLen = .ok h →
    ∃ t, exec (.decode .rp) s = .next t ∧ BodyReached .rp h.bodyAt t ∧ t.ctx.ulen = h.ulen ∧
      t.ctx.magic.toNat = h.magic ∧ t.dst = s.dst ∧ InputsKept s t ∧ t.freeCount = s.freeCount) ∧
  (∀ c s cause sp, c ≠ .lz → s.busy = false → (s.desc.of c).canDecode = true →
    parseHeader c s.src s.srcLen.toNat s.params.maxLen = .error (cause, sp) →
    ∃ t, exec (.decode c) s = .next t ∧ FailedWith cause t ∧ t.diag.sp = BitVec.ofNat 32 sp ∧ t.diag.dp = 0 ∧
      InputsKept s t)

/-- 44 R300, R304: `DECODE` of BinaryTree reads clue, count and the triples, byte by byte behind the header; a triple that
names the clue or a node already defined is `BAD_TABLE`; a stream that ends before the last triple is `TRUNCATED`. -/
def Obligations.DecodeLoadsNodeTable : Prop :=
  ∀ s h, s.busy = false → s.desc.bt.canDecode = true →
    parseHeader .bt s.src s.srcLen.toNat s.params.maxLen = .ok h →
    let clue := s.src.read h.bodyAt
    let count := (s.src.read (h.bodyAt + 1)).toNat
    let node := fun i => s.src.read (h.bodyAt + 2 + 3 * i)
    (h.bodyAt + 2 + 3 * count ≤ s.srcLen.toNat → (∀ i, i < count → node i ≠ clue) →
      (∀ i j, i < j → j < count → node i ≠ node j) →
      ∃ t, exec (.decode .bt) s = .next t ∧ BodyReached .bt (h.bodyAt + 2 + 3 * count) t ∧ t.ctx.ulen = h.ulen ∧
        t.ctx.bt.clue = clue ∧ t.ctx.bt.count.toNat = count ∧ t.ctx.bt.stack = [] ∧
        (∀ v, isNodeByte t.ctx.bt.isNode v = true ↔ ∃ i, i < count ∧ node i = v) ∧
        (∀ i, i < count → t.ctx.bt.left.read (node i).toNat = s.src.read (h.bodyAt + 3 + 3 * i) ∧
          t.ctx.bt.right.read (node i).toNat = s.src.read (h.bodyAt + 4 + 3 * i)) ∧
        t.dst = s.dst ∧ InputsKept s t ∧ t.freeCount = s.freeCount) ∧
    (∀ j, j < count → h.bodyAt + 5 + 3 * j ≤ s.srcLen.toNat →
      (∀ i, i < j → node i ≠ clue) → (∀ i k, i < k → k < j → node i ≠ node k) →
      (node j = clue ∨ ∃ i, i < j ∧ node i = node j) →
      ∃ t, exec (.decode .bt) s = .next t ∧ FailedWith .badTable t ∧
        t.diag.sp = BitVec.ofNat 32 (h.bodyAt + 5 + 3 * j) ∧ t.diag.dp = 0 ∧ InputsKept s t) ∧
    (s.srcLen.toNat < h.bodyAt + 2 →
      ∃ t, exec (.decode .bt) s = .next t ∧ FailedWith .truncated t ∧ t.diag.sp = s.srcLen ∧ t.diag.dp = 0 ∧
        InputsKept s t) ∧
    (h.bodyAt + 2 ≤ s.srcLen.toNat → s.srcLen.toNat < h.bodyAt + 2 + 3 * count →
      (∀ i, h.bodyAt + 5 + 3 * i ≤ s.srcLen.toNat → node i ≠ clue) →
      (∀ i j, i < j → h.bodyAt + 5 + 3 * j ≤ s.srcLen.toNat → node i ≠ node j) →
      ∃ t, exec (.decode .bt) s = .next t ∧ FailedWith .truncated t ∧ t.diag.sp = s.srcLen ∧ t.diag.dp = 0 ∧
        InputsKept s t)

/-- 45 R393, R394, R396, R397, 30 R145, R146: `DECODE` of Huffman-with-Runlength reads the table of its stream from the bits
behind the header, and takes the delta passes from the magic. What it accepts is a valid table whose bits, clue, `maxlen`,
counts and leapfrog skips, stood there; every valid table written so is accepted. Refused are a table cut short, no or too
many codes or a Kraft sum above 1, a skip beyond the unassigned values, and a clue without a code. -/
def Obligations.DecodeLoadsHuffmanTable : Prop :=
  ∀ s h, s.busy = false → s.desc.hr.canDecode = true →
    parseHeader .hr s.src s.srcLen.toNat s.params.maxLen = .ok h →
    let body : BitSrc := ⟨s.src.bytesFrom h.bodyAt (s.srcLen.toNat - h.bodyAt), 0, 0, 0⟩
    let failsWith : Cause → Prop := fun c =>
      ∃ t, exec (.decode .hr) s = .next t ∧ FailedWith c t ∧ t.diag.dp = 0 ∧ InputsKept s t
    (∀ tab leap r, getHrTab body = .ok (tab, leap) r →
      ∃ t, exec (.decode .hr) s = .next t ∧ BodyReached .hr (h.bodyAt + r.used) t ∧ t.ctx.ulen = h.ulen ∧
        t.ctx.acc = r.acc ∧ t.ctx.nacc = r.nacc ∧ t.ctx.hr.tab = tab ∧ tab.valid = true ∧
        body.bits = hrTableBits tab ++ r.bits ∧
        t.ctx.hr.passes = h.magic / 512 % 4 ∧ t.dst = s.dst ∧ InputsKept s t ∧ t.freeCount = s.freeCount) ∧
    (∀ e st r, getHrTab body = .err e st r →
      ∃ t, exec (.decode .hr) s = .next t ∧ FailedWith (Cause.ofReject e) t ∧
        t.diag.sp = BitVec.ofNat 32 (h.bodyAt + r.used) ∧ InputsKept s t) ∧
    (∀ (tab : HrTab) tail, tab.valid = true → body.bits = hrTableBits tab ++ tail →
      ∃ t, exec (.decode .hr) s = .next t ∧ t.decoding .hr = true ∧ t.ctx.hr.tab = tab ∧ t.reader.bits = tail) ∧
    (∀ tab : HrTab, tab.valid = true → body.bits <+: hrTableBits tab → body.bits ≠ hrTableBits tab →
      failsWith .truncated) ∧
    (∀ clue maxlen bl tail, clue < 256 → maxlen ≤ 15 → bl.length = maxlen → (∀ v ∈ bl, v ≤ 65534) →
      body.bits = hrHeadBits clue maxlen bl ++ tail →
      (maxlen = 0 ∨ bl.sum = 0 ∨ 256 < bl.sum ∨ 2 ^ maxlen < HrTab.kraft bl) → failsWith .badTable) ∧
    (∀ clue bl syms k tail, clue < 256 → 1 ≤ bl.length → bl.length ≤ 15 → bl.sum ≤ 256 →
      HrTab.kraft bl ≤ 2 ^ bl.length → syms.Nodup → syms.length < bl.sum → k ≤ 65534 → 256 ≤ k + syms.length →
      body.bits = hrHeadBits clue bl.length bl ++ hrSkipBits syms ++ numBits k ++ tail → failsWith .badTable) ∧
    (∀ (tab : HrTab) c tail, HrTab.valid { tab with clue := c } = true → tab.clue ∉ tab.syms →
      body.bits = hrTableBits tab ++ tail → failsWith .badTable)

/-- 46 R430, R444, 30 R151: `DECODE` of LightZhl reads sixteen four-bit widths from the first eight bytes; a width above
12 among those read is `BAD_TABLE`, a table cut short `TRUNCATED`. -/
def Obligations.DecodeLoadsGroupTable : Prop :=
  ∀ s, s.busy = false → s.desc.lz.canDecode = true →
    let field := fun g => if g % 2 = 0 then (s.src.read (g / 2)).toNat / 16 else (s.src.read (g / 2)).toNat % 16
    (8 ≤ s.srcLen.toNat → (∀ g, g < 16 → field g ≤ 12) →
      ∃ t, exec (.decode .lz) s = .next t ∧ BodyReached .lz 8 t ∧ t.ctx.nacc = 0 ∧ t.ctx.lz.wp = 0 ∧
        (∀ g, g < 16 → t.ctx.lz.tab.width g = field g) ∧
        (∀ g, g < 16 → t.ctx.lz.tab.start g = ((List.range g).map fun h => 2 ^ field h).sum) ∧
        (∀ p, p < 274 → t.ctx.lz.tab.order[p]? = some (273 - p)) ∧ t.ctx.lz.tab.valid = true ∧
        (∀ v, t.ctx.lz.stat.getD 0 v = 0) ∧ t.dst = s.dst ∧ InputsKept s t ∧ t.freeCount = s.freeCount) ∧
    (∀ g, g < 16 → g / 2 < s.srcLen.toNat → (∀ h, h < g → field h ≤ 12) → 12 < field g →
      ∃ t, exec (.decode .lz) s = .next t ∧ FailedWith .badTable t ∧ t.diag.stage = .table ∧
        t.diag.sp = BitVec.ofNat 32 (g / 2 + 1) ∧ InputsKept s t) ∧
    (s.srcLen.toNat < 8 → (∀ g, g / 2 < s.srcLen.toNat → field g ≤ 12) →
      ∃ t, exec (.decode .lz) s = .next t ∧ FailedWith .truncated t ∧ t.diag.stage = .table ∧
        t.diag.sp = s.srcLen ∧ InputsKept s t)

/-! ## RefPack commands -/

/-- 42 R232 to R236, 70 R551, R555: a match command puts out its literals and then, byte by byte, the copy whose distance
counts from behind them; nothing else changes but the command's own registers. -/
def Obligations.RefPackMatchCompletes : Prop :=
  ∀ P L D s, s.decoding .rp = true → s.ctx.sp + P ≤ s.srcLen.toNat → s.ctx.dp + P + L ≤ s.ctx.ulen → 1 ≤ D →
    D ≤ s.ctx.dp + P →
    ∀ i ∈ [Instr.rpShort P L D, .rpInt P L D, .rpLong P L D],
      exec i s = .next (emitted (matchBytes P L D s) (fetched P (setRpFields P L D s)))

/-- 42 R237: a literal command puts out its literals; nothing else changes but the count register. -/
def Obligations.RefPackLiteralCompletes : Prop :=
  ∀ P s, s.decoding .rp = true → s.ctx.sp + P ≤ s.srcLen.toNat → s.ctx.dp + P ≤ s.ctx.ulen →
    exec (.rpLiteral P) s = .next (emitted (literals P s) (fetched P (setRpCount P s)))

/-- 42 R232 to R238, R240, 20_memory.md R84 to R86: the first check that fails in a command names the cause, with the cursors
at that check; the literals of `RP.LITERAL` and `RP.EOF` fail as those of a match command do. -/
def Obligations.RefPackCommandFailures : Prop :=
  (∀ P L D s, s.decoding .rp = true → s.ctx.sp ≤ s.srcLen.toNat → s.ctx.dp ≤ s.ctx.ulen →
    ∀ i ∈ [Instr.rpShort P L D, .rpInt P L D, .rpLong P L D, .rpLiteral P, .rpEof P],
      (s.srcLen.toNat < s.ctx.sp + P → s.ctx.dp + (s.srcLen.toNat - s.ctx.sp) ≤ s.ctx.ulen →
        ∃ t, exec i s = .next t ∧ FailedWith .truncated t ∧ InputsKept s t ∧ t.diag.sp = s.srcLen ∧
          t.diag.dp = BitVec.ofNat 32 (s.ctx.dp + (s.srcLen.toNat - s.ctx.sp))) ∧
      (s.ctx.ulen < s.ctx.dp + P → s.ctx.sp + (s.ctx.ulen - s.ctx.dp) < s.srcLen.toNat →
        ∃ t, exec i s = .next t ∧ FailedWith .outputOverrun t ∧ InputsKept s t ∧
          t.diag.sp = BitVec.ofNat 32 (s.ctx.sp + (s.ctx.ulen - s.ctx.dp) + 1) ∧
          t.diag.dp = BitVec.ofNat 32 s.ctx.ulen)) ∧
  (∀ P L D s, s.decoding .rp = true → 1 ≤ D → s.ctx.sp + P ≤ s.srcLen.toNat → s.ctx.dp + P ≤ s.ctx.ulen →
    ∀ i ∈ [Instr.rpShort P L D, .rpInt P L D, .rpLong P L D],
      (s.ctx.dp + P < D →
        ∃ t, exec i s = .next t ∧ FailedWith .badDistance t ∧ InputsKept s t ∧
          t.diag.sp = BitVec.ofNat 32 (s.ctx.sp + P) ∧ t.diag.dp = BitVec.ofNat 32 (s.ctx.dp + P)) ∧
      (D ≤ s.ctx.dp + P → s.ctx.ulen < s.ctx.dp + P + L →
        ∃ t, exec i s = .next t ∧ FailedWith .outputOverrun t ∧ InputsKept s t ∧
          t.diag.sp = BitVec.ofNat 32 (s.ctx.sp + P) ∧ t.diag.dp = BitVec.ofNat 32 s.ctx.ulen))

/-! ## The ends of the headed byte streams -/

/-- 42 R238, R230, 44 R308, R300: the end command puts out its trailing literals (RefPack) and ends the operation with
success when the output has the declared length, with `LENGTH_MISMATCH` otherwise. -/
def Obligations.ByteStreamEndChecksLength : Prop :=
  (∀ P s, s.decoding .rp = true → s.ctx.sp + P ≤ s.srcLen.toNat → s.ctx.dp + P ≤ s.ctx.ulen →
    (s.ctx.dp + P = s.ctx.ulen →
      exec (.rpEof P) s = .next (finish (emitted (literals P s) s))) ∧
    (s.ctx.dp + P ≠ s.ctx.ulen →
      ∃ t, exec (.rpEof P) s = .next t ∧ FailedWith .lengthMismatch t ∧ InputsKept s t ∧
        t.diag.sp = BitVec.ofNat 32 (s.ctx.sp + P) ∧ t.diag.dp = BitVec.ofNat 32 (s.ctx.dp + P))) ∧
  (∀ c s, s.decoding .bt = true →
    (s.ctx.dp = s.ctx.ulen → exec (.btEnd c) s = .next (finish s)) ∧
    (s.ctx.dp ≠ s.ctx.ulen →
      ∃ t, exec (.btEnd c) s = .next t ∧ FailedWith .lengthMismatch t ∧ InputsKept s t ∧
        t.diag.dp = BitVec.ofNat 32 s.ctx.dp))

/-! ## BinaryTree and Huffman items -/

/-- 44 R305, R307, 45 R399, R401, 20_memory.md R86: the items that put out one byte; without room, `OUTPUT_OVERRUN`. -/
def Obligations.OneByteItemsEmit : Prop :=
  ∀ (b c : Byte) s,
    (s.decoding .bt = true → ∀ i ∈ [Instr.btLeaf b, .btEsc c b],
      (s.ctx.dp < s.ctx.ulen → exec i s = .next (emitted [b] s)) ∧
      (s.ctx.ulen ≤ s.ctx.dp → ∃ t, exec i s = .next t ∧ FailedWith .outputOverrun t ∧ InputsKept s t)) ∧
    (s.decoding .hr = true → ∀ i ∈ [Instr.hrLit b, .hrEsc b],
      (s.ctx.dp < s.ctx.ulen → exec i s = .next (emitted [b] s)) ∧
      (s.ctx.ulen ≤ s.ctx.dp → ∃ t, exec i s = .next t ∧ FailedWith .outputOverrun t ∧ InputsKept s t))

/-- 44 R306, R309, R310: a node item puts out the leaves of its tree, left to right, when no path of it is deeper than the
stack allows. -/
def Obligations.BinaryTreeNodeExpands : Prop :=
  ∀ (b : Byte) s h out, s.decoding .bt = true →
    btLeaves s.ctx.bt.isNode s.ctx.bt.left s.ctx.bt.right h b = some out → h + 1 ≤ s.params.btStackDepth →
    s.ctx.dp + out.length ≤ s.ctx.ulen →
    exec (.btNode b) s = .next (emitted out (setBtStack [] s))

/-- 44 R309, R311, R312: every expansion ends, with an empty stack or a failure. A node whose tree has a cycle, so that no
bound is one on its paths, overflows the stack or the output; a node that is its own left child overflows the stack at
once, one that is its own right child and has a leaf to the left overruns the output. -/
def Obligations.BinaryTreeExpansionEnds : Prop :=
  ∀ (b : Byte) s, s.decoding .bt = true → s.ctx.dp ≤ s.ctx.ulen → 1 ≤ s.params.btStackDepth →
    (∃ t, exec (.btNode b) s = .next t ∧
      (t.busy = true ∧ t.ctx.bt.stack = [] ∨ FailedWith .stackOverflow t ∨ FailedWith .outputOverrun t)) ∧
    ((∀ h, btLeaves s.ctx.bt.isNode s.ctx.bt.left s.ctx.bt.right h b = none) →
      ∃ t, exec (.btNode b) s = .next t ∧ (FailedWith .stackOverflow t ∨ FailedWith .outputOverrun t)) ∧
    (isNodeByte s.ctx.bt.isNode b = true → s.ctx.bt.left.read b.toNat = b →
      ∃ t, exec (.btNode b) s = .next t ∧ FailedWith .stackOverflow t ∧
        t.diag.dp = BitVec.ofNat 32 s.ctx.dp) ∧
    (isNodeByte s.ctx.bt.isNode b = true → s.ctx.bt.right.read b.toNat = b → 2 ≤ s.params.btStackDepth →
      isNodeByte s.ctx.bt.isNode (s.ctx.bt.left.read b.toNat) = false →
      ∃ t, exec (.btNode b) s = .next t ∧ FailedWith .outputOverrun t ∧
        t.diag.dp = BitVec.ofNat 32 s.ctx.ulen)

/-- 45 R400, 70 R551: a run repeats the last byte put out; before any output it is `BAD_RUN`; past the declared length it
is `OUTPUT_OVERRUN`. -/
def Obligations.HuffmanRunRepeatsLastByte : Prop :=
  ∀ k s, s.decoding .hr = true →
    (1 ≤ s.ctx.dp → s.ctx.dp + k ≤ s.ctx.ulen →
      exec (.hrRun k) s = .next (emitted (List.replicate k (s.dst.read (s.ctx.dp - 1))) s)) ∧
    (s.ctx.dp = 0 → ∃ t, exec (.hrRun k) s = .next t ∧ FailedWith .badRun t ∧ InputsKept s t) ∧
    (1 ≤ s.ctx.dp → s.ctx.dp ≤ s.ctx.ulen → s.ctx.ulen < s.ctx.dp + k →
      ∃ t, exec (.hrRun k) s = .next t ∧ FailedWith .outputOverrun t ∧
        t.diag.dp = BitVec.ofNat 32 s.ctx.ulen ∧ InputsKept s t)

/-- 45 R402, R393: the end item checks the length, then undoes the delta passes on the whole output, and ends with
success. -/
def Obligations.HuffmanEndUndoesDelta : Prop :=
  ∀ s, s.decoding .hr = true →
    (s.ctx.dp = s.ctx.ulen →
      ∃ t, exec .hrEof s = .next t ∧
        t = { finish s with dst := t.dst } ∧
        t.dst.bytesFrom 0 s.ctx.ulen = deltaUndo s.ctx.hr.passes (s.dst.bytesFrom 0 s.ctx.ulen) ∧
        ∀ a, s.ctx.ulen ≤ a → t.dst.read a = s.dst.read a) ∧
    (s.ctx.dp ≠ s.ctx.ulen →
      ∃ t, exec .hrEof s = .next t ∧ FailedWith .lengthMismatch t ∧ InputsKept s t ∧
        t.diag.dp = BitVec.ofNat 32 s.ctx.dp)

/-- 45 R352, R353: the forward filter subtracts the byte before, the inverse filter is the running sum, and it undoes the
forward filter, pass by pass. -/
def Obligations.DeltaFiltersInverse : Prop :=
  (∀ x : List Byte, deltaInverse (deltaForward x) = x) ∧
  (∀ (k : Nat) (x : List Byte), deltaUndo k (deltaPasses k x) = x) ∧
  (∀ (x : List Byte) (i : Nat), i < x.length → (deltaForward x)[i]? =
    some (x.getD i 0 - if i = 0 then 0 else x.getD (i - 1) 0)) ∧
  (∀ (y : List Byte) (i : Nat), i < y.length → (deltaInverse y)[i]? =
    some (y.getD i 0 + if i = 0 then 0 else (deltaInverse y).getD (i - 1) 0))

/-! ## LightZhl symbols -/

/-- 46 R431, R432: a literal goes into `DST` and into the circular buffer; without room, `OUTPUT_OVERRUN` in stage
`COPY`. -/
def Obligations.LightZhlLiteralEmits : Prop :=
  ∀ (b : Byte) s, s.decoding .lz = true →
    (s.ctx.dp < s.outLimit.toNat →
      exec (.lzLit b) s = .next { s with
        dst := s.dst.write s.ctx.dp b
        ctx := { s.ctx with
          dp := s.ctx.dp + 1
          lz := { s.ctx.lz with
            cbuf := s.ctx.lz.cbuf.write (s.ctx.lz.wp % 2 ^ s.params.lzBufBits) b
            wp := s.ctx.lz.wp + 1 } } }) ∧
    (s.outLimit.toNat ≤ s.ctx.dp →
      ∃ t, exec (.lzLit b) s = .next t ∧ FailedWith .outputOverrun t ∧ t.diag.stage = .copy ∧
        t.diag.wp = BitVec.ofNat 32 s.ctx.lz.wp ∧ InputsKept s t)

/-- 46 R433, R434, R437, R436: while the circular buffer mirrors the output, a match has the same result as RefPack's copy
from `DST`, the buffer goes on mirroring it, and nothing else changes. -/
def Obligations.LightZhlMatchCopiesOutput : Prop :=
  ∀ L D s, s.decoding .lz = true → BufferMirrors s → 1 ≤ D → D ≤ s.ctx.lz.wp → D < s.params.lzSize →
    s.ctx.dp + L ≤ s.outLimit.toNat →
    ∀ i ∈ [Instr.lzMatchS L D, .lzMatchX L D],
      ∃ t, exec i s = .next t ∧ BufferMirrors t ∧
        t = { s with
          dst := s.dst.writeList s.ctx.dp (backBytes s.dst s.ctx.dp L D)
          ctx := { s.ctx with
            dp := s.ctx.dp + L
            lz := { s.ctx.lz with cbuf := t.ctx.lz.cbuf, wp := s.ctx.lz.wp + L } } }

/-- 46 R435, R449, R437: a distance of 0 or beyond the output is `BAD_DISTANCE` in stage `DISP` before any byte is copied; a
copy that does not fit is `OUTPUT_OVERRUN` in stage `COPY` at the first byte beyond the limit. -/
def Obligations.LightZhlMatchFailures : Prop :=
  ∀ L D s, s.decoding .lz = true →
    ∀ i ∈ [Instr.lzMatchS L D, .lzMatchX L D],
      (D = 0 ∨ s.ctx.lz.wp < D →
        ∃ t, exec i s = .next t ∧ FailedWith .badDistance t ∧ t.diag.stage = .disp ∧
          t.diag.dp = BitVec.ofNat 32 s.ctx.dp ∧ t.diag.group = BitVec.ofNat 4 s.ctx.lz.group ∧
          t.diag.symbol = BitVec.ofNat 9 s.ctx.lz.symbol ∧ InputsKept s t) ∧
      (1 ≤ D → D ≤ s.ctx.lz.wp → s.ctx.dp ≤ s.outLimit.toNat → s.outLimit.toNat < s.ctx.dp + L →
        ∃ t, exec i s = .next t ∧ FailedWith .outputOverrun t ∧ t.diag.stage = .copy ∧
          t.diag.dp = s.outLimit ∧ InputsKept s t)

/-- 46 R438, R440, R441, R444: a rebuild halves every count, sorts the symbols by descending count and then descending
index, and takes the new widths; it puts nothing out and changes nothing else. -/
def Obligations.LightZhlRebuildReorders : Prop :=
  ∀ (ws : List Nat) s, s.decoding .lz = true → s.ctx.lz.stat.canonical 0 = true →
    ∃ t, exec (.lzRecalc ws) s = .next t ∧
      t = { s with ctx := { s.ctx with lz := { s.ctx.lz with
        stat := t.ctx.lz.stat, tab := ⟨t.ctx.lz.tab.order, ws, t.ctx.lz.tab.base⟩ } } } ∧
      (∀ v, t.ctx.lz.stat.getD 0 v = s.ctx.lz.stat.getD 0 v / 2) ∧
      t.ctx.lz.tab.order.Perm (List.range 274) ∧
      t.ctx.lz.tab.order.Pairwise (fun x y =>
        t.ctx.lz.stat.getD 0 y < t.ctx.lz.stat.getD 0 x ∨
          t.ctx.lz.stat.getD 0 x = t.ctx.lz.stat.getD 0 y ∧ y < x) ∧
      (∀ g, g < ws.length → t.ctx.lz.tab.start g = ((ws.take g).map fun w => 2 ^ w).sum)

/-- 46 R439: the end symbol ends the operation with success, whatever the length, and changes nothing of the output. -/
def Obligations.LightZhlEndSucceeds : Prop :=
  ∀ s, s.decoding .lz = true →
    exec .lzEof s = .next { s with
      status := .ok
      dstLen := BitVec.ofNat 32 s.ctx.dp
      busy := false
      done := true
      ctx := Ctx.fresh 0 }

/-! ## Invariants of every step -/

/-- The invariant of a run holds after power-on reset (70 R541; the contents of the memories are the model's choice, log
1). -/
def Obligations.InvariantHoldsAtReset : Prop := Inv State.reset

/-- Every step keeps the memories and tables in canonical form (20_memory.md R90; the form is the model's). -/
def Obligations.StepKeepsMemoriesCanonical : Prop :=
  ∀ s t, MemoriesCanonical s → step s = .next t → MemoriesCanonical t

/-- Every step keeps the outcome registers consistent (60 R500, R504, R505, R510, 10_state.md R30, R35, 40 R180). Two
clauses of `RegistersConsistent` are the model's choice: that `BUSY` between steps means a `DECODE` (log 6, log 9), and
that the context is `Ctx.fresh 0` while no operation runs (log 17). -/
def Obligations.StepKeepsRegistersConsistent : Prop :=
  ∀ s t, RegistersConsistent s → step s = .next t → RegistersConsistent t

/-- Every step keeps the cursors inside their buffers (20_memory.md R84, R86, 41 R217, 46 R424, R431), and `DIAG.sp` inside
the input (60 R504). -/
def Obligations.StepKeepsCursorsInBounds : Prop :=
  ∀ s t, CursorsInBounds s → step s = .next t → CursorsInBounds t

/-- Every step keeps the code tables codes: no accepted table is anything else (45 R396, R397, 46 R440, R442, R444, 44
R304). -/
def Obligations.StepKeepsTablesValid : Prop :=
  ∀ s t, TablesValid s → step s = .next t → TablesValid t

/-- Every step keeps the circular buffer a mirror of the output (10_state.md R46, 46 R424, R436). -/
def Obligations.StepKeepsBufferMirroring : Prop :=
  ∀ s t, BufferMirrors s → step s = .next t → BufferMirrors t

/-! ## Rules of the whole machine -/

/-- 20_memory.md R81, R105, 10_state.md R31, R33: no step writes `SRC`, `SRC_LEN`, `CFG`, `OUT_LIMIT`, a descriptor or a
parameter, and no instruction does. -/
def Obligations.NothingWritesTheInputs : Prop :=
  (∀ s t, step s = .next t → InputsKept s t) ∧ (∀ i s t, exec i s = .next t → InputsKept s t)

/-- The frame of the stream commands (20_memory.md R80, R82, 10_state.md R24, R25; 42 R231): while the operation goes on, a
command changes only the bytes it puts out, the cursors and its own engine's registers. -/
def Obligations.StreamCommandFrame : Prop :=
  ∀ i s t, exec i s = .next t → hostopOf i = none → t.busy = true →
    t = { s with dst := t.dst, ctx := t.ctx } ∧
    s.ctx.sp ≤ t.ctx.sp ∧ s.ctx.dp ≤ t.ctx.dp ∧
    (∀ a, a < s.ctx.dp ∨ t.ctx.dp ≤ a → t.dst.read a = s.dst.read a) ∧
    t.ctx.magic = s.ctx.magic ∧ t.ctx.ulen = s.ctx.ulen ∧ t.ctx.acc = s.ctx.acc ∧ t.ctx.nacc = s.ctx.nacc ∧
    t.ctx.n = s.ctx.n ∧ t.ctx.rpEnc = s.ctx.rpEnc ∧ t.ctx.btEnc = s.ctx.btEnc ∧ t.ctx.hr = s.ctx.hr ∧
    (s.codecSel ≠ 0 → t.ctx.rp = s.ctx.rp ∧ t.ctx.sp = s.ctx.sp) ∧
    t.ctx.bt = { s.ctx.bt with stack := t.ctx.bt.stack } ∧ (s.codecSel ≠ 1 → t.ctx.bt = s.ctx.bt) ∧
    (s.codecSel ≠ 3 → t.ctx.lz = s.ctx.lz)

/-- 42 R242, 44 R312, 45 R404, 46 R461, 70 R556: every operation ends, within a number of steps its input bounds; the step
is the model's (log 6). -/
def Obligations.EveryOperationEnds : Prop :=
  ∀ s, s.busy = false → s.start = true →
    ∃ t, Sys2Proof.core.run (8 * s.srcLen.toNat + 2) s = .next t ∧ t.busy = false ∧ t.done = true

/-- 42 R243, 44 R312, 45 R404, 40 R193, 70 R558: the outcome of a `DECODE` is a function of the input alone (and of the
limit, the descriptor and the parameters): no configuration, no earlier call, no unwritten byte enters it. -/
def Obligations.DecodeDependsOnInputOnly : Prop :=
  ∀ s₁ s₂, s₁.busy = false → s₂.busy = false → s₁.start = true → s₂.start = true → s₁.op = 4 → s₂.op = 4 →
    s₁.codecSel = s₂.codecSel → s₁.srcLen = s₂.srcLen → s₁.outLimit = s₂.outLimit → s₁.desc = s₂.desc →
    s₁.params = s₂.params → (∀ a, a < s₁.srcLen.toNat → s₁.src.read a = s₂.src.read a) →
    ∀ k t₁ t₂, 1 ≤ k → Sys2Proof.core.run k s₁ = .next t₁ → Sys2Proof.core.run k s₂ = .next t₂ →
      t₁.busy = t₂.busy ∧ t₁.done = t₂.done ∧ t₁.status = t₂.status ∧ t₁.cause = t₂.cause ∧
      t₁.result = t₂.result ∧ t₁.dstLen = t₂.dstLen ∧ t₁.diag = t₂.diag ∧
      ∀ a, a < t₁.dstLen.toNat → t₁.dst.read a = t₂.dst.read a

/-- 20_memory.md R101, 70 R557, 60 R510: the host's writes are taken only while the block is idle and change what they
name; the output is read only after a success. Elsewhere the model stops (log 8). -/
def Obligations.HostMovesGuarded : Prop :=
  (∀ w s t, hostWrite w s = .next t →
    s.busy = false ∧ s.start = false ∧ t.dst = s.dst ∧ t.ctx = s.ctx ∧ t.desc = s.desc ∧ t.params = s.params ∧
      t.busy = false ∧ t.done = s.done ∧ t.status = s.status ∧ t.cause = s.cause ∧ t.result = s.result ∧
      t.dstLen = s.dstLen ∧ t.diag = s.diag) ∧
  (∀ s a b c, s.busy = false → s.start = false →
    ∃ t, hostWrite (.src a b) s = .next t ∧ t.src.read c = if c = a then b else s.src.read c) ∧
  (∀ s, s.busy = false → s.start = false →
    (∀ v, hostWrite (.codecSel v) s = .next { s with codecSel := v }) ∧
    (∀ v, hostWrite (.op v) s = .next { s with op := v }) ∧
    hostWrite .start s = .next { s with start := true } ∧
    (∀ v, hostWrite (.srcLen v) s = .next { s with srcLen := v }) ∧
    (∀ a b, ∃ m, hostWrite (.src a b) s = .next { s with src := m }) ∧
    (∀ v, hostWrite (.cfg v) s = .next { s with cfg := v }) ∧
    (∀ v, hostWrite (.outLimit v) s = .next { s with outLimit := v })) ∧
  (∀ w s, s.busy = true → hostWrite w s = .fault .hostWriteWhileBusy) ∧
  (∀ s bs, hostReadDst s = .ok bs → s.status = .ok ∧ s.busy = false ∧ bs.length = s.dstLen.toNat) ∧
  (∀ c s, FailedWith c s → c ≠ .none → hostReadDst s = .error .hostReadRefused)

/-! ## The encoders -/

/-- 43 R277, R264, R265, R267: whatever the chains hold, the RefPack search never selects a distance of 131,072 or more or a
length of 1,029 or more, and what it selects is longer than its cost and ends inside the input. -/
def Obligations.RefPackMatchBounds : Prop :=
  ∀ (v : RpEnv) (e : RpEnc), (rpSearch v e).found = true →
    (rpSearch v e).D ≤ 131071 ∧ (rpSearch v e).L ≤ 1028 ∧ 3 ≤ (rpSearch v e).L ∧
    (rpSearch v e).C < (rpSearch v e).L ∧ e.cp + (rpSearch v e).L ≤ v.n

/-- 44 R327, R324, 40 R192: the dictionary builder makes at most 255 nodes, all different, none the clue and none a byte of
the input; the clue is in no pair, and a child is an input byte or an earlier node. -/
def Obligations.BinaryTreeNodesBounded : Prop :=
  ∀ (perPass threshold maxPasses : Nat) (input : List Byte),
    let e := (btEncode perPass threshold maxPasses input).1
    e.nodes.length ≤ 255 ∧ (e.nodes.map Prod.fst).Nodup ∧
    (∀ x ∈ e.nodes, x.1 ≠ e.clue ∧ x.1 ∉ input ∧ x.2.1 ≠ e.clue ∧ x.2.2 ≠ e.clue) ∧
    (∀ k j a b, e.nodes[k]? = some (j, a, b) →
      (a ∈ input ∨ a ∈ (e.nodes.take k).map Prod.fst) ∧ (b ∈ input ∨ b ∈ (e.nodes.take k).map Prod.fst))

/-- 45 R370 to R377, 40 R192: the code the Huffman encoder builds is a valid table with no code longer than 15 bits, and the
codes it writes are the canonical codes of the table it sends. -/
def Obligations.HuffmanCodeBounded : Prop :=
  ∀ (passes runMin : Nat) (pick : ChainsawPick) (input : List Byte),
    let h := (hrEncode passes runMin pick input).1
    h.tab.valid = true ∧
    (∀ s : Byte, h.len.getD 0 s.toNat ≤ 15) ∧
    (∀ s : Byte, h.tab.codeOf s =
      if h.len.getD 0 s.toNat = 0 then none else some (h.len.getD 0 s.toNat, h.code.getD 0 s.toNat)) ∧
    (∀ s : Byte, 0 < h.cnt.getD 0 s.toNat → 1 ≤ h.len.getD 0 s.toNat)

/-- 46 R442, R443: the group widths the LightZhl encoder chooses make every symbol codable, whatever the counts. -/
def Obligations.LightZhlGroupsLegal : Prop :=
  ∀ (stat : Sparse Nat) (order : List Nat), groupWidthsLegal (lzCalcGroups stat order)

/-- 40 R191: what `ENCODE` of a headed engine writes, `IS_VALID` calls valid and `EXTRACT_SIZE` gives the input's length
of. -/
def Obligations.EncodedStreamsAreValid : Prop :=
  ∀ c s, c ≠ .lz → encodable c s → s.srcLen.toNat ≤ s.params.maxLen →
    (encoderOutput c s).length < 2 ^ 32 → ∀ u, u.busy = false → u.params = s.params →
      (∃ t, exec (.isValid c) (loaded u c 1 (encoderOutput c s)) = .next t ∧ t.status = .ok ∧ t.result = 1) ∧
      (∃ t, exec (.extractSize c) (loaded u c 2 (encoderOutput c s)) = .next t ∧ t.status = .ok ∧
        t.result = s.srcLen)

/-! ## Round trips -/

/-- 43 R280, 40 R190: a RefPack stream decodes to the bytes it was made of, for every hash function, both biases, quick or
not, and every insertion policy (43 R262, R270). -/
def Obligations.RefPackRoundTrip : Prop :=
  ∀ (v : RpEnv) (s : State), v.bias ≤ 1 → s.busy = false → s.desc.rp.canDecode = true → s.params.legal →
    v.n ≤ s.params.maxLen →
    let out := (rpEncode v (Ctx.fresh v.n).rpEnc).2
    out.length < 2 ^ 32 →
    ∃ k t, Sys2Proof.core.run k (loaded s .rp 4 out) = .next t ∧ EndedWith (bytesAt v.src 0 v.n) t

/-- 44 R332, 40 R190: a BinaryTree stream decodes to the bytes it was made of, for every legal configuration. -/
def Obligations.BinaryTreeRoundTrip : Prop :=
  ∀ (perPass threshold maxPasses : Nat) (input : List Byte) (s : State), 1 ≤ perPass → input.length < 2 ^ 24 →
    s.busy = false → s.desc.bt.canDecode = true → s.params.legal → input.length ≤ s.params.maxLen →
    ∃ k t, Sys2Proof.core.run k (loaded s .bt 4 (btEncode perPass threshold maxPasses input).2) = .next t ∧
      EndedWith input t

/-- 45 R405, 40 R190: a Huffman-with-Runlength stream decodes to the bytes it was made of, for every pass count, every least
run and both chainsaw picks. -/
def Obligations.HuffmanRoundTrip : Prop :=
  ∀ (passes runMin : Nat) (pick : ChainsawPick) (input : List Byte) (s : State), passes ≤ 2 → 1 ≤ runMin →
    s.busy = false → s.desc.hr.canDecode = true → s.params.legal → input.length ≤ s.params.maxLen →
    (hrEncode passes runMin pick input).2.length < 2 ^ 32 →
    ∃ k t, Sys2Proof.core.run k (loaded s .hr 4 (hrEncode passes runMin pick input).2) = .next t ∧
      EndedWith input t

/-- 46 R462, 40 R190: a LightZhl stream decodes to the bytes it was made of, for every buffer size, hash function, chain
limit and group choice, when the output limit admits them. -/
def Obligations.LightZhlRoundTrip : Prop :=
  ∀ (v : LzEnv) (s : State), v.bufBits = s.params.lzBufBits → (∀ stat order, groupWidthsLegal (v.groups stat order)) →
    s.busy = false → s.desc.lz.canDecode = true → s.params.legal → v.n ≤ s.params.maxLen →
    v.n ≤ s.outLimit.toNat →
    let out := (lzEncode v (Ctx.fresh v.n).lz).2
    out.length < 2 ^ 32 →
    ∃ k t, Sys2Proof.core.run k (loaded s .lz 4 out) = .next t ∧ EndedWith (bytesAt v.src 0 v.n) t
end

