-- ==== Sys2Proof/Laws/Memory.lean ====
section
/-! SUPPORT. What the operations of the sparse tables and the byte memories do: reading after writing, and the canonical
form. -/

namespace Sys2Proof

namespace Sparse

variable {β : Type}

/-- Below its first index a list that starts above `a` has no entry. -/
theorem look_dropUpTo_of_lt (t : Sparse β) {a b : Nat} (h : a < b) : look (dropUpTo t a) b = look t b := by
  induction t with
  | nil => rfl
  | cons e t ih =>
    obtain ⟨k, v⟩ := e
    by_cases hk : k ≤ a
    · simp only [dropUpTo, hk, if_true, look]
      rw [ih, if_neg (by omega), if_neg (by omega)]
    · simp [dropUpTo, hk]

/-- Dropping the entries up to `a` leaves none at or below `a`. -/
theorem look_dropUpTo_of_le (t : Sparse β) {a b : Nat} (h : b ≤ a) : look (dropUpTo t a) b = none := by
  induction t with
  | nil => rfl
  | cons e t ih =>
    obtain ⟨k, v⟩ := e
    by_cases hk : k ≤ a
    · simpa only [dropUpTo, hk, if_true] using ih
    · simp only [dropUpTo, hk, if_false, look]
      rw [if_pos (by omega)]

/-- Reading a table after storing in it, on every list. -/
theorem look_put (t : Sparse β) (a : Nat) (o : Option β) (b : Nat) :
    look (put t a o) b = if b = a then o else look t b := by
  induction t with
  | nil =>
    cases o with
    | none => simp [put, look]
    | some v => simp only [put, look]; split_ifs <;> first | rfl | omega
  | cons e t ih =>
    obtain ⟨k, x⟩ := e
    by_cases h1 : a < k
    · cases o with
      | none =>
        simp only [put, h1, if_true, look]
        split_ifs with h2 h3 <;> first | rfl | omega
      | some v =>
        simp only [put, h1, if_true, look]
        split_ifs <;> first | rfl | omega
    · by_cases h2 : a = k
      · subst h2
        cases o with
        | none =>
          simp only [put, h1, if_false, if_true, look]
          by_cases h3 : b = a
          · subst h3; simp [look_dropUpTo_of_le]
          · by_cases h4 : b < a
            · rw [look_dropUpTo_of_le _ (by omega)]; simp [h3, h4]
            · rw [look_dropUpTo_of_lt _ (by omega)]; simp [h3, h4]
        | some v =>
          simp only [put, h1, if_false, if_true, look]
          split_ifs <;> first | rfl | omega
      · simp only [put, h1, h2, if_false, look, ih]
        split_ifs <;> first | rfl | omega

/-- Reading an entry after storing `v` at `a`. -/
theorem getD_setD [DecidableEq β] (t : Sparse β) (d v : β) (a b : Nat) :
    getD (setD t d a v) d b = if b = a then v else getD t d b := by
  unfold getD setD
  rw [look_put]
  by_cases h : b = a
  · by_cases hv : v = d <;> simp [h, hv]
  · simp [h]

/-- The tail of a sorted list is sorted. -/
theorem sorted_tail {e : Nat × β} {t : Sparse β} (h : sorted (e :: t) = true) : sorted t = true := by
  cases t with
  | nil => rfl
  | cons f t => simp only [sorted, Bool.and_eq_true] at h; exact h.2

/-- Every index of a sorted list lies above the first. -/
theorem sorted_cons_iff (k : Nat) (x : β) (t : Sparse β) :
    sorted ((k, x) :: t) = true ↔ sorted t = true ∧ ∀ e ∈ t, k < e.1 := by
  induction t generalizing k x with
  | nil => simp [sorted]
  | cons f t ih =>
    obtain ⟨k', x'⟩ := f
    simp only [sorted, Bool.and_eq_true, decide_eq_true_eq, List.mem_cons, forall_eq_or_imp]
    constructor
    · rintro ⟨h1, h2⟩
      exact ⟨h2, h1, fun e he => lt_trans h1 (((ih k' x').1 h2).2 e he)⟩
    · rintro ⟨h1, h2, h3⟩
      exact ⟨h2, h1⟩

/-- A sorted list that starts above `a` loses nothing by dropping up to `a`. -/
theorem dropUpTo_eq_self {t : Sparse β} {a : Nat} (h : ∀ e ∈ t, a < e.1) : dropUpTo t a = t := by
  cases t with
  | nil => rfl
  | cons e t =>
    obtain ⟨k, x⟩ := e
    have : ¬k ≤ a := Nat.not_le.2 (h (k, x) List.mem_cons_self)
    simp [dropUpTo, this]

/-- An entry of the list after a store is the entry stored or one of the list's other entries. -/
theorem mem_put {t : Sparse β} {a : Nat} {o : Option β} {e : Nat × β} (hs : sorted t = true) (h : e ∈ put t a o) :
    (e.1 = a ∧ o = some e.2) ∨ e ∈ t := by
  induction t with
  | nil =>
    cases o with
    | none => simp [put] at h
    | some v => simp only [put, List.mem_singleton] at h; subst h; simp
  | cons f t ih =>
    obtain ⟨k, x⟩ := f
    have hs' := (sorted_cons_iff k x t).1 hs
    by_cases h1 : a < k
    · cases o with
      | none => simp only [put, h1, if_true] at h; exact .inr h
      | some v =>
        simp only [put, h1, if_true, List.mem_cons] at h
        rcases h with h | h
        · subst h; simp
        · exact .inr (List.mem_cons.2 h)
    · by_cases h2 : a = k
      · subst h2
        cases o with
        | none =>
          simp only [put, h1, if_false, if_true, dropUpTo_eq_self hs'.2] at h
          exact .inr (List.mem_cons_of_mem _ h)
        | some v =>
          simp only [put, h1, if_false, if_true, List.mem_cons] at h
          rcases h with h | h
          · subst h; simp
          · exact .inr (List.mem_cons_of_mem _ h)
      · simp only [put, h1, h2, if_false, List.mem_cons] at h
        rcases h with h | h
        · subst h; simp
        · exact (ih hs'.1 h).imp_right (List.mem_cons_of_mem _)

/-- A store keeps the indices rising. -/
theorem sorted_put {t : Sparse β} (a : Nat) (o : Option β) (hs : sorted t = true) : sorted (put t a o) = true := by
  induction t with
  | nil => cases o <;> rfl
  | cons f t ih =>
    obtain ⟨k, x⟩ := f
    have hs' := (sorted_cons_iff k x t).1 hs
    by_cases h1 : a < k
    · cases o with
      | none => simpa only [put, h1, if_true] using hs
      | some v =>
        simp only [put, h1, if_true]
        refine (sorted_cons_iff _ _ _).2 ⟨hs, fun e he => ?_⟩
        rcases List.mem_cons.1 he with h | h
        · subst h; exact h1
        · exact lt_trans h1 (hs'.2 e h)
    · by_cases h2 : a = k
      · subst h2
        cases o with
        | none => simpa only [put, h1, if_false, if_true, dropUpTo_eq_self hs'.2] using hs'.1
        | some v =>
          simp only [put, h1, if_false, if_true]
          exact (sorted_cons_iff _ _ _).2 hs'
      · simp only [put, h1, h2, if_false]
        refine (sorted_cons_iff _ _ _).2 ⟨ih hs'.1, fun e he => ?_⟩
        rcases mem_put hs'.1 he with h | h
        · omega
        · exact hs'.2 e h

/-- A store keeps the canonical form. -/
theorem canonical_setD [DecidableEq β] {d : β} {t : Sparse β} (a : Nat) (v : β) (h : canonical d t = true) :
    canonical d (setD t d a v) = true := by
  simp only [canonical, Bool.and_eq_true, List.all_eq_true, decide_eq_true_eq] at h ⊢
  refine ⟨sorted_put a _ h.1, fun e he => ?_⟩
  rcases mem_put h.1 he with ⟨-, h2⟩ | h2
  · by_cases hv : v = d
    · simp [hv] at h2
    · simp only [hv, if_false, Option.some.injEq] at h2
      exact h2 ▸ hv
  · exact h.2 e h2

/-- A sorted list lists each of its entries. -/
theorem look_of_mem {t : Sparse β} (hs : sorted t = true) {e : Nat × β} (h : e ∈ t) : look t e.1 = some e.2 := by
  induction t with
  | nil => simp at h
  | cons f t ih =>
    obtain ⟨k, x⟩ := f
    have hs' := (sorted_cons_iff k x t).1 hs
    rcases List.mem_cons.1 h with h | h
    · subst h; simp [look]
    · have := hs'.2 e h
      simp only [look]
      rw [if_neg (by omega), if_neg (by omega)]
      exact ih hs'.1 h

/-- What is found is listed. -/
theorem mem_of_look {t : Sparse β} {a : Nat} {v : β} (h : look t a = some v) : (a, v) ∈ t := by
  induction t with
  | nil => simp [look] at h
  | cons f t ih =>
    obtain ⟨k, x⟩ := f
    simp only [look] at h
    split_ifs at h with h1 h2
    · simp only [Option.some.injEq] at h; subst h2; subst h; simp
    · exact List.mem_cons_of_mem _ (ih h)

/-- Equal tables are equal lists: two sorted lists with the same entries are the same. -/
theorem ext_of_look {t u : Sparse β} (ht : sorted t = true) (hu : sorted u = true) (h : ∀ a, look t a = look u a) :
    t = u := by
  induction t generalizing u with
  | nil =>
    cases u with
    | nil => rfl
    | cons f u => have := look_of_mem hu (List.mem_cons_self (a := f)); rw [← h] at this; simp [look] at this
  | cons e t ih =>
    obtain ⟨k, x⟩ := e
    cases u with
    | nil => have := look_of_mem ht (List.mem_cons_self (a := (k, x))); rw [h] at this; simp [look] at this
    | cons f u =>
      obtain ⟨k', x'⟩ := f
      have ht' := (sorted_cons_iff k x t).1 ht
      have hu' := (sorted_cons_iff k' x' u).1 hu
      have h1 := h k
      have h2 := h k'
      simp only [look] at h1 h2
      have hk : k = k' := by
        rcases Nat.lt_trichotomy k k' with hlt | heq | hgt
        · simp [hlt] at h1
        · exact heq
        · simp [hgt] at h2
      subst hk
      have hx : x = x' := by simpa using h1
      subst hx
      congr 1
      refine ih ht'.1 hu'.1 fun a => ?_
      have ha := h a
      simp only [look] at ha
      by_cases h3 : a < k
      · have nt : look t a = none := by
          cases hl : look t a with
          | none => rfl
          | some v => have := ht'.2 _ (mem_of_look hl); simp at this; omega
        have nu : look u a = none := by
          cases hl : look u a with
          | none => rfl
          | some v => have := hu'.2 _ (mem_of_look hl); simp at this; omega
        rw [nt, nu]
      · by_cases h4 : a = k
        · subst h4
          have nt : look t a = none := by
            cases hl : look t a with
            | none => rfl
            | some v => have := ht'.2 _ (mem_of_look hl); simp at this
          have nu : look u a = none := by
            cases hl : look u a with
            | none => rfl
            | some v => have := hu'.2 _ (mem_of_look hl); simp at this
          rw [nt, nu]
        · simpa [h3, h4] using ha

end Sparse

namespace Memory

/-- Reading after writing, on every list. -/
theorem read_write (m : Memory) (a : Nat) (v : Byte) (b : Nat) :
    (m.write a v).read b = if b = a then v else m.read b := Sparse.getD_setD m unlisted v a b

/-- The byte just written. -/
theorem read_write_same (m : Memory) (a : Nat) (v : Byte) : (m.write a v).read a = v := by
  rw [read_write, if_pos rfl]

/-- Every other byte. -/
theorem read_write_other (m : Memory) {a b : Nat} (v : Byte) (h : b ≠ a) : (m.write a v).read b = m.read b := by
  rw [read_write, if_neg h]

/-- An empty memory reads as the unlisted byte. -/
theorem read_nil (a : Nat) : read [] a = unlisted := rfl

/-- A write keeps the canonical form. -/
theorem wf_write {m : Memory} (h : m.wf = true) (a : Nat) (v : Byte) : (m.write a v).wf = true :=
  Sparse.canonical_setD a v h

/-- A list of writes keeps the canonical form. -/
theorem wf_writeList {m : Memory} (h : m.wf = true) (a : Nat) (bs : List Byte) : (m.writeList a bs).wf = true := by
  induction bs generalizing m a with
  | nil => exact h
  | cons b bs ih => exact ih (wf_write h a b) (a + 1)

/-- The memory made of a byte string is in canonical form. -/
theorem wf_ofBytes (bs : List Byte) : (ofBytes bs).wf = true := wf_writeList rfl 0 bs

/-- Reading after writing a list: inside the list its byte, elsewhere the byte before. -/
theorem read_writeList (m : Memory) (a : Nat) (bs : List Byte) (b : Nat) :
    (m.writeList a bs).read b = if a ≤ b ∧ b < a + bs.length then bs.getD (b - a) 0 else m.read b := by
  induction bs generalizing m a with
  | nil => simp [writeList]
  | cons v bs ih =>
    simp only [writeList, ih, read_write, List.length_cons]
    by_cases h1 : b = a
    · subst h1; simp
    · by_cases h2 : a + 1 ≤ b ∧ b < a + 1 + bs.length
      · rw [if_pos h2, if_pos ⟨by omega, by omega⟩]
        obtain ⟨n, hn⟩ : ∃ n, b - a = n + 1 := ⟨b - a - 1, by omega⟩
        rw [hn, List.getD_cons_succ]; congr 1; omega
      · rw [if_neg h2, if_neg h1, if_neg (by omega)]

/-- Bytes before a list of writes. -/
theorem read_writeList_of_lt (m : Memory) {a b : Nat} (bs : List Byte) (h : b < a) :
    (m.writeList a bs).read b = m.read b := by rw [read_writeList, if_neg (by omega)]

/-- Bytes behind a list of writes. -/
theorem read_writeList_of_ge (m : Memory) {a b : Nat} (bs : List Byte) (h : a + bs.length ≤ b) :
    (m.writeList a bs).read b = m.read b := by rw [read_writeList, if_neg (by omega)]

/-- Writing two lists one behind the other. -/
theorem writeList_append (m : Memory) (a : Nat) (xs ys : List Byte) :
    m.writeList a (xs ++ ys) = (m.writeList a xs).writeList (a + xs.length) ys := by
  induction xs generalizing m a with
  | nil => rfl
  | cons x xs ih => simp only [List.cons_append, writeList, ih, List.length_cons]; congr 1; omega

/-- The number of bytes read. -/
@[simp] theorem length_bytesFrom (m : Memory) (a n : Nat) : (m.bytesFrom a n).length = n := by
  induction n generalizing a with
  | zero => rfl
  | succ n ih => simp [bytesFrom, ih]

/-- The bytes read, one by one. -/
theorem getElem?_bytesFrom (m : Memory) (a n i : Nat) :
    (m.bytesFrom a n)[i]? = if i < n then some (m.read (a + i)) else none := by
  induction n generalizing a i with
  | zero => simp [bytesFrom]
  | succ n ih =>
    cases i with
    | zero => simp [bytesFrom]
    | succ i =>
      simp only [bytesFrom, List.getElem?_cons_succ, ih, Nat.add_lt_add_iff_right]
      congr 2; congr 1; omega

/-- Reading two stretches one behind the other. -/
theorem bytesFrom_add (m : Memory) (a n k : Nat) :
    m.bytesFrom a (n + k) = m.bytesFrom a n ++ m.bytesFrom (a + n) k := by
  induction n generalizing a with
  | zero => simp [bytesFrom]
  | succ n ih => rw [Nat.add_right_comm]; simp only [bytesFrom, ih, List.cons_append]; congr 3; omega

/-- Memories that agree on a stretch give the same bytes. -/
theorem bytesFrom_congr {m m' : Memory} {a n : Nat} (h : ∀ b, a ≤ b → b < a + n → m.read b = m'.read b) :
    m.bytesFrom a n = m'.bytesFrom a n := by
  induction n generalizing a with
  | zero => rfl
  | succ n ih =>
    simp only [bytesFrom]
    rw [h a (le_refl a) (by omega), ih fun b h1 h2 => h b (by omega) (by omega)]

/-- Reading back a list just written. -/
theorem bytesFrom_writeList (m : Memory) (a : Nat) (bs : List Byte) :
    (m.writeList a bs).bytesFrom a bs.length = bs := by
  apply List.ext_getElem?
  intro i
  rw [getElem?_bytesFrom]
  by_cases h : i < bs.length
  · rw [if_pos h, read_writeList, if_pos ⟨by omega, by omega⟩]
    have hi : a + i - a = i := by omega
    rw [hi, List.getElem?_eq_getElem h]
    simp [h]
  · rw [if_neg h, List.getElem?_eq_none (by omega)]

/-- Two memories in canonical form that read alike are the same list. -/
theorem ext_of_read {m m' : Memory} (h : m.wf = true) (h' : m'.wf = true) (hr : ∀ a, m.read a = m'.read a) :
    m = m' := by
  simp only [wf, Sparse.canonical, Bool.and_eq_true, List.all_eq_true, decide_eq_true_eq] at h h'
  refine Sparse.ext_of_look h.1 h'.1 fun a => ?_
  have ha := hr a
  simp only [read, Sparse.getD] at ha
  cases h1 : Sparse.look m a with
  | none =>
    cases h2 : Sparse.look m' a with
    | none => rfl
    | some w => rw [h1, h2] at ha; exact absurd ha.symm (h'.2 _ (Sparse.mem_of_look h2))
  | some v =>
    cases h2 : Sparse.look m' a with
    | none => rw [h1, h2] at ha; exact absurd ha (h.2 _ (Sparse.mem_of_look h1))
    | some w => rw [h1, h2] at ha; simpa using ha

end Memory

end Sys2Proof
end

