-- ==== Sys2Proof/Laws/Encoders.lean ====
section
/-! SUPPORT. What the parameter functions of the encoders give, and what an insertion changes. -/

namespace Sys2Proof.Machine

/-! ## Reset of an instance -/

@[simp] theorem resetWith_desc (d : Descriptors) (p : Params) : (State.resetWith d p).desc = d := rfl

@[simp] theorem resetWith_params (d : Descriptors) (p : Params) : (State.resetWith d p).params = p := rfl

@[simp] theorem resetWith_busy (d : Descriptors) (p : Params) : (State.resetWith d p).busy = false := rfl

@[simp] theorem resetWith_start (d : Descriptors) (p : Params) : (State.resetWith d p).start = false := rfl

@[simp] theorem resetWith_ctx (d : Descriptors) (p : Params) : (State.resetWith d p).ctx = Ctx.fresh 0 := rfl

/-! ## Hashes stay in their range (00_scope.md R9) -/

/-- `rp_hash` is a function into `[0, RP_HASH_SIZE)`. -/
theorem rpHashOf_lt {p : Params} (h : 1 ≤ p.rpHashSize) (b0 b1 b2 : Byte) : rpHashOf p b0 b1 b2 < p.rpHashSize :=
  Nat.mod_lt _ h

/-- A LightZhl hash is a function into `[0, 2^LZ_TABLE_BITS)`. -/
theorem lzHashOf_lt (p : Params) (slow : Bool) (b0 b1 b2 b3 : Byte) :
    lzHashOf p slow b0 b1 b2 b3 < 2 ^ p.lzTableBits :=
  Nat.mod_lt _ (Nat.two_pow_pos _)

/-- The default `rp_hash` is a 16-bit value (43 R262). -/
theorem rpHash_lt (b0 b1 b2 : Byte) : rpHash b0 b1 b2 < 65536 := by
  have h0 := b0.isLt
  have h1 := b1.isLt
  have h2 := b2.isLt
  exact Nat.xor_lt_two_pow (n := 16) (by omega) (by omega)

/-- The reference hash of a table of the default size is the default hash. -/
theorem rpHashOf_reference {p : Params} (h1 : p.rpHashFn = .reference) (h2 : p.rpHashSize = 65536) (b0 b1 b2 : Byte) :
    rpHashOf p b0 b1 b2 = rpHash b0 b1 b2 := by
  simp only [rpHashOf, h1, h2]
  exact Nat.mod_eq_of_lt (rpHash_lt b0 b1 b2)

/-! ## Group choice -/

/-- Whatever function the instance names, its group choice is the reference's or one that meets 46 R442. -/
theorem lzGroupsOf_cases (p : Params) (stat : Sparse Nat) (order : List Nat) :
    lzGroupsOf p stat order = lzCalcGroups stat order ∨ groupWidthsLegal (lzGroupsOf p stat order) := by
  unfold lzGroupsOf
  split
  · exact .inl rfl
  · split
    · exact .inr ‹_›
    · exact .inl rfl

/-! ## Insertion changes the chains alone -/

/-- `insert(p)` (43 R263). -/
theorem rpInsert_frame (v : RpEnv) (p : Nat) (e : RpEnc) :
    rpInsert v p e = { e with head := (rpInsert v p e).head, link := (rpInsert v p e).link } := by
  unfold rpInsert
  split <;> rfl

/-- The insertions of a step, whatever the policy (43 R270). -/
theorem rpInsertSome_frame (v : RpEnv) (take : Nat → Bool) (k p next : Nat) (e : RpEnc) :
    (rpInsertSome v take k p next e).2 =
      { e with
        head := (rpInsertSome v take k p next e).2.head
        link := (rpInsertSome v take k p next e).2.link } := by
  induction k generalizing p next e with
  | zero => rfl
  | succ k ih =>
    unfold rpInsertSome
    split
    · rw [ih, rpInsert_frame]
    · rw [ih]

/-- The last position inserted lies among the positions passed. -/
theorem rpInsertSome_next_le (v : RpEnv) (take : Nat → Bool) (k p next : Nat) (e : RpEnc) (h : next ≤ p) :
    next ≤ (rpInsertSome v take k p next e).1 ∧ (rpInsertSome v take k p next e).1 ≤ p + k := by
  induction k generalizing p next e with
  | zero => exact ⟨Nat.le_refl _, h⟩
  | succ k ih =>
    unfold rpInsertSome
    split
    · have := ih (p + 1) (p + 1) (rpInsert v p e) (Nat.le_refl _)
      omega
    · have := ih (p + 1) next e (by omega)
      omega

/-- `insert(p)` of the LightZhl encoder (46 R454). -/
theorem lzInsert_frame (v : LzEnv) (p : Nat) (c : LzCtx) :
    lzInsert v p c = { c with lzhead := (lzInsert v p c).lzhead, lzlink := (lzInsert v p c).lzlink } := by
  unfold lzInsert
  split <;> rfl

end Sys2Proof.Machine
end

