-- ==== Sys2Proof/Laws/State.lean ====
section
/-! SUPPORT. One lemma for each field of the state after each named update, so that no proof unfolds a record update. -/

namespace Sys2Proof.Machine

/-! `beginOp`. -/

@[simp] theorem beginOp_codecSel (c : Codec) (op : BitVec 3) (s : State) : (beginOp c op s).codecSel = c.sel := rfl
@[simp] theorem beginOp_op (c : Codec) (op : BitVec 3) (s : State) : (beginOp c op s).op = op := rfl
@[simp] theorem beginOp_start (c : Codec) (op : BitVec 3) (s : State) : (beginOp c op s).start = false := rfl
@[simp] theorem beginOp_busy (c : Codec) (op : BitVec 3) (s : State) : (beginOp c op s).busy = true := rfl
@[simp] theorem beginOp_done (c : Codec) (op : BitVec 3) (s : State) : (beginOp c op s).done = false := rfl
@[simp] theorem beginOp_status (c : Codec) (op : BitVec 3) (s : State) : (beginOp c op s).status = .ok := rfl
@[simp] theorem beginOp_cause (c : Codec) (op : BitVec 3) (s : State) : (beginOp c op s).cause = .none := rfl
@[simp] theorem beginOp_result (c : Codec) (op : BitVec 3) (s : State) : (beginOp c op s).result = 0 := rfl
@[simp] theorem beginOp_srcLen (c : Codec) (op : BitVec 3) (s : State) : (beginOp c op s).srcLen = s.srcLen := rfl
@[simp] theorem beginOp_dstLen (c : Codec) (op : BitVec 3) (s : State) : (beginOp c op s).dstLen = 0 := rfl
@[simp] theorem beginOp_outLimit (c : Codec) (op : BitVec 3) (s : State) :
    (beginOp c op s).outLimit = s.outLimit := rfl
@[simp] theorem beginOp_cfg (c : Codec) (op : BitVec 3) (s : State) : (beginOp c op s).cfg = s.cfg := rfl
@[simp] theorem beginOp_diag (c : Codec) (op : BitVec 3) (s : State) : (beginOp c op s).diag = Diag.zero := rfl
@[simp] theorem beginOp_desc (c : Codec) (op : BitVec 3) (s : State) : (beginOp c op s).desc = s.desc := rfl
@[simp] theorem beginOp_params (c : Codec) (op : BitVec 3) (s : State) : (beginOp c op s).params = s.params := rfl
@[simp] theorem beginOp_src (c : Codec) (op : BitVec 3) (s : State) : (beginOp c op s).src = s.src := rfl
@[simp] theorem beginOp_dst (c : Codec) (op : BitVec 3) (s : State) : (beginOp c op s).dst = s.dst := rfl
@[simp] theorem beginOp_ctx (c : Codec) (op : BitVec 3) (s : State) :
    (beginOp c op s).ctx = Ctx.fresh s.srcLen.toNat := rfl
@[simp] theorem beginOp_freeCount (c : Codec) (op : BitVec 3) (s : State) :
    (beginOp c op s).freeCount = s.freeCount := rfl

/-! `raise`. -/

@[simp] theorem raise_codecSel (c : Cause) (d : Diag) (s : State) : (raise c d s).codecSel = s.codecSel := rfl
@[simp] theorem raise_op (c : Cause) (d : Diag) (s : State) : (raise c d s).op = s.op := rfl
@[simp] theorem raise_start (c : Cause) (d : Diag) (s : State) : (raise c d s).start = s.start := rfl
@[simp] theorem raise_busy (c : Cause) (d : Diag) (s : State) : (raise c d s).busy = false := rfl
@[simp] theorem raise_done (c : Cause) (d : Diag) (s : State) : (raise c d s).done = true := rfl
@[simp] theorem raise_status (c : Cause) (d : Diag) (s : State) : (raise c d s).status = c.status := rfl
@[simp] theorem raise_cause (c : Cause) (d : Diag) (s : State) : (raise c d s).cause = c := rfl
@[simp] theorem raise_result (c : Cause) (d : Diag) (s : State) : (raise c d s).result = 0 := rfl
@[simp] theorem raise_srcLen (c : Cause) (d : Diag) (s : State) : (raise c d s).srcLen = s.srcLen := rfl
@[simp] theorem raise_dstLen (c : Cause) (d : Diag) (s : State) : (raise c d s).dstLen = 0 := rfl
@[simp] theorem raise_outLimit (c : Cause) (d : Diag) (s : State) : (raise c d s).outLimit = s.outLimit := rfl
@[simp] theorem raise_cfg (c : Cause) (d : Diag) (s : State) : (raise c d s).cfg = s.cfg := rfl
@[simp] theorem raise_diag (c : Cause) (d : Diag) (s : State) : (raise c d s).diag = d := rfl
@[simp] theorem raise_desc (c : Cause) (d : Diag) (s : State) : (raise c d s).desc = s.desc := rfl
@[simp] theorem raise_params (c : Cause) (d : Diag) (s : State) : (raise c d s).params = s.params := rfl
@[simp] theorem raise_src (c : Cause) (d : Diag) (s : State) : (raise c d s).src = s.src := rfl
@[simp] theorem raise_dst (c : Cause) (d : Diag) (s : State) : (raise c d s).dst = s.dst := rfl
@[simp] theorem raise_ctx (c : Cause) (d : Diag) (s : State) : (raise c d s).ctx = Ctx.fresh 0 := rfl
@[simp] theorem raise_freeCount (c : Cause) (d : Diag) (s : State) : (raise c d s).freeCount = s.freeCount := rfl

/-! `withdrawDst`. -/

@[simp] theorem withdrawDst_codecSel (s : State) : (withdrawDst s).codecSel = s.codecSel := rfl
@[simp] theorem withdrawDst_op (s : State) : (withdrawDst s).op = s.op := rfl
@[simp] theorem withdrawDst_start (s : State) : (withdrawDst s).start = s.start := rfl
@[simp] theorem withdrawDst_busy (s : State) : (withdrawDst s).busy = s.busy := rfl
@[simp] theorem withdrawDst_done (s : State) : (withdrawDst s).done = s.done := rfl
@[simp] theorem withdrawDst_status (s : State) : (withdrawDst s).status = s.status := rfl
@[simp] theorem withdrawDst_cause (s : State) : (withdrawDst s).cause = s.cause := rfl
@[simp] theorem withdrawDst_result (s : State) : (withdrawDst s).result = s.result := rfl
@[simp] theorem withdrawDst_srcLen (s : State) : (withdrawDst s).srcLen = s.srcLen := rfl
@[simp] theorem withdrawDst_dstLen (s : State) : (withdrawDst s).dstLen = s.dstLen := rfl
@[simp] theorem withdrawDst_outLimit (s : State) : (withdrawDst s).outLimit = s.outLimit := rfl
@[simp] theorem withdrawDst_cfg (s : State) : (withdrawDst s).cfg = s.cfg := rfl
@[simp] theorem withdrawDst_diag (s : State) : (withdrawDst s).diag = s.diag := rfl
@[simp] theorem withdrawDst_desc (s : State) : (withdrawDst s).desc = s.desc := rfl
@[simp] theorem withdrawDst_params (s : State) : (withdrawDst s).params = s.params := rfl
@[simp] theorem withdrawDst_src (s : State) : (withdrawDst s).src = s.src := rfl
@[simp] theorem withdrawDst_dst (s : State) : (withdrawDst s).dst = Memory.ofBytes (Config.freeDst s.freeCount) := rfl
@[simp] theorem withdrawDst_ctx (s : State) : (withdrawDst s).ctx = s.ctx := rfl
@[simp] theorem withdrawDst_freeCount (s : State) : (withdrawDst s).freeCount = s.freeCount + 1 := rfl

/-! `refuse`. -/

@[simp] theorem refuse_codecSel (c : Cause) (s : State) : (refuse c s).codecSel = s.codecSel := rfl
@[simp] theorem refuse_op (c : Cause) (s : State) : (refuse c s).op = s.op := rfl
@[simp] theorem refuse_start (c : Cause) (s : State) : (refuse c s).start = s.start := rfl
@[simp] theorem refuse_busy (c : Cause) (s : State) : (refuse c s).busy = false := rfl
@[simp] theorem refuse_done (c : Cause) (s : State) : (refuse c s).done = true := rfl
@[simp] theorem refuse_status (c : Cause) (s : State) : (refuse c s).status = c.status := rfl
@[simp] theorem refuse_cause (c : Cause) (s : State) : (refuse c s).cause = c := rfl
@[simp] theorem refuse_result (c : Cause) (s : State) : (refuse c s).result = 0 := rfl
@[simp] theorem refuse_srcLen (c : Cause) (s : State) : (refuse c s).srcLen = s.srcLen := rfl
@[simp] theorem refuse_dstLen (c : Cause) (s : State) : (refuse c s).dstLen = 0 := rfl
@[simp] theorem refuse_outLimit (c : Cause) (s : State) : (refuse c s).outLimit = s.outLimit := rfl
@[simp] theorem refuse_cfg (c : Cause) (s : State) : (refuse c s).cfg = s.cfg := rfl
@[simp] theorem refuse_diag (c : Cause) (s : State) : (refuse c s).diag = diagHere s := rfl
@[simp] theorem refuse_desc (c : Cause) (s : State) : (refuse c s).desc = s.desc := rfl
@[simp] theorem refuse_params (c : Cause) (s : State) : (refuse c s).params = s.params := rfl
@[simp] theorem refuse_src (c : Cause) (s : State) : (refuse c s).src = s.src := rfl
@[simp] theorem refuse_dst (c : Cause) (s : State) : (refuse c s).dst = s.dst := rfl
@[simp] theorem refuse_ctx (c : Cause) (s : State) : (refuse c s).ctx = Ctx.fresh 0 := rfl
@[simp] theorem refuse_freeCount (c : Cause) (s : State) : (refuse c s).freeCount = s.freeCount := rfl

/-! `fail`. -/

@[simp] theorem fail_codecSel (c : Cause) (s : State) : (fail c s).codecSel = s.codecSel := rfl
@[simp] theorem fail_op (c : Cause) (s : State) : (fail c s).op = s.op := rfl
@[simp] theorem fail_start (c : Cause) (s : State) : (fail c s).start = s.start := rfl
@[simp] theorem fail_busy (c : Cause) (s : State) : (fail c s).busy = false := rfl
@[simp] theorem fail_done (c : Cause) (s : State) : (fail c s).done = true := rfl
@[simp] theorem fail_status (c : Cause) (s : State) : (fail c s).status = c.status := rfl
@[simp] theorem fail_cause (c : Cause) (s : State) : (fail c s).cause = c := rfl
@[simp] theorem fail_result (c : Cause) (s : State) : (fail c s).result = 0 := rfl
@[simp] theorem fail_srcLen (c : Cause) (s : State) : (fail c s).srcLen = s.srcLen := rfl
@[simp] theorem fail_dstLen (c : Cause) (s : State) : (fail c s).dstLen = 0 := rfl
@[simp] theorem fail_outLimit (c : Cause) (s : State) : (fail c s).outLimit = s.outLimit := rfl
@[simp] theorem fail_cfg (c : Cause) (s : State) : (fail c s).cfg = s.cfg := rfl
@[simp] theorem fail_diag (c : Cause) (s : State) : (fail c s).diag = diagHere s := rfl
@[simp] theorem fail_desc (c : Cause) (s : State) : (fail c s).desc = s.desc := rfl
@[simp] theorem fail_params (c : Cause) (s : State) : (fail c s).params = s.params := rfl
@[simp] theorem fail_src (c : Cause) (s : State) : (fail c s).src = s.src := rfl
@[simp] theorem fail_dst (c : Cause) (s : State) : (fail c s).dst = Memory.ofBytes (Config.freeDst s.freeCount) := rfl
@[simp] theorem fail_ctx (c : Cause) (s : State) : (fail c s).ctx = Ctx.fresh 0 := rfl
@[simp] theorem fail_freeCount (c : Cause) (s : State) : (fail c s).freeCount = s.freeCount + 1 := rfl

/-! `failLz`. -/

@[simp] theorem failLz_codecSel (c : Cause) (st : Stage) (s : State) : (failLz c st s).codecSel = s.codecSel := rfl
@[simp] theorem failLz_op (c : Cause) (st : Stage) (s : State) : (failLz c st s).op = s.op := rfl
@[simp] theorem failLz_start (c : Cause) (st : Stage) (s : State) : (failLz c st s).start = s.start := rfl
@[simp] theorem failLz_busy (c : Cause) (st : Stage) (s : State) : (failLz c st s).busy = false := rfl
@[simp] theorem failLz_done (c : Cause) (st : Stage) (s : State) : (failLz c st s).done = true := rfl
@[simp] theorem failLz_status (c : Cause) (st : Stage) (s : State) : (failLz c st s).status = c.status := rfl
@[simp] theorem failLz_cause (c : Cause) (st : Stage) (s : State) : (failLz c st s).cause = c := rfl
@[simp] theorem failLz_result (c : Cause) (st : Stage) (s : State) : (failLz c st s).result = 0 := rfl
@[simp] theorem failLz_srcLen (c : Cause) (st : Stage) (s : State) : (failLz c st s).srcLen = s.srcLen := rfl
@[simp] theorem failLz_dstLen (c : Cause) (st : Stage) (s : State) : (failLz c st s).dstLen = 0 := rfl
@[simp] theorem failLz_outLimit (c : Cause) (st : Stage) (s : State) : (failLz c st s).outLimit = s.outLimit := rfl
@[simp] theorem failLz_cfg (c : Cause) (st : Stage) (s : State) : (failLz c st s).cfg = s.cfg := rfl
@[simp] theorem failLz_diag (c : Cause) (st : Stage) (s : State) : (failLz c st s).diag = diagLz st s := rfl
@[simp] theorem failLz_desc (c : Cause) (st : Stage) (s : State) : (failLz c st s).desc = s.desc := rfl
@[simp] theorem failLz_params (c : Cause) (st : Stage) (s : State) : (failLz c st s).params = s.params := rfl
@[simp] theorem failLz_src (c : Cause) (st : Stage) (s : State) : (failLz c st s).src = s.src := rfl
@[simp] theorem failLz_dst (c : Cause) (st : Stage) (s : State) :
    (failLz c st s).dst = Memory.ofBytes (Config.freeDst s.freeCount) := rfl
@[simp] theorem failLz_ctx (c : Cause) (st : Stage) (s : State) : (failLz c st s).ctx = Ctx.fresh 0 := rfl
@[simp] theorem failLz_freeCount (c : Cause) (st : Stage) (s : State) :
    (failLz c st s).freeCount = s.freeCount + 1 := rfl

/-! `finish`. -/

@[simp] theorem finish_codecSel (s : State) : (finish s).codecSel = s.codecSel := rfl
@[simp] theorem finish_op (s : State) : (finish s).op = s.op := rfl
@[simp] theorem finish_start (s : State) : (finish s).start = s.start := rfl
@[simp] theorem finish_busy (s : State) : (finish s).busy = false := rfl
@[simp] theorem finish_done (s : State) : (finish s).done = true := rfl
@[simp] theorem finish_status (s : State) : (finish s).status = .ok := rfl
@[simp] theorem finish_cause (s : State) : (finish s).cause = s.cause := rfl
@[simp] theorem finish_result (s : State) : (finish s).result = s.result := rfl
@[simp] theorem finish_srcLen (s : State) : (finish s).srcLen = s.srcLen := rfl
@[simp] theorem finish_dstLen (s : State) : (finish s).dstLen = BitVec.ofNat 32 s.ctx.dp := rfl
@[simp] theorem finish_outLimit (s : State) : (finish s).outLimit = s.outLimit := rfl
@[simp] theorem finish_cfg (s : State) : (finish s).cfg = s.cfg := rfl
@[simp] theorem finish_diag (s : State) : (finish s).diag = s.diag := rfl
@[simp] theorem finish_desc (s : State) : (finish s).desc = s.desc := rfl
@[simp] theorem finish_params (s : State) : (finish s).params = s.params := rfl
@[simp] theorem finish_src (s : State) : (finish s).src = s.src := rfl
@[simp] theorem finish_dst (s : State) : (finish s).dst = s.dst := rfl
@[simp] theorem finish_ctx (s : State) : (finish s).ctx = Ctx.fresh 0 := rfl
@[simp] theorem finish_freeCount (s : State) : (finish s).freeCount = s.freeCount := rfl

/-! `finishResult`. -/

@[simp] theorem finishResult_codecSel (v : Nat) (s : State) : (finishResult v s).codecSel = s.codecSel := rfl
@[simp] theorem finishResult_op (v : Nat) (s : State) : (finishResult v s).op = s.op := rfl
@[simp] theorem finishResult_start (v : Nat) (s : State) : (finishResult v s).start = s.start := rfl
@[simp] theorem finishResult_busy (v : Nat) (s : State) : (finishResult v s).busy = false := rfl
@[simp] theorem finishResult_done (v : Nat) (s : State) : (finishResult v s).done = true := rfl
@[simp] theorem finishResult_status (v : Nat) (s : State) : (finishResult v s).status = .ok := rfl
@[simp] theorem finishResult_cause (v : Nat) (s : State) : (finishResult v s).cause = s.cause := rfl
@[simp] theorem finishResult_result (v : Nat) (s : State) : (finishResult v s).result = BitVec.ofNat 32 v := rfl
@[simp] theorem finishResult_srcLen (v : Nat) (s : State) : (finishResult v s).srcLen = s.srcLen := rfl
@[simp] theorem finishResult_dstLen (v : Nat) (s : State) : (finishResult v s).dstLen = s.dstLen := rfl
@[simp] theorem finishResult_outLimit (v : Nat) (s : State) : (finishResult v s).outLimit = s.outLimit := rfl
@[simp] theorem finishResult_cfg (v : Nat) (s : State) : (finishResult v s).cfg = s.cfg := rfl
@[simp] theorem finishResult_diag (v : Nat) (s : State) : (finishResult v s).diag = s.diag := rfl
@[simp] theorem finishResult_desc (v : Nat) (s : State) : (finishResult v s).desc = s.desc := rfl
@[simp] theorem finishResult_params (v : Nat) (s : State) : (finishResult v s).params = s.params := rfl
@[simp] theorem finishResult_src (v : Nat) (s : State) : (finishResult v s).src = s.src := rfl
@[simp] theorem finishResult_dst (v : Nat) (s : State) : (finishResult v s).dst = s.dst := rfl
@[simp] theorem finishResult_ctx (v : Nat) (s : State) : (finishResult v s).ctx = Ctx.fresh 0 := rfl
@[simp] theorem finishResult_freeCount (v : Nat) (s : State) : (finishResult v s).freeCount = s.freeCount := rfl

/-! `setReader`. -/

@[simp] theorem setReader_codecSel (s : State) (r : BitSrc) : (s.setReader r).codecSel = s.codecSel := rfl
@[simp] theorem setReader_op (s : State) (r : BitSrc) : (s.setReader r).op = s.op := rfl
@[simp] theorem setReader_start (s : State) (r : BitSrc) : (s.setReader r).start = s.start := rfl
@[simp] theorem setReader_busy (s : State) (r : BitSrc) : (s.setReader r).busy = s.busy := rfl
@[simp] theorem setReader_done (s : State) (r : BitSrc) : (s.setReader r).done = s.done := rfl
@[simp] theorem setReader_status (s : State) (r : BitSrc) : (s.setReader r).status = s.status := rfl
@[simp] theorem setReader_cause (s : State) (r : BitSrc) : (s.setReader r).cause = s.cause := rfl
@[simp] theorem setReader_result (s : State) (r : BitSrc) : (s.setReader r).result = s.result := rfl
@[simp] theorem setReader_srcLen (s : State) (r : BitSrc) : (s.setReader r).srcLen = s.srcLen := rfl
@[simp] theorem setReader_dstLen (s : State) (r : BitSrc) : (s.setReader r).dstLen = s.dstLen := rfl
@[simp] theorem setReader_outLimit (s : State) (r : BitSrc) : (s.setReader r).outLimit = s.outLimit := rfl
@[simp] theorem setReader_cfg (s : State) (r : BitSrc) : (s.setReader r).cfg = s.cfg := rfl
@[simp] theorem setReader_diag (s : State) (r : BitSrc) : (s.setReader r).diag = s.diag := rfl
@[simp] theorem setReader_desc (s : State) (r : BitSrc) : (s.setReader r).desc = s.desc := rfl
@[simp] theorem setReader_params (s : State) (r : BitSrc) : (s.setReader r).params = s.params := rfl
@[simp] theorem setReader_src (s : State) (r : BitSrc) : (s.setReader r).src = s.src := rfl
@[simp] theorem setReader_dst (s : State) (r : BitSrc) : (s.setReader r).dst = s.dst := rfl
@[simp] theorem setReader_freeCount (s : State) (r : BitSrc) : (s.setReader r).freeCount = s.freeCount := rfl
@[simp] theorem setReader_ctx_sp (s : State) (r : BitSrc) : (s.setReader r).ctx.sp = s.ctx.sp + r.used := rfl
@[simp] theorem setReader_ctx_dp (s : State) (r : BitSrc) : (s.setReader r).ctx.dp = s.ctx.dp := rfl
@[simp] theorem setReader_ctx_magic (s : State) (r : BitSrc) : (s.setReader r).ctx.magic = s.ctx.magic := rfl
@[simp] theorem setReader_ctx_ulen (s : State) (r : BitSrc) : (s.setReader r).ctx.ulen = s.ctx.ulen := rfl
@[simp] theorem setReader_ctx_acc (s : State) (r : BitSrc) : (s.setReader r).ctx.acc = r.acc := rfl
@[simp] theorem setReader_ctx_nacc (s : State) (r : BitSrc) : (s.setReader r).ctx.nacc = r.nacc := rfl
@[simp] theorem setReader_ctx_n (s : State) (r : BitSrc) : (s.setReader r).ctx.n = s.ctx.n := rfl
@[simp] theorem setReader_ctx_rp (s : State) (r : BitSrc) : (s.setReader r).ctx.rp = s.ctx.rp := rfl
@[simp] theorem setReader_ctx_rpEnc (s : State) (r : BitSrc) : (s.setReader r).ctx.rpEnc = s.ctx.rpEnc := rfl
@[simp] theorem setReader_ctx_bt (s : State) (r : BitSrc) : (s.setReader r).ctx.bt = s.ctx.bt := rfl
@[simp] theorem setReader_ctx_btEnc (s : State) (r : BitSrc) : (s.setReader r).ctx.btEnc = s.ctx.btEnc := rfl
@[simp] theorem setReader_ctx_hr (s : State) (r : BitSrc) : (s.setReader r).ctx.hr = s.ctx.hr := rfl
@[simp] theorem setReader_ctx_lz (s : State) (r : BitSrc) : (s.setReader r).ctx.lz = s.ctx.lz := rfl

/-! `emitRaw`. -/

@[simp] theorem emitRaw_codecSel (b : Byte) (s : State) : (emitRaw b s).codecSel = s.codecSel := rfl
@[simp] theorem emitRaw_op (b : Byte) (s : State) : (emitRaw b s).op = s.op := rfl
@[simp] theorem emitRaw_start (b : Byte) (s : State) : (emitRaw b s).start = s.start := rfl
@[simp] theorem emitRaw_busy (b : Byte) (s : State) : (emitRaw b s).busy = s.busy := rfl
@[simp] theorem emitRaw_done (b : Byte) (s : State) : (emitRaw b s).done = s.done := rfl
@[simp] theorem emitRaw_status (b : Byte) (s : State) : (emitRaw b s).status = s.status := rfl
@[simp] theorem emitRaw_cause (b : Byte) (s : State) : (emitRaw b s).cause = s.cause := rfl
@[simp] theorem emitRaw_result (b : Byte) (s : State) : (emitRaw b s).result = s.result := rfl
@[simp] theorem emitRaw_srcLen (b : Byte) (s : State) : (emitRaw b s).srcLen = s.srcLen := rfl
@[simp] theorem emitRaw_dstLen (b : Byte) (s : State) : (emitRaw b s).dstLen = s.dstLen := rfl
@[simp] theorem emitRaw_outLimit (b : Byte) (s : State) : (emitRaw b s).outLimit = s.outLimit := rfl
@[simp] theorem emitRaw_cfg (b : Byte) (s : State) : (emitRaw b s).cfg = s.cfg := rfl
@[simp] theorem emitRaw_diag (b : Byte) (s : State) : (emitRaw b s).diag = s.diag := rfl
@[simp] theorem emitRaw_desc (b : Byte) (s : State) : (emitRaw b s).desc = s.desc := rfl
@[simp] theorem emitRaw_params (b : Byte) (s : State) : (emitRaw b s).params = s.params := rfl
@[simp] theorem emitRaw_src (b : Byte) (s : State) : (emitRaw b s).src = s.src := rfl
@[simp] theorem emitRaw_dst (b : Byte) (s : State) : (emitRaw b s).dst = s.dst.write s.ctx.dp b := rfl
@[simp] theorem emitRaw_freeCount (b : Byte) (s : State) : (emitRaw b s).freeCount = s.freeCount := rfl
@[simp] theorem emitRaw_ctx_sp (b : Byte) (s : State) : (emitRaw b s).ctx.sp = s.ctx.sp := rfl
@[simp] theorem emitRaw_ctx_dp (b : Byte) (s : State) : (emitRaw b s).ctx.dp = s.ctx.dp + 1 := rfl
@[simp] theorem emitRaw_ctx_magic (b : Byte) (s : State) : (emitRaw b s).ctx.magic = s.ctx.magic := rfl
@[simp] theorem emitRaw_ctx_ulen (b : Byte) (s : State) : (emitRaw b s).ctx.ulen = s.ctx.ulen := rfl
@[simp] theorem emitRaw_ctx_acc (b : Byte) (s : State) : (emitRaw b s).ctx.acc = s.ctx.acc := rfl
@[simp] theorem emitRaw_ctx_nacc (b : Byte) (s : State) : (emitRaw b s).ctx.nacc = s.ctx.nacc := rfl
@[simp] theorem emitRaw_ctx_n (b : Byte) (s : State) : (emitRaw b s).ctx.n = s.ctx.n := rfl
@[simp] theorem emitRaw_ctx_rp (b : Byte) (s : State) : (emitRaw b s).ctx.rp = s.ctx.rp := rfl
@[simp] theorem emitRaw_ctx_rpEnc (b : Byte) (s : State) : (emitRaw b s).ctx.rpEnc = s.ctx.rpEnc := rfl
@[simp] theorem emitRaw_ctx_bt (b : Byte) (s : State) : (emitRaw b s).ctx.bt = s.ctx.bt := rfl
@[simp] theorem emitRaw_ctx_btEnc (b : Byte) (s : State) : (emitRaw b s).ctx.btEnc = s.ctx.btEnc := rfl
@[simp] theorem emitRaw_ctx_hr (b : Byte) (s : State) : (emitRaw b s).ctx.hr = s.ctx.hr := rfl
@[simp] theorem emitRaw_ctx_lz (b : Byte) (s : State) : (emitRaw b s).ctx.lz = s.ctx.lz := rfl

/-! `emitted`. -/

@[simp] theorem emitted_codecSel (out : List Byte) (s : State) : (emitted out s).codecSel = s.codecSel := rfl
@[simp] theorem emitted_op (out : List Byte) (s : State) : (emitted out s).op = s.op := rfl
@[simp] theorem emitted_start (out : List Byte) (s : State) : (emitted out s).start = s.start := rfl
@[simp] theorem emitted_busy (out : List Byte) (s : State) : (emitted out s).busy = s.busy := rfl
@[simp] theorem emitted_done (out : List Byte) (s : State) : (emitted out s).done = s.done := rfl
@[simp] theorem emitted_status (out : List Byte) (s : State) : (emitted out s).status = s.status := rfl
@[simp] theorem emitted_cause (out : List Byte) (s : State) : (emitted out s).cause = s.cause := rfl
@[simp] theorem emitted_result (out : List Byte) (s : State) : (emitted out s).result = s.result := rfl
@[simp] theorem emitted_srcLen (out : List Byte) (s : State) : (emitted out s).srcLen = s.srcLen := rfl
@[simp] theorem emitted_dstLen (out : List Byte) (s : State) : (emitted out s).dstLen = s.dstLen := rfl
@[simp] theorem emitted_outLimit (out : List Byte) (s : State) : (emitted out s).outLimit = s.outLimit := rfl
@[simp] theorem emitted_cfg (out : List Byte) (s : State) : (emitted out s).cfg = s.cfg := rfl
@[simp] theorem emitted_diag (out : List Byte) (s : State) : (emitted out s).diag = s.diag := rfl
@[simp] theorem emitted_desc (out : List Byte) (s : State) : (emitted out s).desc = s.desc := rfl
@[simp] theorem emitted_params (out : List Byte) (s : State) : (emitted out s).params = s.params := rfl
@[simp] theorem emitted_src (out : List Byte) (s : State) : (emitted out s).src = s.src := rfl
@[simp] theorem emitted_dst (out : List Byte) (s : State) : (emitted out s).dst = s.dst.writeList s.ctx.dp out := rfl
@[simp] theorem emitted_freeCount (out : List Byte) (s : State) : (emitted out s).freeCount = s.freeCount := rfl
@[simp] theorem emitted_ctx_sp (out : List Byte) (s : State) : (emitted out s).ctx.sp = s.ctx.sp := rfl
@[simp] theorem emitted_ctx_dp (out : List Byte) (s : State) : (emitted out s).ctx.dp = s.ctx.dp + out.length := rfl
@[simp] theorem emitted_ctx_magic (out : List Byte) (s : State) : (emitted out s).ctx.magic = s.ctx.magic := rfl
@[simp] theorem emitted_ctx_ulen (out : List Byte) (s : State) : (emitted out s).ctx.ulen = s.ctx.ulen := rfl
@[simp] theorem emitted_ctx_acc (out : List Byte) (s : State) : (emitted out s).ctx.acc = s.ctx.acc := rfl
@[simp] theorem emitted_ctx_nacc (out : List Byte) (s : State) : (emitted out s).ctx.nacc = s.ctx.nacc := rfl
@[simp] theorem emitted_ctx_n (out : List Byte) (s : State) : (emitted out s).ctx.n = s.ctx.n := rfl
@[simp] theorem emitted_ctx_rp (out : List Byte) (s : State) : (emitted out s).ctx.rp = s.ctx.rp := rfl
@[simp] theorem emitted_ctx_rpEnc (out : List Byte) (s : State) : (emitted out s).ctx.rpEnc = s.ctx.rpEnc := rfl
@[simp] theorem emitted_ctx_bt (out : List Byte) (s : State) : (emitted out s).ctx.bt = s.ctx.bt := rfl
@[simp] theorem emitted_ctx_btEnc (out : List Byte) (s : State) : (emitted out s).ctx.btEnc = s.ctx.btEnc := rfl
@[simp] theorem emitted_ctx_hr (out : List Byte) (s : State) : (emitted out s).ctx.hr = s.ctx.hr := rfl
@[simp] theorem emitted_ctx_lz (out : List Byte) (s : State) : (emitted out s).ctx.lz = s.ctx.lz := rfl

/-! `fetched`. -/

@[simp] theorem fetched_codecSel (n : Nat) (s : State) : (fetched n s).codecSel = s.codecSel := rfl
@[simp] theorem fetched_op (n : Nat) (s : State) : (fetched n s).op = s.op := rfl
@[simp] theorem fetched_start (n : Nat) (s : State) : (fetched n s).start = s.start := rfl
@[simp] theorem fetched_busy (n : Nat) (s : State) : (fetched n s).busy = s.busy := rfl
@[simp] theorem fetched_done (n : Nat) (s : State) : (fetched n s).done = s.done := rfl
@[simp] theorem fetched_status (n : Nat) (s : State) : (fetched n s).status = s.status := rfl
@[simp] theorem fetched_cause (n : Nat) (s : State) : (fetched n s).cause = s.cause := rfl
@[simp] theorem fetched_result (n : Nat) (s : State) : (fetched n s).result = s.result := rfl
@[simp] theorem fetched_srcLen (n : Nat) (s : State) : (fetched n s).srcLen = s.srcLen := rfl
@[simp] theorem fetched_dstLen (n : Nat) (s : State) : (fetched n s).dstLen = s.dstLen := rfl
@[simp] theorem fetched_outLimit (n : Nat) (s : State) : (fetched n s).outLimit = s.outLimit := rfl
@[simp] theorem fetched_cfg (n : Nat) (s : State) : (fetched n s).cfg = s.cfg := rfl
@[simp] theorem fetched_diag (n : Nat) (s : State) : (fetched n s).diag = s.diag := rfl
@[simp] theorem fetched_desc (n : Nat) (s : State) : (fetched n s).desc = s.desc := rfl
@[simp] theorem fetched_params (n : Nat) (s : State) : (fetched n s).params = s.params := rfl
@[simp] theorem fetched_src (n : Nat) (s : State) : (fetched n s).src = s.src := rfl
@[simp] theorem fetched_dst (n : Nat) (s : State) : (fetched n s).dst = s.dst := rfl
@[simp] theorem fetched_freeCount (n : Nat) (s : State) : (fetched n s).freeCount = s.freeCount := rfl
@[simp] theorem fetched_ctx_sp (n : Nat) (s : State) : (fetched n s).ctx.sp = s.ctx.sp + n := rfl
@[simp] theorem fetched_ctx_dp (n : Nat) (s : State) : (fetched n s).ctx.dp = s.ctx.dp := rfl
@[simp] theorem fetched_ctx_magic (n : Nat) (s : State) : (fetched n s).ctx.magic = s.ctx.magic := rfl
@[simp] theorem fetched_ctx_ulen (n : Nat) (s : State) : (fetched n s).ctx.ulen = s.ctx.ulen := rfl
@[simp] theorem fetched_ctx_acc (n : Nat) (s : State) : (fetched n s).ctx.acc = s.ctx.acc := rfl
@[simp] theorem fetched_ctx_nacc (n : Nat) (s : State) : (fetched n s).ctx.nacc = s.ctx.nacc := rfl
@[simp] theorem fetched_ctx_n (n : Nat) (s : State) : (fetched n s).ctx.n = s.ctx.n := rfl
@[simp] theorem fetched_ctx_rp (n : Nat) (s : State) : (fetched n s).ctx.rp = s.ctx.rp := rfl
@[simp] theorem fetched_ctx_rpEnc (n : Nat) (s : State) : (fetched n s).ctx.rpEnc = s.ctx.rpEnc := rfl
@[simp] theorem fetched_ctx_bt (n : Nat) (s : State) : (fetched n s).ctx.bt = s.ctx.bt := rfl
@[simp] theorem fetched_ctx_btEnc (n : Nat) (s : State) : (fetched n s).ctx.btEnc = s.ctx.btEnc := rfl
@[simp] theorem fetched_ctx_hr (n : Nat) (s : State) : (fetched n s).ctx.hr = s.ctx.hr := rfl
@[simp] theorem fetched_ctx_lz (n : Nat) (s : State) : (fetched n s).ctx.lz = s.ctx.lz := rfl

/-! `setRpFields`. -/

@[simp] theorem setRpFields_codecSel (P L D : Nat) (s : State) : (setRpFields P L D s).codecSel = s.codecSel := rfl
@[simp] theorem setRpFields_op (P L D : Nat) (s : State) : (setRpFields P L D s).op = s.op := rfl
@[simp] theorem setRpFields_start (P L D : Nat) (s : State) : (setRpFields P L D s).start = s.start := rfl
@[simp] theorem setRpFields_busy (P L D : Nat) (s : State) : (setRpFields P L D s).busy = s.busy := rfl
@[simp] theorem setRpFields_done (P L D : Nat) (s : State) : (setRpFields P L D s).done = s.done := rfl
@[simp] theorem setRpFields_status (P L D : Nat) (s : State) : (setRpFields P L D s).status = s.status := rfl
@[simp] theorem setRpFields_cause (P L D : Nat) (s : State) : (setRpFields P L D s).cause = s.cause := rfl
@[simp] theorem setRpFields_result (P L D : Nat) (s : State) : (setRpFields P L D s).result = s.result := rfl
@[simp] theorem setRpFields_srcLen (P L D : Nat) (s : State) : (setRpFields P L D s).srcLen = s.srcLen := rfl
@[simp] theorem setRpFields_dstLen (P L D : Nat) (s : State) : (setRpFields P L D s).dstLen = s.dstLen := rfl
@[simp] theorem setRpFields_outLimit (P L D : Nat) (s : State) : (setRpFields P L D s).outLimit = s.outLimit := rfl
@[simp] theorem setRpFields_cfg (P L D : Nat) (s : State) : (setRpFields P L D s).cfg = s.cfg := rfl
@[simp] theorem setRpFields_diag (P L D : Nat) (s : State) : (setRpFields P L D s).diag = s.diag := rfl
@[simp] theorem setRpFields_desc (P L D : Nat) (s : State) : (setRpFields P L D s).desc = s.desc := rfl
@[simp] theorem setRpFields_params (P L D : Nat) (s : State) : (setRpFields P L D s).params = s.params := rfl
@[simp] theorem setRpFields_src (P L D : Nat) (s : State) : (setRpFields P L D s).src = s.src := rfl
@[simp] theorem setRpFields_dst (P L D : Nat) (s : State) : (setRpFields P L D s).dst = s.dst := rfl
@[simp] theorem setRpFields_freeCount (P L D : Nat) (s : State) : (setRpFields P L D s).freeCount = s.freeCount := rfl
@[simp] theorem setRpFields_ctx_sp (P L D : Nat) (s : State) : (setRpFields P L D s).ctx.sp = s.ctx.sp := rfl
@[simp] theorem setRpFields_ctx_dp (P L D : Nat) (s : State) : (setRpFields P L D s).ctx.dp = s.ctx.dp := rfl
@[simp] theorem setRpFields_ctx_magic (P L D : Nat) (s : State) : (setRpFields P L D s).ctx.magic = s.ctx.magic := rfl
@[simp] theorem setRpFields_ctx_ulen (P L D : Nat) (s : State) : (setRpFields P L D s).ctx.ulen = s.ctx.ulen := rfl
@[simp] theorem setRpFields_ctx_acc (P L D : Nat) (s : State) : (setRpFields P L D s).ctx.acc = s.ctx.acc := rfl
@[simp] theorem setRpFields_ctx_nacc (P L D : Nat) (s : State) : (setRpFields P L D s).ctx.nacc = s.ctx.nacc := rfl
@[simp] theorem setRpFields_ctx_n (P L D : Nat) (s : State) : (setRpFields P L D s).ctx.n = s.ctx.n := rfl
@[simp] theorem setRpFields_ctx_rp (P L D : Nat) (s : State) :
    (setRpFields P L D s).ctx.rp = { s.ctx.rp with P := P, L := L, D := D } := rfl
@[simp] theorem setRpFields_ctx_rpEnc (P L D : Nat) (s : State) : (setRpFields P L D s).ctx.rpEnc = s.ctx.rpEnc := rfl
@[simp] theorem setRpFields_ctx_bt (P L D : Nat) (s : State) : (setRpFields P L D s).ctx.bt = s.ctx.bt := rfl
@[simp] theorem setRpFields_ctx_btEnc (P L D : Nat) (s : State) : (setRpFields P L D s).ctx.btEnc = s.ctx.btEnc := rfl
@[simp] theorem setRpFields_ctx_hr (P L D : Nat) (s : State) : (setRpFields P L D s).ctx.hr = s.ctx.hr := rfl
@[simp] theorem setRpFields_ctx_lz (P L D : Nat) (s : State) : (setRpFields P L D s).ctx.lz = s.ctx.lz := rfl

/-! `setRpCount`. -/

@[simp] theorem setRpCount_codecSel (P : Nat) (s : State) : (setRpCount P s).codecSel = s.codecSel := rfl
@[simp] theorem setRpCount_op (P : Nat) (s : State) : (setRpCount P s).op = s.op := rfl
@[simp] theorem setRpCount_start (P : Nat) (s : State) : (setRpCount P s).start = s.start := rfl
@[simp] theorem setRpCount_busy (P : Nat) (s : State) : (setRpCount P s).busy = s.busy := rfl
@[simp] theorem setRpCount_done (P : Nat) (s : State) : (setRpCount P s).done = s.done := rfl
@[simp] theorem setRpCount_status (P : Nat) (s : State) : (setRpCount P s).status = s.status := rfl
@[simp] theorem setRpCount_cause (P : Nat) (s : State) : (setRpCount P s).cause = s.cause := rfl
@[simp] theorem setRpCount_result (P : Nat) (s : State) : (setRpCount P s).result = s.result := rfl
@[simp] theorem setRpCount_srcLen (P : Nat) (s : State) : (setRpCount P s).srcLen = s.srcLen := rfl
@[simp] theorem setRpCount_dstLen (P : Nat) (s : State) : (setRpCount P s).dstLen = s.dstLen := rfl
@[simp] theorem setRpCount_outLimit (P : Nat) (s : State) : (setRpCount P s).outLimit = s.outLimit := rfl
@[simp] theorem setRpCount_cfg (P : Nat) (s : State) : (setRpCount P s).cfg = s.cfg := rfl
@[simp] theorem setRpCount_diag (P : Nat) (s : State) : (setRpCount P s).diag = s.diag := rfl
@[simp] theorem setRpCount_desc (P : Nat) (s : State) : (setRpCount P s).desc = s.desc := rfl
@[simp] theorem setRpCount_params (P : Nat) (s : State) : (setRpCount P s).params = s.params := rfl
@[simp] theorem setRpCount_src (P : Nat) (s : State) : (setRpCount P s).src = s.src := rfl
@[simp] theorem setRpCount_dst (P : Nat) (s : State) : (setRpCount P s).dst = s.dst := rfl
@[simp] theorem setRpCount_freeCount (P : Nat) (s : State) : (setRpCount P s).freeCount = s.freeCount := rfl
@[simp] theorem setRpCount_ctx_sp (P : Nat) (s : State) : (setRpCount P s).ctx.sp = s.ctx.sp := rfl
@[simp] theorem setRpCount_ctx_dp (P : Nat) (s : State) : (setRpCount P s).ctx.dp = s.ctx.dp := rfl
@[simp] theorem setRpCount_ctx_magic (P : Nat) (s : State) : (setRpCount P s).ctx.magic = s.ctx.magic := rfl
@[simp] theorem setRpCount_ctx_ulen (P : Nat) (s : State) : (setRpCount P s).ctx.ulen = s.ctx.ulen := rfl
@[simp] theorem setRpCount_ctx_acc (P : Nat) (s : State) : (setRpCount P s).ctx.acc = s.ctx.acc := rfl
@[simp] theorem setRpCount_ctx_nacc (P : Nat) (s : State) : (setRpCount P s).ctx.nacc = s.ctx.nacc := rfl
@[simp] theorem setRpCount_ctx_n (P : Nat) (s : State) : (setRpCount P s).ctx.n = s.ctx.n := rfl
@[simp] theorem setRpCount_ctx_rp (P : Nat) (s : State) : (setRpCount P s).ctx.rp = { s.ctx.rp with P := P } := rfl
@[simp] theorem setRpCount_ctx_rpEnc (P : Nat) (s : State) : (setRpCount P s).ctx.rpEnc = s.ctx.rpEnc := rfl
@[simp] theorem setRpCount_ctx_bt (P : Nat) (s : State) : (setRpCount P s).ctx.bt = s.ctx.bt := rfl
@[simp] theorem setRpCount_ctx_btEnc (P : Nat) (s : State) : (setRpCount P s).ctx.btEnc = s.ctx.btEnc := rfl
@[simp] theorem setRpCount_ctx_hr (P : Nat) (s : State) : (setRpCount P s).ctx.hr = s.ctx.hr := rfl
@[simp] theorem setRpCount_ctx_lz (P : Nat) (s : State) : (setRpCount P s).ctx.lz = s.ctx.lz := rfl

/-! `setBtStack`. -/

@[simp] theorem setBtStack_codecSel (st : List Byte) (s : State) : (setBtStack st s).codecSel = s.codecSel := rfl
@[simp] theorem setBtStack_op (st : List Byte) (s : State) : (setBtStack st s).op = s.op := rfl
@[simp] theorem setBtStack_start (st : List Byte) (s : State) : (setBtStack st s).start = s.start := rfl
@[simp] theorem setBtStack_busy (st : List Byte) (s : State) : (setBtStack st s).busy = s.busy := rfl
@[simp] theorem setBtStack_done (st : List Byte) (s : State) : (setBtStack st s).done = s.done := rfl
@[simp] theorem setBtStack_status (st : List Byte) (s : State) : (setBtStack st s).status = s.status := rfl
@[simp] theorem setBtStack_cause (st : List Byte) (s : State) : (setBtStack st s).cause = s.cause := rfl
@[simp] theorem setBtStack_result (st : List Byte) (s : State) : (setBtStack st s).result = s.result := rfl
@[simp] theorem setBtStack_srcLen (st : List Byte) (s : State) : (setBtStack st s).srcLen = s.srcLen := rfl
@[simp] theorem setBtStack_dstLen (st : List Byte) (s : State) : (setBtStack st s).dstLen = s.dstLen := rfl
@[simp] theorem setBtStack_outLimit (st : List Byte) (s : State) : (setBtStack st s).outLimit = s.outLimit := rfl
@[simp] theorem setBtStack_cfg (st : List Byte) (s : State) : (setBtStack st s).cfg = s.cfg := rfl
@[simp] theorem setBtStack_diag (st : List Byte) (s : State) : (setBtStack st s).diag = s.diag := rfl
@[simp] theorem setBtStack_desc (st : List Byte) (s : State) : (setBtStack st s).desc = s.desc := rfl
@[simp] theorem setBtStack_params (st : List Byte) (s : State) : (setBtStack st s).params = s.params := rfl
@[simp] theorem setBtStack_src (st : List Byte) (s : State) : (setBtStack st s).src = s.src := rfl
@[simp] theorem setBtStack_dst (st : List Byte) (s : State) : (setBtStack st s).dst = s.dst := rfl
@[simp] theorem setBtStack_freeCount (st : List Byte) (s : State) : (setBtStack st s).freeCount = s.freeCount := rfl
@[simp] theorem setBtStack_ctx_sp (st : List Byte) (s : State) : (setBtStack st s).ctx.sp = s.ctx.sp := rfl
@[simp] theorem setBtStack_ctx_dp (st : List Byte) (s : State) : (setBtStack st s).ctx.dp = s.ctx.dp := rfl
@[simp] theorem setBtStack_ctx_magic (st : List Byte) (s : State) : (setBtStack st s).ctx.magic = s.ctx.magic := rfl
@[simp] theorem setBtStack_ctx_ulen (st : List Byte) (s : State) : (setBtStack st s).ctx.ulen = s.ctx.ulen := rfl
@[simp] theorem setBtStack_ctx_acc (st : List Byte) (s : State) : (setBtStack st s).ctx.acc = s.ctx.acc := rfl
@[simp] theorem setBtStack_ctx_nacc (st : List Byte) (s : State) : (setBtStack st s).ctx.nacc = s.ctx.nacc := rfl
@[simp] theorem setBtStack_ctx_n (st : List Byte) (s : State) : (setBtStack st s).ctx.n = s.ctx.n := rfl
@[simp] theorem setBtStack_ctx_rp (st : List Byte) (s : State) : (setBtStack st s).ctx.rp = s.ctx.rp := rfl
@[simp] theorem setBtStack_ctx_rpEnc (st : List Byte) (s : State) : (setBtStack st s).ctx.rpEnc = s.ctx.rpEnc := rfl
@[simp] theorem setBtStack_ctx_bt (st : List Byte) (s : State) :
    (setBtStack st s).ctx.bt = { s.ctx.bt with stack := st } := rfl
@[simp] theorem setBtStack_ctx_btEnc (st : List Byte) (s : State) : (setBtStack st s).ctx.btEnc = s.ctx.btEnc := rfl
@[simp] theorem setBtStack_ctx_hr (st : List Byte) (s : State) : (setBtStack st s).ctx.hr = s.ctx.hr := rfl
@[simp] theorem setBtStack_ctx_lz (st : List Byte) (s : State) : (setBtStack st s).ctx.lz = s.ctx.lz := rfl

/-! `setBtHead`. -/

@[simp] theorem setBtHead_codecSel (clue count : Byte) (s : State) :
    (setBtHead clue count s).codecSel = s.codecSel := rfl
@[simp] theorem setBtHead_op (clue count : Byte) (s : State) : (setBtHead clue count s).op = s.op := rfl
@[simp] theorem setBtHead_start (clue count : Byte) (s : State) : (setBtHead clue count s).start = s.start := rfl
@[simp] theorem setBtHead_busy (clue count : Byte) (s : State) : (setBtHead clue count s).busy = s.busy := rfl
@[simp] theorem setBtHead_done (clue count : Byte) (s : State) : (setBtHead clue count s).done = s.done := rfl
@[simp] theorem setBtHead_status (clue count : Byte) (s : State) : (setBtHead clue count s).status = s.status := rfl
@[simp] theorem setBtHead_cause (clue count : Byte) (s : State) : (setBtHead clue count s).cause = s.cause := rfl
@[simp] theorem setBtHead_result (clue count : Byte) (s : State) : (setBtHead clue count s).result = s.result := rfl
@[simp] theorem setBtHead_srcLen (clue count : Byte) (s : State) : (setBtHead clue count s).srcLen = s.srcLen := rfl
@[simp] theorem setBtHead_dstLen (clue count : Byte) (s : State) : (setBtHead clue count s).dstLen = s.dstLen := rfl
@[simp] theorem setBtHead_outLimit (clue count : Byte) (s : State) :
    (setBtHead clue count s).outLimit = s.outLimit := rfl
@[simp] theorem setBtHead_cfg (clue count : Byte) (s : State) : (setBtHead clue count s).cfg = s.cfg := rfl
@[simp] theorem setBtHead_diag (clue count : Byte) (s : State) : (setBtHead clue count s).diag = s.diag := rfl
@[simp] theorem setBtHead_desc (clue count : Byte) (s : State) : (setBtHead clue count s).desc = s.desc := rfl
@[simp] theorem setBtHead_params (clue count : Byte) (s : State) : (setBtHead clue count s).params = s.params := rfl
@[simp] theorem setBtHead_src (clue count : Byte) (s : State) : (setBtHead clue count s).src = s.src := rfl
@[simp] theorem setBtHead_dst (clue count : Byte) (s : State) : (setBtHead clue count s).dst = s.dst := rfl
@[simp] theorem setBtHead_freeCount (clue count : Byte) (s : State) :
    (setBtHead clue count s).freeCount = s.freeCount := rfl
@[simp] theorem setBtHead_ctx_sp (clue count : Byte) (s : State) : (setBtHead clue count s).ctx.sp = s.ctx.sp := rfl
@[simp] theorem setBtHead_ctx_dp (clue count : Byte) (s : State) : (setBtHead clue count s).ctx.dp = s.ctx.dp := rfl
@[simp] theorem setBtHead_ctx_magic (clue count : Byte) (s : State) :
    (setBtHead clue count s).ctx.magic = s.ctx.magic := rfl
@[simp] theorem setBtHead_ctx_ulen (clue count : Byte) (s : State) :
    (setBtHead clue count s).ctx.ulen = s.ctx.ulen := rfl
@[simp] theorem setBtHead_ctx_acc (clue count : Byte) (s : State) : (setBtHead clue count s).ctx.acc = s.ctx.acc := rfl
@[simp] theorem setBtHead_ctx_nacc (clue count : Byte) (s : State) :
    (setBtHead clue count s).ctx.nacc = s.ctx.nacc := rfl
@[simp] theorem setBtHead_ctx_n (clue count : Byte) (s : State) : (setBtHead clue count s).ctx.n = s.ctx.n := rfl
@[simp] theorem setBtHead_ctx_rp (clue count : Byte) (s : State) : (setBtHead clue count s).ctx.rp = s.ctx.rp := rfl
@[simp] theorem setBtHead_ctx_rpEnc (clue count : Byte) (s : State) :
    (setBtHead clue count s).ctx.rpEnc = s.ctx.rpEnc := rfl
@[simp] theorem setBtHead_ctx_bt (clue count : Byte) (s : State) :
    (setBtHead clue count s).ctx.bt = { s.ctx.bt with clue := clue, count := count, isNode := [] } := rfl
@[simp] theorem setBtHead_ctx_btEnc (clue count : Byte) (s : State) :
    (setBtHead clue count s).ctx.btEnc = s.ctx.btEnc := rfl
@[simp] theorem setBtHead_ctx_hr (clue count : Byte) (s : State) : (setBtHead clue count s).ctx.hr = s.ctx.hr := rfl
@[simp] theorem setBtHead_ctx_lz (clue count : Byte) (s : State) : (setBtHead clue count s).ctx.lz = s.ctx.lz := rfl

/-! `setBtNode`. -/

@[simp] theorem setBtNode_codecSel (nd l r : Byte) (s : State) : (setBtNode nd l r s).codecSel = s.codecSel := rfl
@[simp] theorem setBtNode_op (nd l r : Byte) (s : State) : (setBtNode nd l r s).op = s.op := rfl
@[simp] theorem setBtNode_start (nd l r : Byte) (s : State) : (setBtNode nd l r s).start = s.start := rfl
@[simp] theorem setBtNode_busy (nd l r : Byte) (s : State) : (setBtNode nd l r s).busy = s.busy := rfl
@[simp] theorem setBtNode_done (nd l r : Byte) (s : State) : (setBtNode nd l r s).done = s.done := rfl
@[simp] theorem setBtNode_status (nd l r : Byte) (s : State) : (setBtNode nd l r s).status = s.status := rfl
@[simp] theorem setBtNode_cause (nd l r : Byte) (s : State) : (setBtNode nd l r s).cause = s.cause := rfl
@[simp] theorem setBtNode_result (nd l r : Byte) (s : State) : (setBtNode nd l r s).result = s.result := rfl
@[simp] theorem setBtNode_srcLen (nd l r : Byte) (s : State) : (setBtNode nd l r s).srcLen = s.srcLen := rfl
@[simp] theorem setBtNode_dstLen (nd l r : Byte) (s : State) : (setBtNode nd l r s).dstLen = s.dstLen := rfl
@[simp] theorem setBtNode_outLimit (nd l r : Byte) (s : State) : (setBtNode nd l r s).outLimit = s.outLimit := rfl
@[simp] theorem setBtNode_cfg (nd l r : Byte) (s : State) : (setBtNode nd l r s).cfg = s.cfg := rfl
@[simp] theorem setBtNode_diag (nd l r : Byte) (s : State) : (setBtNode nd l r s).diag = s.diag := rfl
@[simp] theorem setBtNode_desc (nd l r : Byte) (s : State) : (setBtNode nd l r s).desc = s.desc := rfl
@[simp] theorem setBtNode_params (nd l r : Byte) (s : State) : (setBtNode nd l r s).params = s.params := rfl
@[simp] theorem setBtNode_src (nd l r : Byte) (s : State) : (setBtNode nd l r s).src = s.src := rfl
@[simp] theorem setBtNode_dst (nd l r : Byte) (s : State) : (setBtNode nd l r s).dst = s.dst := rfl
@[simp] theorem setBtNode_freeCount (nd l r : Byte) (s : State) : (setBtNode nd l r s).freeCount = s.freeCount := rfl
@[simp] theorem setBtNode_ctx_sp (nd l r : Byte) (s : State) : (setBtNode nd l r s).ctx.sp = s.ctx.sp := rfl
@[simp] theorem setBtNode_ctx_dp (nd l r : Byte) (s : State) : (setBtNode nd l r s).ctx.dp = s.ctx.dp := rfl
@[simp] theorem setBtNode_ctx_magic (nd l r : Byte) (s : State) : (setBtNode nd l r s).ctx.magic = s.ctx.magic := rfl
@[simp] theorem setBtNode_ctx_ulen (nd l r : Byte) (s : State) : (setBtNode nd l r s).ctx.ulen = s.ctx.ulen := rfl
@[simp] theorem setBtNode_ctx_acc (nd l r : Byte) (s : State) : (setBtNode nd l r s).ctx.acc = s.ctx.acc := rfl
@[simp] theorem setBtNode_ctx_nacc (nd l r : Byte) (s : State) : (setBtNode nd l r s).ctx.nacc = s.ctx.nacc := rfl
@[simp] theorem setBtNode_ctx_n (nd l r : Byte) (s : State) : (setBtNode nd l r s).ctx.n = s.ctx.n := rfl
@[simp] theorem setBtNode_ctx_rp (nd l r : Byte) (s : State) : (setBtNode nd l r s).ctx.rp = s.ctx.rp := rfl
@[simp] theorem setBtNode_ctx_rpEnc (nd l r : Byte) (s : State) : (setBtNode nd l r s).ctx.rpEnc = s.ctx.rpEnc := rfl
@[simp] theorem setBtNode_ctx_bt (nd l r : Byte) (s : State) :
    (setBtNode nd l r s).ctx.bt = { s.ctx.bt with
      isNode := s.ctx.bt.isNode.setD false nd.toNat true
      left := s.ctx.bt.left.write nd.toNat l
      right := s.ctx.bt.right.write nd.toNat r } := rfl
@[simp] theorem setBtNode_ctx_btEnc (nd l r : Byte) (s : State) : (setBtNode nd l r s).ctx.btEnc = s.ctx.btEnc := rfl
@[simp] theorem setBtNode_ctx_hr (nd l r : Byte) (s : State) : (setBtNode nd l r s).ctx.hr = s.ctx.hr := rfl
@[simp] theorem setBtNode_ctx_lz (nd l r : Byte) (s : State) : (setBtNode nd l r s).ctx.lz = s.ctx.lz := rfl

/-! `setHrTab`. -/

@[simp] theorem setHrTab_codecSel (t : HrTab) (l : Leap) (s : State) : (setHrTab t l s).codecSel = s.codecSel := rfl
@[simp] theorem setHrTab_op (t : HrTab) (l : Leap) (s : State) : (setHrTab t l s).op = s.op := rfl
@[simp] theorem setHrTab_start (t : HrTab) (l : Leap) (s : State) : (setHrTab t l s).start = s.start := rfl
@[simp] theorem setHrTab_busy (t : HrTab) (l : Leap) (s : State) : (setHrTab t l s).busy = s.busy := rfl
@[simp] theorem setHrTab_done (t : HrTab) (l : Leap) (s : State) : (setHrTab t l s).done = s.done := rfl
@[simp] theorem setHrTab_status (t : HrTab) (l : Leap) (s : State) : (setHrTab t l s).status = s.status := rfl
@[simp] theorem setHrTab_cause (t : HrTab) (l : Leap) (s : State) : (setHrTab t l s).cause = s.cause := rfl
@[simp] theorem setHrTab_result (t : HrTab) (l : Leap) (s : State) : (setHrTab t l s).result = s.result := rfl
@[simp] theorem setHrTab_srcLen (t : HrTab) (l : Leap) (s : State) : (setHrTab t l s).srcLen = s.srcLen := rfl
@[simp] theorem setHrTab_dstLen (t : HrTab) (l : Leap) (s : State) : (setHrTab t l s).dstLen = s.dstLen := rfl
@[simp] theorem setHrTab_outLimit (t : HrTab) (l : Leap) (s : State) : (setHrTab t l s).outLimit = s.outLimit := rfl
@[simp] theorem setHrTab_cfg (t : HrTab) (l : Leap) (s : State) : (setHrTab t l s).cfg = s.cfg := rfl
@[simp] theorem setHrTab_diag (t : HrTab) (l : Leap) (s : State) : (setHrTab t l s).diag = s.diag := rfl
@[simp] theorem setHrTab_desc (t : HrTab) (l : Leap) (s : State) : (setHrTab t l s).desc = s.desc := rfl
@[simp] theorem setHrTab_params (t : HrTab) (l : Leap) (s : State) : (setHrTab t l s).params = s.params := rfl
@[simp] theorem setHrTab_src (t : HrTab) (l : Leap) (s : State) : (setHrTab t l s).src = s.src := rfl
@[simp] theorem setHrTab_dst (t : HrTab) (l : Leap) (s : State) : (setHrTab t l s).dst = s.dst := rfl
@[simp] theorem setHrTab_freeCount (t : HrTab) (l : Leap) (s : State) : (setHrTab t l s).freeCount = s.freeCount := rfl
@[simp] theorem setHrTab_ctx_sp (t : HrTab) (l : Leap) (s : State) : (setHrTab t l s).ctx.sp = s.ctx.sp := rfl
@[simp] theorem setHrTab_ctx_dp (t : HrTab) (l : Leap) (s : State) : (setHrTab t l s).ctx.dp = s.ctx.dp := rfl
@[simp] theorem setHrTab_ctx_magic (t : HrTab) (l : Leap) (s : State) : (setHrTab t l s).ctx.magic = s.ctx.magic := rfl
@[simp] theorem setHrTab_ctx_ulen (t : HrTab) (l : Leap) (s : State) : (setHrTab t l s).ctx.ulen = s.ctx.ulen := rfl
@[simp] theorem setHrTab_ctx_acc (t : HrTab) (l : Leap) (s : State) : (setHrTab t l s).ctx.acc = s.ctx.acc := rfl
@[simp] theorem setHrTab_ctx_nacc (t : HrTab) (l : Leap) (s : State) : (setHrTab t l s).ctx.nacc = s.ctx.nacc := rfl
@[simp] theorem setHrTab_ctx_n (t : HrTab) (l : Leap) (s : State) : (setHrTab t l s).ctx.n = s.ctx.n := rfl
@[simp] theorem setHrTab_ctx_rp (t : HrTab) (l : Leap) (s : State) : (setHrTab t l s).ctx.rp = s.ctx.rp := rfl
@[simp] theorem setHrTab_ctx_rpEnc (t : HrTab) (l : Leap) (s : State) : (setHrTab t l s).ctx.rpEnc = s.ctx.rpEnc := rfl
@[simp] theorem setHrTab_ctx_bt (t : HrTab) (l : Leap) (s : State) : (setHrTab t l s).ctx.bt = s.ctx.bt := rfl
@[simp] theorem setHrTab_ctx_btEnc (t : HrTab) (l : Leap) (s : State) : (setHrTab t l s).ctx.btEnc = s.ctx.btEnc := rfl
@[simp] theorem setHrTab_ctx_hr (t : HrTab) (l : Leap) (s : State) :
    (setHrTab t l s).ctx.hr = { s.ctx.hr with
      tab := t, passes := passesOf s.ctx.magic, assigned := l.assigned, cur := l.cur } := rfl
@[simp] theorem setHrTab_ctx_lz (t : HrTab) (l : Leap) (s : State) : (setHrTab t l s).ctx.lz = s.ctx.lz := rfl

/-! `undoDelta`. -/

@[simp] theorem undoDelta_codecSel (s : State) : (undoDelta s).codecSel = s.codecSel := rfl
@[simp] theorem undoDelta_op (s : State) : (undoDelta s).op = s.op := rfl
@[simp] theorem undoDelta_start (s : State) : (undoDelta s).start = s.start := rfl
@[simp] theorem undoDelta_busy (s : State) : (undoDelta s).busy = s.busy := rfl
@[simp] theorem undoDelta_done (s : State) : (undoDelta s).done = s.done := rfl
@[simp] theorem undoDelta_status (s : State) : (undoDelta s).status = s.status := rfl
@[simp] theorem undoDelta_cause (s : State) : (undoDelta s).cause = s.cause := rfl
@[simp] theorem undoDelta_result (s : State) : (undoDelta s).result = s.result := rfl
@[simp] theorem undoDelta_srcLen (s : State) : (undoDelta s).srcLen = s.srcLen := rfl
@[simp] theorem undoDelta_dstLen (s : State) : (undoDelta s).dstLen = s.dstLen := rfl
@[simp] theorem undoDelta_outLimit (s : State) : (undoDelta s).outLimit = s.outLimit := rfl
@[simp] theorem undoDelta_cfg (s : State) : (undoDelta s).cfg = s.cfg := rfl
@[simp] theorem undoDelta_diag (s : State) : (undoDelta s).diag = s.diag := rfl
@[simp] theorem undoDelta_desc (s : State) : (undoDelta s).desc = s.desc := rfl
@[simp] theorem undoDelta_params (s : State) : (undoDelta s).params = s.params := rfl
@[simp] theorem undoDelta_src (s : State) : (undoDelta s).src = s.src := rfl
@[simp] theorem undoDelta_dst (s : State) :
    (undoDelta s).dst = s.dst.writeList 0 (deltaUndo s.ctx.hr.passes (s.dst.bytesFrom 0 s.ctx.ulen)) := rfl
@[simp] theorem undoDelta_ctx (s : State) : (undoDelta s).ctx = s.ctx := rfl
@[simp] theorem undoDelta_freeCount (s : State) : (undoDelta s).freeCount = s.freeCount := rfl

/-! `setLzWidths`. -/

@[simp] theorem setLzWidths_codecSel (ws : List Nat) (s : State) : (setLzWidths ws s).codecSel = s.codecSel := rfl
@[simp] theorem setLzWidths_op (ws : List Nat) (s : State) : (setLzWidths ws s).op = s.op := rfl
@[simp] theorem setLzWidths_start (ws : List Nat) (s : State) : (setLzWidths ws s).start = s.start := rfl
@[simp] theorem setLzWidths_busy (ws : List Nat) (s : State) : (setLzWidths ws s).busy = s.busy := rfl
@[simp] theorem setLzWidths_done (ws : List Nat) (s : State) : (setLzWidths ws s).done = s.done := rfl
@[simp] theorem setLzWidths_status (ws : List Nat) (s : State) : (setLzWidths ws s).status = s.status := rfl
@[simp] theorem setLzWidths_cause (ws : List Nat) (s : State) : (setLzWidths ws s).cause = s.cause := rfl
@[simp] theorem setLzWidths_result (ws : List Nat) (s : State) : (setLzWidths ws s).result = s.result := rfl
@[simp] theorem setLzWidths_srcLen (ws : List Nat) (s : State) : (setLzWidths ws s).srcLen = s.srcLen := rfl
@[simp] theorem setLzWidths_dstLen (ws : List Nat) (s : State) : (setLzWidths ws s).dstLen = s.dstLen := rfl
@[simp] theorem setLzWidths_outLimit (ws : List Nat) (s : State) : (setLzWidths ws s).outLimit = s.outLimit := rfl
@[simp] theorem setLzWidths_cfg (ws : List Nat) (s : State) : (setLzWidths ws s).cfg = s.cfg := rfl
@[simp] theorem setLzWidths_diag (ws : List Nat) (s : State) : (setLzWidths ws s).diag = s.diag := rfl
@[simp] theorem setLzWidths_desc (ws : List Nat) (s : State) : (setLzWidths ws s).desc = s.desc := rfl
@[simp] theorem setLzWidths_params (ws : List Nat) (s : State) : (setLzWidths ws s).params = s.params := rfl
@[simp] theorem setLzWidths_src (ws : List Nat) (s : State) : (setLzWidths ws s).src = s.src := rfl
@[simp] theorem setLzWidths_dst (ws : List Nat) (s : State) : (setLzWidths ws s).dst = s.dst := rfl
@[simp] theorem setLzWidths_freeCount (ws : List Nat) (s : State) : (setLzWidths ws s).freeCount = s.freeCount := rfl
@[simp] theorem setLzWidths_ctx_sp (ws : List Nat) (s : State) : (setLzWidths ws s).ctx.sp = s.ctx.sp := rfl
@[simp] theorem setLzWidths_ctx_dp (ws : List Nat) (s : State) : (setLzWidths ws s).ctx.dp = s.ctx.dp := rfl
@[simp] theorem setLzWidths_ctx_magic (ws : List Nat) (s : State) : (setLzWidths ws s).ctx.magic = s.ctx.magic := rfl
@[simp] theorem setLzWidths_ctx_ulen (ws : List Nat) (s : State) : (setLzWidths ws s).ctx.ulen = s.ctx.ulen := rfl
@[simp] theorem setLzWidths_ctx_acc (ws : List Nat) (s : State) : (setLzWidths ws s).ctx.acc = s.ctx.acc := rfl
@[simp] theorem setLzWidths_ctx_nacc (ws : List Nat) (s : State) : (setLzWidths ws s).ctx.nacc = s.ctx.nacc := rfl
@[simp] theorem setLzWidths_ctx_n (ws : List Nat) (s : State) : (setLzWidths ws s).ctx.n = s.ctx.n := rfl
@[simp] theorem setLzWidths_ctx_rp (ws : List Nat) (s : State) : (setLzWidths ws s).ctx.rp = s.ctx.rp := rfl
@[simp] theorem setLzWidths_ctx_rpEnc (ws : List Nat) (s : State) : (setLzWidths ws s).ctx.rpEnc = s.ctx.rpEnc := rfl
@[simp] theorem setLzWidths_ctx_bt (ws : List Nat) (s : State) : (setLzWidths ws s).ctx.bt = s.ctx.bt := rfl
@[simp] theorem setLzWidths_ctx_btEnc (ws : List Nat) (s : State) : (setLzWidths ws s).ctx.btEnc = s.ctx.btEnc := rfl
@[simp] theorem setLzWidths_ctx_hr (ws : List Nat) (s : State) : (setLzWidths ws s).ctx.hr = s.ctx.hr := rfl
@[simp] theorem setLzWidths_ctx_lz (ws : List Nat) (s : State) :
    (setLzWidths ws s).ctx.lz = { s.ctx.lz with
      tab := { s.ctx.lz.tab with nbits := ws, base := lzBase ws } } := rfl

/-! `lzRecalcOrder`. -/

@[simp] theorem lzRecalcOrder_codecSel (s : State) : (lzRecalcOrder s).codecSel = s.codecSel := rfl
@[simp] theorem lzRecalcOrder_op (s : State) : (lzRecalcOrder s).op = s.op := rfl
@[simp] theorem lzRecalcOrder_start (s : State) : (lzRecalcOrder s).start = s.start := rfl
@[simp] theorem lzRecalcOrder_busy (s : State) : (lzRecalcOrder s).busy = s.busy := rfl
@[simp] theorem lzRecalcOrder_done (s : State) : (lzRecalcOrder s).done = s.done := rfl
@[simp] theorem lzRecalcOrder_status (s : State) : (lzRecalcOrder s).status = s.status := rfl
@[simp] theorem lzRecalcOrder_cause (s : State) : (lzRecalcOrder s).cause = s.cause := rfl
@[simp] theorem lzRecalcOrder_result (s : State) : (lzRecalcOrder s).result = s.result := rfl
@[simp] theorem lzRecalcOrder_srcLen (s : State) : (lzRecalcOrder s).srcLen = s.srcLen := rfl
@[simp] theorem lzRecalcOrder_dstLen (s : State) : (lzRecalcOrder s).dstLen = s.dstLen := rfl
@[simp] theorem lzRecalcOrder_outLimit (s : State) : (lzRecalcOrder s).outLimit = s.outLimit := rfl
@[simp] theorem lzRecalcOrder_cfg (s : State) : (lzRecalcOrder s).cfg = s.cfg := rfl
@[simp] theorem lzRecalcOrder_diag (s : State) : (lzRecalcOrder s).diag = s.diag := rfl
@[simp] theorem lzRecalcOrder_desc (s : State) : (lzRecalcOrder s).desc = s.desc := rfl
@[simp] theorem lzRecalcOrder_params (s : State) : (lzRecalcOrder s).params = s.params := rfl
@[simp] theorem lzRecalcOrder_src (s : State) : (lzRecalcOrder s).src = s.src := rfl
@[simp] theorem lzRecalcOrder_dst (s : State) : (lzRecalcOrder s).dst = s.dst := rfl
@[simp] theorem lzRecalcOrder_freeCount (s : State) : (lzRecalcOrder s).freeCount = s.freeCount := rfl
@[simp] theorem lzRecalcOrder_ctx_sp (s : State) : (lzRecalcOrder s).ctx.sp = s.ctx.sp := rfl
@[simp] theorem lzRecalcOrder_ctx_dp (s : State) : (lzRecalcOrder s).ctx.dp = s.ctx.dp := rfl
@[simp] theorem lzRecalcOrder_ctx_magic (s : State) : (lzRecalcOrder s).ctx.magic = s.ctx.magic := rfl
@[simp] theorem lzRecalcOrder_ctx_ulen (s : State) : (lzRecalcOrder s).ctx.ulen = s.ctx.ulen := rfl
@[simp] theorem lzRecalcOrder_ctx_acc (s : State) : (lzRecalcOrder s).ctx.acc = s.ctx.acc := rfl
@[simp] theorem lzRecalcOrder_ctx_nacc (s : State) : (lzRecalcOrder s).ctx.nacc = s.ctx.nacc := rfl
@[simp] theorem lzRecalcOrder_ctx_n (s : State) : (lzRecalcOrder s).ctx.n = s.ctx.n := rfl
@[simp] theorem lzRecalcOrder_ctx_rp (s : State) : (lzRecalcOrder s).ctx.rp = s.ctx.rp := rfl
@[simp] theorem lzRecalcOrder_ctx_rpEnc (s : State) : (lzRecalcOrder s).ctx.rpEnc = s.ctx.rpEnc := rfl
@[simp] theorem lzRecalcOrder_ctx_bt (s : State) : (lzRecalcOrder s).ctx.bt = s.ctx.bt := rfl
@[simp] theorem lzRecalcOrder_ctx_btEnc (s : State) : (lzRecalcOrder s).ctx.btEnc = s.ctx.btEnc := rfl
@[simp] theorem lzRecalcOrder_ctx_hr (s : State) : (lzRecalcOrder s).ctx.hr = s.ctx.hr := rfl
@[simp] theorem lzRecalcOrder_ctx_lz (s : State) :
    (lzRecalcOrder s).ctx.lz = { s.ctx.lz with
      stat := lzAge s.ctx.lz.stat
      tab := { s.ctx.lz.tab with order := lzSort (lzAge s.ctx.lz.stat) } } := rfl

/-! `noteRpBytes`. -/

@[simp] theorem noteRpBytes_codecSel (k : Nat) (s : State) : (noteRpBytes k s).codecSel = s.codecSel := rfl
@[simp] theorem noteRpBytes_op (k : Nat) (s : State) : (noteRpBytes k s).op = s.op := rfl
@[simp] theorem noteRpBytes_start (k : Nat) (s : State) : (noteRpBytes k s).start = s.start := rfl
@[simp] theorem noteRpBytes_busy (k : Nat) (s : State) : (noteRpBytes k s).busy = s.busy := rfl
@[simp] theorem noteRpBytes_done (k : Nat) (s : State) : (noteRpBytes k s).done = s.done := rfl
@[simp] theorem noteRpBytes_status (k : Nat) (s : State) : (noteRpBytes k s).status = s.status := rfl
@[simp] theorem noteRpBytes_cause (k : Nat) (s : State) : (noteRpBytes k s).cause = s.cause := rfl
@[simp] theorem noteRpBytes_result (k : Nat) (s : State) : (noteRpBytes k s).result = s.result := rfl
@[simp] theorem noteRpBytes_srcLen (k : Nat) (s : State) : (noteRpBytes k s).srcLen = s.srcLen := rfl
@[simp] theorem noteRpBytes_dstLen (k : Nat) (s : State) : (noteRpBytes k s).dstLen = s.dstLen := rfl
@[simp] theorem noteRpBytes_outLimit (k : Nat) (s : State) : (noteRpBytes k s).outLimit = s.outLimit := rfl
@[simp] theorem noteRpBytes_cfg (k : Nat) (s : State) : (noteRpBytes k s).cfg = s.cfg := rfl
@[simp] theorem noteRpBytes_diag (k : Nat) (s : State) : (noteRpBytes k s).diag = s.diag := rfl
@[simp] theorem noteRpBytes_desc (k : Nat) (s : State) : (noteRpBytes k s).desc = s.desc := rfl
@[simp] theorem noteRpBytes_params (k : Nat) (s : State) : (noteRpBytes k s).params = s.params := rfl
@[simp] theorem noteRpBytes_src (k : Nat) (s : State) : (noteRpBytes k s).src = s.src := rfl
@[simp] theorem noteRpBytes_dst (k : Nat) (s : State) : (noteRpBytes k s).dst = s.dst := rfl
@[simp] theorem noteRpBytes_freeCount (k : Nat) (s : State) : (noteRpBytes k s).freeCount = s.freeCount := rfl
@[simp] theorem noteRpBytes_ctx_sp (k : Nat) (s : State) : (noteRpBytes k s).ctx.sp = s.ctx.sp := rfl
@[simp] theorem noteRpBytes_ctx_dp (k : Nat) (s : State) : (noteRpBytes k s).ctx.dp = s.ctx.dp := rfl
@[simp] theorem noteRpBytes_ctx_magic (k : Nat) (s : State) : (noteRpBytes k s).ctx.magic = s.ctx.magic := rfl
@[simp] theorem noteRpBytes_ctx_ulen (k : Nat) (s : State) : (noteRpBytes k s).ctx.ulen = s.ctx.ulen := rfl
@[simp] theorem noteRpBytes_ctx_acc (k : Nat) (s : State) : (noteRpBytes k s).ctx.acc = s.ctx.acc := rfl
@[simp] theorem noteRpBytes_ctx_nacc (k : Nat) (s : State) : (noteRpBytes k s).ctx.nacc = s.ctx.nacc := rfl
@[simp] theorem noteRpBytes_ctx_n (k : Nat) (s : State) : (noteRpBytes k s).ctx.n = s.ctx.n := rfl
@[simp] theorem noteRpBytes_ctx_rp (k : Nat) (s : State) :
    (noteRpBytes k s).ctx.rp = setRpBytes (s.rest.take k) s.ctx.rp := rfl
@[simp] theorem noteRpBytes_ctx_rpEnc (k : Nat) (s : State) : (noteRpBytes k s).ctx.rpEnc = s.ctx.rpEnc := rfl
@[simp] theorem noteRpBytes_ctx_bt (k : Nat) (s : State) : (noteRpBytes k s).ctx.bt = s.ctx.bt := rfl
@[simp] theorem noteRpBytes_ctx_btEnc (k : Nat) (s : State) : (noteRpBytes k s).ctx.btEnc = s.ctx.btEnc := rfl
@[simp] theorem noteRpBytes_ctx_hr (k : Nat) (s : State) : (noteRpBytes k s).ctx.hr = s.ctx.hr := rfl
@[simp] theorem noteRpBytes_ctx_lz (k : Nat) (s : State) : (noteRpBytes k s).ctx.lz = s.ctx.lz := rfl

/-! `noteLzSymbol`. -/

@[simp] theorem noteLzSymbol_codecSel (g sym : Nat) (s : State) : (noteLzSymbol g sym s).codecSel = s.codecSel := rfl
@[simp] theorem noteLzSymbol_op (g sym : Nat) (s : State) : (noteLzSymbol g sym s).op = s.op := rfl
@[simp] theorem noteLzSymbol_start (g sym : Nat) (s : State) : (noteLzSymbol g sym s).start = s.start := rfl
@[simp] theorem noteLzSymbol_busy (g sym : Nat) (s : State) : (noteLzSymbol g sym s).busy = s.busy := rfl
@[simp] theorem noteLzSymbol_done (g sym : Nat) (s : State) : (noteLzSymbol g sym s).done = s.done := rfl
@[simp] theorem noteLzSymbol_status (g sym : Nat) (s : State) : (noteLzSymbol g sym s).status = s.status := rfl
@[simp] theorem noteLzSymbol_cause (g sym : Nat) (s : State) : (noteLzSymbol g sym s).cause = s.cause := rfl
@[simp] theorem noteLzSymbol_result (g sym : Nat) (s : State) : (noteLzSymbol g sym s).result = s.result := rfl
@[simp] theorem noteLzSymbol_srcLen (g sym : Nat) (s : State) : (noteLzSymbol g sym s).srcLen = s.srcLen := rfl
@[simp] theorem noteLzSymbol_dstLen (g sym : Nat) (s : State) : (noteLzSymbol g sym s).dstLen = s.dstLen := rfl
@[simp] theorem noteLzSymbol_outLimit (g sym : Nat) (s : State) : (noteLzSymbol g sym s).outLimit = s.outLimit := rfl
@[simp] theorem noteLzSymbol_cfg (g sym : Nat) (s : State) : (noteLzSymbol g sym s).cfg = s.cfg := rfl
@[simp] theorem noteLzSymbol_diag (g sym : Nat) (s : State) : (noteLzSymbol g sym s).diag = s.diag := rfl
@[simp] theorem noteLzSymbol_desc (g sym : Nat) (s : State) : (noteLzSymbol g sym s).desc = s.desc := rfl
@[simp] theorem noteLzSymbol_params (g sym : Nat) (s : State) : (noteLzSymbol g sym s).params = s.params := rfl
@[simp] theorem noteLzSymbol_src (g sym : Nat) (s : State) : (noteLzSymbol g sym s).src = s.src := rfl
@[simp] theorem noteLzSymbol_dst (g sym : Nat) (s : State) : (noteLzSymbol g sym s).dst = s.dst := rfl
@[simp] theorem noteLzSymbol_freeCount (g sym : Nat) (s : State) :
    (noteLzSymbol g sym s).freeCount = s.freeCount := rfl
@[simp] theorem noteLzSymbol_ctx_sp (g sym : Nat) (s : State) : (noteLzSymbol g sym s).ctx.sp = s.ctx.sp := rfl
@[simp] theorem noteLzSymbol_ctx_dp (g sym : Nat) (s : State) : (noteLzSymbol g sym s).ctx.dp = s.ctx.dp := rfl
@[simp] theorem noteLzSymbol_ctx_magic (g sym : Nat) (s : State) :
    (noteLzSymbol g sym s).ctx.magic = s.ctx.magic := rfl
@[simp] theorem noteLzSymbol_ctx_ulen (g sym : Nat) (s : State) : (noteLzSymbol g sym s).ctx.ulen = s.ctx.ulen := rfl
@[simp] theorem noteLzSymbol_ctx_acc (g sym : Nat) (s : State) : (noteLzSymbol g sym s).ctx.acc = s.ctx.acc := rfl
@[simp] theorem noteLzSymbol_ctx_nacc (g sym : Nat) (s : State) : (noteLzSymbol g sym s).ctx.nacc = s.ctx.nacc := rfl
@[simp] theorem noteLzSymbol_ctx_n (g sym : Nat) (s : State) : (noteLzSymbol g sym s).ctx.n = s.ctx.n := rfl
@[simp] theorem noteLzSymbol_ctx_rp (g sym : Nat) (s : State) : (noteLzSymbol g sym s).ctx.rp = s.ctx.rp := rfl
@[simp] theorem noteLzSymbol_ctx_rpEnc (g sym : Nat) (s : State) :
    (noteLzSymbol g sym s).ctx.rpEnc = s.ctx.rpEnc := rfl
@[simp] theorem noteLzSymbol_ctx_bt (g sym : Nat) (s : State) : (noteLzSymbol g sym s).ctx.bt = s.ctx.bt := rfl
@[simp] theorem noteLzSymbol_ctx_btEnc (g sym : Nat) (s : State) :
    (noteLzSymbol g sym s).ctx.btEnc = s.ctx.btEnc := rfl
@[simp] theorem noteLzSymbol_ctx_hr (g sym : Nat) (s : State) : (noteLzSymbol g sym s).ctx.hr = s.ctx.hr := rfl
@[simp] theorem noteLzSymbol_ctx_lz (g sym : Nat) (s : State) :
    (noteLzSymbol g sym s).ctx.lz = { s.ctx.lz with
      stat := lzCount s.ctx.lz.stat sym, group := g, symbol := sym } := rfl

/-! The fresh context (70 R542). -/

@[simp] theorem fresh_sp (n : Nat) : (Ctx.fresh n).sp = 0 := rfl
@[simp] theorem fresh_dp (n : Nat) : (Ctx.fresh n).dp = 0 := rfl
@[simp] theorem fresh_acc (n : Nat) : (Ctx.fresh n).acc = 0 := rfl
@[simp] theorem fresh_nacc (n : Nat) : (Ctx.fresh n).nacc = 0 := rfl
@[simp] theorem fresh_n (n : Nat) : (Ctx.fresh n).n = n := rfl
@[simp] theorem fresh_ulen (n : Nat) : (Ctx.fresh n).ulen = 0 := rfl
@[simp] theorem fresh_magic (n : Nat) : (Ctx.fresh n).magic = 0 := rfl

end Sys2Proof.Machine
end

