-- ==== Sys2Proof/Laws/Ops.lean ====
section
/-! SUPPORT. What each shared operation does: one lemma for the case it goes through, one for the case it fails. -/

namespace Sys2Proof.Machine

/-! ## Sequencing -/

@[simp] theorem andThen_cont (s : State) (k : State → Flow) : (Flow.cont s).andThen k = k s := rfl

@[simp] theorem andThen_ended (s : State) (k : State → Flow) : (Flow.ended s).andThen k = .ended s := rfl

@[simp] theorem outcome_cont (s : State) : (Flow.cont s).outcome = .next s := rfl

@[simp] theorem outcome_ended (s : State) : (Flow.ended s).outcome = .next s := rfl

@[simp] theorem state_cont (s : State) : (Flow.cont s).state = s := rfl

@[simp] theorem state_ended (s : State) : (Flow.ended s).state = s := rfl

/-- A host operation answers exactly when no operation runs. -/
theorem hostOp_next_iff (c : Codec) (op : BitVec 3) (s t : State) (f : State → Flow) :
    hostOp c op s f = .next t ↔ s.busy = false ∧ (f (beginOp c op s)).state = t := by
  unfold hostOp Flow.outcome
  cases s.busy <;> simp

/-- A host operation on an idle block. -/
theorem hostOp_idle {c : Codec} {op : BitVec 3} {s : State} (f : State → Flow) (h : s.busy = false) :
    hostOp c op s f = (f (beginOp c op s)).outcome := by simp [hostOp, h]

/-- A stream command answers exactly when a `DECODE` of its engine runs. -/
theorem streamOp_next_iff (c : Codec) (s t : State) (f : State → Flow) :
    streamOp c s f = .next t ↔ s.decoding c = true ∧ (f s).state = t := by
  unfold streamOp Flow.outcome
  cases s.decoding c <;> simp

/-- A stream command of the running `DECODE`. -/
theorem streamOp_decoding {c : Codec} {s : State} (f : State → Flow) (h : s.decoding c = true) :
    streamOp c s f = (f s).outcome := by simp [streamOp, h]

/-! ## Emitting -/

/-- Nothing emitted. -/
theorem emitted_nil (s : State) : emitted [] s = s := rfl

/-- One byte emitted. -/
theorem emitRaw_eq_emitted (b : Byte) (s : State) : emitRaw b s = emitted [b] s := rfl

/-- Emitting one list behind another. -/
theorem emitted_append (xs ys : List Byte) (s : State) : emitted ys (emitted xs s) = emitted (xs ++ ys) s := by
  simp [emitted, Memory.writeList_append, Nat.add_assoc]

/-- Fetching in two parts. -/
theorem fetched_add (a b : Nat) (s : State) : fetched b (fetched a s) = fetched (a + b) s := by
  simp [fetched, Nat.add_assoc]

/-- Emitting and fetching touch different registers. -/
theorem emitted_fetched (n : Nat) (xs : List Byte) (s : State) :
    emitted xs (fetched n s) = fetched n (emitted xs s) := rfl

/-- An encoder's bytes. -/
theorem emitAll_eq_emitted (xs : List Byte) (s : State) : emitAll xs s = emitted xs s := by
  induction xs generalizing s with
  | nil => rfl
  | cons x xs ih => simp only [emitAll, ih, emitRaw_eq_emitted, emitted_append, List.singleton_append]

/-- `emit` with room. -/
theorem emit_of_lt {b : Byte} {s : State} (h : s.ctx.dp < s.ctx.ulen) : emit b s = .cont (emitted [b] s) := by
  simp [emit, h, emitRaw_eq_emitted]

/-- `emit` without room. -/
theorem emit_of_ge {b : Byte} {s : State} (h : s.ctx.ulen ≤ s.ctx.dp) :
    emit b s = .ended (fail .outputOverrun s) := by simp [emit, Nat.not_lt.2 h]

/-- `emit` of the LightZhl decoder with room. -/
theorem lzEmit_of_lt {b : Byte} {s : State} (h : s.ctx.dp < s.outLimit.toNat) :
    lzEmit b s = .cont (lzEmitRaw b s) := by simp [lzEmit, h]

/-- `emit` of the LightZhl decoder without room. -/
theorem lzEmit_of_ge {b : Byte} {s : State} (h : s.outLimit.toNat ≤ s.ctx.dp) :
    lzEmit b s = .ended (failLz .outputOverrun .copy s) := by simp [lzEmit, Nat.not_lt.2 h]

/-! ## Literals -/

/-- `fetch` of a byte that is there. -/
theorem fetchByte_of_lt {s : State} (k : Byte → State → Flow) (h : s.ctx.sp < s.srcLen.toNat) :
    fetchByte s k = k (s.src.read s.ctx.sp) (fetched 1 s) := by simp [fetchByte, h, fetched]

/-- `fetch` past the end. -/
theorem fetchByte_of_ge {s : State} (k : Byte → State → Flow) (h : s.srcLen.toNat ≤ s.ctx.sp) :
    fetchByte s k = .ended (fail .truncated s) := by simp [fetchByte, Nat.not_lt.2 h]

/-- `lits(P)` with the bytes there and room for them. -/
theorem lits_ok (P : Nat) {s : State} (h1 : s.ctx.sp + P ≤ s.srcLen.toNat) (h2 : s.ctx.dp + P ≤ s.ctx.ulen) :
    lits P s = .cont (emitted (literals P s) (fetched P s)) := by
  induction P generalizing s with
  | zero => rfl
  | succ P ih =>
    rw [lits, fetchByte_of_lt _ (by omega), emit_of_lt (by simp; omega), andThen_cont,
      ih (by simp; omega) (by simp; omega)]
    rw [← emitted_fetched, emitted_append, fetched_add, Nat.add_comm 1 P]
    simp [literals, Memory.bytesFrom]

/-- `lits(P)` where the stream ends first: the bytes it still has are emitted, then `TRUNCATED`. -/
theorem lits_truncated (P : Nat) {s : State} (h0 : s.ctx.sp ≤ s.srcLen.toNat) (h1 : s.srcLen.toNat < s.ctx.sp + P)
    (h2 : s.ctx.dp + (s.srcLen.toNat - s.ctx.sp) ≤ s.ctx.ulen) :
    lits P s = .ended (fail .truncated (emitted (literals (s.srcLen.toNat - s.ctx.sp) s)
      (fetched (s.srcLen.toNat - s.ctx.sp) s))) := by
  induction P generalizing s with
  | zero => omega
  | succ P ih =>
    rcases Nat.lt_or_ge s.ctx.sp s.srcLen.toNat with h | h
    · obtain ⟨k, hk⟩ : ∃ k, s.srcLen.toNat - s.ctx.sp = k + 1 := ⟨s.srcLen.toNat - s.ctx.sp - 1, by omega⟩
      have hk' : s.srcLen.toNat - (s.ctx.sp + 1) = k := by omega
      rw [lits, fetchByte_of_lt _ h, emit_of_lt (by simp; omega), andThen_cont,
        ih (by simp; omega) (by simp; omega) (by simp; omega)]
      simp only [emitted_srcLen, fetched_srcLen, emitted_ctx_sp, fetched_ctx_sp]
      rw [hk', hk, ← emitted_fetched, emitted_append, fetched_add, Nat.add_comm 1 k]
      simp [literals, Memory.bytesFrom]
    · have hk : s.srcLen.toNat - s.ctx.sp = 0 := by omega
      rw [lits, fetchByte_of_ge _ h, hk]
      rfl

/-- `lits(P)` where the room ends first: the byte that does not fit has been fetched. -/
theorem lits_overrun (P : Nat) {s : State} (h0 : s.ctx.dp ≤ s.ctx.ulen) (h1 : s.ctx.ulen < s.ctx.dp + P)
    (h2 : s.ctx.sp + (s.ctx.ulen - s.ctx.dp) < s.srcLen.toNat) :
    lits P s = .ended (fail .outputOverrun (fetched 1 (emitted (literals (s.ctx.ulen - s.ctx.dp) s)
      (fetched (s.ctx.ulen - s.ctx.dp) s)))) := by
  induction P generalizing s with
  | zero => omega
  | succ P ih =>
    rcases Nat.lt_or_ge s.ctx.dp s.ctx.ulen with h | h
    · obtain ⟨k, hk⟩ : ∃ k, s.ctx.ulen - s.ctx.dp = k + 1 := ⟨s.ctx.ulen - s.ctx.dp - 1, by omega⟩
      have hk' : s.ctx.ulen - (s.ctx.dp + 1) = k := by omega
      rw [lits, fetchByte_of_lt _ (by omega), emit_of_lt (by simp; omega), andThen_cont,
        ih (by simp; omega) (by simp; omega) (by simp; omega)]
      simp only [emitted_ctx_dp, emitted_ctx_ulen, fetched_ctx_dp, fetched_ctx_ulen, List.length_singleton]
      rw [hk', hk]
      simp only [← emitted_fetched, emitted_append, fetched_add, Nat.add_comm 1 k, Nat.add_comm (k + 1) 1]
      simp [literals, Memory.bytesFrom]
    · have hk : s.ctx.ulen - s.ctx.dp = 0 := by omega
      rw [lits, fetchByte_of_lt _ (by omega), emit_of_ge (by simpa using h), andThen_ended, hk]
      rfl

/-! ## Copies -/

/-- The bytes of a copy, the first one taken off. -/
theorem backBytes_succ (m : Memory) {dp L D : Nat} (h1 : 1 ≤ D) (h2 : D ≤ dp) :
    backBytes m dp (L + 1) D =
      m.read (dp - D) :: backBytes (m.write dp (m.read (dp - D))) (dp + 1) L D := by
  unfold backBytes
  rw [List.range_succ_eq_map, List.map_cons, List.map_map]
  congr 1
  refine List.map_congr_left fun i _ => ?_
  simp only [Function.comp, Memory.read_write]
  rcases Nat.lt_or_ge (i % D + 1) D with hlt | hge
  · have : (i + 1) % D = i % D + 1 := by
      rw [Nat.add_mod, Nat.mod_eq_of_lt (a := i % D + 1 % D)]
      · rw [Nat.mod_eq_of_lt (a := 1) (by omega)]
      · rw [Nat.mod_eq_of_lt (a := 1) (by omega)]; omega
    have hm := Nat.mod_lt i (show 0 < D by omega)
    rw [if_neg (by omega), Nat.succ_eq_add_one, this]
    congr 1; omega
  · have hm := Nat.mod_lt i (show 0 < D by omega)
    have hD : i % D = D - 1 := by omega
    have : (i + 1) % D = 0 := by
      rcases Nat.lt_or_ge 1 D with h | h
      · rw [Nat.add_mod, hD, Nat.mod_eq_of_lt h, Nat.sub_add_cancel h1, Nat.mod_self]
      · have : D = 1 := by omega
        subst this; exact Nat.mod_one _
    rw [if_pos (by omega), Nat.succ_eq_add_one, this]
    congr 1

/-- The loop of a copy with room: the last `D` bytes repeat (42 R236). -/
theorem copyLoop_ok (L D : Nat) {s : State} (h1 : 1 ≤ D) (h2 : D ≤ s.ctx.dp) (h3 : s.ctx.dp + L ≤ s.ctx.ulen) :
    copyLoop D L s = .cont (emitted (backBytes s.dst s.ctx.dp L D) s) := by
  induction L generalizing s with
  | zero => rfl
  | succ L ih =>
    rw [copyLoop, emit_of_lt (by omega), andThen_cont, ih (by simp; omega) (by simp; omega), emitted_append,
      backBytes_succ _ h1 h2]
    rfl

/-- A copy without room: it fills the output, then `OUTPUT_OVERRUN`. -/
theorem copyLoop_overrun (L D : Nat) {s : State} (h1 : 1 ≤ D) (h2 : D ≤ s.ctx.dp) (h0 : s.ctx.dp ≤ s.ctx.ulen)
    (h3 : s.ctx.ulen < s.ctx.dp + L) :
    copyLoop D L s =
      .ended (fail .outputOverrun (emitted (backBytes s.dst s.ctx.dp (s.ctx.ulen - s.ctx.dp) D) s)) := by
  induction L generalizing s with
  | zero => omega
  | succ L ih =>
    rcases Nat.lt_or_ge s.ctx.dp s.ctx.ulen with h | h
    · obtain ⟨k, hk⟩ : ∃ k, s.ctx.ulen - s.ctx.dp = k + 1 := ⟨s.ctx.ulen - s.ctx.dp - 1, by omega⟩
      have hk' : s.ctx.ulen - (s.ctx.dp + 1) = k := by omega
      rw [copyLoop, emit_of_lt h, andThen_cont, ih (by simp; omega) (by simp; omega) (by simp; omega),
        emitted_append, hk, backBytes_succ _ h1 h2]
      simp only [emitted_ctx_dp, emitted_ctx_ulen, List.length_singleton, hk']
      rfl
    · have hk : s.ctx.ulen - s.ctx.dp = 0 := by omega
      rw [copyLoop, emit_of_ge h, andThen_ended, hk]
      rfl

/-- The LightZhl copy with room appends `L` bytes: both cursors advance, the limit and the other registers stay. -/
theorem lzCopy_cursors (L D : Nat) {s : State} (h : s.ctx.dp + L ≤ s.outLimit.toNat) :
    ∃ t, lzCopy D L s = .cont t ∧ t.ctx.dp = s.ctx.dp + L ∧ t.ctx.lz.wp = s.ctx.lz.wp + L ∧
      t.outLimit = s.outLimit ∧ t.params = s.params ∧ t.src = s.src ∧ t.ctx.sp = s.ctx.sp := by
  induction L generalizing s with
  | zero => exact ⟨s, rfl, rfl, rfl, rfl, rfl, rfl, rfl⟩
  | succ L ih =>
    obtain ⟨t, h1, h2, h3, h4, h5, h6, h7⟩ :=
      ih (s := lzEmitRaw (s.ctx.lz.cbuf.read ((s.ctx.lz.wp - D) % s.params.lzSize)) s) (by
        show s.ctx.dp + 1 + L ≤ _
        simp [lzEmitRaw]; omega)
    refine ⟨t, ?_, ?_, ?_, h4, h5, h6, h7⟩
    · rw [lzCopy, lzEmit_of_lt (by omega), andThen_cont, h1]
    · rw [h2]; show s.ctx.dp + 1 + L = _; omega
    · rw [h3]; show s.ctx.lz.wp + 1 + L = _; omega

/-- A run of one byte with room (45 R400). -/
theorem emitRun_ok (b : Byte) (k : Nat) {s : State} (h : s.ctx.dp + k ≤ s.ctx.ulen) :
    emitRun b k s = .cont (emitted (List.replicate k b) s) := by
  induction k generalizing s with
  | zero => rfl
  | succ k ih =>
    rw [emitRun, emit_of_lt (by omega), andThen_cont, ih (by simp; omega), emitted_append,
      List.replicate_succ, List.singleton_append]

/-- The number of bytes of a copy. -/
@[simp] theorem length_backBytes (m : Memory) (dp L D : Nat) : (backBytes m dp L D).length = L := by
  simp [backBytes]

/-- The number of literals of a command. -/
@[simp] theorem length_literals (P : Nat) (s : State) : (literals P s).length = P := by simp [literals]

end Sys2Proof.Machine
end

