-- ==== Sys2Proof/Tests/Slice0.lean ====
section
/-! SUPPORT. The model's own tests: the well-formedness smoke test, words written out from the encodings of
30_encoding.md, one step per instruction with the vectors of 95_test_vectors.md, and for every statement with hypotheses a
state and operands that meet them. -/

set_option Elab.async false

open Sys2Proof Sys2Proof.Machine

namespace Sys2Proof.Tests

/-! ## Tables and states -/

/-- The code of 95 P3: clue 00, codes `0` for 00, `10` for 61, `11` for 62. -/
def hrT : HrTab := ⟨0, 2, [1, 2], [0x00, 0x61, 0x62]⟩

/-- The initial widths, `T0` of 95 section 7. -/
def widths0 : List Nat := [5, 5, 4, 4, 4, 4, 4, 4, 4, 4, 4, 4, 4, 4, 4, 1]

/-- The initial group tables. -/
def lzT : LzTab := ⟨lzInitOrder, widths0, lzBase widths0⟩

/-- The bytes of `T0`. -/
def t0 : List Byte := [0x55, 0x44, 0x44, 0x44, 0x44, 0x44, 0x44, 0x41]

/-- A running `DECODE` at the start of the stream `input`, with `out` already put out, tables of each engine loaded. -/
def running (c : Codec) (ulen : Nat) (input out : List Byte) : State :=
  let ctx := Ctx.fresh input.length
  { State.reset with
    codecSel := c.sel
    op := 4
    busy := true
    src := Memory.ofBytes input
    srcLen := BitVec.ofNat 32 input.length
    dst := Memory.ofBytes out
    ctx := { ctx with
      dp := out.length
      ulen := ulen
      bt := { ctx.bt with
        clue := 0xFF
        isNode := [(1, true), (2, true)]
        left := [(1, 0x61), (2, 0x01)]
        right := [(1, 0x62), (2, 0x63)] }
      hr := { ctx.hr with tab := hrT, passes := 1 }
      lz := { ctx.lz with cbuf := Memory.ofBytes out, wp := out.length, tab := lzT } } }

/-- A host operation about to start. -/
def started (c : Codec) (op : BitVec 3) (input : List Byte) : State := loaded State.reset c op input

/-- The outcome is a next state that satisfies `p`. -/
def nextIs (o : Outcome) (p : State → Bool) : Bool :=
  match o with
  | .next t => p t
  | _ => false

/-- An outcome that is a next state. -/
theorem next_of_nextIs {o : Outcome} {p : State → Bool} (h : nextIs o p = true) : ∃ t, o = .next t ∧ p t = true := by
  cases o with
  | next t => exact ⟨t, rfl, h⟩
  | fault f => simp [nextIs] at h
  | refused r => simp [nextIs] at h

/-- The operation has ended with success and put out `out`. -/
def endsWith (out : List Byte) (t : State) : Bool :=
  !t.busy && t.done && decide (t.status = .ok) && decide (t.cause = .none) &&
    decide (t.dstLen.toNat = out.length) && decide (t.dst.bytesFrom 0 out.length = out)

/-- The operation has failed with `c`, at these cursors. -/
def failsAt (c : Cause) (sp dp : Nat) (t : State) : Bool :=
  !t.busy && t.done && decide (t.cause = c) && decide (t.status = c.status) && decide (t.dstLen = 0) &&
    decide (t.diag.sp.toNat = sp) && decide (t.diag.dp.toNat = dp)

/-- The operation goes on at these cursors with `out` put out. -/
def goesOn (sp dp : Nat) (out : List Byte) (t : State) : Bool :=
  t.busy && decide (t.ctx.sp = sp) && decide (t.ctx.dp = dp) && decide (t.dst.bytesFrom 0 dp = out)

/-! ## Well-formedness: each check refuses -/

theorem test_wellFormed_refuses_rp :
    [Instr.rpShort 4 3 1, .rpShort 0 2 1, .rpShort 0 11 1, .rpShort 0 3 0, .rpShort 0 3 1025, .rpInt 4 4 1,
      .rpInt 0 3 1, .rpInt 0 68 1, .rpInt 0 4 0, .rpInt 0 4 16385, .rpLong 4 5 1, .rpLong 0 4 1, .rpLong 0 1029 1,
      .rpLong 0 5 0, .rpLong 0 5 131073, .rpLiteral 3, .rpLiteral 0, .rpLiteral 116, .rpLiteral 6, .rpEof 4,
      .btLeaf 0, .about .rp].all (fun i => !wellFormed .rp i) = true := by decide +kernel

theorem test_wellFormed_refuses_bt :
    [Instr.btLeaf 0xFF, .btLeaf 1, .btNode 0xFF, .btNode 3, .btEsc 0xFE 1, .btEsc 0xFF 0, .btEnd 0, .rpEof 0].all
      (fun i => !wellFormed (.bt 0xFF [(1, true)]) i) = true := by decide +kernel

theorem test_wellFormed_refuses_hr :
    [Instr.hrLit 0, .hrLit 0x63, .hrRun 0, .hrRun 65535, .lzEof].all (fun i => !wellFormed (.hr hrT) i) = true ∧
      [Instr.hrRun 1, .hrEsc 0, .hrEof].all (fun i => !wellFormed (.hr { hrT with clue := 9 }) i) = true := by
  decide +kernel

theorem test_wellFormed_refuses_lz :
    [Instr.lzMatchS 3 1, .lzMatchS 12 1, .lzMatchS 4 65536, .lzMatchX 11 1, .lzMatchX 522 1, .lzMatchX 12 65536,
      .lzRecalc (widths0.take 15), .lzRecalc (13 :: widths0.drop 1), .hrEof].all
      (fun i => !wellFormed (.lz 16 lzT) i) = true ∧
    [Instr.lzLit 0, .lzMatchS 4 1, .lzMatchX 12 1, .lzRecalc widths0, .lzEof].all
      (fun i => !wellFormed (.lz 16 { lzT with order := [] }) i) = true := by decide +kernel

theorem test_wellFormed_refuses_hostop :
    [Instr.rpEof 0, .btEnd 0, .hrEof, .lzEof].all (fun i => !wellFormed .hostop i) = true := by decide +kernel

/-! ## Words written out from the encodings -/

/-- 30 R173, one word per operation, the five bits at the top of a byte. -/
theorem test_words_hostop :
    [(0b00000000, Instr.about .rp), (0b00001000, .isValid .rp), (0b01010000, .extractSize .bt),
      (0b10011000, .encode .hr), (0b11100000, .decode .lz), (0b00101000, .hostopReserved5 .rp),
      (0b01110000, .hostopReserved6 .bt), (0b11111000, .hostopReserved7 .lz)].all
      (fun x => decide (decode .hostop ⟨[x.1], 0, 0, 0⟩ = .ok x.2 ⟨[], 1, 0, 3⟩)) = true := by decide +kernel

/-- 30 R131 to R135; the extremes of 95 section 4.1. -/
theorem test_words_rp :
    decode .rp ⟨[0b00000000, 0b00000000], 0, 0, 0⟩ = .ok (.rpShort 0 3 1) ⟨[], 2, 0, 0⟩ ∧
    decode .rp ⟨[0b10111111, 0b11111111, 0b11111111], 0, 0, 0⟩ = .ok (.rpInt 3 67 16384) ⟨[], 3, 0, 0⟩ ∧
    decode .rp ⟨[0b11011111, 0xFF, 0xFF, 0xFF], 0, 0, 0⟩ = .ok (.rpLong 3 1028 131072) ⟨[], 4, 0, 0⟩ ∧
    decode .rp ⟨[0b11100000], 0, 0, 0⟩ = .ok (.rpLiteral 4) ⟨[], 1, 0, 0⟩ ∧
    decode .rp ⟨[0b11111111], 0, 0, 0⟩ = .ok (.rpEof 3) ⟨[], 1, 0, 0⟩ := by decide +kernel

/-- 30 R141 with clue FF and node 01. -/
theorem test_words_bt :
    decode (.bt 0xFF [(1, true)]) ⟨[0x02], 0, 0, 0⟩ = .ok (.btLeaf 2) ⟨[], 1, 0, 0⟩ ∧
    decode (.bt 0xFF [(1, true)]) ⟨[0x01], 0, 0, 0⟩ = .ok (.btNode 1) ⟨[], 1, 0, 0⟩ ∧
    decode (.bt 0xFF [(1, true)]) ⟨[0xFF, 0x01], 0, 0, 0⟩ = .ok (.btEsc 0xFF 1) ⟨[], 2, 0, 0⟩ ∧
    decode (.bt 0xFF [(1, true)]) ⟨[0xFF, 0x00], 0, 0, 0⟩ = .ok (.btEnd 0xFF) ⟨[], 2, 0, 0⟩ := by decide +kernel

/-- 30 R146, R147 with the codes of 95 P3: `10`; `0` and NUM 3 = `00100`; `0 1 0` and 8 bits; `0 1 1`. -/
theorem test_words_hr :
    decode (.hr hrT) ⟨[0b10000000], 0, 0, 0⟩ = .ok (.hrLit 0x61) ⟨[], 1, 0, 6⟩ ∧
    decode (.hr hrT) ⟨[0b00010011], 0, 0, 0⟩ = .ok (.hrRun 3) ⟨[], 1, 3, 2⟩ ∧
    decode (.hr hrT) ⟨[0b01001000, 0b00111111], 0, 0, 0⟩ = .ok (.hrEsc 0x41) ⟨[], 2, 31, 5⟩ ∧
    decode (.hr hrT) ⟨[0b01100000], 0, 0, 0⟩ = .ok .hrEof ⟨[], 1, 0, 5⟩ := by decide +kernel

/-- 30 R146: the numbers of 95 section 6.1. -/
theorem test_words_num :
    numBits 0 = [true] ∧ numBits 9 = [false, false, false, true, false, true, false] ∧
    numBits 96 = List.replicate 6 false ++ [true, true, false, false, false, false, true] ∧
    getnum ⟨[0, 0], 0, 0, 0⟩ = .err .badNumber .none ⟨[], 2, 0, 0⟩ := by decide +kernel

/-- 30 R150 to R155 under the initial table (46 R464, 95 section 7.1). -/
theorem test_words_lz :
    decode (.lz 16 lzT) ⟨[0b10010000], 0, 0, 0⟩ = .ok (.lzLit 0x61) ⟨[], 1, 0, 0⟩ ∧
    decode (.lz 16 lzT) ⟨[0b11111000], 0, 0, 0⟩ = .ok (.lzLit 0) ⟨[], 1, 0, 3⟩ ∧
    decode (.lz 16 lzT) ⟨[0b00000110, 0b10000000, 0b00100000], 0, 0, 0⟩ = .ok (.lzMatchS 8 4) ⟨[], 3, 0, 3⟩ ∧
    decode (.lz 16 lzT) ⟨[0b00000001, 0b01111111, 0b10000000, 0b00001000], 0, 0, 0⟩ =
      .ok (.lzMatchX 521 1) ⟨[], 4, 0, 3⟩ ∧
    decode (.lz 16 lzT) ⟨[0b00000100, 0b10001000, 0b00000000], 0, 0, 0⟩ = .ok (.lzMatchX 12 512) ⟨[], 3, 0, 2⟩ ∧
    decode (.lz 16 lzT) ⟨[0x00, 0xAA, 0xA2, 0x22, 0x22, 0x22, 0x22, 0x22, 0x20, 0x80], 0, 0, 0⟩ =
      .ok (.lzRecalc widths0) ⟨[], 10, 0, 7⟩ ∧
    decode (.lz 16 lzT) ⟨[0b00000000, 0b00000000], 0, 0, 0⟩ = .ok .lzEof ⟨[], 2, 0, 7⟩ := by decide +kernel

/-- Words no code has: 45 R398; 46 R445 (95 section 7.3); a width of 13 (46 R444). -/
theorem test_words_refused :
    decode (.hr ⟨0, 1, [1], [0]⟩) ⟨[0x80], 0, 0, 0⟩ = .err .badCode .none ⟨[], 1, 0, 7⟩ ∧
    decode (.lz 16 ⟨lzInitOrder, List.replicate 16 5, lzBase (List.replicate 16 5)⟩) ⟨[0xFF, 0x80], 0, 0, 0⟩ =
      .err .badCode .symbol ⟨[], 2, 0, 7⟩ ∧
    getLzTab ⟨[0xD5], 0, 0, 0⟩ = .err .badTable .table ⟨[], 1, 5, 4⟩ ∧
    decode .rp ⟨[0x80, 0x00], 0, 0, 0⟩ = .err .truncated .none ⟨[], 2, 0, 0⟩ := by decide +kernel

/-- 41 R217: 95 section 2. -/
theorem test_getbits :
    getbits .none 4 ⟨[0xAD, 0x01], 0, 0, 0⟩ = .ok 10 ⟨[0x01], 1, 13, 4⟩ ∧
    getbits .none 3 ⟨[0x01], 1, 13, 4⟩ = .ok 6 ⟨[0x01], 1, 1, 1⟩ ∧
    getbits .none 9 ⟨[0x01], 1, 1, 1⟩ = .ok 257 ⟨[], 2, 0, 0⟩ ∧
    getbits .none 0 ⟨[], 0, 0, 0⟩ = .ok 0 ⟨[], 0, 0, 0⟩ := by decide +kernel

/-- 41 R213, R216: 95 section 2. -/
theorem test_putbits :
    ((((⟨0, 0, []⟩ : BitSink).put 4 10).put 3 6).put 9 257).flush = ⟨0, 0, [0xAD, 0x01]⟩ ∧
      ((⟨0, 0, []⟩ : BitSink).put 1 1).flush = ⟨0, 0, [0x80]⟩ := by decide +kernel

/-- The words of opcode_table.json, as it numbers them. -/
theorem test_table_words :
    decodeTableWord 8 0x04 = some (.decode .rp) ∧ decodeTableWord 8 0x1F = some (.hostopReserved7 .lz) ∧
    decodeTableWord 16 0x7FFF = some (.rpShort 3 10 1024) ∧ decodeTableWord 24 0x878005 = some (.rpInt 2 11 6) ∧
    decodeTableWord 32 0xC100005E = some (.rpLong 1 99 1) ∧ decodeTableWord 8 0xFB = some (.rpLiteral 112) ∧
    decodeTableWord 8 0xFE = some (.rpEof 2) ∧ decodeTableWord 16 0xFF00 = some (.btEnd 0xFF) := by decide +kernel

/-- A placed word is the next one that runs. -/
theorem test_withFetchWord :
    nextIs (step (State.reset.withFetchWord 8 0xE0)) (goesOn 5 4 [0, 0, 0, 0]) = true ∧
    nextIs (step (State.reset.withFetchWord 8 0x0E)) (fun t => decide (t.cause = .badOp) && t.done) = true ∧
    nextIs (step (State.reset.withFetchWord 16 0x0000)) (failsAt .badDistance 2 0) = true := by decide +kernel

/-! ## One step per instruction -/

/-- 40 R181, 95 section 3: the placeholder descriptor. -/
theorem test_about :
    descBytes ⟨0x52502020, true, true, true, 1, [0x72, 0x65, 0x66], [0x52, 0x65, 0x66, 0x50, 0x61, 0x63, 0x6B]⟩ =
      [0x52, 0x50, 0x20, 0x20, 7, 0, 0, 0, 1, 3, 0x72, 0x65, 0x66, 7, 0x52, 0x65, 0x66, 0x50, 0x61, 0x63, 0x6B] := by
  decide +kernel

theorem test_isValid :
    nextIs (step (started .hr 1 [0xB5, 0xFB])) (fun t => t.done && decide (t.result = 1)) = true ∧
    nextIs (step (started .hr 1 [0xB6, 0xFB])) (fun t => t.done && decide (t.result = 0)) = true := by decide +kernel

theorem test_extractSize :
    nextIs (step (started .bt 2 [0x47, 0xFB, 0xAA, 0xBB, 0xCC, 0, 0, 2]))
      (fun t => t.done && decide (t.result = 2)) = true ∧
    nextIs (step (started .rp 2 [0x90, 0xFB, 0x80, 0, 0, 0])) (failsAt .lengthMismatch 6 0) = true := by decide +kernel

/-- 95 sections 4.4 and 5.1: "abcabcabc" and "abababab". -/
theorem test_encode_bytes :
    nextIs (step (started .rp 3 [0x61, 0x62, 0x63, 0x61, 0x62, 0x63, 0x61, 0x62, 0x63]))
      (endsWith [0x10, 0xFB, 0, 0, 9, 0x0F, 0x02, 0x61, 0x62, 0x63, 0xFC]) = true ∧
    nextIs (step (started .bt 3 [0x61, 0x62, 0x61, 0x62, 0x61, 0x62, 0x61, 0x62]))
      (endsWith [0x46, 0xFB, 0, 0, 8, 0, 1, 1, 0x61, 0x62, 1, 1, 1, 1, 0, 0]) = true := by decide +kernel

/-- 43 R270, 95 section 4.4: "abcabcabcXbcabc" with the quick flag off and on. -/
theorem test_encode_quick :
    let s := started .rp 3 [0x61, 0x62, 0x63, 0x61, 0x62, 0x63, 0x61, 0x62, 0x63, 0x58, 0x62, 0x63, 0x61, 0x62, 0x63]
    nextIs (step s) (endsWith [0x10, 0xFB, 0, 0, 15, 0x0F, 0x02, 0x61, 0x62, 0x63, 0x09, 0x05, 0x58, 0xFC]) = true ∧
    nextIs (step { s with cfg := { s.cfg with rpQuick := true } })
      (endsWith [0x10, 0xFB, 0, 0, 15, 0x0F, 0x02, 0x61, 0x62, 0x63, 0x09, 0x08, 0x58, 0xFC]) = true := by
  decide +kernel

/-- 43 R262, 46 R452, R453: the example values of the reference hashes. -/
theorem test_hashes :
    rpHashOf Params.default 0x61 0x62 0x63 = 0x6743 ∧ lzHashOf Params.default false 0x61 0x62 0x63 0x64 = 0x7454 ∧
      lzHashOf Params.default true 0x61 0x62 0x63 0x64 = 0x0466 := by decide +kernel

/-- 45 R384: the table of ten bytes 61, with its skips 0 and 96. -/
theorem test_hrTableBits :
    hrTableBits ⟨0, 1, [2], [0, 0x61]⟩ =
      natBits 8 0 ++ natBits 4 1 ++ [false, true, true] ++ [true] ++
        [false, false, false, false, false, false, true, true, false, false, false, false, true] := by decide +kernel

/-- 45 R384 and 46 R465: ten bytes 61, and "abcdabcdabcd". -/
theorem test_encode_bits :
    nextIs (step (started .hr 3 (List.replicate 10 0x61)))
      (endsWith [0x30, 0xFB, 0, 0, 10, 0x00, 0x17, 0x03, 0x0C, 0x29, 0x80]) = true ∧
    nextIs (step (started .lz 3 [0x61, 0x62, 0x63, 0x64, 0x61, 0x62, 0x63, 0x64, 0x61, 0x62, 0x63, 0x64]))
      (endsWith (t0 ++ [0x90, 0x8F, 0x8E, 0x8D, 0x06, 0x80, 0x20, 0x00])) = true := by decide +kernel

/-- The start of the decodes of 95 P1 and 46 R464. -/
theorem test_decode_starts :
    nextIs (step (started .rp 4 [0x10, 0xFB, 0, 0, 22, 0xE0])) (fun t => goesOn 5 0 [] t && decide (t.ctx.ulen = 22)) = true ∧
    nextIs (step (started .lz 4 (t0 ++ [0x90]))) (fun t => goesOn 8 0 [] t && decide (t.ctx.lz.tab = lzT)) = true := by
  decide +kernel

/-- The start of the decodes of 95 P2 and P3. -/
theorem test_decode_loads_tables :
    nextIs (step (started .bt 4 [0x46, 0xFB, 0, 0, 12, 0xFF, 3, 1, 0x61, 0x62, 2, 1, 0x63, 3, 2, 2, 3]))
      (fun t => goesOn 16 0 [] t && decide (t.ctx.bt.clue = 0xFF) && decide (t.ctx.bt.right.read 2 = 0x63)) = true ∧
    nextIs (step (started .hr 4 [0x32, 0xFB, 0, 0, 8, 0x00, 0x24, 0xE0, 0x61, 0xC2, 0x68, 0x00, 0xD8]))
      (fun t => t.busy && decide (t.ctx.hr.tab = hrT) && decide (t.ctx.hr.passes = 1)) = true := by decide +kernel

theorem test_reserved :
    [(5 : BitVec 3), 6, 7].all (fun op =>
      nextIs (step (started .hr op [])) (fun t => failsAt .badOp 0 0 t && decide (t.status = .unsupported))) = true := by
  decide +kernel

/-- 95 P1 steps 2 to 4, and the short distance fault of 95 section 4.3. -/
theorem test_rp_matches :
    nextIs (step (running .rp 22 [0x01, 0x03, 0x65] [0x61, 0x62, 0x63, 0x64]))
      (goesOn 3 8 [0x61, 0x62, 0x63, 0x64, 0x65, 0x62, 0x63, 0x64]) = true ∧
    nextIs (step (running .rp 22 [0x80, 0x00, 0x01] [0x61, 0x62]))
      (goesOn 3 6 [0x61, 0x62, 0x61, 0x62, 0x61, 0x62]) = true ∧
    nextIs (step (running .rp 22 [0xC2, 0, 0, 0, 0x78, 0x79] [0x61]))
      (goesOn 6 8 [0x61, 0x78, 0x79, 0x79, 0x79, 0x79, 0x79, 0x79]) = true ∧
    nextIs (step (running .rp 22 [0x00, 0x00] [])) (failsAt .badDistance 2 0) = true := by decide +kernel

/-- 95 section 4.1, and the overruns and the mismatch of 95 section 4.3. -/
theorem test_rp_literals :
    nextIs (step (running .rp 4 [0xE0, 0x61, 0x62, 0x63, 0x64] [])) (goesOn 5 4 [0x61, 0x62, 0x63, 0x64]) = true ∧
    nextIs (step (running .rp 2 [0xFF, 0x61, 0x62, 0x63] [])) (failsAt .outputOverrun 4 2) = true ∧
    nextIs (step (running .rp 3 [0xFF, 0x61, 0x62, 0x63] [])) (endsWith [0x61, 0x62, 0x63]) = true ∧
    nextIs (step (running .rp 5 [0xFD, 0x61] [])) (failsAt .lengthMismatch 2 1) = true := by decide +kernel

/-- 95 P2 with nodes 01 = (61, 62), 02 = (01, 63) and clue FF. -/
theorem test_bt_items :
    nextIs (step (running .bt 12 [0x64] [0x61])) (goesOn 1 2 [0x61, 0x64]) = true ∧
    nextIs (step (running .bt 12 [0x02] [])) (goesOn 1 3 [0x61, 0x62, 0x63]) = true ∧
    nextIs (step (running .bt 12 [0xFF, 0x01] [])) (goesOn 2 1 [0x01]) = true ∧
    nextIs (step (running .bt 1 [0xFF, 0x00] [0x61])) (endsWith [0x61]) = true := by decide +kernel

/-- 44 R311: a node that is its own left child (95 section 5.3). -/
theorem test_bt_overflow :
    let s := running .bt 4 [0x01] []
    nextIs (step { s with ctx := { s.ctx with bt := { s.ctx.bt with left := [(1, 1)] } } })
      (failsAt .stackOverflow 1 0) = true := by decide +kernel

/-- 95 P3: its codes, one delta pass at the end. -/
theorem test_hr_items :
    nextIs (step (running .hr 8 [0b10000000] [])) (goesOn 1 1 [0x61]) = true ∧
    nextIs (step (running .hr 8 [0b00010000] [0x61])) (goesOn 1 4 [0x61, 0x61, 0x61, 0x61]) = true ∧
    nextIs (step (running .hr 8 [0b01001000, 0b00100000] [])) (goesOn 2 1 [0x41]) = true ∧
    nextIs (step (running .hr 8 [0b01100000] [0x61, 0x61, 0x61, 0x61, 0x62, 0, 0, 0]))
      (endsWith [0x61, 0xC2, 0x23, 0x84, 0xE6, 0xE6, 0xE6, 0xE6]) = true := by decide +kernel

theorem test_hr_faults :
    nextIs (step (running .hr 8 [0b00010000] [])) (failsAt .badRun 1 0) = true ∧
    nextIs (step (running .hr 2 [0b00010000] [0x61])) (failsAt .outputOverrun 1 2) = true ∧
    nextIs (step (running .hr 8 [0b01100000] [0x61])) (failsAt .lengthMismatch 1 1) = true := by decide +kernel

/-- 46 R464. -/
theorem test_lz_symbols :
    nextIs (step (running .lz 0 [0x90] [0x62])) (fun t => goesOn 1 2 [0x62, 0x61] t && decide (t.ctx.lz.stat.getD 0 97 = 1)) = true ∧
    nextIs (step (running .lz 0 [0x06, 0x80, 0x20] [0x61, 0x62, 0x63, 0x64]))
      (goesOn 3 12 [0x61, 0x62, 0x63, 0x64, 0x61, 0x62, 0x63, 0x64, 0x61, 0x62, 0x63, 0x64]) = true ∧
    nextIs (step (running .lz 0 [0x04, 0x80, 0x04] [0x61])) (goesOn 3 13 (List.replicate 13 0x61)) = true ∧
    nextIs (step (running .lz 0 [0x00, 0x00] [0x61])) (endsWith [0x61]) = true := by decide +kernel

/-- 46 R438, R440, R441: after a rebuild the symbols with a count stand first; 95 section 7.3 for the faults. -/
theorem test_lz_rebuild_and_faults :
    (let s := running .lz 0 [0x00, 0xAA, 0xA2, 0x22, 0x22, 0x22, 0x22, 0x22, 0x20, 0x80] []
     nextIs (step { s with ctx := { s.ctx with lz := { s.ctx.lz with stat := [(5, 2), (97, 5)] } } })
      (fun t => t.busy && decide (t.ctx.lz.tab.order.take 4 = [97, 5, 273, 272]) &&
        decide (t.ctx.lz.stat = [(5, 1), (97, 2)]) && decide (t.ctx.lz.tab.nbits = widths0))) = true ∧
    nextIs (step (running .lz 0 [0x08, 0x80, 0x08] []))
      (fun t => failsAt .badDistance 3 0 t && decide (t.diag.stage = .disp)) = true ∧
    nextIs (step { running .lz 0 [0x90] [] with outLimit := 0 })
      (fun t => failsAt .outputOverrun 1 0 t && decide (t.diag.stage = .copy)) = true := by decide +kernel

/-- The host's moves. -/
theorem test_host_moves :
    nextIs (hostWrite (.src 7 0x61) State.reset) (fun t => decide (t.src.read 7 = 0x61)) = true ∧
    nextIs (hostWrite .start (running .rp 0 [] [])) (fun _ => true) = false := by decide +kernel

/-! ## The statements' hypotheses are met -/

/-- A state from which a step gives a next state. -/
def steps (s : State) : Bool := nextIs (step s) fun _ => true

theorem step_of_steps {s : State} (h : steps s = true) : ∃ t, step s = .next t := by
  obtain ⟨t, ht, _⟩ := next_of_nextIs h
  exact ⟨t, ht⟩

/-- A failing step. -/
def fails (s : State) : Bool := nextIs (step s) fun t => !t.busy && decide (t.status ≠ .ok)

theorem test_meets_HostopWordsAgree : hostopOf (.hostopReserved7 .lz) = some (.lz, 7) := rfl

theorem test_meets_RefPackDecodeOfEncode :
    [Instr.rpShort 0 3 1, .rpShort 3 10 1024, .rpInt 0 4 1, .rpInt 3 67 16384, .rpLong 0 5 1, .rpLong 3 1028 131072,
      .rpLiteral 4, .rpLiteral 112, .rpEof 0, .rpEof 3].all (wellFormed .rp) = true := by decide +kernel

theorem test_meets_BinaryTreeDecodeOfEncode :
    [Instr.btLeaf 0, .btNode 1, .btEsc 0xFF 1, .btEsc 0xFF 0xFF, .btEnd 0xFF].all
      (wellFormed (.bt 0xFF [(1, true)])) = true := by decide +kernel

/-- At an empty accumulator and at a full one. -/
theorem test_meets_HuffmanDecodeOfEncode :
    hrT.valid = true ∧
    [Instr.hrLit 0x61, .hrLit 0x62, .hrRun 1, .hrRun 65534, .hrEsc 0, .hrEsc 0xFF, .hrEof].all
      (wellFormed (.hr hrT)) = true ∧
    (⟨[0b00010000], 0, 0, 0⟩ : BitSrc).bits = encode (.hr hrT) (.hrRun 3) ++ [false, false] ∧
    (⟨[0b10000000], 0, 0b0000100, 7⟩ : BitSrc).bits = encode (.hr hrT) (.hrRun 8) ++ List.replicate 7 false := by
  decide +kernel

/-- The initial group tables are valid. -/
theorem lzT_valid : lzT.valid = true := by decide +kernel

theorem test_meets_LightZhlDecodeOfEncode :
    [Instr.lzLit 0, .lzLit 0xFF, .lzMatchS 4 0, .lzMatchS 11 65535, .lzMatchX 12 1, .lzMatchX 521 65535,
      .lzRecalc widths0, .lzEof].all (wellFormed (.lz 16 lzT)) = true ∧
    wellFormed (.lz 8 lzT) (.lzMatchS 4 255) = true ∧
    (⟨[0b10010000], 0, 0, 0⟩ : BitSrc).bits = encode (.lz 16 lzT) (.lzLit 0x61) ++ [] ∧
    (⟨[0b00000000], 0, 0b1001000, 7⟩ : BitSrc).bits =
      encode (.lz 16 lzT) (.lzLit 0x61) ++ List.replicate 7 false := by decide +kernel

/-- The words of the decode tests above are accepted words of each format; here the truncated RefPack word. -/
theorem test_meets_DecodedInstructionsWellFormed :
    decode .hostop ⟨[0xF8], 0, 0, 0⟩ = .ok (.hostopReserved7 .lz) ⟨[], 1, 0, 3⟩ ∧
    decode .rp ⟨[0xFF], 0, 0, 0⟩ = .ok (.rpEof 3) ⟨[], 1, 0, 0⟩ ∧
    decode (.bt 0xFF []) ⟨[0xFF, 0xFF], 0, 0, 0⟩ = .ok (.btEsc 0xFF 0xFF) ⟨[], 2, 0, 0⟩ ∧
    (hrT.valid = true ∧ decode (.hr hrT) ⟨[0b11000000], 0, 0, 0⟩ = .ok (.hrLit 0x62) ⟨[], 1, 0, 6⟩) ∧
    decode (.lz 8 lzT) ⟨[0xFF], 0, 0, 0⟩ = .ok (.lzLit 0) ⟨[], 1, 7, 3⟩ ∧
    decode .rp ⟨[], 0, 0, 0⟩ = .err .truncated .none ⟨[], 0, 0, 0⟩ := by decide +kernel

/-- Sixteen bits from seven in the accumulator: one byte short, and just enough. -/
theorem test_meets_BitReaderTakesNextBits :
    (let r : BitSrc := ⟨[0xFF, 0xFF], 0, 127, 7⟩
     r.nacc ≤ 7 ∧ r.acc.toNat < 2 ^ r.nacc ∧ 16 ≤ r.bits.length) ∧
    (let r : BitSrc := ⟨[0xFF], 0, 127, 7⟩
     r.nacc ≤ 7 ∧ r.acc.toNat < 2 ^ r.nacc ∧ r.bits.length < 16) ∧
    (0 ≤ (⟨[], 0, 0, 0⟩ : BitSrc).bits.length) := by decide +kernel

theorem test_meets_BitWriterAppendsBits :
    let w : BitSink := ⟨127, 7, [0xAD]⟩
    (16 ≤ 16 ∧ 65535 < 2 ^ 16) ∧ w.nacc ≤ 7 ∧ w.acc.toNat < 2 ^ w.nacc := by decide +kernel

theorem test_meets_StepRunsDecodedInstruction :
    (started .rp 5 []).start = true ∧
    ((running .rp 9 [0xFC] []).decoding .rp = true ∧
      decode .rp (running .rp 9 [0xFC] []).reader = .ok (.rpEof 0) ⟨[], 1, 0, 0⟩) ∧
    (let s := running .bt 9 [0x01] []
     s.start = false ∧ s.decoding .bt = true ∧
      decode (.bt s.ctx.bt.clue s.ctx.bt.isNode) s.reader = .ok (.btNode 1) ⟨[], 1, 0, 0⟩) ∧
    (let s := running .hr 9 [0x80] []
     s.start = false ∧ s.decoding .hr = true ∧
      decode (.hr s.ctx.hr.tab) s.reader = .ok (.hrLit 0x61) ⟨[], 1, 0, 6⟩) ∧
    (let s := running .lz 9 [0x90] []
     s.start = false ∧ s.decoding .lz = true ∧
      decode (.lz s.params.lzBufBits s.ctx.lz.tab) s.reader = .ok (.lzLit 0x61) ⟨[], 1, 0, 0⟩) ∧
    (State.reset.start = false ∧ State.reset.busy = false) := by decide +kernel

theorem test_meets_StepRejectsBadWords :
    (let s := running .rp 9 [0x00] []
     s.start = false ∧ s.decoding .rp = true ∧ decode .rp s.reader = .err .truncated .none ⟨[], 1, 0, 0⟩) ∧
    (let s := running .bt 9 [0xFF] []
     s.start = false ∧ s.decoding .bt = true ∧
      decode (.bt s.ctx.bt.clue s.ctx.bt.isNode) s.reader = .err .truncated .none ⟨[], 1, 0, 0⟩) ∧
    (let s := running .hr 9 [0x00, 0x00, 0x00] []
     s.start = false ∧ s.decoding .hr = true ∧
      decode (.hr s.ctx.hr.tab) s.reader = .err .badNumber .none ⟨[], 3, 0, 7⟩) ∧
    (let s := running .lz 9 [] []
     s.start = false ∧ s.decoding .lz = true ∧
      decode (.lz s.params.lzBufBits s.ctx.lz.tab) s.reader = .err .truncated .symbol ⟨[], 0, 0, 0⟩) := by
  decide +kernel

theorem test_meets_StepStopsOnlyOnForbiddenStart :
    (RegistersConsistent State.reset ∧ HostKeepsRules State.reset) ∧
    (RegistersConsistent (running .lz 9 [0x90] []) ∧ HostKeepsRules (running .lz 9 [0x90] [])) ∧
    ({ running .rp 0 [] [] with start := true }.start = true ∧
      { running .rp 0 [] [] with start := true }.busy = true) ∧
    (hostopOf (.about .rp) ≠ none ∧ (running .rp 0 [] []).busy = true) ∧
    (hostopOf .hrEof = none ∧ State.reset.busy = false) := by
  unfold RegistersConsistent HostKeepsRules; decide +kernel

theorem test_meets_OperationsFailOnlyAsListed :
    (∃ t, step (started .lz 2 []) = .next t ∧ (!t.busy && decide (t.status ≠ .ok)) = true) ∧
    (∃ t, step (running .rp 0 [] []) = .next t ∧ (!t.busy && decide (t.status ≠ .ok)) = true) :=
  ⟨next_of_nextIs (by decide +kernel), next_of_nextIs (by decide +kernel)⟩

/-- An idle block: the premise of the statements about `ABOUT`, `IS_VALID`, `EXTRACT_SIZE` and the refused requests. -/
theorem test_meets_idle_premises : State.reset.busy = false ∧ (Codec.hr ≠ .lz) := by decide

/-- The four cases of a header, at their boundaries. -/
theorem test_meets_ExtractSizeAnswers :
    (let s := started .rp 2 [0x10]
     s.srcLen.toNat < 2) ∧
    (let s := started .rp 2 [0x10, 0xFB, 0, 0]
     2 ≤ s.srcLen.toNat ∧ 0x10FB ∈ magics .rp ∧ s.srcLen.toNat < 2 + 3) ∧
    (let s := started .rp 2 [0x90, 0xFB, 0x80, 0, 0, 0]
     0x90FB ∈ magics .rp ∧ 2 + 4 ≤ s.srcLen.toNat ∧ s.params.maxLen < 2 ^ 31) ∧
    (let s := started .rp 2 [0x90, 0xFB, 0x7F, 0xFF, 0xFF, 0xFF]
     2 + 4 ≤ s.srcLen.toNat ∧ 2 ^ 31 - 1 ≤ s.params.maxLen) := by decide +kernel

/-- A descriptor without a direction, and the configurations and the length that are refused. -/
theorem test_meets_EncodeDecodeRefusals :
    (let d := { State.reset.desc.rp with canEncode := false, canDecode := false }
     let s := { State.reset with desc := { State.reset.desc with rp := d } }
     s.busy = false ∧ (s.desc.of .rp).canEncode = false ∧ (s.desc.of .rp).canDecode = false) ∧
    (let s := { State.reset with srcLen := 0x01000000 }
     s.desc.bt.canEncode = true ∧ 2 ^ 24 ≤ s.srcLen.toNat) ∧
    (let s := { State.reset with srcLen := 0x00FFFFFF, cfg := { Cfg.reset with btPairsPerPass := 0 } }
     s.desc.bt.canEncode = true ∧ s.srcLen.toNat < 2 ^ 24 ∧ s.cfg.btPairsPerPass = 0) ∧
    (let s := { State.reset with cfg := { Cfg.reset with hrDeltaPasses := 3 } }
     s.desc.hr.canEncode = true ∧ s.cfg.hrDeltaPasses = 3) := by decide +kernel

theorem test_meets_EncodeNeverFailsOnData :
    State.reset.busy = false ∧ encodable .rp State.reset ∧ encodable .bt State.reset ∧ encodable .hr State.reset ∧
      encodable .lz State.reset := by unfold encodable; decide +kernel

theorem test_meets_DecodeReadsHeader :
    (let s := started .rp 4 [0x10, 0xFB, 0, 0, 9]
     s.busy = false ∧ s.desc.rp.canDecode = true ∧
      (parseHeader .rp s.src s.srcLen.toNat s.params.maxLen).toOption = some ⟨0x10FB, 9, 5⟩) ∧
    (let s := started .hr 4 [0x36, 0xFB]
     s.busy = false ∧ (s.desc.of .hr).canDecode = true ∧
      (match parseHeader .hr s.src s.srcLen.toNat s.params.maxLen with
       | .error e => decide (e = (.badMagic, 2))
       | .ok _ => false) = true) := by decide +kernel

/-- 95 P2's three triples; a triple that names the clue; a node named twice. -/
theorem test_meets_DecodeLoadsNodeTable :
    (let s := started .bt 4 [0x46, 0xFB, 0, 0, 12, 0xFF, 3, 1, 0x61, 0x62, 2, 1, 0x63, 3, 2, 2]
     let node := fun i => s.src.read (5 + 2 + 3 * i)
     (parseHeader .bt s.src s.srcLen.toNat s.params.maxLen).toOption = some ⟨0x46FB, 12, 5⟩ ∧
      5 + 2 + 3 * 3 ≤ s.srcLen.toNat ∧ (∀ i < 3, node i ≠ s.src.read 5) ∧
      (∀ j < 3, ∀ i < j, node i ≠ node j)) ∧
    (let s := started .bt 4 [0x46, 0xFB, 0, 0, 2, 0, 1, 0, 0x61, 0x62]
     (parseHeader .bt s.src s.srcLen.toNat s.params.maxLen).toOption = some ⟨0x46FB, 2, 5⟩ ∧
      0 < (s.src.read 6).toNat ∧ 5 + 5 ≤ s.srcLen.toNat ∧ s.src.read 7 = s.src.read 5) ∧
    (let s := started .bt 4 [0x46, 0xFB, 0, 0, 2, 0, 2, 1, 0x61, 0x62, 1, 0x63, 0x64]
     1 < (s.src.read 6).toNat ∧ 5 + 5 + 3 ≤ s.srcLen.toNat ∧ s.src.read 7 ≠ s.src.read 5 ∧
      s.src.read 10 = s.src.read 7) ∧
    (let s := started .bt 4 [0x46, 0xFB, 0, 0, 0, 7]
     (parseHeader .bt s.src s.srcLen.toNat s.params.maxLen).toOption = some ⟨0x46FB, 0, 5⟩ ∧
      s.srcLen.toNat < 5 + 2) ∧
    (let s := started .bt 4 [0x46, 0xFB, 0, 0, 0, 0, 2, 1, 0x61, 0x62, 2, 0x63]
     5 + 2 ≤ s.srcLen.toNat ∧ s.srcLen.toNat < 5 + 2 + 3 * (s.src.read 6).toNat ∧ s.src.read 7 ≠ s.src.read 5 ∧
      s.srcLen.toNat < 5 + 5 + 3) := by decide +kernel

/-- The tables of 45 R384 (accepted) and of 95 section 6.4 (clue without a code). -/
theorem test_meets_DecodeLoadsHuffmanTable :
    (let s := started .hr 4 [0x30, 0xFB, 0, 0, 10, 0x00, 0x17, 0x03, 0x0C, 0x29, 0x80]
     (parseHeader .hr s.src s.srcLen.toNat s.params.maxLen).toOption = some ⟨0x30FB, 10, 5⟩ ∧
      (match getHrTab ⟨s.src.bytesFrom 5 6, 0, 0, 0⟩ with
       | .ok tl _ => decide (tl.1 = ⟨0, 1, [2], [0, 0x61]⟩)
       | .err _ _ _ => false) = true) ∧
    (let s := started .hr 4 [0x30, 0xFB, 0, 0, 10, 0x05, 0x15]
     (match getHrTab ⟨s.src.bytesFrom 5 2, 0, 0, 0⟩ with
       | .ok _ _ => false
       | .err e _ _ => decide (e = .badTable)) = true) := by decide +kernel

/-- The last five clauses: a valid table in its bits; one cut short; a Kraft sum of 3 over 2; a skip of 255 where 255
values are left (the three of 95 section 6.4); a clue without a code. -/
theorem test_meets_DecodeLoadsHuffmanTable_bits :
    (let t : HrTab := ⟨0, 1, [2], [0, 0x61]⟩
     t.valid = true ∧ bytesBits [0x00, 0x17, 0x03, 0x0C] = hrTableBits t ++ natBits 3 4) ∧
    (let t : HrTab := ⟨0, 1, [2], [0, 0x61]⟩
     bytesBits [0x00, 0x17, 0x03] ≠ hrTableBits t ∧ bytesBits [0x00, 0x17, 0x03] <+: hrTableBits t) ∧
    (bytesBits [0x00, 0x12, 0x00] = hrHeadBits 0 1 [3] ++ natBits 7 0 ∧ 2 ^ 1 < HrTab.kraft [3]) ∧
    (bytesBits [0x00, 0x17, 0x00, 0x80, 0x00] =
      hrHeadBits 0 1 [2] ++ hrSkipBits [0] ++ numBits 255 ++ natBits 7 0 ∧ 256 ≤ 255 + ([0] : List Byte).length) ∧
    (let t : HrTab := ⟨5, 1, [1], [0]⟩
     HrTab.valid { t with clue := 0 } = true ∧ t.clue ∉ t.syms ∧ bytesBits [0x05, 0x15] = hrTableBits t ++ []) := by
  decide +kernel

theorem test_meets_DecodeLoadsGroupTable :
    (let s := started .lz 4 t0
     s.busy = false ∧ s.desc.lz.canDecode = true ∧ 8 ≤ s.srcLen.toNat ∧
      ∀ g < 16, (if g % 2 = 0 then (s.src.read (g / 2)).toNat / 16 else (s.src.read (g / 2)).toNat % 16) ≤ 12) ∧
    (let s := started .lz 4 [0xCD]
     0 < s.srcLen.toNat ∧ (s.src.read 0).toNat / 16 ≤ 12 ∧ 12 < (s.src.read 0).toNat % 16) ∧
    (let s := started .lz 4 [0x55, 0x44, 0x44]
     s.srcLen.toNat < 8 ∧
      ∀ g < 6, (if g % 2 = 0 then (s.src.read (g / 2)).toNat / 16 else (s.src.read (g / 2)).toNat % 16) ≤ 12) := by
  decide +kernel

theorem test_meets_RefPackMatchCompletes :
    let s := running .rp 8 [0x65] [0x61, 0x62, 0x63, 0x64]
    s.decoding .rp = true ∧ s.ctx.sp + 1 ≤ s.srcLen.toNat ∧ s.ctx.dp + 1 + 3 ≤ s.ctx.ulen ∧ 5 ≤ s.ctx.dp + 1 := by
  decide +kernel

theorem test_meets_RefPackLiteralCompletes :
    let s := running .rp 4 [1, 2, 3, 4] []
    s.decoding .rp = true ∧ s.ctx.sp + 4 ≤ s.srcLen.toNat ∧ s.ctx.dp + 4 ≤ s.ctx.ulen := by decide +kernel

/-- Each failing check, one unit past its boundary. -/
theorem test_meets_RefPackCommandFailures :
    (let s := running .rp 9 [0x65] []
     s.decoding .rp = true ∧ s.srcLen.toNat < s.ctx.sp + 2 ∧ s.ctx.dp + (s.srcLen.toNat - s.ctx.sp) ≤ s.ctx.ulen) ∧
    (let s := running .rp 1 [0x65, 0x66] []
     s.ctx.ulen < s.ctx.dp + 2 ∧ s.ctx.sp + (s.ctx.ulen - s.ctx.dp) < s.srcLen.toNat) ∧
    (let s := running .rp 9 [0x65] []
     s.ctx.sp + 1 ≤ s.srcLen.toNat ∧ s.ctx.dp + 1 ≤ s.ctx.ulen ∧ s.ctx.dp + 1 < 2) ∧
    (let s := running .rp 3 [0x65] []
     s.ctx.sp + 1 ≤ s.srcLen.toNat ∧ s.ctx.dp + 1 ≤ s.ctx.ulen ∧ 1 ≤ s.ctx.dp + 1 ∧ s.ctx.ulen < s.ctx.dp + 1 + 3) := by
  decide +kernel

theorem test_meets_ByteStreamEndChecksLength :
    (let s := running .rp 3 [1, 2, 3] []
     s.decoding .rp = true ∧ s.ctx.sp + 3 ≤ s.srcLen.toNat ∧ s.ctx.dp + 3 = s.ctx.ulen) ∧
    (let s := running .rp 5 [1] []
     s.ctx.sp + 1 ≤ s.srcLen.toNat ∧ s.ctx.dp + 1 ≤ s.ctx.ulen ∧ s.ctx.dp + 1 ≠ s.ctx.ulen) ∧
    (let s := running .bt 1 [] [0x61]
     s.decoding .bt = true ∧ s.ctx.dp = s.ctx.ulen) ∧
    (let s := running .bt 2 [] [0x61]
     s.decoding .bt = true ∧ s.ctx.dp ≠ s.ctx.ulen) := by decide +kernel

theorem test_meets_OneByteItemsEmit :
    ((running .bt 1 [] []).decoding .bt = true ∧ (running .bt 1 [] []).ctx.dp < (running .bt 1 [] []).ctx.ulen) ∧
    ((running .bt 1 [] [7]).decoding .bt = true ∧ (running .bt 1 [] [7]).ctx.ulen ≤ (running .bt 1 [] [7]).ctx.dp) ∧
    ((running .hr 1 [] []).decoding .hr = true ∧ (running .hr 1 [] []).ctx.dp < (running .hr 1 [] []).ctx.ulen) ∧
    ((running .hr 0 [] []).decoding .hr = true ∧ (running .hr 0 [] []).ctx.ulen ≤ (running .hr 0 [] []).ctx.dp) := by
  decide +kernel

theorem test_meets_BinaryTreeNodeExpands :
    let s := running .bt 3 [] []
    s.decoding .bt = true ∧
      btLeaves s.ctx.bt.isNode s.ctx.bt.left s.ctx.bt.right 2 2 = some [0x61, 0x62, 0x63] ∧
      2 + 1 ≤ s.params.btStackDepth ∧ s.ctx.dp + 3 ≤ s.ctx.ulen := by decide +kernel

/-- A node that is its own left child, and one that is its own right child. -/
theorem test_meets_BinaryTreeExpansionEnds :
    let s := running .bt 3 [] []
    s.decoding .bt = true ∧ s.ctx.dp ≤ s.ctx.ulen ∧ 2 ≤ s.params.btStackDepth ∧
      (let l : Memory := [(1, 1)]
       isNodeByte s.ctx.bt.isNode 1 = true ∧ l.read 1 = 1) ∧
      (let r : Memory := [(1, 1)]
       let l : Memory := [(1, 0x61)]
       isNodeByte s.ctx.bt.isNode 1 = true ∧ r.read 1 = 1 ∧ isNodeByte s.ctx.bt.isNode (l.read 1) = false) := by
  decide +kernel

/-- A cycle of two nodes: 01 = (02, 02), 02 = (61, 01) has no bound on its paths. -/
theorem test_meets_BinaryTreeExpansionEnds_cycle (h : Nat) :
    let isNode : Sparse Bool := [(1, true), (2, true)]
    let left : Memory := [(1, 2), (2, 0x61)]
    let right : Memory := [(1, 2), (2, 1)]
    btLeaves isNode left right h 1 = none ∧ btLeaves isNode left right h 2 = none := by
  intro isNode left right
  have n1 : isNodeByte isNode 1 = true := by decide
  have n2 : isNodeByte isNode 2 = true := by decide
  have l1 : left.read (1 : Byte).toNat = 2 := by decide
  have r2 : right.read (2 : Byte).toNat = 1 := by decide
  induction h with
  | zero => exact ⟨if_pos n1, if_pos n2⟩
  | succ h ih =>
    unfold btLeaves
    rw [if_pos n1, if_pos n2, l1, r2, ih.1, ih.2]
    exact ⟨rfl, by split <;> simp_all⟩

theorem test_meets_HuffmanRunRepeatsLastByte :
    (let s := running .hr 4 [] [0x61]
     s.decoding .hr = true ∧ 1 ≤ s.ctx.dp ∧ s.ctx.dp + 3 ≤ s.ctx.ulen) ∧
    (let s := running .hr 4 [] []
     s.decoding .hr = true ∧ s.ctx.dp = 0) ∧
    (let s := running .hr 3 [] [0x61]
     s.decoding .hr = true ∧ 1 ≤ s.ctx.dp ∧ s.ctx.dp ≤ s.ctx.ulen ∧ s.ctx.ulen < s.ctx.dp + 3) := by decide +kernel

theorem test_meets_HuffmanEndUndoesDelta :
    (let s := running .hr 1 [] [0x61]
     s.decoding .hr = true ∧ s.ctx.dp = s.ctx.ulen) ∧
    (let s := running .hr 2 [] [0x61]
     s.decoding .hr = true ∧ s.ctx.dp ≠ s.ctx.ulen) := by decide +kernel

theorem test_meets_DeltaFiltersInverse : 0 < ([5, 3] : List Byte).length ∧ 1 < ([5, 3] : List Byte).length := by decide

theorem test_meets_LightZhlLiteralEmits :
    (let s := { running .lz 0 [] [] with outLimit := 1 }
     s.decoding .lz = true ∧ s.ctx.dp < s.outLimit.toNat) ∧
    (let s := { running .lz 0 [] [] with outLimit := 0 }
     s.decoding .lz = true ∧ s.outLimit.toNat ≤ s.ctx.dp) := by decide +kernel

/-- One byte of output, mirrored. -/
theorem mirrors_one : BufferMirrors (running .lz 0 [] [0x61]) := by
  refine fun _ _ => ⟨by decide +kernel, fun d h1 h2 _ => ?_⟩
  have hw : (running .lz 0 [] [0x61]).ctx.lz.wp = 1 := by decide +kernel
  have : d = 1 := by omega
  subst this
  decide +kernel

theorem test_meets_LightZhlMatchCopiesOutput :
    let s := running .lz 0 [] [0x61]
    s.decoding .lz = true ∧ BufferMirrors s ∧ 1 ≤ s.ctx.lz.wp ∧ 1 < s.params.lzSize ∧
      s.ctx.dp + 521 ≤ s.outLimit.toNat :=
  ⟨by decide +kernel, mirrors_one, by decide +kernel, by decide +kernel, by decide +kernel⟩

theorem test_meets_LightZhlMatchFailures :
    (let s := running .lz 0 [] [0x61]
     s.decoding .lz = true ∧ s.ctx.lz.wp < 2) ∧
    (let s := { running .lz 0 [] [0x61] with outLimit := 4 }
     s.decoding .lz = true ∧ 1 ≤ s.ctx.lz.wp ∧ s.ctx.dp ≤ s.outLimit.toNat ∧ s.outLimit.toNat < s.ctx.dp + 4) := by
  decide +kernel

theorem test_meets_LightZhlRebuildReorders :
    let s := running .lz 0 [] []
    let u := { s with ctx := { s.ctx with lz := { s.ctx.lz with stat := [(5, 2), (97, 5)] } } }
    u.decoding .lz = true ∧ u.ctx.lz.stat.canonical 0 = true := by decide +kernel

theorem test_meets_LightZhlEndSucceeds : (running .lz 0 [] []).decoding .lz = true := by decide +kernel

theorem test_meets_StepKeepsMemoriesCanonical :
    let s := running .bt 3 [0x01] []
    MemoriesCanonical s ∧ ∃ t, step s = .next t :=
  ⟨by unfold MemoriesCanonical; decide +kernel, step_of_steps (by decide +kernel)⟩

theorem test_meets_StepKeepsRegistersConsistent :
    let s := running .hr 8 [0b00010000] [0x61]
    RegistersConsistent s ∧ ∃ t, step s = .next t :=
  ⟨by unfold RegistersConsistent; decide +kernel, step_of_steps (by decide +kernel)⟩

theorem test_meets_StepKeepsCursorsInBounds :
    let s := running .lz 0 [0x90] [0x62]
    CursorsInBounds s ∧ ∃ t, step s = .next t :=
  ⟨by unfold CursorsInBounds; decide +kernel, step_of_steps (by decide +kernel)⟩

theorem test_meets_StepKeepsTablesValid :
    let s := running .lz 0 [0x00, 0xAA, 0xA2, 0x22, 0x22, 0x22, 0x22, 0x22, 0x20, 0x80] []
    TablesValid s ∧ ∃ t, step s = .next t := by
  refine ⟨fun _ => ⟨fun h => ?_, fun h => ?_, fun _ => lzT_valid⟩, step_of_steps (by decide +kernel)⟩ <;>
    exact absurd h (by decide +kernel)

theorem test_meets_StepKeepsBufferMirroring :
    (let s := running .lz 0 [] [0x61]
     BufferMirrors s ∧ ∃ t, step s = .next t) ∧
    ∃ t, step (started .lz 4 t0) = .next t :=
  ⟨⟨mirrors_one, step_of_steps (by decide +kernel)⟩, step_of_steps (by decide +kernel)⟩

theorem test_meets_NothingWritesTheInputs :
    (∃ t, step (started .rp 3 [0x61]) = .next t) ∧ ∃ t, exec .lzEof (running .lz 0 [] []) = .next t :=
  ⟨step_of_steps (by decide +kernel), ⟨_, rfl⟩⟩

theorem test_meets_StreamCommandFrame :
    ∃ t, exec (.rpLiteral 4) (running .rp 4 [1, 2, 3, 4] []) = .next t ∧ t.busy = true :=
  next_of_nextIs (p := fun t => t.busy) (by decide +kernel)

theorem test_meets_EveryOperationEnds :
    (started .lz 4 []).busy = false ∧ (started .lz 4 []).start = true := by decide +kernel

/-- One step further than the header, on two states whose `DST` differ. -/
theorem test_meets_DecodeDependsOnInputOnly :
    let s₁ := started .rp 4 [0x10, 0xFB, 0, 0, 1, 0xFD, 0x61]
    let s₂ := { s₁ with dst := [(0, 7)] }
    s₁.op = 4 ∧ s₂.busy = false ∧ s₁.src = s₂.src ∧
      (∃ t, Sys2Proof.core.run 2 s₁ = .next t ∧ endsWith [0x61] t = true) ∧
      (∃ t, Sys2Proof.core.run 2 s₂ = .next t ∧ endsWith [0x61] t = true) :=
  ⟨by decide +kernel, by decide +kernel, rfl, next_of_nextIs (by decide +kernel), next_of_nextIs (by decide +kernel)⟩

theorem test_meets_ResetValues :
    Params.legal Params.default ∧ Params.legal { Params.default with maxLen := 2 ^ 32 - 1 } ∧
      (let d := { State.reset.desc with rp := { State.reset.desc.rp with canEncode := false, canDecode := false } }
       (d.of .rp).canEncode = false ∧ (d.of .rp).canDecode = false) := by decide +kernel

theorem test_meets_HostMovesGuarded :
    (State.reset.busy = false ∧ State.reset.start = false) ∧
    (∃ t, hostWrite .start State.reset = .next t) ∧ (running .rp 0 [] []).busy = true ∧
    (∃ bs, hostReadDst { State.reset with done := true } = .ok bs) ∧
    FailedWith .badOp (raise .badOp Diag.zero State.reset) :=
  ⟨⟨rfl, rfl⟩, ⟨_, rfl⟩, by decide +kernel, ⟨_, rfl⟩, by unfold FailedWith; decide +kernel⟩

/-- "aaaa": the search at position 1 finds the three bytes behind it. -/
theorem test_meets_RefPackMatchBounds :
    let v : RpEnv := ⟨fun _ => 0x61, 4, 0, false, rpHash, rpPolicy⟩
    (rpSearch v { rpInsert v 0 (Ctx.fresh 4).rpEnc with cp := 1 }).found = true := by decide +kernel

theorem test_meets_BinaryTreeNodesBounded :
    (btEncode 1 3 256 [0x61, 0x62, 0x61, 0x62, 0x61, 0x62, 0x61, 0x62]).1.nodes[0]? = some (1, 0x61, 0x62) := by
  decide +kernel

theorem test_meets_HuffmanCodeBounded :
    0 < (hrEncode 0 4 .shortest [0x61]).1.cnt.getD 0 0x61 := by decide +kernel

/-- The encodings of one byte; LightZhl's under the legal widths of 46 R443. -/
theorem test_meets_EncodedStreamsAreValid :
    let s := started .rp 3 [0x61]
    (∀ c ∈ [Codec.rp, .bt, .hr], encodable c s) ∧ s.srcLen.toNat ≤ s.params.maxLen ∧
      (encoderOutput .rp s).length < 2 ^ 32 ∧ State.reset.busy = false ∧ State.reset.params = s.params := by
  unfold encodable; decide +kernel

theorem test_meets_RefPackRoundTrip :
    let v : RpEnv := ⟨fun _ => 0x61, 4, 1, true, rpHash, fun _ _ _ p => p = 0⟩
    v.bias ≤ 1 ∧ State.reset.desc.rp.canDecode = true ∧ State.reset.params.legal ∧ v.n ≤ State.reset.params.maxLen ∧
      (rpEncode v (Ctx.fresh v.n).rpEnc).2.length < 2 ^ 32 := by decide +kernel

theorem test_meets_BinaryTreeRoundTrip :
    ([0x61] : List Byte).length < 2 ^ 24 ∧ State.reset.busy = false ∧ State.reset.desc.bt.canDecode = true ∧
      State.reset.params.legal ∧ ([0x61] : List Byte).length ≤ State.reset.params.maxLen := by decide +kernel

theorem test_meets_HuffmanRoundTrip :
    State.reset.desc.hr.canDecode = true ∧ State.reset.params.legal ∧
      (hrEncode 2 1 .longestBelow [0x61]).2.length < 2 ^ 32 := by decide +kernel

theorem widths0_legal : groupWidthsLegal widths0 := by unfold groupWidthsLegal; decide +kernel

theorem test_meets_LightZhlRoundTrip :
    let v : LzEnv := ⟨fun _ => 0x61, 10, 16, 0, lzHashFast, fun _ _ => widths0⟩
    v.bufBits = State.reset.params.lzBufBits ∧ (∀ stat order, groupWidthsLegal (v.groups stat order)) ∧
      State.reset.desc.lz.canDecode = true ∧ State.reset.params.legal ∧ v.n ≤ State.reset.params.maxLen ∧
      v.n ≤ State.reset.outLimit.toNat ∧ (lzEncode v (Ctx.fresh v.n).lz).2.length < 2 ^ 32 :=
  ⟨rfl, fun _ _ => widths0_legal, rfl, by decide +kernel, by decide +kernel, by decide +kernel, by decide +kernel⟩

end Sys2Proof.Tests
end

section
/-! How an instruction is carried out: every meaning is a host operation or a stream command of one engine, and a fetch
gives only commands of the running engine. From this it follows where a step can stop. -/

namespace Sys2Proof

/-- The engine of an instruction: the operand of a host operation, the format's engine of a stream command. -/
def Instr.engine : Instr → Codec
  | .about c | .isValid c | .extractSize c | .encode c | .decode c => c
  | .hostopReserved5 c | .hostopReserved6 c | .hostopReserved7 c => c
  | .rpShort .. | .rpInt .. | .rpLong .. | .rpLiteral _ | .rpEof _ => .rp
  | .btLeaf _ | .btNode _ | .btEsc .. | .btEnd _ => .bt
  | .hrLit _ | .hrRun _ | .hrEsc _ | .hrEof => .hr
  | .lzLit _ | .lzMatchS .. | .lzMatchX .. | .lzRecalc _ | .lzEof => .lz

/-- `i` is a stream command of engine `c`. -/
def IsCommand (c : Codec) (i : Instr) : Prop := hostopOf i = none ∧ i.engine = c

/-! ## Host operation words -/

theorem sel_ofSel (v : BitVec 2) : (Codec.ofSel v).sel = v := by
  revert v; decide

theorem hostopOf_decodeHostop (sel : BitVec 2) (op : BitVec 3) :
    hostopOf (decodeHostop sel op) = some (Codec.ofSel sel, op) := by
  revert sel op; decide

/-! ## What a reading yields -/

/-- Every value the reading can give satisfies `p`. -/
def Rd.Yields {α : Type} (p : α → Prop) (x : Rd α) : Prop := ∀ a r, x = .ok a r → p a

theorem Rd.yields_ok {α : Type} {p : α → Prop} {a : α} (h : p a) (r : BitSrc) : (Rd.ok a r).Yields p := by
  rintro _ _ ⟨⟩; exact h

theorem Rd.yields_bind {α β : Type} {p : β → Prop} (x : Rd α) {f : α → BitSrc → Rd β}
    (h : ∀ a r, (f a r).Yields p) : (x.bind f).Yields p := by
  cases x with
  | ok a r => exact h a r
  | err e st r => rintro _ _ ⟨⟩

theorem decodeRp_yields (r : BitSrc) : (decodeRp r).Yields (IsCommand .rp) := by
  refine Rd.yields_bind _ fun b0 r => ?_
  dsimp only
  split_ifs
  · exact Rd.yields_bind _ fun _ _ => Rd.yields_ok ⟨rfl, rfl⟩ _
  · exact Rd.yields_bind _ fun _ _ => Rd.yields_bind _ fun _ _ => Rd.yields_ok ⟨rfl, rfl⟩ _
  · exact Rd.yields_bind _ fun _ _ => Rd.yields_bind _ fun _ _ => Rd.yields_bind _ fun _ _ =>
      Rd.yields_ok ⟨rfl, rfl⟩ _
  · exact Rd.yields_ok ⟨rfl, rfl⟩ _
  · exact Rd.yields_ok ⟨rfl, rfl⟩ _

theorem decodeBt_yields (clue : Byte) (isNode : Sparse Bool) (r : BitSrc) :
    (decodeBt clue isNode r).Yields (IsCommand .bt) := by
  refine Rd.yields_bind _ fun b r => ?_
  split_ifs
  · refine Rd.yields_bind _ fun e r => ?_
    split_ifs
    · exact Rd.yields_ok ⟨rfl, rfl⟩ _
    · exact Rd.yields_ok ⟨rfl, rfl⟩ _
  · exact Rd.yields_ok ⟨rfl, rfl⟩ _
  · exact Rd.yields_ok ⟨rfl, rfl⟩ _

theorem decodeHr_yields (t : HrTab) (r : BitSrc) : (decodeHr t r).Yields (IsCommand .hr) := by
  refine Rd.yields_bind _ fun s r => ?_
  split_ifs
  · exact Rd.yields_ok ⟨rfl, rfl⟩ _
  · refine Rd.yields_bind _ fun k r => ?_
    split_ifs
    · exact Rd.yields_ok ⟨rfl, rfl⟩ _
    · refine Rd.yields_bind _ fun b r => ?_
      split_ifs
      · exact Rd.yields_ok ⟨rfl, rfl⟩ _
      · exact Rd.yields_bind _ fun _ _ => Rd.yields_ok ⟨rfl, rfl⟩ _

theorem lzFields_yields (bufBits s : Nat) (r : BitSrc) : (lzFields bufBits s r).Yields (IsCommand .lz) := by
  unfold lzFields
  split_ifs
  · exact Rd.yields_ok ⟨rfl, rfl⟩ _
  · exact Rd.yields_bind _ fun _ _ => Rd.yields_ok ⟨rfl, rfl⟩ _
  · exact Rd.yields_bind _ fun _ _ => Rd.yields_bind _ fun _ _ => Rd.yields_ok ⟨rfl, rfl⟩ _
  · exact Rd.yields_bind _ fun _ _ => Rd.yields_ok ⟨rfl, rfl⟩ _
  · exact Rd.yields_ok ⟨rfl, rfl⟩ _

end Sys2Proof

namespace Sys2Proof.Machine

/-! ## The two kinds of meaning -/

theorem exec_hostop {i : Instr} {c : Codec} {op : BitVec 3} (h : hostopOf i = some (c, op)) :
    ∃ f, ∀ s, exec i s = hostOp c op s f := by
  cases i with
  | about => cases h; exact ⟨_, fun s => show execAbout c s = _ from rfl⟩
  | isValid => cases h; exact ⟨_, fun s => show execIsValid c s = _ from rfl⟩
  | extractSize => cases h; exact ⟨_, fun s => show execExtractSize c s = _ from rfl⟩
  | encode => cases h; exact ⟨_, fun s => show execEncode c s = _ from rfl⟩
  | decode => cases h; exact ⟨_, fun s => show execDecode c s = _ from rfl⟩
  | hostopReserved5 => cases h; exact ⟨_, fun s => show execHostopReserved5 c s = _ from rfl⟩
  | hostopReserved6 => cases h; exact ⟨_, fun s => show execHostopReserved6 c s = _ from rfl⟩
  | hostopReserved7 => cases h; exact ⟨_, fun s => show execHostopReserved7 c s = _ from rfl⟩
  | _ => cases h

theorem exec_command {i : Instr} (h : hostopOf i = none) : ∃ f, ∀ s, exec i s = streamOp i.engine s f := by
  cases i <;> cases h <;> exact ⟨_, fun _ => rfl⟩

theorem hostOp_busy {c : Codec} {op : BitVec 3} {s : State} (f : State → Flow) (h : s.busy = true) :
    hostOp c op s f = .fault .startWhileBusy := by simp [hostOp, h]

theorem streamOp_idle {c : Codec} {s : State} (f : State → Flow) (h : s.busy = false) :
    streamOp c s f = .refused .noDecodeRunning := by simp [streamOp, State.decoding, h]

theorem exec_hostop_idle {i : Instr} {c : Codec} {op : BitVec 3} {s : State} (h : hostopOf i = some (c, op))
    (hb : s.busy = false) : ∃ t, exec i s = .next t := by
  obtain ⟨f, hf⟩ := exec_hostop h
  exact ⟨_, (hf s).trans (hostOp_idle f hb)⟩

theorem exec_hostop_busy {i : Instr} {s : State} (h : hostopOf i ≠ none) (hb : s.busy = true) :
    exec i s = .fault .startWhileBusy := by
  obtain ⟨⟨c, op⟩, h⟩ := Option.ne_none_iff_exists'.1 h
  obtain ⟨f, hf⟩ := exec_hostop h
  exact (hf s).trans (hostOp_busy f hb)

theorem exec_command_decoding {i : Instr} {c : Codec} {s : State} (h : IsCommand c i) (hd : s.decoding c = true) :
    ∃ t, exec i s = .next t := by
  obtain ⟨hi, rfl⟩ := h
  obtain ⟨f, hf⟩ := exec_command hi
  exact ⟨_, (hf s).trans (streamOp_decoding f hd)⟩

theorem exec_command_idle {i : Instr} {s : State} (h : hostopOf i = none) (hb : s.busy = false) :
    exec i s = .refused .noDecodeRunning := by
  obtain ⟨f, hf⟩ := exec_command h
  exact (hf s).trans (streamOp_idle f hb)

/-! ## The fetch -/

/-- A command that a fetch gives is one of engine `c`, and the words before it changed the context alone. -/
def Fetched.IsCommandAfter (c : Codec) (s : State) (f : Fetched) : Prop :=
  ∀ i t, f = .instr i t → IsCommand c i ∧ ∃ x, t = { s with ctx := x }

theorem fetchRp_command (s : State) : (fetchRp s).IsCommandAfter .rp s := by
  unfold fetchRp
  split
  next i r h => rintro _ _ ⟨⟩; exact ⟨decodeRp_yields _ _ _ h, _, rfl⟩
  next => rintro _ _ ⟨⟩

theorem fetchBt_command (s : State) : (fetchBt s).IsCommandAfter .bt s := by
  unfold fetchBt
  split
  next i r h => rintro _ _ ⟨⟩; exact ⟨decodeBt_yields _ _ _ _ _ h, _, rfl⟩
  next => rintro _ _ ⟨⟩

theorem fetchHr_command (s : State) : (fetchHr s).IsCommandAfter .hr s := by
  unfold fetchHr
  split
  next i r h => rintro _ _ ⟨⟩; exact ⟨decodeHr_yields _ _ _ _ h, _, rfl⟩
  next => rintro _ _ ⟨⟩

theorem fetchLz_command (s : State) : (fetchLz s).IsCommandAfter .lz s := by
  unfold fetchLz
  split
  next => rintro _ _ ⟨⟩
  next =>
    split
    next => rintro _ _ ⟨⟩
    next i r h => rintro _ _ ⟨⟩; exact ⟨lzFields_yields _ _ _ _ _ h, _, rfl⟩

theorem fetchCommand_command (s : State) : (fetchCommand s).IsCommandAfter (Codec.ofSel s.codecSel) s := by
  unfold fetchCommand
  cases Codec.ofSel s.codecSel with
  | rp => exact fetchRp_command s
  | bt => exact fetchBt_command s
  | hr => exact fetchHr_command s
  | lz => exact fetchLz_command s

/-! ## The step -/

theorem step_start {s : State} (h : s.start = true) : step s = exec (decodeHostop s.codecSel s.op) s := by
  simp [step, sequence, h]

theorem step_busy {s : State} (hs : s.start = false) (hb : s.busy = true) (ho : s.op = 4) :
    step s = runFetched (fetchCommand s) := by
  simp [step, sequence, hs, hb, ho]

theorem step_idle {s : State} (hs : s.start = false) (hb : s.busy = false) : step s = .next s := by
  simp [step, sequence, hs, hb]

/-- Running a fetched command of a `DECODE`: the fetch leaves the registers by which the command's engine is known. -/
theorem runFetched_next {s : State} (hb : s.busy = true) (ho : s.op = 4) :
    ∃ t, runFetched (fetchCommand s) = .next t := by
  cases hf : fetchCommand s with
  | ended t => exact ⟨t, rfl⟩
  | instr i t =>
    obtain ⟨hi, x, rfl⟩ := fetchCommand_command s i t hf
    exact exec_command_decoding hi (by simp [State.decoding, hb, ho, sel_ofSel])

theorem step_next {s : State} (hr : RegistersConsistent s) (hk : HostKeepsRules s) : ∃ t, step s = .next t := by
  cases hs : s.start with
  | true =>
    have hb : s.busy = false := Bool.eq_false_iff.2 fun hb => hk ⟨hs, hb⟩
    rw [step_start hs]
    exact exec_hostop_idle (hostopOf_decodeHostop _ _) hb
  | false =>
    cases hb : s.busy with
    | true =>
      have ho : s.op = 4 := (hr.1 hb).1
      rw [step_busy hs hb ho]
      exact runFetched_next hb ho
    | false => exact ⟨s, step_idle hs hb⟩

theorem step_start_busy {s : State} (hs : s.start = true) (hb : s.busy = true) :
    step s = .fault .startWhileBusy := by
  rw [step_start hs]
  exact exec_hostop_busy (by simp [hostopOf_decodeHostop]) hb

/-- Settles O12: a step with `START` is a host operation, and on an idle block it goes through; a step with `BUSY` runs a
fetched command of the engine whose `DECODE` runs. The stops are the guards of `hostOp` and `streamOp`. -/
theorem stepStopsOnlyOnForbiddenStart : Obligations.StepStopsOnlyOnForbiddenStart :=
  ⟨fun _ => step_next, fun _ => step_start_busy, fun _ _ => exec_hostop_busy, fun _ _ => exec_command_idle⟩

end Sys2Proof.Machine
end

section
/-! What an operation leaves as it is. Every meaning is a `Flow`; the rules say which states it reaches, once for each
shared operation, each engine's start and each command. The statements about the registers, the inputs, the frame of a
command and the circular buffer are read off them. -/

namespace Sys2Proof

theorem ofSel_sel (c : Codec) : Codec.ofSel c.sel = c := by cases c <;> rfl

theorem decodeHostop_of_hostopOf {i : Instr} {c : Codec} {op : BitVec 3} (h : hostopOf i = some (c, op)) :
    decodeHostop c.sel op = i := by
  cases i <;> cases h <;> simp [decodeHostop, ofSel_sel]

/-- Settles O1: the two registers are read and written by the same numbers. -/
theorem hostopWordsAgree : Obligations.HostopWordsAgree :=
  ⟨fun _ _ _ => decodeHostop_of_hostopOf, hostopOf_decodeHostop, ofSel_sel⟩

end Sys2Proof

namespace Sys2Proof.Machine

/-! ## States an operation reaches -/

/-- The operation goes on in a state of `R`, or has ended in a state of `E`. -/
def Flow.Reaches (R E : State → Prop) : Flow → Prop
  | .cont s => R s
  | .ended s => E s

section
variable {R R' E : State → Prop} {s : State}

theorem Flow.Reaches.andThen {f : Flow} {k : State → Flow} (hf : f.Reaches R E)
    (hk : ∀ t, R t → (k t).Reaches R' E) : (f.andThen k).Reaches R' E := by
  cases f with
  | cont t => exact hk t hf
  | ended t => exact hf

theorem Flow.Reaches.mono {f : Flow} (hf : f.Reaches R E) (h : ∀ t, R t → R' t) : f.Reaches R' E := by
  cases f with
  | cont t => exact h t hf
  | ended t => exact hf

theorem Flow.Reaches.state {f : Flow} (hf : f.Reaches R E) : R f.state ∨ E f.state := by
  cases f with
  | cont t => exact .inl hf
  | ended t => exact .inr hf

/-! An invariant of one byte's transfer is one of the loop over it. -/

theorem emit_reaches {b : Byte} (hr : R (emitted [b] s)) (he : E (fail .outputOverrun s)) :
    (emit b s).Reaches R E := by
  rcases Nat.lt_or_ge s.ctx.dp s.ctx.ulen with h | h
  · rw [emit_of_lt h]; exact hr
  · rw [emit_of_ge h]; exact he

theorem lzEmit_reaches {b : Byte} (hr : R (lzEmitRaw b s)) (he : E (failLz .outputOverrun .copy s)) :
    (lzEmit b s).Reaches R E := by
  rcases Nat.lt_or_ge s.ctx.dp s.outLimit.toNat with h | h
  · rw [lzEmit_of_lt h]; exact hr
  · rw [lzEmit_of_ge h]; exact he

theorem fetchByte_reaches {k : Byte → State → Flow} (hk : ∀ b, (k b (fetched 1 s)).Reaches R E)
    (he : E (fail .truncated s)) : (fetchByte s k).Reaches R E := by
  rcases Nat.lt_or_ge s.ctx.sp s.srcLen.toNat with h | h
  · rw [fetchByte_of_lt k h]; exact hk _
  · rw [fetchByte_of_ge k h]; exact he

theorem lits_reaches (hfetch : ∀ s, R s → R (fetched 1 s)) (hend : ∀ s, R s → E (fail .truncated s))
    (hemit : ∀ b s, R s → (emit b s).Reaches R E) (n : Nat) (h : R s) : (lits n s).Reaches R E := by
  induction n generalizing s with
  | zero => exact h
  | succ n ih => exact fetchByte_reaches (fun b => (hemit b _ (hfetch s h)).andThen fun _ => ih) (hend s h)

theorem copyLoop_reaches (hemit : ∀ b s, R s → (emit b s).Reaches R E) (D n : Nat) (h : R s) :
    (copyLoop D n s).Reaches R E := by
  induction n generalizing s with
  | zero => exact h
  | succ n ih => exact (hemit _ s h).andThen fun _ => ih

theorem emitRun_reaches (hemit : ∀ b s, R s → (emit b s).Reaches R E) (b : Byte) (n : Nat) (h : R s) :
    (emitRun b n s).Reaches R E := by
  induction n generalizing s with
  | zero => exact h
  | succ n ih => exact (hemit b s h).andThen fun _ => ih

theorem btExpand_reaches (hstack : ∀ st s, R s → R (setBtStack st s)) (hend : ∀ s, R s → E (fail .stackOverflow s))
    (hemit : ∀ b s, R s → (emit b s).Reaches R E) (n : Nat) (h : R s) : (btExpand n s).Reaches R E := by
  induction n generalizing s with
  | zero => exact h
  | succ n ih =>
    unfold btExpand
    split
    · exact h
    · split_ifs
      · exact hend _ (hstack _ s h)
      · exact ih (hstack _ s h)
      · exact (hemit _ _ (hstack _ s h)).andThen fun _ => ih

theorem lzCopy_reaches (hemit : ∀ b s, R s → (lzEmit b s).Reaches R E) (D n : Nat) (h : R s) :
    (lzCopy D n s).Reaches R E := by
  induction n generalizing s with
  | zero => exact h
  | succ n ih => exact (hemit _ s h).andThen fun _ => ih

theorem lzMatch_reaches (hend : ∀ s, R s → E (failLz .badDistance .disp s))
    (hemit : ∀ b s, R s → (lzEmit b s).Reaches R E) (L D : Nat) (h : R s) : (lzMatch L D s).Reaches R E := by
  unfold lzMatch
  split_ifs
  · exact hend s h
  · exact lzCopy_reaches hemit D L h

/-! What a started operation and a running command answer. -/

theorem hostOp_next {c : Codec} {op : BitVec 3} {t : State} {f : State → Flow} (h : hostOp c op s f = .next t)
    (hf : (f (beginOp c op s)).Reaches R E) : s.busy = false ∧ (R t ∨ E t) := by
  obtain ⟨hb, rfl⟩ := (hostOp_next_iff c op s t f).1 h
  exact ⟨hb, hf.state⟩

theorem streamOp_next {c : Codec} {t : State} {f : State → Flow} (h : streamOp c s f = .next t)
    (hf : (f s).Reaches R E) : s.decoding c = true ∧ (R t ∨ E t) := by
  obtain ⟨hd, rfl⟩ := (streamOp_next_iff c s t f).1 h
  exact ⟨hd, hf.state⟩

end

/-! ## The end of an operation -/

/-- The operation under way has changed only `DST`, its context and the count of free values. -/
def WorkingOn (s t : State) : Prop := ∃ m x k, t = { s with dst := m, ctx := x, freeCount := k }

/-- What an operation under way can end in: a failure with a cause, or a success. -/
inductive EndedFrom (s : State) : State → Prop
  | raised {c : Cause} {u : State} (d : Diag) (hc : c ≠ .none) (hu : WorkingOn s u) : EndedFrom s (raise c d u)
  | finished {u : State} (hu : WorkingOn s u) : EndedFrom s (finish u)
  | answered {u : State} (v : Nat) (hu : WorkingOn s u) : EndedFrom s (finishResult v u)

theorem WorkingOn.refl (s : State) : WorkingOn s s := ⟨_, _, _, rfl⟩

theorem WorkingOn.trans {s t u : State} (h : WorkingOn s t) (h' : WorkingOn t u) : WorkingOn s u := by
  obtain ⟨_, _, _, rfl⟩ := h
  obtain ⟨_, _, _, rfl⟩ := h'
  exact ⟨_, _, _, rfl⟩

theorem WorkingOn.op {s t : State} (h : WorkingOn s t) : t.op = s.op := by
  obtain ⟨_, _, _, rfl⟩ := h
  rfl

theorem WorkingOn.codecSel {s t : State} (h : WorkingOn s t) : t.codecSel = s.codecSel := by
  obtain ⟨_, _, _, rfl⟩ := h
  rfl

theorem WorkingOn.withdrawn {s u : State} (h : WorkingOn s u) : WorkingOn s (withdrawDst u) :=
  h.trans ⟨_, _, _, rfl⟩

theorem EndedFrom.fail {s u : State} {c : Cause} (hu : WorkingOn s u) (hc : c ≠ .none) :
    EndedFrom s (fail c u) := .raised _ hc hu.withdrawn

theorem EndedFrom.failLz {s u : State} {c : Cause} (st : Stage) (hu : WorkingOn s u) (hc : c ≠ .none) :
    EndedFrom s (failLz c st u) := .raised _ hc hu.withdrawn

theorem EndedFrom.of_workingOn {s u t : State} (hu : WorkingOn s u) (h : EndedFrom u t) : EndedFrom s t := by
  cases h with
  | raised d hc hv => exact .raised d hc (hu.trans hv)
  | finished hv => exact .finished (hu.trans hv)
  | answered v hv => exact .answered v (hu.trans hv)

theorem EndedFrom.busy {s t : State} (h : EndedFrom s t) : t.busy = false := by cases h <;> rfl

theorem ofReject_ne_none (e : Reject) : Cause.ofReject e ≠ .none := by cases e <;> decide

/-! ## The start of an operation -/

/-- A `DECODE` has read on in its header and tables: no byte is put out. -/
def NothingPutOut (b t : State) : Prop :=
  ∃ x : Ctx, t = { b with ctx := x } ∧ x.dp = b.ctx.dp ∧ x.lz.wp = b.ctx.lz.wp

theorem NothingPutOut.workingOn {b t : State} (h : NothingPutOut b t) : WorkingOn b t := by
  obtain ⟨x, rfl, -, -⟩ := h
  exact ⟨_, _, _, rfl⟩

theorem NothingPutOut.refl (b : State) : NothingPutOut b b := ⟨_, rfl, rfl, rfl⟩

theorem NothingPutOut.trans {a b c : State} (h : NothingPutOut a b) (h' : NothingPutOut b c) : NothingPutOut a c := by
  obtain ⟨x, rfl, hdp, hwp⟩ := h
  obtain ⟨y, rfl, hdp', hwp'⟩ := h'
  exact ⟨y, rfl, hdp'.trans hdp, hwp'.trans hwp⟩

/-- Only the cursor, the magic and the length of the header are written. -/
theorem nothingPutOut_header (sp ulen : Nat) (magic : BitVec 16) (s : State) :
    NothingPutOut s { s with ctx := { s.ctx with sp := sp, magic := magic, ulen := ulen } } := ⟨_, rfl, rfl, rfl⟩

theorem nothingPutOut_fetched (n : Nat) (s : State) : NothingPutOut s (fetched n s) := ⟨_, rfl, rfl, rfl⟩

theorem nothingPutOut_setReader (s : State) (r : BitSrc) : NothingPutOut s (s.setReader r) := ⟨_, rfl, rfl, rfl⟩

theorem nothingPutOut_setBtHead (clue count : Byte) (s : State) : NothingPutOut s (setBtHead clue count s) :=
  ⟨_, rfl, rfl, rfl⟩

theorem nothingPutOut_setBtNode (nd l r : Byte) (s : State) : NothingPutOut s (setBtNode nd l r s) :=
  ⟨_, rfl, rfl, rfl⟩

theorem nothingPutOut_setHrTab (t : HrTab) (l : Leap) (s : State) : NothingPutOut s (setHrTab t l s) :=
  ⟨_, rfl, rfl, rfl⟩

theorem nothingPutOut_setLzWidths (ws : List Nat) (s : State) : NothingPutOut s (setLzWidths ws s) :=
  ⟨_, rfl, rfl, rfl⟩

theorem parseHeader_error_ne_none {c : Codec} {m : Memory} {len maxLen : Nat} {cause : Cause} {sp : Nat}
    (h : parseHeader c m len maxLen = .error (cause, sp)) : cause ≠ .none := by
  unfold parseHeader at h
  dsimp only at h
  split at h
  · cases h; decide
  split at h
  · cases h; decide
  split at h
  · cases h; decide
  split at h
  · cases h; decide
  split at h <;> cases h
  decide

section
variable {b s : State}

theorem readHeader_reaches (c : Codec) {k : State → Flow} (h : NothingPutOut b s)
    (hk : ∀ t, NothingPutOut b t → (k t).Reaches (NothingPutOut b) (EndedFrom b)) :
    (readHeader c s k).Reaches (NothingPutOut b) (EndedFrom b) := by
  unfold readHeader
  split
  next cause sp he =>
    exact EndedFrom.fail (h.trans (nothingPutOut_header sp _ _ s)).workingOn (parseHeader_error_ne_none he)
  next => exact hk _ (h.trans (nothingPutOut_header _ _ _ s))

theorem fetchHeaderByte_reaches {k : Byte → State → Flow} (h : NothingPutOut b s)
    (hk : ∀ v t, NothingPutOut b t → (k v t).Reaches (NothingPutOut b) (EndedFrom b)) :
    (fetchByte s k).Reaches (NothingPutOut b) (EndedFrom b) :=
  fetchByte_reaches (fun v => hk v _ (h.trans (nothingPutOut_fetched 1 s))) (.fail h.workingOn (by decide))

theorem loadTriples_reaches (n : Nat) (h : NothingPutOut b s) :
    (loadTriples n s).Reaches (NothingPutOut b) (EndedFrom b) := by
  induction n generalizing s with
  | zero => exact h
  | succ n ih =>
    refine fetchHeaderByte_reaches h fun nd s h => fetchHeaderByte_reaches h fun l s h =>
      fetchHeaderByte_reaches h fun r s h => ?_
    split_ifs
    · exact EndedFrom.fail h.workingOn (by decide)
    · exact ih (h.trans (nothingPutOut_setBtNode nd l r s))

theorem decodeOp_reaches (c : Codec) (b : State) :
    (decodeOp c b).Reaches (NothingPutOut b) (EndedFrom b) := by
  cases c with
  | rp => exact readHeader_reaches .rp (.refl b) fun _ h => h
  | bt =>
    show (decodeBtOp b).Reaches _ _
    exact readHeader_reaches .bt (.refl b) fun s h => fetchHeaderByte_reaches h fun clue s h =>
      fetchHeaderByte_reaches h fun count s h => loadTriples_reaches _ (h.trans (nothingPutOut_setBtHead clue count s))
  | hr =>
    show (decodeHrOp b).Reaches _ _
    refine readHeader_reaches .hr (.refl b) fun s h => ?_
    split
    next tl r _ => exact (h.trans (nothingPutOut_setReader s r)).trans (nothingPutOut_setHrTab tl.1 tl.2 _)
    next e _ r _ => exact EndedFrom.fail (h.trans (nothingPutOut_setReader s r)).workingOn (ofReject_ne_none e)
  | lz =>
    show (decodeLzOp b).Reaches _ _
    unfold decodeLzOp
    split
    next ws r _ => exact (nothingPutOut_setReader b r).trans (nothingPutOut_setLzWidths ws _)
    next e st r _ => exact EndedFrom.failLz st (nothingPutOut_setReader b r).workingOn (ofReject_ne_none e)

end

/-- An encoder's output and its state change only `DST` and the context. -/
theorem workingOn_emitAll (out : List Byte) (x : Ctx) (b : State) :
    WorkingOn b (emitAll out { b with ctx := x }) := by
  rw [emitAll_eq_emitted]
  exact ⟨_, _, _, rfl⟩

theorem encodeOp_ends {R : State → Prop} (c : Codec) (b : State) : (encodeOp c b).Reaches R (EndedFrom b) := by
  cases c with
  | rp => exact EndedFrom.finished (workingOn_emitAll _ _ b)
  | bt =>
    show (encodeBtOp b).Reaches R _
    unfold encodeBtOp
    split_ifs
    · exact EndedFrom.fail (.refl b) (by decide)
    · exact EndedFrom.fail (.refl b) (by decide)
    · exact EndedFrom.finished (workingOn_emitAll _ _ b)
  | hr =>
    show (encodeHrOp b).Reaches R _
    unfold encodeHrOp
    split_ifs
    · exact EndedFrom.fail (.refl b) (by decide)
    · exact EndedFrom.finished (workingOn_emitAll _ _ b)
  | lz => exact EndedFrom.finished (workingOn_emitAll _ _ b)

theorem extractSizeOp_ends (c : Codec) (b : State) : EndedFrom b (extractSizeOp c b) := by
  unfold extractSizeOp
  split
  next cause sp he => exact .raised _ (parseHeader_error_ne_none he) ⟨_, _, _, rfl⟩
  next h _ => exact .answered h.ulen (.refl b)

theorem refuse_ends {c : Cause} (b : State) (hc : c ≠ .none) : EndedFrom b (refuse c b) := .raised _ hc (.refl b)

/-- A started `DECODE` has read its header and tables. -/
def DecodeBegun (b t : State) : Prop := b.op = 4 ∧ NothingPutOut b t

/-- A host operation: it ends within its step, or it is a `DECODE` that has read its header and tables. -/
theorem exec_hostop_next {i : Instr} {c : Codec} {op : BitVec 3} {s t : State} (hi : hostopOf i = some (c, op))
    (h : exec i s = .next t) :
    s.busy = false ∧ (DecodeBegun (beginOp c op s) t ∨ EndedFrom (beginOp c op s) t) := by
  cases i with
  | about c =>
    cases hi
    exact hostOp_next (show execAbout c s = _ from h) (EndedFrom.finished (workingOn_emitAll _ _ (beginOp c 0 s)))
  | isValid c =>
    cases hi
    refine hostOp_next (show execIsValid c s = _ from h) (show EndedFrom _ _ from ?_)
    split_ifs
    · exact refuse_ends _ (by decide)
    · exact .answered _ (.refl _)
  | extractSize c =>
    cases hi
    refine hostOp_next (show execExtractSize c s = _ from h) (show EndedFrom _ _ from ?_)
    split_ifs
    · exact refuse_ends _ (by decide)
    · exact extractSizeOp_ends _ _
  | encode c =>
    cases hi
    refine hostOp_next (show execEncode c s = _ from h) ?_
    split_ifs
    · exact encodeOp_ends _ _
    · exact EndedFrom.fail (.refl _) (by decide)
  | decode c =>
    cases hi
    refine hostOp_next (show execDecode c s = _ from h) ?_
    split_ifs
    · exact (decodeOp_reaches _ _).mono fun _ h => ⟨rfl, h⟩
    · exact EndedFrom.fail (.refl _) (by decide)
  | hostopReserved5 c =>
    cases hi
    exact hostOp_next (show execHostopReserved5 c s = _ from h) (refuse_ends (c := .badOp) _ (by decide))
  | hostopReserved6 c =>
    cases hi
    exact hostOp_next (show execHostopReserved6 c s = _ from h) (refuse_ends (c := .badOp) _ (by decide))
  | hostopReserved7 c =>
    cases hi
    exact hostOp_next (show execHostopReserved7 c s = _ from h) (refuse_ends (c := .badOp) _ (by decide))
  | _ => cases hi

/-! ## The frame of a stream command -/

/-- What a command of engine `c` may change while the operation goes on: `DST` between the old and the new `dp`, the
cursors, and its own engine's registers. -/
structure CommandFrame (c : Codec) (s t : State) : Prop where
  shape : ∃ m sp dp rp st lz, t = { s with
    dst := m
    ctx := { s.ctx with sp := sp, dp := dp, rp := rp, bt := { s.ctx.bt with stack := st }, lz := lz } }
  sp_le : s.ctx.sp ≤ t.ctx.sp
  dp_le : s.ctx.dp ≤ t.ctx.dp
  dst : ∀ a, a < s.ctx.dp ∨ t.ctx.dp ≤ a → t.dst.read a = s.dst.read a
  rp : c ≠ .rp → t.ctx.rp = s.ctx.rp ∧ t.ctx.sp = s.ctx.sp
  bt : c ≠ .bt → t.ctx.bt = s.ctx.bt
  lz : c ≠ .lz → t.ctx.lz = s.ctx.lz

namespace CommandFrame

theorem refl (c : Codec) (s : State) : CommandFrame c s s :=
  ⟨⟨_, _, _, _, _, _, rfl⟩, le_rfl, le_rfl, fun _ _ => rfl, fun _ => ⟨rfl, rfl⟩, fun _ => rfl, fun _ => rfl⟩

theorem trans {c : Codec} {s t u : State} (h : CommandFrame c s t) (h' : CommandFrame c t u) : CommandFrame c s u where
  shape := by
    obtain ⟨_, _, _, _, _, _, rfl⟩ := h.shape
    obtain ⟨_, _, _, _, _, _, rfl⟩ := h'.shape
    exact ⟨_, _, _, _, _, _, rfl⟩
  sp_le := h.sp_le.trans h'.sp_le
  dp_le := h.dp_le.trans h'.dp_le
  dst a ha := by
    have h1 := h.dp_le
    have h2 := h'.dp_le
    rw [h'.dst a (by omega), h.dst a (by omega)]
  rp hc := ⟨(h'.rp hc).1.trans (h.rp hc).1, (h'.rp hc).2.trans (h.rp hc).2⟩
  bt hc := (h'.bt hc).trans (h.bt hc)
  lz hc := (h'.lz hc).trans (h.lz hc)

theorem workingOn {c : Codec} {s t : State} (h : CommandFrame c s t) : WorkingOn s t := by
  obtain ⟨_, _, _, _, _, _, rfl⟩ := h.shape
  exact ⟨_, _, _, rfl⟩

theorem emitted (c : Codec) (out : List Byte) (s : State) : CommandFrame c s (emitted out s) :=
  ⟨⟨_, _, _, _, _, _, rfl⟩, le_rfl, Nat.le_add_right _ _, fun a ha => by
    rcases ha with ha | ha
    · exact Memory.read_writeList_of_lt _ out ha
    · exact Memory.read_writeList_of_ge _ out ha, fun _ => ⟨rfl, rfl⟩, fun _ => rfl, fun _ => rfl⟩

theorem fetched (n : Nat) (s : State) : CommandFrame .rp s (fetched n s) :=
  ⟨⟨_, _, _, _, _, _, rfl⟩, Nat.le_add_right _ _, le_rfl, fun _ _ => rfl, nofun, fun _ => rfl, fun _ => rfl⟩

theorem setRpFields (P L D : Nat) (s : State) : CommandFrame .rp s (setRpFields P L D s) :=
  ⟨⟨_, _, _, _, _, _, rfl⟩, le_rfl, le_rfl, fun _ _ => rfl, nofun, fun _ => rfl, fun _ => rfl⟩

theorem setRpCount (P : Nat) (s : State) : CommandFrame .rp s (setRpCount P s) :=
  ⟨⟨_, _, _, _, _, _, rfl⟩, le_rfl, le_rfl, fun _ _ => rfl, nofun, fun _ => rfl, fun _ => rfl⟩

theorem setBtStack (st : List Byte) (s : State) : CommandFrame .bt s (setBtStack st s) :=
  ⟨⟨_, _, _, _, _, _, rfl⟩, le_rfl, le_rfl, fun _ _ => rfl, fun _ => ⟨rfl, rfl⟩, nofun, fun _ => rfl⟩

theorem lzEmitRaw (b : Byte) (s : State) : CommandFrame .lz s (lzEmitRaw b s) :=
  ⟨⟨_, _, _, _, _, _, rfl⟩, le_rfl, Nat.le_succ _, fun a ha => Memory.read_write_other _ b (by
    have : (Machine.lzEmitRaw b s).ctx.dp = s.ctx.dp + 1 := rfl
    omega), fun _ => ⟨rfl, rfl⟩, fun _ => rfl, nofun⟩

theorem lzRecalc (ws : List Nat) (s : State) : CommandFrame .lz s (setLzWidths ws (lzRecalcOrder s)) :=
  ⟨⟨_, _, _, _, _, _, rfl⟩, le_rfl, le_rfl, fun _ _ => rfl, fun _ => ⟨rfl, rfl⟩, fun _ => rfl, nofun⟩

end CommandFrame

section
variable {c : Codec} {s u : State}

theorem emit_frame (b : Byte) (u : State) (h : CommandFrame c s u) :
    (emit b u).Reaches (CommandFrame c s) (EndedFrom s) :=
  emit_reaches (h.trans (.emitted c [b] u)) (.fail h.workingOn (by decide))

theorem lzEmit_frame (b : Byte) (u : State) (h : CommandFrame .lz s u) :
    (lzEmit b u).Reaches (CommandFrame .lz s) (EndedFrom s) :=
  lzEmit_reaches (h.trans (.lzEmitRaw b u)) (.failLz _ h.workingOn (by decide))

theorem lits_frame (P : Nat) (h : CommandFrame .rp s u) :
    (lits P u).Reaches (CommandFrame .rp s) (EndedFrom s) :=
  lits_reaches (fun v h => h.trans (.fetched 1 v)) (fun _ h => .fail h.workingOn (by decide)) emit_frame P h

theorem copy_frame (L D : Nat) (h : CommandFrame c s u) :
    (copy L D u).Reaches (CommandFrame c s) (EndedFrom s) := by
  unfold copy
  split_ifs
  · exact EndedFrom.fail h.workingOn (by decide)
  · exact copyLoop_reaches emit_frame D L h

theorem rpMatch_frame (P L D : Nat) (s : State) : (rpMatch P L D s).Reaches (CommandFrame .rp s) (EndedFrom s) :=
  (lits_frame P (.setRpFields P L D s)).andThen fun _ => copy_frame L D

theorem hrRun_frame (k : Nat) (s : State) : (hrRunOp k s).Reaches (CommandFrame .hr s) (EndedFrom s) := by
  unfold hrRunOp
  split_ifs
  · exact EndedFrom.fail (.refl s) (by decide)
  · exact emitRun_reaches emit_frame _ k (.refl _ s)

theorem btExpandNode_frame (b : Byte) (s : State) :
    (btExpandNode b s).Reaches (CommandFrame .bt s) (EndedFrom s) :=
  btExpand_reaches (fun st v h => h.trans (.setBtStack st v)) (fun _ h => .fail h.workingOn (by decide)) emit_frame _
    (.setBtStack [b] s)

theorem lzMatch_frame (L D : Nat) (s : State) : (lzMatch L D s).Reaches (CommandFrame .lz s) (EndedFrom s) :=
  lzMatch_reaches (fun _ h => .failLz _ h.workingOn (by decide)) lzEmit_frame L D (.refl _ s)

theorem endHeaded_ends {R : State → Prop} {k : State → Flow} (h : WorkingOn s u)
    (hk : (k u).Reaches R (EndedFrom s)) : (endHeaded u k).Reaches R (EndedFrom s) := by
  unfold endHeaded
  split_ifs
  · exact hk
  · exact EndedFrom.fail h (by decide)

end

/-- A stream command: it belongs to a running `DECODE` of its engine, and keeps the frame or ends the operation. -/
theorem exec_command_next {i : Instr} {s t : State} (hi : hostopOf i = none) (h : exec i s = .next t) :
    s.decoding i.engine = true ∧ (CommandFrame i.engine s t ∨ EndedFrom s t) := by
  cases i with
  | rpShort P L D => exact streamOp_next h (rpMatch_frame P L D s)
  | rpInt P L D => exact streamOp_next h (rpMatch_frame P L D s)
  | rpLong P L D => exact streamOp_next h (rpMatch_frame P L D s)
  | rpLiteral P => exact streamOp_next (show execRpLiteral P s = _ from h) (lits_frame P (.setRpCount P s))
  | rpEof P =>
    exact streamOp_next (show execRpEof P s = _ from h) ((lits_frame P (.setRpCount P s)).andThen fun _ h =>
      endHeaded_ends h.workingOn (EndedFrom.finished h.workingOn))
  | btLeaf b => exact streamOp_next h (emit_frame b s (.refl _ s))
  | btNode b => exact streamOp_next h (btExpandNode_frame b s)
  | btEsc _ e => exact streamOp_next h (emit_frame e s (.refl _ s))
  | btEnd b =>
    exact streamOp_next (show execBtEnd b s = _ from h) (endHeaded_ends (.refl s) (EndedFrom.finished (.refl s)))
  | hrLit b => exact streamOp_next h (emit_frame b s (.refl _ s))
  | hrRun k => exact streamOp_next h (hrRun_frame k s)
  | hrEsc b => exact streamOp_next h (emit_frame b s (.refl _ s))
  | hrEof =>
    exact streamOp_next (show execHrEof s = _ from h) (endHeaded_ends (.refl s) (EndedFrom.finished ⟨_, _, _, rfl⟩))
  | lzLit b => exact streamOp_next h (lzEmit_frame b s (.refl _ s))
  | lzMatchS L D => exact streamOp_next h (lzMatch_frame L D s)
  | lzMatchX L D => exact streamOp_next h (lzMatch_frame L D s)
  | lzRecalc ws => exact streamOp_next (show execLzRecalc ws s = _ from h) (CommandFrame.lzRecalc ws s)
  | lzEof => exact streamOp_next (show execLzEof s = _ from h) (EndedFrom.finished (.refl s))
  | _ => cases hi

theorem codecSel_of_decoding {c : Codec} {s : State} (h : s.decoding c = true) : s.codecSel = c.sel := by
  simp only [State.decoding, Bool.and_eq_true, decide_eq_true_eq] at h
  exact h.1.2

/-- Settles O48: the frame of each engine's commands, with the engine known by `CODEC_SEL`. -/
theorem streamCommandFrame : Obligations.StreamCommandFrame := by
  intro i s t h hi hb
  obtain ⟨hd, hf | he⟩ := exec_command_next hi h
  · have hsel := codecSel_of_decoding hd
    have hne : ∀ c : Codec, s.codecSel ≠ c.sel → i.engine ≠ c := fun c hc he => hc (he ▸ hsel)
    obtain ⟨_, _, _, _, _, _, rfl⟩ := hf.shape
    exact ⟨rfl, hf.sp_le, hf.dp_le, hf.dst, rfl, rfl, rfl, rfl, rfl, rfl, rfl, rfl, fun h => hf.rp (hne .rp h), rfl,
      fun h => hf.bt (hne .bt h), fun h => hf.lz (hne .lz h)⟩
  · simp [he.busy] at hb

/-! ## What a step can do -/

/-- A failed fetch ends the operation. -/
def Fetched.EndsFrom (s : State) (f : Fetched) : Prop := ∀ t, f = .ended t → EndedFrom s t

theorem fetchCommand_endsFrom (s : State) : (fetchCommand s).EndsFrom s := by
  have hfail : ∀ e r, EndedFrom s (fail (Cause.ofReject e) (s.setReader r)) := fun e r =>
    .fail (nothingPutOut_setReader s r).workingOn (ofReject_ne_none e)
  unfold fetchCommand
  cases Codec.ofSel s.codecSel with
  | rp =>
    dsimp only [fetchRp]
    split
    next => rintro _ ⟨⟩
    next e _ r _ => rintro _ ⟨⟩; exact hfail e r
  | bt =>
    dsimp only [fetchBt]
    split
    next => rintro _ ⟨⟩
    next e _ r _ => rintro _ ⟨⟩; exact hfail e r
  | hr =>
    dsimp only [fetchHr]
    split
    next => rintro _ ⟨⟩
    next e _ r _ => rintro _ ⟨⟩; exact hfail e r
  | lz =>
    dsimp only [fetchLz]
    split
    next e st r _ => rintro _ ⟨⟩; exact .failLz st ⟨_, _, _, rfl⟩ (ofReject_ne_none e)
    next =>
      split
      next e st r _ => rintro _ ⟨⟩; exact .failLz st ⟨_, _, _, rfl⟩ (ofReject_ne_none e)
      next => rintro _ ⟨⟩

theorem fetchCommand_workingOn {s u : State} {i : Instr} (h : fetchCommand s = .instr i u) : WorkingOn s u := by
  obtain ⟨-, x, rfl⟩ := fetchCommand_command s i u h
  exact ⟨_, _, _, rfl⟩

/-- With `BUSY`, a step answers only in a `DECODE` (log 9). -/
theorem step_busy_op {s t : State} (hs : s.start = false) (hb : s.busy = true) (h : step s = .next t) : s.op = 4 := by
  by_contra ho
  simp only [step, sequence, hs, hb, Bool.false_eq_true, if_true, if_false, if_neg ho] at h
  cases h

/-- A step that answers starts the host operation of an idle block, runs a fetched command of the running `DECODE` or ends
it, or leaves an idle block alone. -/
theorem step_cases {s t : State} (h : step s = .next t) :
    (s.busy = false ∧ (DecodeBegun (beginOp (Codec.ofSel s.codecSel) s.op s) t ∨
      EndedFrom (beginOp (Codec.ofSel s.codecSel) s.op s) t)) ∨
    (s.busy = true ∧ s.op = 4 ∧ (EndedFrom s t ∨
      ∃ i u, fetchCommand s = .instr i u ∧ exec i u = .next t ∧ CommandFrame i.engine u t)) ∨
    (s.busy = false ∧ t = s) := by
  cases hs : s.start with
  | true =>
    rw [step_start hs] at h
    exact .inl (exec_hostop_next (hostopOf_decodeHostop _ _) h)
  | false =>
    cases hb : s.busy with
    | false =>
      rw [step_idle hs hb] at h
      cases h
      exact .inr (.inr ⟨rfl, rfl⟩)
    | true =>
      have ho := step_busy_op hs hb h
      rw [step_busy hs hb ho] at h
      refine .inr (.inl ⟨rfl, ho, ?_⟩)
      cases hf : fetchCommand s with
      | ended u =>
        rw [hf] at h
        cases h
        exact .inl (fetchCommand_endsFrom s _ hf)
      | instr i u =>
        rw [hf] at h
        obtain ⟨⟨hi, -⟩, -⟩ := fetchCommand_command s i u hf
        obtain ⟨-, hc | he⟩ := exec_command_next hi h
        · exact .inr ⟨i, u, rfl, h, hc⟩
        · exact .inl (.of_workingOn (fetchCommand_workingOn hf) he)

/-- The state whose operation a step runs: the block itself while it is busy, else the block with the operation
started. -/
def AtWork (s b : State) : Prop :=
  s.busy = true ∧ b = s ∨ s.busy = false ∧ b = beginOp (Codec.ofSel s.codecSel) s.op s

/-- What `step_cases` says of the registers alone. -/
theorem step_runs {s t : State} (h : step s = .next t) :
    (s.busy = false ∧ t = s) ∨ ∃ b, AtWork s b ∧ (b.op = 4 ∧ WorkingOn b t ∨ EndedFrom b t) := by
  obtain ⟨hb, ⟨ho, hd⟩ | he⟩ | ⟨hb, ho, he | ⟨i, u, hf, -, hc⟩⟩ | hidle := step_cases h
  · exact .inr ⟨_, .inr ⟨hb, rfl⟩, .inl ⟨ho, hd.workingOn⟩⟩
  · exact .inr ⟨_, .inr ⟨hb, rfl⟩, .inr he⟩
  · exact .inr ⟨s, .inl ⟨hb, rfl⟩, .inr he⟩
  · exact .inr ⟨s, .inl ⟨hb, rfl⟩, .inl ⟨ho, (fetchCommand_workingOn hf).trans hc.workingOn⟩⟩
  · exact .inl hidle

/-! ## The inputs -/

theorem WorkingOn.inputsKept {s t : State} (h : WorkingOn s t) : InputsKept s t := by
  obtain ⟨_, _, _, rfl⟩ := h
  exact ⟨rfl, rfl, rfl, rfl, rfl, rfl⟩

theorem EndedFrom.inputsKept {s t : State} (h : EndedFrom s t) : InputsKept s t := by
  cases h with
  | raised _ _ hu => exact hu.inputsKept
  | finished hu => exact hu.inputsKept
  | answered _ hu => exact hu.inputsKept

theorem AtWork.inputsKept {s b t : State} (h : AtWork s b) (hk : InputsKept b t) : InputsKept s t := by
  obtain ⟨-, rfl⟩ | ⟨-, rfl⟩ := h
  · exact hk
  · exact hk

theorem step_inputsKept {s t : State} (h : step s = .next t) : InputsKept s t := by
  obtain ⟨-, rfl⟩ | ⟨b, hb, ⟨-, hw⟩ | he⟩ := step_runs h
  · exact (WorkingOn.refl t).inputsKept
  · exact hb.inputsKept hw.inputsKept
  · exact hb.inputsKept he.inputsKept

theorem exec_inputsKept {i : Instr} {s t : State} (h : exec i s = .next t) : InputsKept s t := by
  cases hi : hostopOf i with
  | none =>
    obtain ⟨-, hf | he⟩ := exec_command_next hi h
    · exact hf.workingOn.inputsKept
    · exact he.inputsKept
  | some w =>
    obtain ⟨-, ⟨-, hd⟩ | he⟩ := exec_hostop_next hi h
    · exact hd.workingOn.inputsKept
    · exact he.inputsKept

/-- Settles O47: an operation writes `DST`, its context and the outcome registers alone. -/
theorem nothingWritesTheInputs : Obligations.NothingWritesTheInputs :=
  ⟨fun _ _ => step_inputsKept, fun _ _ _ => exec_inputsKept⟩

/-! ## The outcome registers -/

/-- The outcome registers of a running operation (40 R180). -/
structure OutcomeClear (s : State) : Prop where
  busy : s.busy = true
  done : s.done = false
  status : s.status = .ok
  cause : s.cause = .none
  result : s.result = 0
  dstLen : s.dstLen = 0
  diag : s.diag = Diag.zero

theorem outcomeClear_beginOp (c : Codec) (op : BitVec 3) (s : State) : OutcomeClear (beginOp c op s) :=
  ⟨rfl, rfl, rfl, rfl, rfl, rfl, rfl⟩

theorem RegistersConsistent.outcomeClear {s : State} (h : RegistersConsistent s) (hb : s.busy = true) :
    OutcomeClear s := by
  obtain ⟨hrun, -, hstatus, -, hdiag⟩ := h
  obtain ⟨-, hdone, hcause, hresult, hdstLen⟩ := hrun hb
  have hok : s.status = .ok := by rw [hstatus, hcause]; rfl
  exact ⟨hb, hdone, hok, hcause, hresult, hdstLen, hdiag hok⟩

theorem AtWork.outcomeClear {s b : State} (h : AtWork s b) (hs : RegistersConsistent s) : OutcomeClear b := by
  obtain ⟨hb, rfl⟩ | ⟨-, rfl⟩ := h
  · exact hs.outcomeClear hb
  · exact outcomeClear_beginOp _ _ s

theorem OutcomeClear.workingOn {s t : State} (h : OutcomeClear s) (hw : WorkingOn s t) : OutcomeClear t := by
  obtain ⟨_, _, _, rfl⟩ := hw
  exact ⟨h.busy, h.done, h.status, h.cause, h.result, h.dstLen, h.diag⟩

theorem OutcomeClear.registersConsistent {s : State} (h : OutcomeClear s) (ho : s.op = 4) : RegistersConsistent s :=
  ⟨fun _ => ⟨ho, h.done, h.cause, h.result, h.dstLen⟩, fun hb => absurd h.busy (by simp [hb]),
    by rw [h.status, h.cause]; rfl, fun hne => absurd h.status hne, fun _ => h.diag⟩

theorem status_ne_ok {c : Cause} (h : c ≠ .none) : c.status ≠ .ok := by
  cases c with
  | none => exact absurd rfl h
  | _ => decide

theorem EndedFrom.registersConsistent {s t : State} (hs : OutcomeClear s) (h : EndedFrom s t) :
    RegistersConsistent t := by
  cases h with
  | raised d hc hu => exact ⟨nofun, fun _ => rfl, rfl, fun _ => ⟨rfl, rfl⟩, fun hok => absurd hok (status_ne_ok hc)⟩
  | finished hu =>
    have hu := hs.workingOn hu
    exact ⟨nofun, fun _ => rfl, by rw [finish_cause, hu.cause]; rfl, fun hne => absurd rfl hne, fun _ => hu.diag⟩
  | answered v hu =>
    have hu := hs.workingOn hu
    exact ⟨nofun, fun _ => rfl, by rw [finishResult_cause, hu.cause]; rfl, fun hne => absurd rfl hne,
      fun _ => hu.diag⟩

/-- Settles O43: an operation starts and goes on with clear registers, and `raise`, `finish` and `finishResult` write
them together. -/
theorem stepKeepsRegistersConsistent : Obligations.StepKeepsRegistersConsistent := by
  intro s t hs h
  obtain ⟨-, rfl⟩ | ⟨b, hb, ⟨ho, hw⟩ | he⟩ := step_runs h
  · exact hs
  · exact ((hb.outcomeClear hs).workingOn hw).registersConsistent (hw.op.trans ho)
  · exact he.registersConsistent (hb.outcomeClear hs)

/-! ## The circular buffer -/

/-- The last `LZ_SIZE` bytes of the output stand in the circular buffer (46 R436). -/
def Mirrored (s : State) : Prop :=
  s.ctx.lz.wp = s.ctx.dp ∧
    ∀ d, 1 ≤ d → d ≤ s.ctx.lz.wp → d ≤ s.params.lzSize →
      s.ctx.lz.cbuf.read ((s.ctx.lz.wp - d) % s.params.lzSize) = s.dst.read (s.ctx.dp - d)

theorem bufferMirrors_iff (s : State) :
    BufferMirrors s ↔ (s.busy = true → s.codecSel = 3 → Mirrored s) := Iff.rfl

/-- Positions fewer than `n` apart have different places in a buffer of `n`. -/
theorem sub_mod_ne {w d n : Nat} (h1 : 1 ≤ d) (h2 : d ≤ w) (h3 : d < n) : (w - d) % n ≠ w % n := by
  intro h
  have hdvd : n ∣ w - (w - d) := (Nat.modEq_iff_dvd' (Nat.sub_le w d)).1 h
  have : n ≤ d := Nat.le_of_dvd h1 (by rwa [Nat.sub_sub_self h2] at hdvd)
  omega

/-- One byte goes to the same place of both: the byte at distance 1 is the new one, and the places of the others, fewer
than `LZ_SIZE` behind, are not overwritten (46 R431). -/
theorem Mirrored.lzEmitRaw {s : State} (h : Mirrored s) (b : Byte) : Mirrored (lzEmitRaw b s) := by
  obtain ⟨hwp, hread⟩ := h
  refine ⟨congrArg (· + 1) hwp, fun d h1 h2 h3 => ?_⟩
  change d ≤ s.ctx.lz.wp + 1 at h2
  change d ≤ s.params.lzSize at h3
  show (s.ctx.lz.cbuf.write (s.ctx.lz.wp % s.params.lzSize) b).read ((s.ctx.lz.wp + 1 - d) % s.params.lzSize) =
    (s.dst.write s.ctx.dp b).read (s.ctx.dp + 1 - d)
  obtain ⟨e, rfl⟩ : ∃ e, d = e + 1 := ⟨d - 1, by omega⟩
  rw [Nat.add_sub_add_right, Nat.add_sub_add_right]
  rcases Nat.eq_zero_or_pos e with rfl | he
  · rw [Nat.sub_zero, Nat.sub_zero, Memory.read_write_same, Memory.read_write_same]
  · rw [Memory.read_write_other _ _ (sub_mod_ne he (by omega) (by omega)),
      Memory.read_write_other _ _ (by omega), hread e he (by omega) (by omega)]

/-- A started `DECODE` has put nothing out, so there is nothing to mirror. -/
theorem DecodeBegun.mirrored {c : Codec} {op : BitVec 3} {s t : State} (h : DecodeBegun (beginOp c op s) t) :
    Mirrored t := by
  obtain ⟨-, x, rfl, hdp, hwp⟩ := h
  change x.dp = 0 at hdp
  change x.lz.wp = 0 at hwp
  refine ⟨hwp.trans hdp.symm, fun d h1 h2 _ => ?_⟩
  change d ≤ x.lz.wp at h2
  omega

theorem fetchLz_mirrored {s u : State} {i : Instr} (hf : fetchLz s = .instr i u) (h : Mirrored s) : Mirrored u := by
  unfold fetchLz at hf
  split at hf
  · cases hf
  · split at hf
    · cases hf
    · cases hf; exact h

theorem lzEmit_mirrored (b : Byte) (s : State) (h : Mirrored s) :
    (lzEmit b s).Reaches Mirrored fun t => t.busy = false :=
  lzEmit_reaches (h.lzEmitRaw b) rfl

theorem lzMatch_mirrored (L D : Nat) {s : State} (h : Mirrored s) :
    (lzMatch L D s).Reaches Mirrored fun t => t.busy = false :=
  lzMatch_reaches (fun _ _ => rfl) lzEmit_mirrored L D h

theorem exec_lz_mirrored {i : Instr} {s t : State} (hi : IsCommand .lz i) (hs : Mirrored s)
    (h : exec i s = .next t) (hb : t.busy = true) : Mirrored t := by
  suffices Mirrored t ∨ t.busy = false from this.resolve_right (by simp [hb])
  obtain ⟨hc, he⟩ := hi
  cases i with
  | lzLit b => exact (streamOp_next h (lzEmit_mirrored b s hs)).2
  | lzMatchS L D => exact (streamOp_next h (lzMatch_mirrored L D hs)).2
  | lzMatchX L D => exact (streamOp_next h (lzMatch_mirrored L D hs)).2
  | lzRecalc ws =>
    exact (streamOp_next (R := Mirrored) (E := fun t => t.busy = false) (show execLzRecalc ws s = _ from h) hs).2
  | lzEof =>
    exact (streamOp_next (R := Mirrored) (E := fun t => t.busy = false) (show execLzEof s = _ from h) rfl).2
  | _ => cases he <;> cases hc

/-- Settles O46: a started `DECODE` has nothing to mirror, a fetch leaves buffer and output, and a LightZhl command puts
each byte into both. -/
theorem stepKeepsBufferMirroring : Obligations.StepKeepsBufferMirroring := by
  intro s t hs h
  rw [bufferMirrors_iff] at hs ⊢
  intro hb hsel
  obtain ⟨-, hd | he⟩ | ⟨hbs, -, he | ⟨i, u, hf, hx, hc⟩⟩ | ⟨-, rfl⟩ := step_cases h
  · exact hd.mirrored
  · simp [he.busy] at hb
  · simp [he.busy] at hb
  · have hi := (fetchCommand_command s i u hf).1
    have hst : s.codecSel = 3 := ((fetchCommand_workingOn hf).trans hc.workingOn).codecSel.symm.trans hsel
    have hlz : Codec.ofSel s.codecSel = .lz := by rw [hst]; rfl
    rw [hlz] at hi
    have hf : fetchLz s = .instr i u := by rw [← hf, fetchCommand, hlz]
    exact exec_lz_mirrored hi (fetchLz_mirrored hf (hs hbs hst)) hx hb
  · exact hs hb hsel

/-! ## ABOUT -/

/-- A success whose output starts at the beginning of `DST`. -/
theorem endedWith_finish_emitted {b : State} (h : OutcomeClear b) (hdp : b.ctx.dp = 0) (out : List Byte) :
    EndedWith out (finish (emitted out b)) := by
  refine ⟨rfl, rfl, rfl, h.cause, h.result, h.diag, ?_, ?_⟩
  · rw [finish_dstLen, emitted_ctx_dp, hdp, Nat.zero_add]
  · rw [finish_dst, emitted_dst, hdp, Memory.bytesFrom_writeList]

theorem toByte_div_eq_extractLsb' (v : Word) (k : Nat) : toByte (v.toNat / 256 ^ k) = v.extractLsb' (8 * k) 8 := by
  apply BitVec.eq_of_toNat_eq
  rw [toByte, BitVec.toNat_ofNat, BitVec.extractLsb'_toNat, Nat.shiftRight_eq_div_pow, Nat.pow_mul]

/-- The bytes of a word, most significant first (41 R211). -/
theorem putBe_four_toNat (v : Word) :
    putBe 4 v.toNat = [v.extractLsb' 24 8, v.extractLsb' 16 8, v.extractLsb' 8 8, v.extractLsb' 0 8] := by
  simp only [putBe, toByte_div_eq_extractLsb']

/-- The layout of 40 R181 has eleven bytes beside the names. -/
theorem length_descBytes (d : Descriptor) :
    (descBytes d).length = 11 + d.shortName.length + d.longName.length := by
  simp [descBytes, putBe]
  omega

theorem exec_about {c : Codec} {s : State} (h : s.busy = false) :
    exec (.about c) s = .next (finish (emitted (descBytes (s.desc.of c)) (beginOp c 0 s))) := by
  rw [← emitAll_eq_emitted]
  show execAbout c s = _
  exact hostOp_idle _ h

/-- Settles O16: `ABOUT` emits the descriptor from `DST[0]` on. -/
theorem aboutWritesDescriptor : Obligations.AboutWritesDescriptor := by
  intro c s hb d out
  have hout : out = descBytes d := by
    simp [descBytes, out, putBe_four_toNat, descFlags, toByte, Nat.mul_comm]
  clear_value out
  subst hout
  refine ⟨_, exec_about hb, endedWith_finish_emitted (outcomeClear_beginOp c 0 s) rfl _, ⟨rfl, rfl, rfl, rfl, rfl, rfl⟩,
    ?_, rfl, rfl, rfl, rfl, rfl, fun a ha => ?_⟩
  · rw [finish_dstLen, emitted_ctx_dp, beginOp_ctx, fresh_dp, Nat.zero_add, length_descBytes]
  · exact Memory.read_writeList_of_ge _ _ (by simpa using ha)

end Sys2Proof.Machine
end

section
/-! What a reading does to the reader: it takes bytes off the stream, counts them, and between readings holds at most
seven bits. -/

namespace Sys2Proof

/-- At most seven bits are held, and the accumulator holds no others (41 R217). -/
def BitSrc.Held (r : BitSrc) : Prop := r.nacc ≤ 7 ∧ r.acc.toNat < 2 ^ r.nacc

/-- The bytes of the stream, fetched or not. -/
def BitSrc.total (r : BitSrc) : Nat := r.used + r.bytes.length

/-- `r'` stands where a reading from `r` can end. -/
def BitSrc.Follows (r r' : BitSrc) : Prop := r'.total = r.total ∧ (r.Held → r'.Held)

/-- A reading from `r` keeps the stream; where it gives a value it ends between two readings. -/
def Rd.ReadsFrom {α : Type} (r : BitSrc) : Rd α → Prop
  | .ok _ r' => r.Follows r'
  | .err _ _ r' => r'.total = r.total

theorem BitSrc.Follows.refl (r : BitSrc) : r.Follows r := ⟨rfl, id⟩

theorem BitSrc.Follows.trans {a b c : BitSrc} (h : a.Follows b) (h' : b.Follows c) : a.Follows c :=
  ⟨h'.1.trans h.1, h'.2 ∘ h.2⟩

namespace Rd

theorem readsFrom_ok {α : Type} (a : α) (r : BitSrc) : (Rd.ok a r).ReadsFrom r := .refl r

theorem readsFrom_err {α : Type} (e : Reject) (st : Stage) (r : BitSrc) : (Rd.err e st r : Rd α).ReadsFrom r := rfl

theorem ReadsFrom.bind {α β : Type} {r : BitSrc} {x : Rd α} {f : α → BitSrc → Rd β} (hx : x.ReadsFrom r)
    (hf : ∀ a r', (f a r').ReadsFrom r') : (x.bind f).ReadsFrom r := by
  cases x with
  | err e st r' => exact hx
  | ok a r' =>
    have h := hf a r'
    show (f a r').ReadsFrom r
    cases hy : f a r' with
    | ok b r'' => rw [hy] at h; exact BitSrc.Follows.trans hx h
    | err e st r'' => rw [hy] at h; exact h.trans hx.1

end Rd

/-! ## The primitives -/

theorem toNat_lowBits_lt (acc : Word) (n : Nat) : (lowBits acc n).toNat < 2 ^ n := by
  have h : (2 ^ n - 1) % 2 ^ 32 ≤ 2 ^ n - 1 := Nat.mod_le _ _
  have hle : (lowBits acc n).toNat ≤ (2 ^ n - 1) % 2 ^ 32 := by
    rw [lowBits, BitVec.toNat_and, BitVec.toNat_ofNat]
    exact Nat.and_le_right
  have := Nat.two_pow_pos n
  omega

/-- A refill fetches no byte more than it needs. -/
theorem refill_spec (st : Stage) (nb : Nat) (bs : List Byte) (used : Nat) (acc : Word) (nacc : Nat) :
    match refill st nb bs used acc nacc with
    | .ok _ r => r.total = used + bs.length ∧ (nacc ≤ nb + 7 → r.nacc ≤ nb + 7)
    | .err _ _ r => r.total = used + bs.length := by
  induction bs generalizing used acc nacc with
  | nil =>
    unfold refill
    split_ifs
    · exact ⟨rfl, id⟩
    · rfl
  | cons b bs ih =>
    unfold refill
    split_ifs with h
    · exact ⟨rfl, id⟩
    · have := ih (used + 1) ((acc <<< 8) ||| b.setWidth 32) (nacc + 8)
      have hlen : used + 1 + bs.length = used + (b :: bs).length := by simp only [List.length_cons]; omega
      rw [hlen] at this
      split at this
      · exact ⟨this.1, fun _ => this.2 (by omega)⟩
      · exact this

theorem getbits_readsFrom (st : Stage) (nb : Nat) (r : BitSrc) : (getbits st nb r).ReadsFrom r := by
  have h := refill_spec st nb r.bytes r.used r.acc r.nacc
  unfold getbits
  split at h
  next r' heq =>
    rw [heq]
    refine ⟨h.1, fun hr => ⟨?_, toNat_lowBits_lt _ _⟩⟩
    have := h.2 (by have := hr.1; omega)
    show r'.nacc - nb ≤ 7
    omega
  next r' heq => rw [heq]; exact h

theorem getByte_readsFrom (r : BitSrc) : (getByte r).ReadsFrom r := by
  unfold getByte
  split
  next => rfl
  next b bs h =>
    refine ⟨?_, id⟩
    show r.used + 1 + bs.length = r.used + r.bytes.length
    rw [h, List.length_cons]
    omega

theorem countZeros_readsFrom (z k : Nat) (r : BitSrc) : (countZeros z k r).ReadsFrom r := by
  induction k generalizing z r with
  | zero =>
    refine (getbits_readsFrom _ _ r).bind fun b r => ?_
    split_ifs
    · exact Rd.readsFrom_err _ _ r
    · exact Rd.readsFrom_ok _ r
  | succ k ih =>
    refine (getbits_readsFrom _ _ r).bind fun b r => ?_
    split_ifs
    · exact ih _ r
    · exact Rd.readsFrom_ok _ r

theorem appendBits_readsFrom (m k : Nat) (r : BitSrc) : (appendBits m k r).ReadsFrom r := by
  induction k generalizing m r with
  | zero => exact Rd.readsFrom_ok _ r
  | succ k ih => exact (getbits_readsFrom _ _ r).bind fun b r => ih _ r

theorem getnum_readsFrom (r : BitSrc) : (getnum r).ReadsFrom r :=
  (countZeros_readsFrom 0 15 r).bind fun z r => (appendBits_readsFrom 1 z r).bind fun _ r => Rd.readsFrom_ok _ r

/-! ## The words of the four formats -/

theorem decodeRp_readsFrom (r : BitSrc) : (decodeRp r).ReadsFrom r := by
  refine (getByte_readsFrom r).bind fun b0 r => ?_
  dsimp only
  split_ifs
  · exact (getByte_readsFrom r).bind fun _ r => Rd.readsFrom_ok _ r
  · exact (getByte_readsFrom r).bind fun _ r => (getByte_readsFrom r).bind fun _ r => Rd.readsFrom_ok _ r
  · exact (getByte_readsFrom r).bind fun _ r => (getByte_readsFrom r).bind fun _ r =>
      (getByte_readsFrom r).bind fun _ r => Rd.readsFrom_ok _ r
  · exact Rd.readsFrom_ok _ r
  · exact Rd.readsFrom_ok _ r

theorem decodeBt_readsFrom (clue : Byte) (isNode : Sparse Bool) (r : BitSrc) :
    (decodeBt clue isNode r).ReadsFrom r := by
  refine (getByte_readsFrom r).bind fun b r => ?_
  split_ifs
  · refine (getByte_readsFrom r).bind fun e r => ?_
    split_ifs <;> exact Rd.readsFrom_ok _ r
  · exact Rd.readsFrom_ok _ r
  · exact Rd.readsFrom_ok _ r

theorem getsymFrom_readsFrom (syms : List Byte) (ns : List Nat) (code first idx : Nat) (r : BitSrc) :
    (getsymFrom syms ns code first idx r).ReadsFrom r := by
  induction ns generalizing code first idx r with
  | nil => exact Rd.readsFrom_err _ _ r
  | cons n ns ih =>
    refine (getbits_readsFrom _ _ r).bind fun b r => ?_
    dsimp only
    split_ifs
    · exact Rd.readsFrom_ok _ r
    · exact ih _ _ _ r

theorem decodeHr_readsFrom (t : HrTab) (r : BitSrc) : (decodeHr t r).ReadsFrom r := by
  refine (getsymFrom_readsFrom _ _ _ _ _ r).bind fun s r => ?_
  split_ifs
  · exact Rd.readsFrom_ok _ r
  · refine (getnum_readsFrom r).bind fun k r => ?_
    split_ifs
    · exact Rd.readsFrom_ok _ r
    · refine (getbits_readsFrom _ _ r).bind fun b r => ?_
      split_ifs
      · exact Rd.readsFrom_ok _ r
      · exact (getbits_readsFrom _ _ r).bind fun _ r => Rd.readsFrom_ok _ r

theorem getCode_readsFrom (t : LzTab) (r : BitSrc) : (getCode t r).ReadsFrom r := by
  refine (getbits_readsFrom _ _ r).bind fun g r => (getbits_readsFrom _ _ r).bind fun i r => ?_
  split_ifs
  · exact Rd.readsFrom_err _ _ r
  · exact Rd.readsFrom_ok _ r

theorem getDisp_readsFrom (bufBits : Nat) (r : BitSrc) : (getDisp bufBits r).ReadsFrom r :=
  (getbits_readsFrom _ _ r).bind fun _ r => (getbits_readsFrom _ _ r).bind fun _ r => Rd.readsFrom_ok _ r

theorem getWidths_readsFrom (k : Nat) (r : BitSrc) : (getWidths k r).ReadsFrom r := by
  induction k generalizing r with
  | zero => exact Rd.readsFrom_ok _ r
  | succ k ih =>
    refine (getbits_readsFrom _ _ r).bind fun w r => ?_
    split_ifs
    · exact Rd.readsFrom_err _ _ r
    · exact (ih r).bind fun _ r => Rd.readsFrom_ok _ r

theorem lzFields_readsFrom (bufBits s : Nat) (r : BitSrc) : (lzFields bufBits s r).ReadsFrom r := by
  unfold lzFields
  split_ifs
  · exact Rd.readsFrom_ok _ r
  · exact (getDisp_readsFrom _ r).bind fun _ r => Rd.readsFrom_ok _ r
  · exact (getbits_readsFrom _ _ r).bind fun _ r => (getDisp_readsFrom _ r).bind fun _ r => Rd.readsFrom_ok _ r
  · exact (getWidths_readsFrom _ r).bind fun _ r => Rd.readsFrom_ok _ r
  · exact Rd.readsFrom_ok _ r

/-! ## The table of a Huffman stream -/

theorem getNums_readsFrom (k : Nat) (r : BitSrc) : (getNums k r).ReadsFrom r := by
  induction k generalizing r with
  | zero => exact Rd.readsFrom_ok _ r
  | succ k ih => exact (getnum_readsFrom r).bind fun _ r => (ih r).bind fun _ r => Rd.readsFrom_ok _ r

theorem getLeaps_readsFrom (k : Nat) (l : Leap) (r : BitSrc) : (getLeaps k l r).ReadsFrom r := by
  induction k generalizing l r with
  | zero => exact Rd.readsFrom_ok _ r
  | succ k ih =>
    refine (getnum_readsFrom r).bind fun v r => ?_
    split_ifs
    · exact Rd.readsFrom_err _ _ r
    · exact ih _ r

theorem getHrTab_readsFrom (r : BitSrc) : (getHrTab r).ReadsFrom r := by
  refine (getbits_readsFrom _ _ r).bind fun clue r => (getbits_readsFrom _ _ r).bind fun maxlen r => ?_
  split_ifs
  · exact Rd.readsFrom_err _ _ r
  · refine (getNums_readsFrom _ r).bind fun bl r => ?_
    split_ifs
    · exact Rd.readsFrom_err _ _ r
    · refine (getLeaps_readsFrom _ _ r).bind fun l r => ?_
      split_ifs
      · exact Rd.readsFrom_ok _ r
      · exact Rd.readsFrom_err _ _ r

end Sys2Proof
end

section
/-! A step as a walk through the pieces of work it consists of: a property that every piece keeps, the step keeps. -/

namespace Sys2Proof.Machine

/-- `R` holds of an operation of engine `c` as long as it runs, whatever piece of work it does next, and `E` of the
state it ends in. A piece is given with the check that lets it happen. -/
structure Closed (c : Codec) (R E : State → Prop) : Prop where
  fetched : ∀ s, R s → s.ctx.sp < s.srcLen.toNat → R (fetched 1 s)
  emitted : ∀ b s, R s → c ≠ .lz → s.ctx.dp < s.ctx.ulen → R (emitted [b] s)
  lzEmitRaw : ∀ b s, R s → c = .lz → s.ctx.dp < s.outLimit.toNat → R (lzEmitRaw b s)
  /-- The registers of a RefPack command and the expansion stack. -/
  scratch : ∀ rp st s, R s → R { s with ctx := { s.ctx with rp := rp, bt := { s.ctx.bt with stack := st } } }
  /-- A header is read before anything is put out. -/
  header : ∀ h s, R s → s.ctx.dp = 0 → s.header c = .ok h →
    R { s with ctx := { s.ctx with sp := h.bodyAt, magic := BitVec.ofNat 16 h.magic, ulen := h.ulen } }
  setReader : ∀ r s, R s → s.reader.Follows r → R (s.setReader r)
  setBtHead : ∀ clue count s, R s → R (setBtHead clue count s)
  setBtNode : ∀ nd l r s, R s → R (setBtNode nd l r s)
  setHrTab : ∀ t l s, R s → R (setHrTab t l s)
  setLzWidths : ∀ ws s, R s → R (setLzWidths ws s)
  lzRecalcOrder : ∀ s, R s → R (lzRecalcOrder s)
  noteLzSymbol : ∀ g sym s, R s → R (noteLzSymbol g sym s)
  /-- A failing check moves the cursor inside the input alone. -/
  fail : ∀ cause x s, R s → (s.ctx.sp ≤ s.srcLen.toNat → x.sp ≤ s.srcLen.toNat) → E (fail cause { s with ctx := x })
  failLz : ∀ cause st x s, R s → (s.ctx.sp ≤ s.srcLen.toNat → x.sp ≤ s.srcLen.toNat) →
    E (failLz cause st { s with ctx := x })
  refuse : ∀ cause x s, R s → (s.ctx.sp ≤ s.srcLen.toNat → x.sp ≤ s.srcLen.toNat) →
    E (refuse cause { s with ctx := x })
  /-- A success may write a last stretch of `DST`. -/
  finish : ∀ a out x s, R s → E (finish { s with dst := s.dst.writeList a out, ctx := x })
  finishResult : ∀ v s, R s → E (finishResult v s)

/-! ## Headers and readers -/

theorem getBe_le {m : Memory} {len a k v : Nat} (h : getBe m len a k = some v) : a + k ≤ len := by
  unfold getBe at h
  split_ifs at h with hle
  exact hle

/-- A header that is accepted lies inside the input and declares at most `MAX_LEN` bytes (40 R183). -/
theorem parseHeader_ok_le {c : Codec} {m : Memory} {len maxLen : Nat} {hd : Header}
    (h : parseHeader c m len maxLen = .ok hd) : hd.bodyAt ≤ len ∧ hd.ulen ≤ maxLen := by
  unfold parseHeader at h
  dsimp only at h
  split at h
  · cases h
  split at h
  · cases h
  split at h
  · cases h
  split at h
  · cases h
  next ulen hbe =>
    split at h
    · cases h
    next hlen => cases h; exact ⟨getBe_le hbe, Nat.le_of_not_lt hlen⟩

/-- A header fails at a cursor inside the input. -/
theorem parseHeader_error_le {c : Codec} {m : Memory} {len maxLen : Nat} {cause : Cause} {sp : Nat}
    (h : parseHeader c m len maxLen = .error (cause, sp)) : sp ≤ len := by
  unfold parseHeader at h
  dsimp only at h
  split at h
  · cases h; exact Nat.zero_le _
  next h2 =>
  split at h
  · cases h; exact Nat.le_of_not_lt h2
  split at h
  · cases h; exact Nat.le_of_not_lt h2
  next hskip =>
  split at h
  · cases h; exact Nat.le_of_not_lt hskip
  next ulen hbe =>
    split at h
    · cases h; exact getBe_le hbe
    · cases h

/-- A reading from the stream leaves the cursor inside the input. -/
theorem setReader_sp_le {s : State} {r : BitSrc} (hr : r.total = s.reader.total) (h : s.ctx.sp ≤ s.srcLen.toNat) :
    (s.setReader r).ctx.sp ≤ s.srcLen.toNat := by
  have htotal : r.used + r.bytes.length = s.srcLen.toNat - s.ctx.sp := by
    have : s.reader.total = s.srcLen.toNat - s.ctx.sp := by simp [BitSrc.total, State.reader, State.rest]
    exact hr.trans this
  show s.ctx.sp + r.used ≤ _
  omega

namespace Closed

section
variable {c : Codec} {R E : State → Prop} {s : State}

/-! ## The shared operations -/

theorem fails (C : Closed c R E) (cause : Cause) (h : R s) : E (Machine.fail cause s) := C.fail cause s.ctx s h id

theorem failsLz (C : Closed c R E) (cause : Cause) (st : Stage) (h : R s) : E (Machine.failLz cause st s) :=
  C.failLz cause st s.ctx s h id

theorem refuses (C : Closed c R E) (cause : Cause) (h : R s) : E (Machine.refuse cause s) :=
  C.refuse cause s.ctx s h id

theorem finishes (C : Closed c R E) (h : R s) : E (Machine.finish s) := C.finish 0 [] s.ctx s h

theorem emit (C : Closed c R E) (hc : c ≠ .lz) (b : Byte) (s : State) (h : R s) : (emit b s).Reaches R E := by
  rcases Nat.lt_or_ge s.ctx.dp s.ctx.ulen with hlt | hge
  · rw [emit_of_lt hlt]; exact C.emitted b s h hc hlt
  · rw [emit_of_ge hge]; exact C.fails _ h

theorem lzEmit (C : Closed c R E) (hc : c = .lz) (b : Byte) (s : State) (h : R s) : (lzEmit b s).Reaches R E := by
  rcases Nat.lt_or_ge s.ctx.dp s.outLimit.toNat with hlt | hge
  · rw [lzEmit_of_lt hlt]; exact C.lzEmitRaw b s h hc hlt
  · rw [lzEmit_of_ge hge]; exact C.failsLz _ _ h

theorem fetchByte (C : Closed c R E) {k : Byte → State → Flow} (h : R s) (hk : ∀ b t, R t → (k b t).Reaches R E) :
    (fetchByte s k).Reaches R E := by
  rcases Nat.lt_or_ge s.ctx.sp s.srcLen.toNat with hlt | hge
  · rw [fetchByte_of_lt k hlt]; exact hk _ _ (C.fetched s h hlt)
  · rw [fetchByte_of_ge k hge]; exact C.fails _ h

theorem lits (C : Closed c R E) (hc : c ≠ .lz) (n : Nat) (h : R s) : (lits n s).Reaches R E := by
  induction n generalizing s with
  | zero => exact h
  | succ n ih => exact C.fetchByte h fun b t ht => (C.emit hc b t ht).andThen fun _ => ih

theorem copy (C : Closed c R E) (hc : c ≠ .lz) (L D : Nat) (h : R s) : (copy L D s).Reaches R E := by
  unfold Machine.copy
  split_ifs
  · exact C.fails _ h
  · exact copyLoop_reaches (C.emit hc) D L h

theorem endHeaded (C : Closed c R E) {k : State → Flow} (h : R s) (hk : (k s).Reaches R E) :
    (endHeaded s k).Reaches R E := by
  unfold Machine.endHeaded
  split_ifs
  · exact hk
  · exact C.fails _ h

/-! ## The stream commands -/

theorem rpMatch (C : Closed .rp R E) (P L D : Nat) (h : R s) : (rpMatch P L D s).Reaches R E :=
  (C.lits (by decide) P (C.scratch _ _ s h)).andThen fun _ => C.copy (by decide) L D

theorem rpEof (C : Closed .rp R E) (P : Nat) (h : R s) :
    ((Machine.lits P (setRpCount P s)).andThen fun s =>
      Machine.endHeaded s fun s => .ended (Machine.finish s)).Reaches R E :=
  (C.lits (by decide) P (C.scratch _ _ s h)).andThen fun _ h => C.endHeaded h (C.finishes h)

theorem btExpandNode (C : Closed .bt R E) (b : Byte) (h : R s) : (btExpandNode b s).Reaches R E :=
  btExpand_reaches (fun st s h => C.scratch s.ctx.rp st s h) (fun _ => C.fails _) (C.emit (by decide)) _
    (C.scratch s.ctx.rp [b] s h)

theorem hrRun (C : Closed .hr R E) (k : Nat) (h : R s) : (hrRunOp k s).Reaches R E := by
  unfold hrRunOp
  split_ifs
  · exact C.fails _ h
  · exact emitRun_reaches (C.emit (by decide)) _ k h

theorem lzMatch (C : Closed .lz R E) (L D : Nat) (h : R s) : (lzMatch L D s).Reaches R E :=
  lzMatch_reaches (fun _ => C.failsLz _ _) (C.lzEmit rfl) L D h

theorem exec_command (C : Closed c R E) {i : Instr} {t : State} (hi : IsCommand c i) (hs : R s)
    (h : exec i s = .next t) : R t ∨ E t := by
  obtain ⟨hop, rfl⟩ := hi
  cases i with
  | rpShort P L D => exact (streamOp_next h (C.rpMatch P L D hs)).2
  | rpInt P L D => exact (streamOp_next h (C.rpMatch P L D hs)).2
  | rpLong P L D => exact (streamOp_next h (C.rpMatch P L D hs)).2
  | rpLiteral P =>
    exact (streamOp_next (show execRpLiteral P s = _ from h) (C.lits nofun P (C.scratch _ _ s hs))).2
  | rpEof P => exact (streamOp_next (show execRpEof P s = _ from h) (C.rpEof P hs)).2
  | btLeaf b => exact (streamOp_next h (C.emit nofun b s hs)).2
  | btNode b => exact (streamOp_next h (C.btExpandNode b hs)).2
  | btEsc _ e => exact (streamOp_next h (C.emit nofun e s hs)).2
  | btEnd b => exact (streamOp_next (show execBtEnd b s = _ from h) (C.endHeaded hs (C.finishes hs))).2
  | hrLit b => exact (streamOp_next h (C.emit nofun b s hs)).2
  | hrRun k => exact (streamOp_next h (C.hrRun k hs)).2
  | hrEsc b => exact (streamOp_next h (C.emit nofun b s hs)).2
  | hrEof => exact (streamOp_next (show execHrEof s = _ from h) (C.endHeaded hs (C.finish 0 _ s.ctx s hs))).2
  | lzLit b => exact (streamOp_next h (C.lzEmit rfl b s hs)).2
  | lzMatchS L D => exact (streamOp_next h (C.lzMatch L D hs)).2
  | lzMatchX L D => exact (streamOp_next h (C.lzMatch L D hs)).2
  | lzRecalc ws =>
    exact (streamOp_next (E := E) (show execLzRecalc ws s = _ from h) (C.setLzWidths ws _ (C.lzRecalcOrder s hs))).2
  | lzEof => exact (streamOp_next (R := R) (show execLzEof s = _ from h) (C.finishes hs)).2
  | _ => cases hop

/-! ## The fetch -/

theorem setReader_fails (C : Closed c R E) (cause : Cause) {r : BitSrc} (h : R s) (hr : r.total = s.reader.total) :
    E (Machine.fail cause (s.setReader r)) := C.fail cause _ s h (setReader_sp_le hr)

theorem setReader_failsLz (C : Closed c R E) (cause : Cause) (st : Stage) {r : BitSrc} (h : R s)
    (hr : r.total = s.reader.total) : E (Machine.failLz cause st (s.setReader r)) :=
  C.failLz cause st _ s h (setReader_sp_le hr)

end

end Closed

/-- A fetch gives a command with a state of `R`, or has ended in a state of `E`. -/
def Fetched.Reaches (R E : State → Prop) : Fetched → Prop
  | .instr _ s => R s
  | .ended s => E s

namespace Closed

section
variable {R E : State → Prop} {s : State}

theorem fetchRp (C : Closed .rp R E) (h : R s) : (fetchRp s).Reaches R E := by
  have hr := decodeRp_readsFrom s.reader
  unfold Machine.fetchRp
  split
  next i r heq => rw [heq] at hr; exact C.setReader r _ (C.scratch _ _ s h) hr
  next e _ r heq => rw [heq] at hr; exact C.setReader_fails _ h hr

theorem fetchBt (C : Closed .bt R E) (h : R s) : (fetchBt s).Reaches R E := by
  have hr := decodeBt_readsFrom s.ctx.bt.clue s.ctx.bt.isNode s.reader
  unfold Machine.fetchBt
  split
  next i r heq => rw [heq] at hr; exact C.setReader r s h hr
  next e _ r heq => rw [heq] at hr; exact C.setReader_fails _ h hr

theorem fetchHr (C : Closed .hr R E) (h : R s) : (fetchHr s).Reaches R E := by
  have hr := decodeHr_readsFrom s.ctx.hr.tab s.reader
  unfold Machine.fetchHr
  split
  next i r heq => rw [heq] at hr; exact C.setReader r s h hr
  next e _ r heq => rw [heq] at hr; exact C.setReader_fails _ h hr

theorem fetchLz (C : Closed .lz R E) (h : R s) : (fetchLz s).Reaches R E := by
  have hcode := getCode_readsFrom s.ctx.lz.tab s.reader
  unfold Machine.fetchLz
  split
  next e st r heq => rw [heq] at hcode; exact C.setReader_failsLz _ _ h hcode
  next gs r heq =>
    rw [heq] at hcode
    have hfields := lzFields_readsFrom s.params.lzBufBits gs.2 r
    have hn := C.noteLzSymbol gs.1 gs.2 s h
    split
    next e st r' heq => rw [heq] at hfields; exact C.setReader_failsLz _ _ hn (hfields.trans hcode.1)
    next i r' heq => rw [heq] at hfields; exact C.setReader r' _ hn (BitSrc.Follows.trans hcode hfields)

theorem fetchCommand {c : Codec} (C : Closed c R E) (hc : Codec.ofSel s.codecSel = c) (h : R s) :
    (fetchCommand s).Reaches R E := by
  unfold Machine.fetchCommand
  rw [hc]
  cases c with
  | rp => exact C.fetchRp h
  | bt => exact C.fetchBt h
  | hr => exact C.fetchHr h
  | lz => exact C.fetchLz h

/-! ## The host operations -/

theorem readHeader {c : Codec} (C : Closed c R E) {k : State → Flow} (hdp : s.ctx.dp = 0) (h : R s)
    (hk : ∀ t, R t → (k t).Reaches R E) : (readHeader c s k).Reaches R E := by
  unfold Machine.readHeader
  split
  next cause sp he => exact C.fail cause _ s h fun _ => parseHeader_error_le he
  next hd he => exact hk _ (C.header hd s h hdp he)

theorem loadTriples {c : Codec} (C : Closed c R E) (n : Nat) (h : R s) : (loadTriples n s).Reaches R E := by
  induction n generalizing s with
  | zero => exact h
  | succ n ih =>
    refine C.fetchByte h fun nd s h => C.fetchByte h fun l s h => C.fetchByte h fun r s h => ?_
    split_ifs
    · exact C.fails _ h
    · exact ih (C.setBtNode nd l r s h)

theorem decodeHrOp (C : Closed .hr R E) (hdp : s.ctx.dp = 0) (h : R s) : (decodeHrOp s).Reaches R E := by
  refine C.readHeader hdp h fun s h => ?_
  have hr := getHrTab_readsFrom s.reader
  split
  next tl r heq => rw [heq] at hr; exact C.setHrTab _ _ _ (C.setReader r s h hr)
  next e _ r heq => rw [heq] at hr; exact C.setReader_fails _ h hr

theorem decodeLzOp (C : Closed .lz R E) (h : R s) : (decodeLzOp s).Reaches R E := by
  have hr := getWidths_readsFrom Config.lzGroups s.reader
  unfold Machine.decodeLzOp getLzTab
  split
  next ws r heq => rw [heq] at hr; exact C.setLzWidths _ _ (C.setReader r s h hr)
  next e st r heq => rw [heq] at hr; exact C.setReader_failsLz _ _ h hr

theorem decodeOp {c : Codec} (C : Closed c R E) (hdp : s.ctx.dp = 0) (h : R s) : (decodeOp c s).Reaches R E := by
  cases c with
  | rp => exact C.readHeader hdp h fun _ h => h
  | bt =>
    show (decodeBtOp s).Reaches R E
    exact C.readHeader hdp h fun s h => C.fetchByte h fun clue s h => C.fetchByte h fun count s h =>
      C.loadTriples _ (C.setBtHead clue count s h)
  | hr => exact C.decodeHrOp hdp h
  | lz => exact C.decodeLzOp h

theorem emitAll {c : Codec} (C : Closed c R E) (out : List Byte) (x : Ctx) (h : R s) :
    E (Machine.finish (emitAll out { s with ctx := x })) := by
  rw [emitAll_eq_emitted]
  exact C.finish x.dp out _ s h

theorem encodeOp {c : Codec} (C : Closed c R E) (h : R s) : (encodeOp c s).Reaches R E := by
  cases c with
  | rp => exact C.emitAll _ _ h
  | bt =>
    show (encodeBtOp s).Reaches R E
    unfold encodeBtOp
    split_ifs
    · exact C.fails _ h
    · exact C.fails _ h
    · exact C.emitAll _ _ h
  | hr =>
    show (encodeHrOp s).Reaches R E
    unfold encodeHrOp
    split_ifs
    · exact C.fails _ h
    · exact C.emitAll _ _ h
  | lz => exact C.emitAll _ _ h

theorem extractSizeOp {c : Codec} (C : Closed c R E) (h : R s) : E (extractSizeOp c s) := by
  unfold Machine.extractSizeOp
  split
  next cause sp he => exact C.refuse cause _ s h fun _ => parseHeader_error_le he
  next hd _ => exact C.finishResult hd.ulen s h

theorem exec_hostop {c : Codec} (C : Closed c R E) {i : Instr} {op : BitVec 3} {t : State}
    (hi : hostopOf i = some (c, op)) (hb : R (beginOp c op s)) (h : exec i s = .next t) : R t ∨ E t := by
  cases i with
  | about =>
    cases hi
    exact (hostOp_next (R := R) (show execAbout c s = _ from h) (C.emitAll _ _ hb)).2
  | isValid =>
    cases hi
    refine (hostOp_next (R := R) (E := E) (show execIsValid c s = _ from h) (show E _ from ?_)).2
    split_ifs
    · exact C.refuses _ hb
    · exact C.finishResult _ _ hb
  | extractSize =>
    cases hi
    refine (hostOp_next (R := R) (E := E) (show execExtractSize c s = _ from h) (show E _ from ?_)).2
    split_ifs
    · exact C.refuses _ hb
    · exact C.extractSizeOp hb
  | encode =>
    cases hi
    refine (hostOp_next (show execEncode c s = _ from h) ?_).2
    split_ifs
    · exact C.encodeOp hb
    · exact C.fails _ hb
  | decode =>
    cases hi
    refine (hostOp_next (show execDecode c s = _ from h) ?_).2
    split_ifs
    · exact C.decodeOp rfl hb
    · exact C.fails _ hb
  | hostopReserved5 =>
    cases hi
    exact (hostOp_next (R := R) (show execHostopReserved5 c s = _ from h) (C.refuses .badOp hb)).2
  | hostopReserved6 =>
    cases hi
    exact (hostOp_next (R := R) (show execHostopReserved6 c s = _ from h) (C.refuses .badOp hb)).2
  | hostopReserved7 =>
    cases hi
    exact (hostOp_next (R := R) (show execHostopReserved7 c s = _ from h) (C.refuses .badOp hb)).2
  | _ => cases hi

/-! ## The step -/

theorem runFetched {c : Codec} (C : Closed c R E) {t : State} (hc : Codec.ofSel s.codecSel = c) (hs : R s)
    (h : runFetched (Machine.fetchCommand s) = .next t) : R t ∨ E t := by
  have hf := C.fetchCommand hc hs
  cases hfetch : Machine.fetchCommand s with
  | ended u =>
    rw [hfetch] at h hf
    cases h
    exact .inr hf
  | instr i u =>
    have hi := (fetchCommand_command s i u hfetch).1
    rw [hc] at hi
    rw [hfetch] at h hf
    exact C.exec_command hi hf h

/-- A step keeps `R` if the operation it works on is in `R`. -/
theorem step {t : State} (C : Closed (Codec.ofSel s.codecSel) R E) (hR : ∀ b, AtWork s b → R b)
    (h : step s = .next t) : (s.busy = false ∧ t = s) ∨ R t ∨ E t := by
  cases hs : s.start with
  | true =>
    rw [step_start hs] at h
    have hb := (exec_hostop_next (hostopOf_decodeHostop _ _) h).1
    exact .inr (C.exec_hostop (hostopOf_decodeHostop _ _) (hR _ (.inr ⟨hb, rfl⟩)) h)
  | false =>
    cases hb : s.busy with
    | false =>
      rw [step_idle hs hb] at h
      cases h
      exact .inl ⟨rfl, rfl⟩
    | true =>
      rw [step_busy hs hb (step_busy_op hs hb h)] at h
      exact .inr (C.runFetched rfl (hR s (.inl ⟨hb, rfl⟩)) h)

end

end Closed

end Sys2Proof.Machine
end

section
/-! Two properties that every piece of work keeps: the cursors stay inside their buffers, and the memories and tables
stay in canonical form. -/

namespace Sys2Proof.Machine

/-! ## The cursors -/

/-- The cursors of a running `DECODE` of engine `c`, and the diagnostic record, lie inside their buffers. -/
structure InBounds (c : Codec) (s : State) : Prop where
  codecSel : s.codecSel = c.sel
  sp : s.ctx.sp ≤ s.srcLen.toNat
  held : s.reader.Held
  headed : c ≠ .lz → s.ctx.dp ≤ s.ctx.ulen ∧ s.ctx.ulen ≤ s.params.maxLen
  lz : c = .lz → s.ctx.lz.wp = s.ctx.dp ∧ s.ctx.dp ≤ s.outLimit.toNat
  diag : s.diag.sp.toNat ≤ s.srcLen.toNat

/-- An operation has ended with `DIAG.sp` inside the input. -/
def EndedInBounds (s : State) : Prop := s.busy = false ∧ s.diag.sp.toNat ≤ s.srcLen.toNat

theorem InBounds.cursorsInBounds {c : Codec} {s : State} (h : InBounds c s) : CursorsInBounds s := by
  refine ⟨fun _ => ⟨h.sp, h.held.1, h.held.2, fun hsel => h.headed ?_, fun hsel => h.lz ?_⟩, h.diag⟩
  · rintro rfl
    exact hsel h.codecSel
  · rw [← ofSel_sel c, ← h.codecSel, hsel]
    rfl

theorem EndedInBounds.cursorsInBounds {s : State} (h : EndedInBounds s) : CursorsInBounds s :=
  ⟨fun hb => absurd hb (by simp [h.1]), h.2⟩

theorem CursorsInBounds.inBounds {s : State} (h : CursorsInBounds s) (hb : s.busy = true) :
    InBounds (Codec.ofSel s.codecSel) s := by
  obtain ⟨hrun, hdiag⟩ := h
  obtain ⟨hsp, hnacc, hacc, hheaded, hlz⟩ := hrun hb
  have hsel := (sel_ofSel s.codecSel).symm
  refine ⟨hsel, hsp, ⟨hnacc, hacc⟩, fun hc => hheaded fun h3 => hc ?_, fun hc => hlz ?_, hdiag⟩
  · rw [h3]; rfl
  · rw [hsel, hc]; rfl

theorem inBounds_beginOp (c : Codec) (op : BitVec 3) (s : State) : InBounds c (beginOp c op s) where
  codecSel := rfl
  sp := Nat.zero_le _
  held := ⟨Nat.zero_le _, Nat.one_pos⟩
  headed _ := ⟨le_rfl, Nat.zero_le _⟩
  lz _ := ⟨rfl, Nat.zero_le _⟩
  diag := Nat.zero_le _

theorem AtWork.inBounds {s b : State} (hb : AtWork s b) (h : CursorsInBounds s) :
    InBounds (Codec.ofSel s.codecSel) b := by
  obtain ⟨hb, rfl⟩ | ⟨-, rfl⟩ := hb
  · exact h.inBounds hb
  · exact inBounds_beginOp _ _ s

theorem toNat_ofNat_le {n m : Nat} (h : n ≤ m) : (BitVec.ofNat 32 n).toNat ≤ m := by
  rw [BitVec.toNat_ofNat]
  exact (Nat.mod_le _ _).trans h

theorem closed_inBounds (c : Codec) : Closed c (InBounds c) EndedInBounds where
  fetched _ h hlt := { h with sp := hlt }
  emitted _ _ h hc hlt := { h with headed := fun _ => ⟨hlt, (h.headed hc).2⟩, lz := fun hl => absurd hl hc }
  lzEmitRaw _ _ h hc hlt :=
    { h with headed := fun hh => absurd hc hh, lz := fun _ => ⟨congrArg (· + 1) (h.lz hc).1, hlt⟩ }
  scratch _ _ _ h := { h with }
  header hd s h hdp he := by
    obtain ⟨hat, hlen⟩ := parseHeader_ok_le he
    exact { h with sp := hat, headed := fun _ => ⟨hdp.trans_le (Nat.zero_le _), hlen⟩ }
  setReader _ _ h hr := { h with sp := setReader_sp_le hr.1 h.sp, held := hr.2 h.held }
  setBtHead _ _ _ h := { h with }
  setBtNode _ _ _ _ h := { h with }
  setHrTab _ _ _ h := { h with }
  setLzWidths _ _ h := { h with }
  lzRecalcOrder _ h := { h with }
  noteLzSymbol _ _ _ h := { h with }
  fail _ _ _ h hsp := ⟨rfl, toNat_ofNat_le (hsp h.sp)⟩
  failLz _ _ _ _ h hsp := ⟨rfl, toNat_ofNat_le (hsp h.sp)⟩
  refuse _ _ _ h hsp := ⟨rfl, toNat_ofNat_le (hsp h.sp)⟩
  finish _ _ _ _ h := ⟨rfl, h.diag⟩
  finishResult _ _ h := ⟨rfl, h.diag⟩

/-- Settles O44: an operation starts with every cursor at 0; a byte is fetched where the input goes on and put out where
there is room, a reading ends inside the input with at most seven bits held, and a check fails at a cursor inside it. -/
theorem stepKeepsCursorsInBounds : Obligations.StepKeepsCursorsInBounds := by
  intro s t hs h
  obtain ⟨-, rfl⟩ | hr | he := (closed_inBounds _).step (fun _ hb => hb.inBounds hs) h
  · exact hs
  · exact hr.cursorsInBounds
  · exact he.cursorsInBounds

/-! ## The canonical forms -/

theorem MemoriesCanonical.src_wf {s : State} (h : MemoriesCanonical s) : s.src.wf = true := by
  obtain ⟨hsrc, -⟩ := h
  exact hsrc

theorem MemoriesCanonical.dst_wf {s : State} (h : MemoriesCanonical s) : s.dst.wf = true := by
  obtain ⟨-, hdst, -⟩ := h
  exact hdst

theorem memoriesCanonical_beginOp {s : State} (c : Codec) (op : BitVec 3) (h : MemoriesCanonical s) :
    MemoriesCanonical (beginOp c op s) :=
  ⟨h.src_wf, h.dst_wf, rfl, rfl, rfl, rfl, rfl⟩

theorem AtWork.memoriesCanonical {s b : State} (hb : AtWork s b) (h : MemoriesCanonical s) : MemoriesCanonical b := by
  obtain ⟨-, rfl⟩ | ⟨-, rfl⟩ := hb
  · exact h
  · exact memoriesCanonical_beginOp _ _ h

/-- An ended operation has no tables; what is left are `SRC` and `DST`. -/
theorem memoriesCanonical_ended {s t : State} (h : MemoriesCanonical s) (hsrc : t.src = s.src) (hdst : t.dst.wf = true)
    (hctx : t.ctx = Ctx.fresh 0) : MemoriesCanonical t := by
  unfold MemoriesCanonical
  rw [hctx, hsrc]
  exact ⟨h.src_wf, hdst, rfl, rfl, rfl, rfl, rfl⟩

theorem mem_lzAge {t : Sparse Nat} {e : Nat × Nat} (h : e ∈ lzAge t) : e.2 ≠ 0 ∧ ∃ f ∈ t, f.1 = e.1 := by
  induction t with
  | nil => cases h
  | cons f t ih =>
    obtain ⟨k, n⟩ := f
    unfold lzAge at h
    split_ifs at h with h0
    · obtain ⟨hne, f, hf, hk⟩ := ih h
      exact ⟨hne, f, List.mem_cons_of_mem _ hf, hk⟩
    · rcases List.mem_cons.1 h with rfl | h
      · exact ⟨h0, _, List.mem_cons_self, rfl⟩
      · obtain ⟨hne, f, hf, hk⟩ := ih h
        exact ⟨hne, f, List.mem_cons_of_mem _ hf, hk⟩

theorem sorted_lzAge {t : Sparse Nat} (h : t.sorted = true) : (lzAge t).sorted = true := by
  induction t with
  | nil => rfl
  | cons e t ih =>
    obtain ⟨k, n⟩ := e
    obtain ⟨ht, hk⟩ := (Sparse.sorted_cons_iff k n t).1 h
    unfold lzAge
    split_ifs
    · exact ih ht
    · refine (Sparse.sorted_cons_iff _ _ _).2 ⟨ih ht, fun e he => ?_⟩
      obtain ⟨-, f, hf, hfe⟩ := mem_lzAge he
      exact hfe ▸ hk f hf

/-- Halved counts that are 0 are not listed (46 R441). -/
theorem canonical_lzAge {t : Sparse Nat} (h : t.canonical 0 = true) : (lzAge t).canonical 0 = true := by
  simp only [Sparse.canonical, Bool.and_eq_true, List.all_eq_true, decide_eq_true_eq] at h ⊢
  exact ⟨sorted_lzAge h.1, fun e he => (mem_lzAge he).1⟩

theorem closed_memoriesCanonical (c : Codec) : Closed c MemoriesCanonical MemoriesCanonical where
  fetched _ h _ := h
  emitted b s h _ _ := by
    obtain ⟨hsrc, hdst, hctx⟩ := h
    exact ⟨hsrc, Memory.wf_writeList hdst _ [b], hctx⟩
  lzEmitRaw b s h _ _ := by
    obtain ⟨hsrc, hdst, hcbuf, htables⟩ := h
    exact ⟨hsrc, Memory.wf_write hdst _ b, Memory.wf_write hcbuf _ b, htables⟩
  scratch _ _ _ h := h
  header _ _ h _ _ := h
  setReader _ _ h _ := h
  setBtHead _ _ _ h := by
    obtain ⟨hsrc, hdst, hcbuf, hleft, hright, -, hstat⟩ := h
    exact ⟨hsrc, hdst, hcbuf, hleft, hright, rfl, hstat⟩
  setBtNode nd l r s h := by
    obtain ⟨hsrc, hdst, hcbuf, hleft, hright, hnode, hstat⟩ := h
    exact ⟨hsrc, hdst, hcbuf, Memory.wf_write hleft _ l, Memory.wf_write hright _ r,
      Sparse.canonical_setD _ true hnode, hstat⟩
  setHrTab _ _ _ h := h
  setLzWidths _ _ h := h
  lzRecalcOrder s h := by
    obtain ⟨hsrc, hdst, hcbuf, hleft, hright, hnode, hstat⟩ := h
    exact ⟨hsrc, hdst, hcbuf, hleft, hright, hnode, canonical_lzAge hstat⟩
  noteLzSymbol g sym s h := by
    obtain ⟨hsrc, hdst, hcbuf, hleft, hright, hnode, hstat⟩ := h
    exact ⟨hsrc, hdst, hcbuf, hleft, hright, hnode, Sparse.canonical_setD sym _ hstat⟩
  fail _ _ _ h _ := memoriesCanonical_ended h rfl (Memory.wf_ofBytes _) rfl
  failLz _ _ _ _ h _ := memoriesCanonical_ended h rfl (Memory.wf_ofBytes _) rfl
  refuse _ _ _ h _ := memoriesCanonical_ended h rfl h.dst_wf rfl
  finish a out _ _ h := memoriesCanonical_ended h rfl (Memory.wf_writeList h.dst_wf a out) rfl
  finishResult _ _ h := memoriesCanonical_ended h rfl h.dst_wf rfl

/-- Settles O42: memories change by writes, the node table and the counts by stores and by halving, and an ended
operation leaves no table. -/
theorem stepKeepsMemoriesCanonical : Obligations.StepKeepsMemoriesCanonical := by
  intro s t hs h
  obtain ⟨-, rfl⟩ | hr | he := (closed_memoriesCanonical _).step (fun _ hb => hb.memoriesCanonical hs) h
  · exact hs
  · exact hr
  · exact he

end Sys2Proof.Machine
end

section
/-! The bit writer (41 R213): what it has written, as bits. -/

namespace Sys2Proof

theorem natBits_congr {n v w : Nat} (h : ∀ i < n, v.testBit i = w.testBit i) : natBits n v = natBits n w := by
  induction n with
  | zero => rfl
  | succ n ih => rw [natBits, natBits, h n (Nat.lt_succ_self n), ih fun i hi => h i (Nat.lt_succ_of_lt hi)]

/-- The high bits, then the low ones. -/
theorem natBits_add (a b v : Nat) : natBits (a + b) v = natBits a (v >>> b) ++ natBits b v := by
  induction a with
  | zero => simp [natBits]
  | succ a ih =>
    rw [Nat.succ_add, natBits, natBits, ih, List.cons_append, Nat.testBit_shiftRight, Nat.add_comm a b]

theorem bytesBits_append (xs ys : List Byte) : bytesBits (xs ++ ys) = bytesBits xs ++ bytesBits ys := by
  induction xs with
  | nil => rfl
  | cons x xs ih => rw [List.cons_append, bytesBits, bytesBits, ih, List.append_assoc]

theorem natBits_lowBits (acc : Word) {n : Nat} (h : n ≤ 32) :
    natBits n (lowBits acc n).toNat = natBits n acc.toNat := by
  refine natBits_congr fun i hi => ?_
  have h32 : i < 32 := by omega
  rw [BitVec.testBit_toNat, BitVec.testBit_toNat, lowBits, BitVec.getLsbD_and, BitVec.getLsbD_ofNat]
  simp [Nat.testBit_two_pow_sub_one, hi, h32]

/-- A byte taken out of an accumulator. -/
theorem byteBits_setWidth (v : Word) : byteBits (v.setWidth 8) = natBits 8 v.toNat := by
  refine natBits_congr fun i hi => ?_
  rw [BitVec.testBit_toNat, BitVec.testBit_toNat, BitVec.getLsbD_setWidth]
  simp [hi]

/-- A value shifted in below the bits held. -/
theorem natBits_shiftLeft_or {acc : Word} {n nb v : Nat} (hlen : n + nb ≤ 32) (hv : v < 2 ^ nb) :
    natBits (n + nb) ((acc <<< nb) ||| BitVec.ofNat 32 v).toNat = natBits n acc.toNat ++ natBits nb v := by
  rw [natBits_add]
  congr 1
  · refine natBits_congr fun i hi => ?_
    have h32 : nb + i < 32 := by omega
    have hhigh : v.testBit (nb + i) = false :=
      Nat.testBit_lt_two_pow (hv.trans_le (Nat.pow_le_pow_right Nat.two_pos (Nat.le_add_right nb i)))
    rw [Nat.testBit_shiftRight, BitVec.testBit_toNat, BitVec.testBit_toNat, BitVec.getLsbD_or, BitVec.getLsbD_shiftLeft,
      BitVec.getLsbD_ofNat]
    simp [h32, hhigh]
  · refine natBits_congr fun i hi => ?_
    have h32 : i < 32 := by omega
    rw [BitVec.testBit_toNat, BitVec.getLsbD_or, BitVec.getLsbD_shiftLeft, BitVec.getLsbD_ofNat]
    simp [hi, h32]

end Sys2Proof

namespace Sys2Proof.Machine

/-- The bits written so far: the bytes put out, then what the accumulator holds. -/
def BitSink.bits (w : BitSink) : List Bool := bytesBits w.out ++ natBits w.nacc w.acc.toNat

theorem drain_bits (acc : Word) (f nacc : Nat) (out : List Byte) (h : nacc ≤ 32) :
    (drain acc f nacc out).bits = bytesBits out ++ natBits nacc acc.toNat := by
  induction f generalizing nacc out with
  | zero => exact congrArg (bytesBits out ++ ·) (natBits_lowBits acc h)
  | succ f ih =>
    unfold drain
    split_ifs with h8
    · have hsplit := natBits_add 8 (nacc - 8) acc.toNat
      rw [Nat.add_sub_cancel' h8] at hsplit
      rw [ih _ _ (by omega), bytesBits_append, List.append_assoc, hsplit]
      congr 2
      simp only [bytesBits, List.append_nil, byteBits_setWidth, BitVec.toNat_ushiftRight]
    · exact congrArg (bytesBits out ++ ·) (natBits_lowBits acc h)

/-- The drain goes on until fewer than eight bits are held. -/
theorem drain_held (acc : Word) (f nacc : Nat) (out : List Byte) (h : nacc ≤ 8 * f + 7) :
    (drain acc f nacc out).nacc ≤ 7 ∧ (drain acc f nacc out).acc.toNat < 2 ^ (drain acc f nacc out).nacc := by
  induction f generalizing nacc out with
  | zero => exact ⟨h, toNat_lowBits_lt _ _⟩
  | succ f ih =>
    unfold drain
    split_ifs with h8
    · exact ih _ _ (by omega)
    · exact ⟨Nat.le_of_lt_succ (Nat.lt_of_not_le h8), toNat_lowBits_lt _ _⟩

/-- Settles O9: the value is shifted in below the bits held, at most 23 bits in all, and the drain puts out whole bytes
from the top. -/
theorem bitWriterAppendsBits : Obligations.BitWriterAppendsBits := by
  intro w nb v hnb hv hnacc _
  refine ⟨?_, drain_held _ 4 _ _ (by omega)⟩
  calc (w.put nb v).bits
      = bytesBits w.out ++ natBits (w.nacc + nb) ((w.acc <<< nb) ||| BitVec.ofNat 32 v).toNat :=
        drain_bits _ 4 _ _ (by omega)
    _ = bytesBits w.out ++ natBits w.nacc w.acc.toNat ++ natBits nb v := by
        rw [natBits_shiftLeft_or (by omega) hv, List.append_assoc]

end Sys2Proof.Machine
end

section
/-! Commands and words that fail, with the cause they raise and where the cursors stand, and the items of one byte. -/

namespace Sys2Proof.Machine

/-! ## Failures -/

theorem failedWith_fail (c : Cause) (u : State) : FailedWith c (fail c u) := ⟨rfl, rfl, rfl, rfl, rfl, rfl, rfl⟩

theorem failedWith_failLz (c : Cause) (st : Stage) (u : State) : FailedWith c (failLz c st u) :=
  ⟨rfl, rfl, rfl, rfl, rfl, rfl, rfl⟩

theorem WorkingOn.fail_inputsKept {s u : State} (c : Cause) (h : WorkingOn s u) : InputsKept s (fail c u) :=
  h.inputsKept

theorem WorkingOn.failLz_inputsKept {s u : State} (c : Cause) (st : Stage) (h : WorkingOn s u) :
    InputsKept s (failLz c st u) :=
  h.inputsKept

/-! ## Rejected words -/

theorem decoding_iff {c : Codec} {s : State} :
    s.decoding c = true ↔ s.busy = true ∧ s.codecSel = c.sel ∧ s.op = 4 := by
  simp [State.decoding, and_assoc]

theorem ofSel_of_decoding {c : Codec} {s : State} (h : s.decoding c = true) : Codec.ofSel s.codecSel = c := by
  rw [codecSel_of_decoding h, ofSel_sel]

theorem not_decoding_lz {c : Codec} {s : State} (hd : s.decoding c = true) (hc : c ≠ .lz) : s.decoding .lz ≠ true :=
  fun hl => hc ((ofSel_of_decoding hd).symm.trans (ofSel_of_decoding hl))

/-- A failed fetch is the next state. -/
theorem step_of_fetch_ended {c : Codec} {s t : State} (hs : s.start = false) (hd : s.decoding c = true)
    (hf : fetchCommand s = .ended t) : step s = .next t := by
  obtain ⟨hb, -, ho⟩ := decoding_iff.1 hd
  rw [step_busy hs hb ho, hf]
  rfl

/-- `t` reports that the word at the cursor of `s` was rejected by `e` with the reader at `r` (60 R504), on LightZhl in
stage `st` (46 R449). -/
def RejectedAt (e : Reject) (st : Stage) (r : BitSrc) (s t : State) : Prop :=
  FailedWith (Cause.ofReject e) t ∧ InputsKept s t ∧
    t.diag.sp = BitVec.ofNat 32 (s.ctx.sp + r.used) ∧ t.diag.dp = BitVec.ofNat 32 s.ctx.dp ∧
    (s.decoding .lz = true → t.diag.stage = st ∧ t.diag.acc = r.acc ∧ t.diag.wp = BitVec.ofNat 32 s.ctx.lz.wp)

theorem rejectedAt_fail {s : State} (e : Reject) (st : Stage) (r : BitSrc) (hlz : s.decoding .lz ≠ true) :
    RejectedAt e st r s (fail (Cause.ofReject e) (s.setReader r)) :=
  ⟨failedWith_fail _ _, (nothingPutOut_setReader s r).workingOn.fail_inputsKept _, rfl, rfl, fun h => absurd h hlz⟩

/-- The symbol may have been counted before its fields were rejected. -/
theorem rejectedAt_failLz {s : State} {x : LzCtx} (e : Reject) (st : Stage) (r : BitSrc) (hwp : x.wp = s.ctx.lz.wp) :
    RejectedAt e st r s (failLz (Cause.ofReject e) st (State.setReader { s with ctx := { s.ctx with lz := x } } r)) :=
  ⟨failedWith_failLz _ _ _, WorkingOn.failLz_inputsKept _ _ ⟨_, _, _, rfl⟩, rfl, rfl,
    fun _ => ⟨rfl, rfl, congrArg (BitVec.ofNat 32) hwp⟩⟩

section
variable {s : State} {e : Reject} {st : Stage} {r : BitSrc}

theorem fetchCommand_rp_err (hd : s.decoding .rp = true) (h : decode .rp s.reader = .err e st r) :
    fetchCommand s = .ended (fail (Cause.ofReject e) (s.setReader r)) := by
  have h : decodeRp s.reader = .err e st r := h
  simp only [fetchCommand, ofSel_of_decoding hd, fetchRp, h]

theorem fetchCommand_bt_err (hd : s.decoding .bt = true)
    (h : decode (.bt s.ctx.bt.clue s.ctx.bt.isNode) s.reader = .err e st r) :
    fetchCommand s = .ended (fail (Cause.ofReject e) (s.setReader r)) := by
  have h : decodeBt s.ctx.bt.clue s.ctx.bt.isNode s.reader = .err e st r := h
  simp only [fetchCommand, ofSel_of_decoding hd, fetchBt, h]

theorem fetchCommand_hr_err (hd : s.decoding .hr = true) (h : decode (.hr s.ctx.hr.tab) s.reader = .err e st r) :
    fetchCommand s = .ended (fail (Cause.ofReject e) (s.setReader r)) := by
  have h : decodeHr s.ctx.hr.tab s.reader = .err e st r := h
  simp only [fetchCommand, ofSel_of_decoding hd, fetchHr, h]

/-- Whether the symbol's code or one of its fields is rejected, the write cursor stays. -/
theorem fetchCommand_lz_err (hd : s.decoding .lz = true)
    (h : decode (.lz s.params.lzBufBits s.ctx.lz.tab) s.reader = .err e st r) :
    ∃ x : LzCtx, x.wp = s.ctx.lz.wp ∧ fetchCommand s =
      .ended (failLz (Cause.ofReject e) st (State.setReader { s with ctx := { s.ctx with lz := x } } r)) := by
  have h : (getCode s.ctx.lz.tab s.reader).bind (fun gs r => lzFields s.params.lzBufBits gs.2 r) = .err e st r := h
  simp only [fetchCommand, ofSel_of_decoding hd, fetchLz]
  cases hcode : getCode s.ctx.lz.tab s.reader with
  | err e' st' r' =>
    rw [hcode] at h
    cases h
    exact ⟨s.ctx.lz, rfl, rfl⟩
  | ok gs r' =>
    rw [hcode] at h
    have h : lzFields s.params.lzBufBits gs.2 r' = .err e st r := h
    exact ⟨(noteLzSymbol gs.1 gs.2 s).ctx.lz, rfl, by simp only [h]; rfl⟩

end

/-- Settles O11: the failed fetch of each engine is the next state; on LightZhl it carries the stage. -/
theorem stepRejectsBadWords : Obligations.StepRejectsBadWords := by
  intro s e st r hs h
  show ∃ t, step s = .next t ∧ RejectedAt e st r s t
  obtain ⟨hd, h⟩ | ⟨hd, h⟩ | ⟨hd, h⟩ | ⟨hd, h⟩ := h
  · exact ⟨_, step_of_fetch_ended hs hd (fetchCommand_rp_err hd h), rejectedAt_fail e st r (not_decoding_lz hd nofun)⟩
  · exact ⟨_, step_of_fetch_ended hs hd (fetchCommand_bt_err hd h), rejectedAt_fail e st r (not_decoding_lz hd nofun)⟩
  · exact ⟨_, step_of_fetch_ended hs hd (fetchCommand_hr_err hd h), rejectedAt_fail e st r (not_decoding_lz hd nofun)⟩
  · obtain ⟨x, hwp, hf⟩ := fetchCommand_lz_err hd h
    exact ⟨_, step_of_fetch_ended hs hd hf, rejectedAt_failLz e st r hwp⟩

/-! ## RefPack commands that fail -/

/-- Every RefPack command notes its fields and starts with its literals; where they fail, so does it. -/
theorem exec_of_lits_ended {P L D : Nat} {s : State} (hd : s.decoding .rp = true) {i : Instr}
    (hi : i ∈ [Instr.rpShort P L D, .rpInt P L D, .rpLong P L D, .rpLiteral P, .rpEof P]) :
    ∃ rp, ∀ t, lits P { s with ctx := { s.ctx with rp := rp } } = .ended t → exec i s = .next t := by
  have hmatch : ∀ t, lits P (setRpFields P L D s) = .ended t → streamOp .rp s (rpMatch P L D) = .next t := by
    intro t h
    rw [streamOp_decoding _ hd, rpMatch, h, andThen_ended, outcome_ended]
  simp only [List.mem_cons, List.not_mem_nil, or_false] at hi
  obtain rfl | rfl | rfl | rfl | rfl := hi
  · exact ⟨_, hmatch⟩
  · exact ⟨_, hmatch⟩
  · exact ⟨_, hmatch⟩
  · refine ⟨(setRpCount P s).ctx.rp, fun t h => ?_⟩
    show execRpLiteral P s = _
    have h : lits P (setRpCount P s) = .ended t := h
    rw [execRpLiteral, streamOp_decoding _ hd, h, outcome_ended]
  · refine ⟨(setRpCount P s).ctx.rp, fun t h => ?_⟩
    show execRpEof P s = _
    have h : lits P (setRpCount P s) = .ended t := h
    rw [execRpEof, streamOp_decoding _ hd, h, andThen_ended, outcome_ended]

/-- A match command whose literals are put out comes to its copy. -/
theorem exec_rpMatch_copy {P L D : Nat} {s : State} (hd : s.decoding .rp = true)
    (hsp : s.ctx.sp + P ≤ s.srcLen.toNat) (hdp : s.ctx.dp + P ≤ s.ctx.ulen) {i : Instr}
    (hi : i ∈ [Instr.rpShort P L D, .rpInt P L D, .rpLong P L D]) :
    exec i s = (copy L D (emitted (literals P s) (fetched P (setRpFields P L D s)))).outcome := by
  have hmatch : exec i s = streamOp .rp s (rpMatch P L D) := by
    simp only [List.mem_cons, List.not_mem_nil, or_false] at hi
    obtain rfl | rfl | rfl := hi <;> rfl
  rw [hmatch, streamOp_decoding _ hd, rpMatch, lits_ok P (s := setRpFields P L D s) hsp hdp, andThen_cont]
  rfl

/-- Settles O28: the literals fail by `lits_truncated` and `lits_overrun`; behind them the copy checks its distance and
then fills the output. -/
theorem refPackCommandFailures : Obligations.RefPackCommandFailures := by
  refine ⟨fun P L D s hd h0sp h0dp i hi => ?_, fun P L D s hd hD hsp hdp i hi => ?_⟩
  · obtain ⟨rp, hexec⟩ := exec_of_lits_ended hd hi
    refine ⟨fun htrunc hroom => ?_, fun hover hthere => ?_⟩
    · refine ⟨_, hexec _ (lits_truncated P h0sp htrunc hroom), failedWith_fail _ _,
        WorkingOn.fail_inputsKept _ ⟨_, _, _, rfl⟩, ?_, ?_⟩
      · show BitVec.ofNat 32 (s.ctx.sp + (s.srcLen.toNat - s.ctx.sp)) = s.srcLen
        rw [Nat.add_sub_cancel' h0sp, BitVec.ofNat_toNat, BitVec.setWidth_eq]
      · simp [diagHere]
    · refine ⟨_, hexec _ (lits_overrun P h0dp hover hthere), failedWith_fail _ _,
        WorkingOn.fail_inputsKept _ ⟨_, _, _, rfl⟩, rfl, ?_⟩
      simp [diagHere, Nat.add_sub_cancel' h0dp]
  · have hcopy := exec_rpMatch_copy hd hsp hdp hi
    have hdpAt : (emitted (literals P s) (fetched P (setRpFields P L D s))).ctx.dp = s.ctx.dp + P := by simp
    refine ⟨fun hdist => ?_, fun hdist hover => ?_⟩
    · rw [copy, if_pos (by rwa [hdpAt])] at hcopy
      refine ⟨_, hcopy, failedWith_fail _ _, WorkingOn.fail_inputsKept _ ⟨_, _, _, rfl⟩, rfl, ?_⟩
      exact congrArg (BitVec.ofNat 32) hdpAt
    · rw [copy, if_neg (by rw [hdpAt]; omega),
        copyLoop_overrun L D hD (by rwa [hdpAt]) (by rwa [hdpAt]) (by rwa [hdpAt])] at hcopy
      refine ⟨_, hcopy, failedWith_fail _ _, WorkingOn.fail_inputsKept _ ⟨_, _, _, rfl⟩, rfl, ?_⟩
      simp [diagHere, Nat.add_sub_cancel' hdp]

/-! ## Items of one byte -/

theorem streamOp_emit {c : Codec} {s : State} (b : Byte) (hd : s.decoding c = true) :
    (s.ctx.dp < s.ctx.ulen → streamOp c s (emit b) = .next (emitted [b] s)) ∧
    (s.ctx.ulen ≤ s.ctx.dp →
      ∃ t, streamOp c s (emit b) = .next t ∧ FailedWith .outputOverrun t ∧ InputsKept s t) := by
  rw [streamOp_decoding _ hd]
  refine ⟨fun h => ?_, fun h => ?_⟩
  · rw [emit_of_lt h, outcome_cont]
  · rw [emit_of_ge h, outcome_ended]
    exact ⟨_, rfl, failedWith_fail _ _, (WorkingOn.refl s).fail_inputsKept _⟩

/-- Settles O30: each of the items is `emit` of its byte. -/
theorem oneByteItemsEmit : Obligations.OneByteItemsEmit := fun b _ _ =>
  ⟨fun hd => List.forall_mem_cons.2 ⟨streamOp_emit b hd, List.forall_mem_singleton.2 (streamOp_emit b hd)⟩,
    fun hd => List.forall_mem_cons.2 ⟨streamOp_emit b hd, List.forall_mem_singleton.2 (streamOp_emit b hd)⟩⟩

end Sys2Proof.Machine
end

section
/-! The host's moves (20_memory.md R101, 70 R557): when they are taken, and what they change. -/

namespace Sys2Proof.Machine

theorem hostWrite_idle {s : State} (w : HostWrite) (hb : s.busy = false) (hs : s.start = false) :
    hostWrite w s = .next (applyHostWrite w s) := by
  simp [hostWrite, hb, hs]

theorem hostWrite_busy {s : State} (w : HostWrite) (hb : s.busy = true) :
    hostWrite w s = .fault .hostWriteWhileBusy := by
  simp [hostWrite, hb]

theorem hostWrite_next {w : HostWrite} {s t : State} (h : hostWrite w s = .next t) :
    s.busy = false ∧ s.start = false ∧ t = applyHostWrite w s := by
  unfold hostWrite at h
  split_ifs at h with hg
  cases h
  rw [Bool.or_eq_true, not_or, Bool.not_eq_true, Bool.not_eq_true] at hg
  exact ⟨hg.1, hg.2, rfl⟩

/-- A host write touches the host's own registers and `SRC` alone. -/
theorem applyHostWrite_frame (w : HostWrite) (s : State) :
    applyHostWrite w s = { s with
      codecSel := (applyHostWrite w s).codecSel
      op := (applyHostWrite w s).op
      start := (applyHostWrite w s).start
      srcLen := (applyHostWrite w s).srcLen
      src := (applyHostWrite w s).src
      cfg := (applyHostWrite w s).cfg
      outLimit := (applyHostWrite w s).outLimit } := by
  cases w <;> rfl

theorem hostReadDst_ok {s : State} {bs : List Byte} (h : hostReadDst s = .ok bs) :
    s.status = .ok ∧ s.busy = false ∧ bs = s.dst.bytesFrom 0 s.dstLen.toNat := by
  unfold hostReadDst at h
  split_ifs at h with hg
  cases h
  simp only [Bool.and_eq_true, Bool.not_eq_true', decide_eq_true_eq] at hg
  obtain ⟨⟨⟨-, hb⟩, -⟩, hok⟩ := hg
  exact ⟨hok, hb, rfl⟩

theorem hostReadDst_failed {s : State} (h : s.status ≠ .ok) : hostReadDst s = .error .hostReadRefused := by
  simp [hostReadDst, h]

/-- Settles O51: the guard of `hostWrite`, the frame of a taken write, and the guard of `hostReadDst`. -/
theorem hostMovesGuarded : Obligations.HostMovesGuarded := by
  refine ⟨fun w s t h => ?_, fun s a b c hb hs => ?_, fun s hb hs => ?_, fun w s => hostWrite_busy w,
    fun s bs h => ?_, fun c s hf hc => ?_⟩
  · obtain ⟨hb, hs, rfl⟩ := hostWrite_next h
    rw [applyHostWrite_frame w s]
    exact ⟨hb, hs, rfl, rfl, rfl, rfl, hb, rfl, rfl, rfl, rfl, rfl, rfl⟩
  · exact ⟨_, hostWrite_idle _ hb hs, Memory.read_write s.src a b c⟩
  · exact ⟨fun _ => hostWrite_idle _ hb hs, fun _ => hostWrite_idle _ hb hs, hostWrite_idle _ hb hs,
      fun _ => hostWrite_idle _ hb hs, fun _ _ => ⟨_, hostWrite_idle _ hb hs⟩, fun _ => hostWrite_idle _ hb hs,
      fun _ => hostWrite_idle _ hb hs⟩
  · obtain ⟨hok, hb, rfl⟩ := hostReadDst_ok h
    exact ⟨hok, hb, Memory.length_bytesFrom _ _ _⟩
  · obtain ⟨-, -, hstatus, -⟩ := hf
    exact hostReadDst_failed (hstatus ▸ status_ne_ok hc)

end Sys2Proof.Machine
end

section
/-! The bit reader (41 R217): it takes the next bits of the stream, and a reading that spells a code word takes exactly
that word. -/

namespace Sys2Proof

/-! ## Bit strings -/

@[simp] theorem length_natBits (n v : Nat) : (natBits n v).length = n := by
  induction n with
  | zero => rfl
  | succ n ih => rw [natBits, List.length_cons, ih]

@[simp] theorem length_bytesBits (bs : List Byte) : (bytesBits bs).length = 8 * bs.length := by
  induction bs with
  | nil => rfl
  | cons b bs ih => rw [bytesBits, List.length_append, ih, byteBits, length_natBits, List.length_cons]; omega

@[simp] theorem length_bits (r : BitSrc) : r.bits.length = r.nacc + 8 * r.bytes.length := by
  rw [BitSrc.bits, List.length_append, length_natBits, length_bytesBits]

theorem testBit_of_natBits_eq {n v w : Nat} (h : natBits n v = natBits n w) {i : Nat} (hi : i < n) :
    v.testBit i = w.testBit i := by
  induction n with
  | zero => omega
  | succ n ih =>
    obtain ⟨hbit, hrest⟩ := List.cons.inj h
    rcases Nat.lt_succ_iff_lt_or_eq.1 hi with hlt | rfl
    · exact ih hrest hlt
    · exact hbit

/-- A field of `n` bits names one value. -/
theorem natBits_injective {n v w : Nat} (hv : v < 2 ^ n) (hw : w < 2 ^ n) (h : natBits n v = natBits n w) : v = w := by
  refine Nat.eq_of_testBit_eq fun i => ?_
  rcases Nat.lt_or_ge i n with hi | hi
  · exact testBit_of_natBits_eq h hi
  · have hle := Nat.pow_le_pow_right Nat.two_pos hi
    rw [Nat.testBit_lt_two_pow (hv.trans_le hle), Nat.testBit_lt_two_pow (hw.trans_le hle)]

theorem natBits_add_two_pow (n w : Nat) : natBits n (2 ^ n + w) = natBits n w :=
  natBits_congr fun _ hi => Nat.testBit_two_pow_add_gt hi w

theorem natBits_succ_of_lt {n w : Nat} (h : w < 2 ^ n) : natBits (n + 1) w = false :: natBits n w := by
  rw [natBits, Nat.testBit_lt_two_pow h]

/-- The bits of a value, its leading bit taken off. -/
theorem natBits_succ_two_pow_add {n w : Nat} (h : w < 2 ^ n) : natBits (n + 1) (2 ^ n + w) = true :: natBits n w := by
  rw [natBits, natBits_add_two_pow, Nat.testBit_two_pow_add_eq, Nat.testBit_lt_two_pow h]
  rfl

/-! ## The primitive -/

/-- A refill moves bytes into the accumulator and keeps the bits. -/
theorem refill_bits (st : Stage) (nb : Nat) (bs : List Byte) (used : Nat) (acc : Word) (nacc : Nat) (hnb : nb ≤ 24) :
    match refill st nb bs used acc nacc with
    | .ok _ r => r.bits = natBits nacc acc.toNat ++ bytesBits bs ∧ nb ≤ r.nacc
    | .err e st' r => e = .truncated ∧ st' = st ∧ nacc + 8 * bs.length < nb ∧ r.bytes = [] := by
  induction bs generalizing used acc nacc with
  | nil =>
    unfold refill
    split_ifs with h
    · exact ⟨rfl, h⟩
    · exact ⟨rfl, rfl, Nat.lt_of_not_le h, rfl⟩
  | cons b bs ih =>
    unfold refill
    split_ifs with h
    · exact ⟨rfl, h⟩
    · have hshift : natBits (nacc + 8) ((acc <<< 8) ||| b.setWidth 32).toNat =
          natBits nacc acc.toNat ++ byteBits b := by
        rw [← BitVec.ofNat_toNat]
        exact natBits_shiftLeft_or (by omega) b.isLt
      have hrest := ih (used + 1) ((acc <<< 8) ||| b.setWidth 32) (nacc + 8)
      rw [hshift] at hrest
      split at hrest
      · rwa [bytesBits, ← List.append_assoc]
      · rw [List.length_cons]
        exact ⟨hrest.1, hrest.2.1, by omega, hrest.2.2.2⟩

/-- `getbits` takes the next `nb` bits, or reports that the stream is shorter (41 R217). -/
theorem getbits_spec (st : Stage) {nb : Nat} {r : BitSrc} (hnb : nb ≤ 16) (hr : r.Held) :
    match getbits st nb r with
    | .ok v r' => v < 2 ^ nb ∧ r.bits = natBits nb v ++ r'.bits
    | .err e st' r' => e = .truncated ∧ st' = st ∧ r.bits.length < nb ∧ r'.bytes = [] := by
  have hbits := refill_bits st nb r.bytes r.used r.acc r.nacc (by omega)
  have hnacc := refill_spec st nb r.bytes r.used r.acc r.nacc
  unfold getbits
  split at hbits
  next q heq =>
    rw [heq] at hnacc ⊢
    obtain ⟨hkeep, hle⟩ := hbits
    have hq : q.nacc ≤ nb + 7 := hnacc.2 (by have := hr.1; omega)
    refine ⟨toNat_lowBits_lt _ _, ?_⟩
    have hsplit := natBits_add nb (q.nacc - nb) q.acc.toNat
    rw [Nat.add_sub_cancel' hle, ← BitVec.toNat_ushiftRight] at hsplit
    calc r.bits = natBits q.nacc q.acc.toNat ++ bytesBits q.bytes := hkeep.symm
      _ = _ := by
        rw [hsplit, BitSrc.bits, natBits_lowBits _ (by omega), natBits_lowBits q.acc (n := q.nacc - nb) (by omega),
          List.append_assoc]
  next e st' q heq =>
    rw [heq]
    rw [length_bits]
    exact hbits

/-! ## Code words -/

/-- `f` reads `a` where the unread bits begin with the word `w`, takes exactly `w`, and where the stream ends inside `w`
it reports that. -/
structure Reads {α : Type} (f : BitSrc → Rd α) (w : List Bool) (a : α) : Prop where
  /-- The word stands there. -/
  ok : ∀ {r : BitSrc} {tail : List Bool}, r.Held → r.bits = w ++ tail →
    ∃ r', f r = .ok a r' ∧ r'.Held ∧ r'.bits = tail
  /-- The stream ends inside the word. -/
  cut : ∀ {r : BitSrc}, r.Held → r.bits <+: w → r.bits ≠ w → ∃ st r', f r = .err .truncated st r'

@[simp] theorem Rd.bind_ok {α β : Type} (a : α) (r : BitSrc) (f : α → BitSrc → Rd β) : (Rd.ok a r).bind f = f a r := rfl

theorem Rd.bind_eq_ok {α β : Type} {x : Rd α} {f : α → BitSrc → Rd β} {b : β} {r : BitSrc} (h : x.bind f = .ok b r) :
    ∃ a q, x = .ok a q ∧ f a q = .ok b r := by
  cases x with
  | ok a q => exact ⟨a, q, rfl, h⟩
  | err e st q => cases h

namespace Reads

variable {α β : Type}

theorem pure (a : α) : Reads (Rd.ok a) [] a where
  ok hr hbits := ⟨_, rfl, hr, hbits⟩
  cut _ hpre hne := absurd (List.prefix_nil.1 hpre) hne

/-- One word behind another. -/
theorem bind {f : BitSrc → Rd α} {g : α → BitSrc → Rd β} {w w' : List Bool} {a : α} {b : β} (h : Reads f w a)
    (h' : Reads (g a) w' b) : Reads (fun r => (f r).bind g) (w ++ w') b where
  ok {r tail} hr hbits := by
    rw [List.append_assoc] at hbits
    obtain ⟨q, hq, hheld, htail⟩ := h.ok hr hbits
    simp only [hq, Rd.bind_ok]
    exact h'.ok hheld htail
  cut {r} hr hpre hne := by
    rcases List.prefix_or_prefix_of_prefix hpre (List.prefix_append w w') with hfirst | ⟨tail, hbits⟩
    · by_cases heq : r.bits = w
      · obtain ⟨q, hq, hheld, hnil⟩ := h.ok hr (heq.trans (List.append_nil w).symm)
        simp only [hq, Rd.bind_ok]
        exact h'.cut hheld (hnil ▸ List.nil_prefix) fun he => hne (by rw [heq, ← he, hnil, List.append_nil])
      · obtain ⟨st, r', hf⟩ := h.cut hr hfirst heq
        exact ⟨st, r', by simp only [hf, Rd.bind]⟩
    · rw [← hbits, List.prefix_append_right_inj] at hpre
      obtain ⟨q, hq, hheld, hqbits⟩ := h.ok hr hbits.symm
      simp only [hq, Rd.bind_ok]
      exact h'.cut hheld (hqbits ▸ hpre) fun he => hne (by rw [← hbits, ← he, hqbits])

/-- The value, worked on without reading. -/
theorem map {f : BitSrc → Rd α} {w : List Bool} {a : α} (h : Reads f w a) (g : α → β) :
    Reads (fun r => (f r).bind fun a r => .ok (g a) r) w (g a) :=
  List.append_nil w ▸ h.bind (pure (g a))

end Reads

/-- A field of `nb` bits. -/
theorem reads_getbits (st : Stage) {nb v : Nat} (hnb : nb ≤ 16) (hv : v < 2 ^ nb) :
    Reads (getbits st nb) (natBits nb v) v where
  ok {r tail} hr hbits := by
    have hspec := getbits_spec st hnb hr
    have hheld := getbits_readsFrom st nb r
    cases hget : getbits st nb r with
    | ok u r' =>
      rw [hget] at hspec hheld
      obtain ⟨hu, hsplit⟩ := hspec
      obtain ⟨hfield, hrest⟩ := List.append_inj (hbits.symm.trans hsplit) (by rw [length_natBits, length_natBits])
      rw [natBits_injective hv hu hfield]
      exact ⟨r', rfl, hheld.2 hr, hrest.symm⟩
    | err e st' r' =>
      rw [hget, hbits] at hspec
      obtain ⟨-, -, hlen, -⟩ := hspec
      simp at hlen
  cut {r} hr hpre hne := by
    have hlen : r.bits.length < nb := by
      have := hpre.length_le
      rw [length_natBits] at this
      exact lt_of_le_of_ne this fun h => hne (hpre.eq_of_length (by rw [h, length_natBits]))
    have hspec := getbits_spec st hnb hr
    split at hspec
    next heq =>
      rw [hspec.2] at hlen
      simp at hlen
    next e st' r' heq => exact ⟨st', r', by rw [heq, hspec.1]⟩

theorem getbits_lt {st : Stage} {nb v : Nat} {r r' : BitSrc} (h : getbits st nb r = .ok v r') : v < 2 ^ nb := by
  obtain ⟨_, q, -, hv⟩ := Rd.bind_eq_ok h
  cases hv
  exact toNat_lowBits_lt _ _

/-- A field that was read stood there. -/
theorem bits_of_getbits {st : Stage} {nb v : Nat} {r r' : BitSrc} (hnb : nb ≤ 16) (hr : r.Held)
    (h : getbits st nb r = .ok v r') : r.bits = natBits nb v ++ r'.bits ∧ r'.Held := by
  have hspec := getbits_spec st hnb hr
  have hheld := getbits_readsFrom st nb r
  rw [h] at hspec hheld
  exact ⟨hspec.2, hheld.2 hr⟩

theorem reads_zero (st : Stage) : Reads (getbits st 1) [false] 0 :=
  reads_getbits (nb := 1) (v := 0) st (by decide) (by decide)

theorem reads_one (st : Stage) : Reads (getbits st 1) [true] 1 :=
  reads_getbits (nb := 1) (v := 1) st (by decide) (by decide)

theorem reads_bit (st : Stage) (b : Bool) : Reads (getbits st 1) [b] b.toNat := by
  cases b
  · exact reads_zero st
  · exact reads_one st

/-! ## The NUM code (30 R146, 45 R395) -/

theorem bitlen_two_pow_add {z w : Nat} (h : w < 2 ^ z) : bitlen (2 ^ z + w) = z + 1 := by
  have hne : 2 ^ z + w ≠ 0 := by have := Nat.two_pow_pos z; omega
  rw [bitlen, if_neg hne, (Nat.log2_eq_iff hne).2 ⟨Nat.le_add_right _ _, by rw [Nat.pow_succ]; omega⟩]

/-- The word of a number, its leading bit taken off. -/
theorem numBits_eq {v z w : Nat} (hv : v + 1 = 2 ^ z + w) (hw : w < 2 ^ z) :
    numBits v = List.replicate z false ++ true :: natBits z w := by
  rw [numBits, hv, bitlen_two_pow_add hw, natBits_succ_two_pow_add hw, Nat.add_sub_cancel]

theorem exists_two_pow_add {m : Nat} (h : m ≠ 0) : ∃ z w, m = 2 ^ z + w ∧ w < 2 ^ z := by
  have h1 := Nat.log2_self_le h
  have h2 := Nat.lt_log2_self (n := m)
  rw [Nat.pow_succ] at h2
  exact ⟨m.log2, m - 2 ^ m.log2, by omega, by omega⟩

theorem reads_countZeros {z j k : Nat} (h : j ≤ k) :
    Reads (countZeros z k) (List.replicate j false ++ [true]) (z + j) := by
  induction j generalizing z k with
  | zero =>
    cases k with
    | zero => exact (reads_one .none).bind (Reads.pure z)
    | succ k => exact (reads_one .none).bind (Reads.pure z)
  | succ j ih =>
    obtain ⟨k, rfl⟩ : ∃ i, k = i + 1 := ⟨k - 1, by omega⟩
    rw [← Nat.add_assoc, Nat.add_right_comm]
    exact (reads_zero .none).bind (ih (by omega))

theorem reads_appendBits (m : Nat) {k w : Nat} (hw : w < 2 ^ k) :
    Reads (appendBits m k) (natBits k w) (m * 2 ^ k + w) := by
  induction k generalizing m w with
  | zero =>
    obtain rfl : w = 0 := by omega
    exact (by omega : m = m * 2 ^ 0 + 0) ▸ Reads.pure m
  | succ k ih =>
    rcases Nat.lt_or_ge w (2 ^ k) with hlt | hge
    · rw [natBits_succ_of_lt hlt, (by rw [Nat.pow_succ]; ring : m * 2 ^ (k + 1) + w = (m * 2 + 0) * 2 ^ k + w)]
      exact (reads_zero .none).bind (g := fun b r => appendBits (m * 2 + b) k r) (ih _ hlt)
    · obtain ⟨u, rfl⟩ := Nat.exists_eq_add_of_le hge
      have hu : u < 2 ^ k := by rw [Nat.pow_succ] at hw; omega
      rw [natBits_succ_two_pow_add hu,
        (by rw [Nat.pow_succ]; ring : m * 2 ^ (k + 1) + (2 ^ k + u) = (m * 2 + 1) * 2 ^ k + u)]
      exact (reads_one .none).bind (g := fun b r => appendBits (m * 2 + b) k r) (ih _ hu)

theorem reads_getnum {v : Nat} (h : v ≤ 65534) : Reads getnum (numBits v) v := by
  obtain ⟨z, w, hm, hw⟩ := exists_two_pow_add (Nat.succ_ne_zero v)
  have hz : z ≤ 15 := by
    by_contra hlt
    have : 2 ^ 16 ≤ 2 ^ z := Nat.pow_le_pow_right Nat.two_pos (by omega)
    omega
  have hword := (reads_countZeros (z := 0) hz).bind
    (g := fun z r => (appendBits 1 z r).bind fun m r => .ok (m - 1) r)
    ((Nat.zero_add z).symm ▸ (reads_appendBits 1 hw).map (· - 1))
  rw [numBits_eq hm hw, List.append_cons]
  rw [Nat.zero_add, Nat.one_mul, ← hm] at hword
  exact hword

theorem bits_of_countZeros {z k n : Nat} {r r' : BitSrc} (hr : r.Held) (h : countZeros z k r = .ok n r') :
    ∃ j ≤ k, n = z + j ∧ r.bits = List.replicate j false ++ true :: r'.bits ∧ r'.Held := by
  induction k generalizing z r with
  | zero =>
    obtain ⟨b, q, hget, h⟩ := Rd.bind_eq_ok h
    obtain ⟨hbits, hheld⟩ := bits_of_getbits (by decide) hr hget
    have hb := getbits_lt hget
    split_ifs at h with h0
    cases h
    obtain rfl : b = 1 := by omega
    exact ⟨0, le_rfl, rfl, hbits, hheld⟩
  | succ k ih =>
    obtain ⟨b, q, hget, h⟩ := Rd.bind_eq_ok h
    obtain ⟨hbits, hheld⟩ := bits_of_getbits (by decide) hr hget
    have hb := getbits_lt hget
    split_ifs at h with h0
    · subst h0
      obtain ⟨j, hj, rfl, hq, hheld'⟩ := ih hheld h
      exact ⟨j + 1, by omega, by omega, by rw [hbits, hq]; rfl, hheld'⟩
    · cases h
      obtain rfl : b = 1 := by omega
      exact ⟨0, by omega, rfl, hbits, hheld⟩

theorem bits_of_appendBits {m k n : Nat} {r r' : BitSrc} (hr : r.Held) (h : appendBits m k r = .ok n r') :
    ∃ w < 2 ^ k, n = m * 2 ^ k + w ∧ r.bits = natBits k w ++ r'.bits ∧ r'.Held := by
  induction k generalizing m r with
  | zero => cases h; exact ⟨0, by decide, by simp, rfl, hr⟩
  | succ k ih =>
    obtain ⟨b, q, hget, h⟩ := Rd.bind_eq_ok h
    obtain ⟨hbits, hheld⟩ := bits_of_getbits (by decide) hr hget
    have hb := getbits_lt hget
    obtain ⟨w, hw, rfl, hq, hheld'⟩ := ih hheld h
    rw [hq] at hbits
    obtain rfl | rfl : b = 0 ∨ b = 1 := by omega
    · refine ⟨w, by rw [Nat.pow_succ]; omega, by rw [Nat.pow_succ]; ring, ?_, hheld'⟩
      rw [hbits, natBits_succ_of_lt hw]
      rfl
    · refine ⟨2 ^ k + w, by rw [Nat.pow_succ]; omega, by rw [Nat.pow_succ]; ring, ?_, hheld'⟩
      rw [hbits, natBits_succ_two_pow_add hw]
      rfl

/-- A number that was read stood there. -/
theorem bits_of_getnum {v : Nat} {r r' : BitSrc} (hr : r.Held) (h : getnum r = .ok v r') :
    r.bits = numBits v ++ r'.bits ∧ r'.Held := by
  obtain ⟨z, q, hz, h⟩ := Rd.bind_eq_ok h
  obtain ⟨m, p, hm, h⟩ := Rd.bind_eq_ok h
  cases h
  obtain ⟨j, -, rfl, hq, hheld⟩ := bits_of_countZeros hr hz
  obtain ⟨w, hw, rfl, hp, hheld'⟩ := bits_of_appendBits hheld hm
  rw [Nat.zero_add] at hp hw
  have := Nat.two_pow_pos j
  refine ⟨?_, hheld'⟩
  rw [numBits_eq (z := j) (w := w) (by rw [Nat.zero_add]; omega) hw, hq, hp]
  simp

end Sys2Proof
end

section
/-! Words of whole bytes: the RefPack commands (30 R131 to R136) and the BinaryTree items (30 R141). -/

namespace Sys2Proof

@[simp] theorem getByte_cons (b : Byte) (bs : List Byte) (used : Nat) (acc : Word) (nacc : Nat) :
    getByte ⟨b :: bs, used, acc, nacc⟩ = .ok b ⟨bs, used + 1, acc, nacc⟩ := rfl

@[simp] theorem toNat_toByte (v : Nat) : (toByte v).toNat = v % 256 := rfl

/-! ## RefPack commands -/

section
variable {P L D : Nat} (rest : List Byte) (used : Nat) (acc : Word) (nacc : Nat)

theorem decodeRp_encode_short (hP : P ≤ 3) (hL : 3 ≤ L ∧ L ≤ 10) (hD : 1 ≤ D ∧ D ≤ 1024) :
    decodeRp ⟨encodeRp (.rpShort P L D) ++ rest, used, acc, nacc⟩ =
      .ok (.rpShort P L D) ⟨rest, used + 2, acc, nacc⟩ := by
  have hb0 : (toByte ((D - 1) / 256 * 32 + (L - 3) * 4 + P)).toNat = (D - 1) / 256 * 32 + (L - 3) * 4 + P := by
    rw [toNat_toByte, Nat.mod_eq_of_lt (by omega)]
  simp only [decodeRp, encodeRp, List.cons_append, List.nil_append, getByte_cons, Rd.bind_ok, hb0, toNat_toByte]
  rw [if_pos (by omega)]
  congr 2 <;> omega

theorem decodeRp_encode_int (hP : P ≤ 3) (hL : 4 ≤ L ∧ L ≤ 67) (hD : 1 ≤ D ∧ D ≤ 16384) :
    decodeRp ⟨encodeRp (.rpInt P L D) ++ rest, used, acc, nacc⟩ = .ok (.rpInt P L D) ⟨rest, used + 3, acc, nacc⟩ := by
  have hb0 : (toByte (0x80 + (L - 4))).toNat = 0x80 + (L - 4) := by rw [toNat_toByte, Nat.mod_eq_of_lt (by omega)]
  simp only [decodeRp, encodeRp, List.cons_append, List.nil_append, getByte_cons, Rd.bind_ok, hb0, toNat_toByte]
  rw [if_neg (by omega), if_pos (by omega)]
  congr 2 <;> omega

theorem decodeRp_encode_long (hP : P ≤ 3) (hL : 5 ≤ L ∧ L ≤ 1028) (hD : 1 ≤ D ∧ D ≤ 131072) :
    decodeRp ⟨encodeRp (.rpLong P L D) ++ rest, used, acc, nacc⟩ = .ok (.rpLong P L D) ⟨rest, used + 4, acc, nacc⟩ := by
  have hb0 : (toByte (0xC0 + (D - 1) / 65536 * 16 + (L - 5) / 256 * 4 + P)).toNat =
      0xC0 + (D - 1) / 65536 * 16 + (L - 5) / 256 * 4 + P := by
    rw [toNat_toByte, Nat.mod_eq_of_lt (by omega)]
  simp only [decodeRp, encodeRp, List.cons_append, List.nil_append, getByte_cons, Rd.bind_ok, hb0, toNat_toByte]
  rw [if_neg (by omega), if_neg (by omega), if_pos (by omega)]
  congr 2 <;> omega

theorem decodeRp_encode_literal (hP : 4 ≤ P ∧ P ≤ 112) (h4 : P % 4 = 0) :
    decodeRp ⟨encodeRp (.rpLiteral P) ++ rest, used, acc, nacc⟩ = .ok (.rpLiteral P) ⟨rest, used + 1, acc, nacc⟩ := by
  have hb0 : (toByte (0xE0 + P / 4 - 1)).toNat = 0xE0 + P / 4 - 1 := by rw [toNat_toByte, Nat.mod_eq_of_lt (by omega)]
  simp only [decodeRp, encodeRp, List.cons_append, List.nil_append, getByte_cons, Rd.bind_ok, hb0]
  rw [if_neg (by omega), if_neg (by omega), if_neg (by omega), if_pos (by omega)]
  congr 2; omega

theorem decodeRp_encode_eof (hP : P ≤ 3) :
    decodeRp ⟨encodeRp (.rpEof P) ++ rest, used, acc, nacc⟩ = .ok (.rpEof P) ⟨rest, used + 1, acc, nacc⟩ := by
  have hb0 : (toByte (Config.rpEofBase + P)).toNat = 0xFC + P := by
    rw [Config.rpEofBase, toNat_toByte, Nat.mod_eq_of_lt (by omega)]
  simp only [decodeRp, encodeRp, List.cons_append, List.nil_append, getByte_cons, Rd.bind_ok, hb0]
  rw [if_neg (by omega), if_neg (by omega), if_neg (by omega), if_neg (by omega)]
  congr 2; omega

end

/-- Settles O3: each form's first byte lies in the form's own range, and the fields are read back from their places. -/
theorem refPackDecodeOfEncode : Obligations.RefPackDecodeOfEncode := by
  intro i hi rest used acc nacc
  refine ⟨rfl, ?_⟩
  change wellFormedRp i = true at hi
  show decodeRp _ = _
  cases i with
  | rpShort P L D =>
    simp only [wellFormedRp, Bool.and_eq_true, decide_eq_true_eq] at hi
    obtain ⟨⟨⟨⟨hP, hL⟩, hL'⟩, hD⟩, hD'⟩ := hi
    exact decodeRp_encode_short rest used acc nacc hP ⟨hL, hL'⟩ ⟨hD, hD'⟩
  | rpInt P L D =>
    simp only [wellFormedRp, Bool.and_eq_true, decide_eq_true_eq] at hi
    obtain ⟨⟨⟨⟨hP, hL⟩, hL'⟩, hD⟩, hD'⟩ := hi
    exact decodeRp_encode_int rest used acc nacc hP ⟨hL, hL'⟩ ⟨hD, hD'⟩
  | rpLong P L D =>
    simp only [wellFormedRp, Bool.and_eq_true, decide_eq_true_eq] at hi
    obtain ⟨⟨⟨⟨hP, hL⟩, hL'⟩, hD⟩, hD'⟩ := hi
    exact decodeRp_encode_long rest used acc nacc hP ⟨hL, hL'⟩ ⟨hD, hD'⟩
  | rpLiteral P =>
    simp only [wellFormedRp, Bool.and_eq_true, decide_eq_true_eq] at hi
    obtain ⟨⟨hP, hP'⟩, h4⟩ := hi
    exact decodeRp_encode_literal rest used acc nacc ⟨hP, hP'⟩ h4
  | rpEof P => exact decodeRp_encode_eof rest used acc nacc (of_decide_eq_true hi)
  | _ => cases hi

/-! ## BinaryTree items -/

/-- Settles O4: the clue is tested first, and no leaf or node is the clue. -/
theorem binaryTreeDecodeOfEncode : Obligations.BinaryTreeDecodeOfEncode := by
  intro clue isNode i hi rest used acc nacc
  change wellFormedBt clue isNode i = true at hi
  show decodeBt clue isNode _ = _
  cases i with
  | btLeaf b =>
    obtain ⟨hne, hleaf⟩ : b ≠ clue ∧ isNodeByte isNode b = false := by simpa [wellFormedBt] using hi
    simp [decodeBt, encodeBt, hne, hleaf]
  | btNode b =>
    obtain ⟨hne, hnode⟩ : b ≠ clue ∧ isNodeByte isNode b = true := by simpa [wellFormedBt] using hi
    simp [decodeBt, encodeBt, hne, hnode]
  | btEsc c e =>
    obtain ⟨rfl, he⟩ : c = clue ∧ e ≠ 0#8 := by simpa [wellFormedBt] using hi
    simp [decodeBt, encodeBt, he]
  | btEnd c =>
    obtain rfl : c = clue := by simpa [wellFormedBt] using hi
    simp [decodeBt, encodeBt]
  | _ => cases hi

/-! ## Words written out -/

/-- Settles O2: each word is read by evaluation. -/
theorem writtenWordsDecode : Obligations.WrittenWordsDecode := by
  unfold Obligations.WrittenWordsDecode
  decide +kernel

end Sys2Proof
end

section
/-! The Huffman items (30 R147): the canonical code (45 R375) read bit by bit (45 R398). -/

namespace Sys2Proof

/-! ## The canonical code -/

section
variable {m n l code len first idx : Nat} {ns : List Nat}

theorem codeAt_cons_of_lt (h : m < idx + n) :
    HrTab.codeAt m (n :: ns) len first idx = some (len, first + (m - idx)) := by rw [HrTab.codeAt, if_pos h]

theorem codeAt_cons_of_ge (h : idx + n ≤ m) :
    HrTab.codeAt m (n :: ns) len first idx = HrTab.codeAt m ns (len + 1) ((first + n) * 2) (idx + n) := by
  rw [HrTab.codeAt, if_neg (Nat.not_lt.2 h)]

/-- Every position below the number of symbols has a code. -/
theorem isSome_codeAt (h : m < idx + ns.sum) (hidx : idx ≤ m) : (HrTab.codeAt m ns len first idx).isSome = true := by
  induction ns generalizing len first idx with
  | nil => rw [List.sum_nil] at h; omega
  | cons n ns ih =>
    rcases Nat.lt_or_ge m (idx + n) with hm | hm
    · rw [codeAt_cons_of_lt hm]; rfl
    · rw [codeAt_cons_of_ge hm]
      rw [List.sum_cons] at h
      exact ih (by omega) hm

/-- A code starts at or behind the first code of the length tried, as far as its high bits go. -/
theorem first_le_of_codeAt (h : HrTab.codeAt m ns len first idx = some (l, code)) :
    ∃ k, l = len + k ∧ first * 2 ^ k ≤ code := by
  induction ns generalizing len first idx with
  | nil => cases h
  | cons n ns ih =>
    rcases Nat.lt_or_ge m (idx + n) with hm | hm
    · rw [codeAt_cons_of_lt hm] at h
      cases h
      exact ⟨0, rfl, by omega⟩
    · rw [codeAt_cons_of_ge hm] at h
      obtain ⟨k, hl, hle⟩ := ih h
      refine ⟨k + 1, by omega, ?_⟩
      calc first * 2 ^ (k + 1) ≤ (first + n) * 2 * 2 ^ k := by
            rw [Nat.pow_succ, Nat.mul_comm (2 ^ k), ← Nat.mul_assoc]
            exact Nat.mul_le_mul_right _ (Nat.mul_le_mul_right _ (Nat.le_add_right _ _))
        _ ≤ code := hle

/-- By Kraft's sum (45 R396) a code fits its length. -/
theorem code_lt_of_codeAt (h : HrTab.codeAt m ns len first idx = some (l, code)) (hidx : idx ≤ m)
    (hk : first * 2 ^ ns.length + 2 * HrTab.kraft ns ≤ 2 ^ (len + ns.length)) : code < 2 ^ l := by
  induction ns generalizing len first idx with
  | nil => cases h
  | cons n ns ih =>
    rw [List.length_cons, HrTab.kraft] at hk
    rcases Nat.lt_or_ge m (idx + n) with hm | hm
    · rw [codeAt_cons_of_lt hm] at h
      cases h
      have hroom : (first + n) * 2 ^ (ns.length + 1) ≤ 2 ^ l * 2 ^ (ns.length + 1) := by
        rw [← Nat.pow_add]
        refine le_trans ?_ hk
        rw [Nat.pow_succ, Nat.add_mul]
        have : n * (2 ^ ns.length * 2) = 2 * (n * 2 ^ ns.length) := by ring
        omega
      have := Nat.le_of_mul_le_mul_right hroom (Nat.two_pow_pos _)
      omega
    · rw [codeAt_cons_of_ge hm] at h
      refine ih h hm ?_
      have hl : len + 1 + ns.length = len + (ns.length + 1) := by omega
      have hsum : (first + n) * 2 * 2 ^ ns.length + 2 * HrTab.kraft ns =
          first * 2 ^ (ns.length + 1) + 2 * (n * 2 ^ ns.length + HrTab.kraft ns) := by rw [Nat.pow_succ]; ring
      rw [hl, hsum]
      exact hk

/-- `getsym` with the high bits of a code read goes on through the rest of it. -/
theorem reads_getsymFrom (syms : List Byte) {k : Nat} (h : HrTab.codeAt m ns len first idx = some (len + k, code))
    (hidx : idx ≤ m) :
    Reads (getsymFrom syms ns (code / 2 ^ (k + 1)) first idx) (natBits (k + 1) code) (syms.getD m 0) := by
  induction ns generalizing len first idx k with
  | nil => cases h
  | cons n ns ih =>
    have hnext : code / 2 ^ (k + 1) * 2 + (code.testBit k).toNat = code / 2 ^ k := by
      rw [Nat.toNat_testBit, Nat.pow_succ, ← Nat.div_div_eq_div_mul]
      omega
    refine (reads_bit .none (code.testBit k)).bind (w' := natBits k code) ?_
    dsimp only
    rw [hnext]
    rcases Nat.lt_or_ge m (idx + n) with hm | hm
    · rw [codeAt_cons_of_lt hm, Option.some.injEq, Prod.mk.injEq] at h
      obtain ⟨hk, rfl⟩ := h
      obtain rfl : k = 0 := by omega
      rw [Nat.pow_zero, Nat.div_one]
      have hat : idx + (first + (m - idx) - first) = m := by omega
      simp only [hat, if_pos (show 0 < n ∧ first ≤ first + (m - idx) ∧ first + (m - idx) < first + n by omega)]
      exact Reads.pure _
    · rw [codeAt_cons_of_ge hm] at h
      obtain ⟨j, hj, hle⟩ := first_le_of_codeAt h
      obtain rfl : k = j + 1 := by omega
      have hbehind : first + n ≤ code / 2 ^ (j + 1) := by
        rw [Nat.le_div_iff_mul_le (Nat.two_pow_pos _), Nat.pow_succ, Nat.mul_comm (2 ^ j), ← Nat.mul_assoc]
        exact hle
      simp only [if_neg (show ¬(0 < n ∧ first ≤ code / 2 ^ (j + 1) ∧ code / 2 ^ (j + 1) < first + n) by omega)]
      exact ih (by rw [h, Nat.add_right_comm, Nat.add_assoc]) hm

end

/-! ## Valid tables -/

/-- What `HrTab.valid` says (45 R396, R397). -/
structure HrTab.Valid (t : HrTab) : Prop where
  maxlen_pos : 1 ≤ t.maxlen
  maxlen_le : t.maxlen ≤ Config.hrMaxBits
  length_bl : t.bl.length = t.maxlen
  sum_bl : t.bl.sum = t.syms.length
  nodup : t.syms.Nodup
  kraft_le : HrTab.kraft t.bl ≤ 2 ^ t.maxlen
  clue_mem : t.clue ∈ t.syms

theorem HrTab.valid_iff (t : HrTab) : t.valid = true ↔ t.Valid := by
  simp only [HrTab.valid, Bool.and_eq_true, decide_eq_true_eq, List.contains_iff_mem]
  exact ⟨fun ⟨⟨⟨⟨⟨⟨h1, h2⟩, h3⟩, h4⟩, h5⟩, h6⟩, h7⟩ => ⟨h1, h2, h3, h4, h5, h6, h7⟩,
    fun ⟨h1, h2, h3, h4, h5, h6, h7⟩ => ⟨⟨⟨⟨⟨⟨h1, h2⟩, h3⟩, h4⟩, h5⟩, h6⟩, h7⟩⟩

theorem HrTab.codeOf_eq_some {t : HrTab} {s : Byte} {p : Nat × Nat} (h : t.codeOf s = some p) :
    s ∈ t.syms ∧ HrTab.codeAt (t.syms.idxOf s) t.bl 1 0 0 = some p := by
  unfold HrTab.codeOf at h
  split_ifs at h with hs
  exact ⟨List.contains_iff_mem.1 hs, h⟩

/-- Under a valid table exactly the listed symbols have a code. -/
theorem HrTab.Valid.isSome_codeOf {t : HrTab} (h : t.Valid) {s : Byte} (hs : s ∈ t.syms) :
    (t.codeOf s).isSome = true := by
  rw [HrTab.codeOf, if_pos (List.contains_iff_mem.2 hs)]
  refine isSome_codeAt ?_ (Nat.zero_le _)
  rw [Nat.zero_add, h.sum_bl]
  exact List.idxOf_lt_length_of_mem hs

theorem HrTab.Valid.reads_getsym {t : HrTab} (h : t.Valid) {s : Byte} (hs : (t.codeOf s).isSome = true) :
    Reads (getsym t) (hrCodeBits t s) s := by
  obtain ⟨⟨l, code⟩, hcode⟩ := Option.isSome_iff_exists.1 hs
  obtain ⟨hmem, hat⟩ := HrTab.codeOf_eq_some hcode
  have hlt : code < 2 ^ l := by
    refine code_lt_of_codeAt hat (Nat.zero_le _) ?_
    rw [h.length_bl, Nat.zero_mul, Nat.zero_add, Nat.pow_add, Nat.pow_one]
    exact Nat.mul_le_mul_left _ h.kraft_le
  obtain ⟨k, rfl, -⟩ := first_le_of_codeAt hat
  have hword := reads_getsymFrom t.syms hat (Nat.zero_le _)
  rw [Nat.add_comm k 1, Nat.div_eq_of_lt hlt, List.getD_eq_getElem _ _ (List.idxOf_lt_length_of_mem hmem),
    List.getElem_idxOf] at hword
  rw [hrCodeBits, hcode]
  exact hword

/-! ## The items -/

/-- The clue's word, then the items it opens (45 R393). -/
theorem HrTab.Valid.reads_decodeHr {t : HrTab} (h : t.Valid) {i : Instr} (hi : wellFormedHr t i = true) :
    Reads (decodeHr t) (encodeHr t i) i := by
  cases i with
  | hrLit s =>
    obtain ⟨hne, hcode⟩ : s ≠ t.clue ∧ (t.codeOf s).isSome = true := by simpa [wellFormedHr] using hi
    rw [encodeHr, ← List.append_nil (hrCodeBits t s)]
    refine (h.reads_getsym hcode).bind ?_
    simp only [if_pos hne]
    exact Reads.pure _
  | hrRun k =>
    obtain ⟨⟨hk, hk'⟩, hcode⟩ : (1 ≤ k ∧ k ≤ 65534) ∧ (t.codeOf t.clue).isSome = true := by
      simpa [wellFormedHr] using hi
    refine (h.reads_getsym hcode).bind ?_
    simp only [ne_eq, not_true_eq_false, if_false]
    rw [← List.append_nil (numBits k)]
    refine (reads_getnum hk').bind ?_
    simp only [if_pos hk]
    exact Reads.pure _
  | hrEsc b =>
    rw [encodeHr, List.append_assoc, List.append_assoc]
    refine (h.reads_getsym hi).bind ?_
    simp only [ne_eq, not_true_eq_false, if_false]
    refine (reads_getnum (by decide)).bind ?_
    simp only [if_neg (show ¬1 ≤ 0 by decide)]
    refine (reads_zero .none).bind ?_
    simp only [zero_ne_one, if_false]
    have hbyte := (reads_getbits .none (by decide) b.isLt).map fun e => Instr.hrEsc (BitVec.ofNat 8 e)
    rwa [BitVec.ofNat_toNat, BitVec.setWidth_eq] at hbyte
  | hrEof =>
    rw [encodeHr, List.append_assoc]
    refine (h.reads_getsym hi).bind ?_
    simp only [ne_eq, not_true_eq_false, if_false]
    refine (reads_getnum (by decide)).bind ?_
    simp only [if_neg (show ¬1 ≤ 0 by decide)]
    rw [← List.append_nil [true]]
    exact (reads_one .none).bind (Reads.pure _)
  | _ => cases hi

/-- Settles O5: the codes of a valid table are read back, and behind the clue the number and the bits that follow. -/
theorem huffmanDecodeOfEncode : Obligations.HuffmanDecodeOfEncode := by
  intro t ht i hi r tail hnacc hacc hbits
  obtain ⟨r', hdec, ⟨hnacc', hacc'⟩, htail⟩ := ((t.valid_iff.1 ht).reads_decodeHr hi).ok ⟨hnacc, hacc⟩ hbits
  exact ⟨r', hdec, htail, hnacc', hacc'⟩

end Sys2Proof
end

section
/-! The LightZhl symbols with their fields (30 R150 to R155, 46 R444, R445, R451). -/

namespace Sys2Proof

/-! ## Group tables -/

/-- What `LzTab.valid` says (46 R440, R442, R444). -/
structure LzTab.Valid (t : LzTab) : Prop where
  length_order : t.order.length = Config.lzNsym
  nodup : t.order.Nodup
  order_lt : ∀ s ∈ t.order, s < Config.lzNsym
  length_nbits : t.nbits.length = Config.lzGroups
  nbits_le : ∀ w ∈ t.nbits, w ≤ Config.lzMaxWidth
  base_eq : t.base = lzBase t.nbits

theorem LzTab.valid_iff (t : LzTab) : t.valid = true ↔ t.Valid := by
  simp only [LzTab.valid, Bool.and_eq_true, decide_eq_true_eq, List.all_eq_true]
  exact ⟨fun ⟨⟨⟨⟨⟨h1, h2⟩, h3⟩, h4⟩, h5⟩, h6⟩ => ⟨h1, h2, h3, h4, h5, h6⟩,
    fun ⟨h1, h2, h3, h4, h5, h6⟩ => ⟨⟨⟨⟨⟨h1, h2⟩, h3⟩, h4⟩, h5⟩, h6⟩⟩

theorem lzBaseFrom_succ (b : Nat) {ws : List Nat} {g : Nat} (h : g + 1 < ws.length) :
    (lzBaseFrom b ws).getD (g + 1) 0 = (lzBaseFrom b ws).getD g 0 + 2 ^ ws.getD g 0 := by
  induction ws generalizing b g with
  | nil => cases h
  | cons w ws ih =>
    cases g with
    | zero =>
      cases ws with
      | nil => exact absurd h (Nat.lt_irrefl 1)
      | cons w' ws => rfl
    | succ g => exact ih (b + 2 ^ w) (Nat.lt_of_succ_lt_succ h)

namespace LzTab

variable {t : LzTab}

theorem Valid.width_le (h : t.Valid) (g : Nat) : t.width g ≤ Config.lzMaxWidth := by
  rw [LzTab.width]
  rcases Nat.lt_or_ge g t.nbits.length with hg | hg
  · rw [List.getD_eq_getElem _ _ hg]
    exact h.nbits_le _ (List.getElem_mem hg)
  · rw [List.getD_eq_default _ _ hg]
    exact Nat.zero_le _

theorem Valid.start_zero (h : t.Valid) : t.start 0 = 0 := by
  rw [LzTab.start, h.base_eq, lzBase]
  cases t.nbits <;> rfl

theorem Valid.start_succ (h : t.Valid) {g : Nat} (hg : g < 15) : t.start (g + 1) = t.start g + 2 ^ t.width g := by
  rw [LzTab.start, LzTab.start, LzTab.width, h.base_eq]
  exact lzBaseFrom_succ 0 (by rw [h.length_nbits]; exact Nat.succ_lt_succ hg)

theorem Valid.start_mono (h : t.Valid) {g k : Nat} (hgk : g ≤ k) (hk : k ≤ 15) : t.start g ≤ t.start k := by
  induction k, hgk using Nat.le_induction with
  | base => exact le_rfl
  | succ k _ ih =>
    rw [h.start_succ hk]
    exact (ih (by omega)).trans (Nat.le_add_right _ _)

theorem groupOf_le (t : LzTab) (p n : Nat) : t.groupOf p n ≤ n := by
  induction n with
  | zero => exact le_rfl
  | succ n ih =>
    unfold LzTab.groupOf
    split_ifs
    · exact le_rfl
    · exact Nat.le_succ_of_le ih

theorem Valid.start_groupOf_le (h : t.Valid) (p n : Nat) : t.start (t.groupOf p n) ≤ p := by
  induction n with
  | zero => exact h.start_zero.trans_le (Nat.zero_le p)
  | succ n ih =>
    unfold LzTab.groupOf
    split_ifs with hle
    · exact hle
    · exact ih

theorem groupOf_eq {p g n : Nat} (hgn : g ≤ n) (hg : t.start g ≤ p) (hnext : ∀ k, g < k → k ≤ n → p < t.start k) :
    t.groupOf p n = g := by
  induction n with
  | zero => exact (Nat.le_zero.1 hgn).symm
  | succ n ih =>
    rcases Nat.lt_or_ge n g with hlt | hge
    · obtain rfl : g = n + 1 := by omega
      rw [LzTab.groupOf, if_pos hg]
    · rw [LzTab.groupOf, if_neg (Nat.not_le.2 (hnext _ (by omega) le_rfl))]
      exact ih hge fun k hk hkn => hnext k hk (by omega)

/-- The symbol at a position within a group's width has the group and the index for its code. -/
theorem Valid.codeOf_getD (h : t.Valid) {g i : Nat} (hg : g < 16) (hi : i < 2 ^ t.width g)
    (hp : t.start g + i < Config.lzNsym) : t.codeOf (t.order.getD (t.start g + i) 0) = some (g, i) := by
  have hlen : t.start g + i < t.order.length := h.length_order ▸ hp
  have hpos : t.order.idxOf (t.order.getD (t.start g + i) 0) = t.start g + i := by
    rw [List.getD_eq_getElem _ _ hlen]
    exact h.nodup.idxOf_getElem _ hlen
  have hgroup : t.groupOf (t.start g + i) 15 = g := by
    refine groupOf_eq (by omega) (Nat.le_add_right _ _) fun k hgk hk => ?_
    calc t.start g + i < t.start g + 2 ^ t.width g := Nat.add_lt_add_left hi _
      _ = t.start (g + 1) := (h.start_succ (by omega)).symm
      _ ≤ t.start k := h.start_mono hgk hk
  simp only [LzTab.codeOf, hpos, hgroup, Nat.add_sub_cancel_left]
  rw [if_pos ⟨hlen, hi⟩]

/-- The code of a symbol leads to its position. -/
theorem Valid.codeOf_eq_some (h : t.Valid) {s g i : Nat} (hs : t.codeOf s = some (g, i)) :
    g < 16 ∧ i < 2 ^ t.width g ∧ t.start g + i < Config.lzNsym ∧ t.order.getD (t.start g + i) 0 = s := by
  simp only [LzTab.codeOf] at hs
  split_ifs at hs with hp
  cases hs
  have hpos : t.start (t.groupOf (t.order.idxOf s) 15) + (t.order.idxOf s - t.start (t.groupOf (t.order.idxOf s) 15)) =
      t.order.idxOf s := Nat.add_sub_cancel' (h.start_groupOf_le _ _)
  rw [hpos, List.getD_eq_getElem _ _ hp.1, List.getElem_idxOf]
  exact ⟨Nat.lt_succ_of_le (t.groupOf_le _ _), hp.2, h.length_order ▸ hp.1, rfl⟩

theorem Valid.reads_getCode (h : t.Valid) {s g i : Nat} (hs : t.codeOf s = some (g, i)) :
    Reads (getCode t) (lzCodeBits t s) (g, s) := by
  obtain ⟨hg, hi, hp, hat⟩ := h.codeOf_eq_some hs
  have hw : t.width g ≤ 12 := h.width_le g
  rw [lzCodeBits, hs]
  refine (reads_getbits .symbol (by decide) hg).bind ?_
  rw [← List.append_nil (natBits _ i)]
  refine (reads_getbits .symbol (by omega) hi).bind ?_
  simp only [if_neg (Nat.not_le.2 hp), hat]
  exact Reads.pure _

end LzTab

/-! ## Fields -/

theorem lzDbase_add (p : Nat) : lzDbase p + 2 ^ lzDnb p = 2 ^ p := by
  cases p with
  | zero => rfl
  | succ p => rw [lzDbase, lzDnb, if_neg (Nat.succ_ne_zero p), Nat.add_sub_cancel, Nat.pow_succ]; omega

theorem bitlen_bounds (m : Nat) : lzDbase (bitlen m) ≤ m ∧ m < 2 ^ bitlen m := by
  rcases Nat.eq_zero_or_pos m with rfl | hm
  · decide
  · obtain ⟨z, w, rfl, hw⟩ := exists_two_pow_add (Nat.ne_of_gt hm)
    rw [bitlen_two_pow_add hw, lzDbase, if_neg (Nat.succ_ne_zero z), Nat.add_sub_cancel, Nat.pow_succ]
    omega

/-- A displacement and the class it falls in (30 R155). -/
theorem lzDispClass_spec {bufBits D : Nat} (hb : 8 ≤ bufBits) (hD : D < 2 ^ bufBits) :
    lzDispClass bufBits D < 8 ∧ lzDbase (lzDispClass bufBits D) * 2 ^ (bufBits - 7) ≤ D ∧
      D - lzDbase (lzDispClass bufBits D) * 2 ^ (bufBits - 7) <
        2 ^ (lzDnb (lzDispClass bufBits D) + (bufBits - 7)) := by
  have hpos := Nat.two_pow_pos (bufBits - 7)
  obtain ⟨hlow, hhigh⟩ := bitlen_bounds (D / 2 ^ (bufBits - 7))
  change lzDbase (lzDispClass bufBits D) ≤ _ at hlow
  change _ < 2 ^ lzDispClass bufBits D at hhigh
  have hle := (Nat.le_div_iff_mul_le hpos).1 hlow
  refine ⟨?_, hle, ?_⟩
  · have hm : D / 2 ^ (bufBits - 7) < 2 ^ 7 := by
      rw [Nat.div_lt_iff_lt_mul hpos, ← Nat.pow_add, Nat.add_sub_cancel' (by omega)]
      exact hD
    by_contra hge
    have hbase : 2 ^ 7 ≤ lzDbase (lzDispClass bufBits D) := by
      rw [lzDbase, if_neg (by omega)]
      exact Nat.pow_le_pow_right Nat.two_pos (by omega)
    omega
  · rw [Nat.div_lt_iff_lt_mul hpos, ← lzDbase_add, Nat.add_mul, ← Nat.pow_add] at hhigh
    omega

theorem reads_getDisp {bufBits D : Nat} (hb : 8 ≤ bufBits) (hb' : bufBits ≤ 16) (hD : D < 2 ^ bufBits) :
    Reads (getDisp bufBits) (dispBits bufBits D) D := by
  obtain ⟨hp, hle, hlt⟩ := lzDispClass_spec hb hD
  have hnb : lzDnb (lzDispClass bufBits D) + (bufBits - 7) ≤ 16 := by unfold lzDnb; omega
  refine (reads_getbits .disp (by decide) hp).bind ?_
  have hfield := (reads_getbits .disp hnb hlt).map (lzDbase (lzDispClass bufBits D) * 2 ^ (bufBits - 7) + ·)
  rwa [Nat.add_sub_cancel' hle] at hfield

theorem reads_getWidths {ws : List Nat} (h : ∀ w ∈ ws, w ≤ Config.lzMaxWidth) :
    Reads (getWidths ws.length) (widthsBits ws) ws := by
  induction ws with
  | nil => exact Reads.pure []
  | cons w ws ih =>
    have hw := h w List.mem_cons_self
    refine (reads_getbits .table (by decide) (by show w < 16; exact Nat.lt_of_le_of_lt hw (by decide))).bind ?_
    simp only [if_neg (Nat.not_lt.2 hw)]
    exact (ih fun v hv => h v (List.mem_cons_of_mem w hv)).map (w :: ·)

/-- The class of an excess of 8 to 517 (30 R154). -/
theorem lzExtraClass_spec {e n : Nat} (h8 : lzXBase 1 ≤ e) (hn : e < lzXBase (n + 1)) :
    1 ≤ lzExtraClass e n ∧ lzExtraClass e n ≤ n ∧ lzXBase (lzExtraClass e n) ≤ e ∧
      e < lzXBase (lzExtraClass e n + 1) := by
  induction n with
  | zero => exact absurd hn (Nat.not_lt.2 h8)
  | succ n ih =>
    unfold lzExtraClass
    split_ifs with hle
    · exact ⟨by omega, le_rfl, hle, hn⟩
    · obtain ⟨h1, h2, h3, h4⟩ := ih (Nat.lt_of_not_le hle)
      exact ⟨h1, by omega, h3, h4⟩

theorem lzXBase_succ (k : Nat) : lzXBase (k + 1) = lzXBase k + 2 ^ k := by
  rw [lzXBase, lzXBase, Nat.pow_succ]; omega

/-! ## The symbols -/

section
variable {bufBits L D : Nat}

theorem reads_lzFields_lit (bufBits : Nat) (s : Byte) : Reads (lzFields bufBits s.toNat) [] (.lzLit s) := by
  unfold lzFields
  simp only [if_pos s.isLt, BitVec.ofNat_toNat, BitVec.setWidth_eq]
  exact Reads.pure _

theorem reads_lzFields_matchS (hb : 8 ≤ bufBits) (hb' : bufBits ≤ 16) (hL : 4 ≤ L ∧ L ≤ 11) (hD : D < 2 ^ bufBits) :
    Reads (lzFields bufBits (256 + (L - 4))) (dispBits bufBits D) (.lzMatchS L D) := by
  unfold lzFields
  simp only [if_neg (show ¬256 + (L - 4) < 256 by omega), if_pos (show 256 + (L - 4) < 264 by omega),
    show 256 + (L - 4) - 256 + 4 = L by omega]
  exact (reads_getDisp hb hb' hD).map (Instr.lzMatchS L)

theorem reads_lzFields_matchX (hb : 8 ≤ bufBits) (hb' : bufBits ≤ 16) (hL : 12 ≤ L ∧ L ≤ 521) (hD : D < 2 ^ bufBits) :
    Reads (lzFields bufBits (263 + lzExtraClass (L - 4) 8))
      (natBits (lzExtraClass (L - 4) 8) (L - 4 - lzXBase (lzExtraClass (L - 4) 8)) ++ dispBits bufBits D)
      (.lzMatchX L D) := by
  obtain ⟨hk1, hk8, hle, hlt⟩ := lzExtraClass_spec (e := L - 4) (n := 8) (by rw [lzXBase]; omega)
    (by rw [lzXBase]; omega)
  rw [lzXBase_succ] at hlt
  generalize lzExtraClass (L - 4) 8 = k at *
  unfold lzFields
  simp only [if_neg (show ¬263 + k < 256 by omega), if_neg (show ¬263 + k < 264 by omega),
    if_pos (show 263 + k < 272 by omega), Nat.add_sub_cancel_left]
  refine (reads_getbits .extra (by omega) (show L - 4 - lzXBase k < 2 ^ k by omega)).bind ?_
  rw [show lzXBase k + (L - 4 - lzXBase k) + 4 = L by omega]
  exact (reads_getDisp hb hb' hD).map (Instr.lzMatchX L)

theorem reads_lzFields_recalc (bufBits : Nat) {ws : List Nat} (hlen : ws.length = Config.lzGroups)
    (h : ∀ w ∈ ws, w ≤ Config.lzMaxWidth) :
    Reads (lzFields bufBits Config.lzRecalcSym) (widthsBits ws) (.lzRecalc ws) := by
  have hws := (reads_getWidths h).map Instr.lzRecalc
  rw [hlen] at hws
  exact hws

theorem reads_lzFields_eof (bufBits : Nat) : Reads (lzFields bufBits Config.lzEofSym) [] .lzEof := Reads.pure _

/-- The symbol's code, then its fields (30 R153). -/
theorem LzTab.Valid.reads_decodeLz {t : LzTab} (h : t.Valid) {s : Nat} (hs : (t.codeOf s).isSome = true) {w : List Bool}
    {i : Instr} (hw : Reads (lzFields bufBits s) w i) : Reads (decodeLz bufBits t) (lzCodeBits t s ++ w) i := by
  obtain ⟨⟨g, k⟩, hcode⟩ := Option.isSome_iff_exists.1 hs
  exact (h.reads_getCode hcode).bind hw

theorem LzTab.Valid.reads_encodeLz {t : LzTab} (h : t.Valid) (hb : 8 ≤ bufBits) (hb' : bufBits ≤ 16) {i : Instr}
    (hi : wellFormedLz bufBits t i = true) : Reads (decodeLz bufBits t) (encodeLz bufBits t i) i := by
  cases i with
  | lzLit s => simpa [encodeLz] using h.reads_decodeLz hi (reads_lzFields_lit bufBits s)
  | lzMatchS L D =>
    simp only [wellFormedLz, Bool.and_eq_true, decide_eq_true_eq] at hi
    obtain ⟨⟨⟨hL, hL'⟩, hD⟩, hs⟩ := hi
    exact h.reads_decodeLz hs (reads_lzFields_matchS hb hb' ⟨hL, hL'⟩ hD)
  | lzMatchX L D =>
    simp only [wellFormedLz, Bool.and_eq_true, decide_eq_true_eq] at hi
    obtain ⟨⟨⟨hL, hL'⟩, hD⟩, hs⟩ := hi
    rw [encodeLz, List.append_assoc]
    exact h.reads_decodeLz hs (reads_lzFields_matchX hb hb' ⟨hL, hL'⟩ hD)
  | lzRecalc ws =>
    simp only [wellFormedLz, Bool.and_eq_true, decide_eq_true_eq, List.all_eq_true] at hi
    obtain ⟨⟨hlen, hws⟩, hs⟩ := hi
    exact h.reads_decodeLz hs (reads_lzFields_recalc bufBits hlen hws)
  | lzEof => simpa [encodeLz] using h.reads_decodeLz hi (reads_lzFields_eof bufBits)
  | _ => cases hi

end

/-- Settles O6: a symbol's code leads to its position in the order, and each field is read back from its class. -/
theorem lightZhlDecodeOfEncode : Obligations.LightZhlDecodeOfEncode := by
  intro bufBits t hb hb' ht i hi r tail hnacc hacc hbits
  obtain ⟨r', hdec, ⟨hnacc', hacc'⟩, htail⟩ := ((t.valid_iff.1 ht).reads_encodeLz hb hb' hi).ok ⟨hnacc, hacc⟩ hbits
  exact ⟨r', hdec, htail, hnacc', hacc'⟩

end Sys2Proof
end

section
/-! What the decoders accept is well-formed in their format; the RefPack decoder rejects only where the stream ends. -/

namespace Sys2Proof

/-! ## What the primitives yield -/

theorem Rd.Yields.bind {α β : Type} {p : α → Prop} {q : β → Prop} {x : Rd α} {f : α → BitSrc → Rd β} (hx : x.Yields p)
    (hf : ∀ a r, p a → (f a r).Yields q) : (x.bind f).Yields q := by
  intro b r' h
  obtain ⟨a, r, ha, hb⟩ := Rd.bind_eq_ok h
  exact hf a r (hx a r ha) b r' hb

theorem Rd.yields_err {α : Type} {p : α → Prop} (e : Reject) (st : Stage) (r : BitSrc) : (Rd.err e st r).Yields p :=
  nofun

theorem getbits_yields (st : Stage) (nb : Nat) (r : BitSrc) : (getbits st nb r).Yields (· < 2 ^ nb) :=
  fun _ _ => getbits_lt

theorem countZeros_yields (z k : Nat) (r : BitSrc) : (countZeros z k r).Yields (· ≤ z + k) := by
  induction k generalizing z r with
  | zero =>
    refine Rd.yields_bind _ fun b r => ?_
    split_ifs
    · exact Rd.yields_err _ _ r
    · exact Rd.yields_ok (p := (· ≤ z + 0)) le_rfl r
  | succ k ih =>
    refine Rd.yields_bind _ fun b r => ?_
    split_ifs
    · intro n r' h
      have := ih (z + 1) r n r' h
      omega
    · exact Rd.yields_ok (p := (· ≤ z + (k + 1))) (Nat.le_add_right _ _) r

theorem appendBits_yields (m k : Nat) (r : BitSrc) : (appendBits m k r).Yields (· < (m + 1) * 2 ^ k) := by
  induction k generalizing m r with
  | zero => exact Rd.yields_ok (by simp) r
  | succ k ih =>
    refine (getbits_yields _ _ _).bind fun b r hb n r' h => ?_
    calc n < (m * 2 + b + 1) * 2 ^ k := ih _ r n r' h
      _ ≤ (m + 1) * 2 * 2 ^ k := Nat.mul_le_mul_right _ (by omega)
      _ = (m + 1) * 2 ^ (k + 1) := by rw [Nat.pow_succ]; ring

/-- A number of at most sixteen bits, less one (30 R146). -/
theorem getnum_yields (r : BitSrc) : (getnum r).Yields (· ≤ 65534) := by
  refine (countZeros_yields 0 15 r).bind fun z r hz => (appendBits_yields 1 z r).bind fun m r hm => Rd.yields_ok ?_ r
  have : 2 ^ z ≤ 2 ^ 15 := Nat.pow_le_pow_right Nat.two_pos (by omega)
  omega

theorem getsymFrom_yields (syms : List Byte) (ns : List Nat) (c first idx : Nat) (r : BitSrc)
    (h : idx + ns.sum ≤ syms.length) : (getsymFrom syms ns c first idx r).Yields (· ∈ syms) := by
  induction ns generalizing c first idx r with
  | nil => exact Rd.yields_err _ _ r
  | cons n ns ih =>
    rw [List.sum_cons] at h
    refine Rd.yields_bind _ fun b r => ?_
    dsimp only
    split_ifs with hin
    · have hlt : idx + (c * 2 + b - first) < syms.length := by omega
      refine Rd.yields_ok ?_ r
      rw [List.getD_eq_getElem _ _ hlt]
      exact List.getElem_mem hlt
    · exact ih _ _ _ r (by omega)

/-! ## RefPack commands and BinaryTree items -/

theorem decodeHostop_wellFormed (sel : BitVec 2) (op : BitVec 3) : wellFormedHostop (decodeHostop sel op) = true := by
  revert sel op; decide

/-- The fields of every form lie in the ranges of 30 R136. -/
theorem decodeRp_yields_wellFormed (r : BitSrc) : (decodeRp r).Yields (wellFormedRp · = true) := by
  refine Rd.yields_bind _ fun b0 r => ?_
  have h0 := b0.isLt
  dsimp only
  split_ifs with h1 h2 h3 h4
  · refine Rd.yields_bind _ fun b1 r => Rd.yields_ok ?_ r
    have := b1.isLt
    simp only [wellFormedRp, Bool.and_eq_true, decide_eq_true_eq]
    omega
  · refine Rd.yields_bind _ fun b1 r => Rd.yields_bind _ fun b2 r => Rd.yields_ok ?_ r
    have := b1.isLt
    have := b2.isLt
    simp only [wellFormedRp, Bool.and_eq_true, decide_eq_true_eq]
    omega
  · refine Rd.yields_bind _ fun b1 r => Rd.yields_bind _ fun b2 r => Rd.yields_bind _ fun b3 r => Rd.yields_ok ?_ r
    have := b1.isLt
    have := b2.isLt
    have := b3.isLt
    simp only [wellFormedRp, Bool.and_eq_true, decide_eq_true_eq]
    omega
  · refine Rd.yields_ok ?_ r
    simp only [wellFormedRp, Bool.and_eq_true, decide_eq_true_eq]
    omega
  · refine Rd.yields_ok ?_ r
    simp only [wellFormedRp, decide_eq_true_eq]
    omega

/-- A reading that fails only because no byte is left. -/
def Rd.FailsAtEnd {α : Type} (x : Rd α) : Prop := ∀ e st r, x = .err e st r → e = .truncated ∧ r.bytes = []

theorem Rd.failsAtEnd_ok {α : Type} (a : α) (r : BitSrc) : (Rd.ok a r).FailsAtEnd := nofun

theorem getByte_failsAtEnd (r : BitSrc) : (getByte r).FailsAtEnd := by
  intro e st q h
  unfold getByte at h
  split at h
  next hnil => cases h; exact ⟨rfl, hnil⟩
  next => cases h

theorem Rd.FailsAtEnd.bind {α β : Type} {x : Rd α} {f : α → BitSrc → Rd β} (hx : x.FailsAtEnd)
    (hf : ∀ a r, (f a r).FailsAtEnd) : (x.bind f).FailsAtEnd := by
  cases x with
  | ok a r => exact hf a r
  | err e st r =>
    intro e' st' r' h
    cases h
    exact hx e st r rfl

theorem decodeRp_failsAtEnd (r : BitSrc) : (decodeRp r).FailsAtEnd := by
  refine (getByte_failsAtEnd r).bind fun b0 r => ?_
  dsimp only
  split_ifs
  · exact (getByte_failsAtEnd r).bind fun _ r => Rd.failsAtEnd_ok _ r
  · exact (getByte_failsAtEnd r).bind fun _ r => (getByte_failsAtEnd r).bind fun _ r => Rd.failsAtEnd_ok _ r
  · exact (getByte_failsAtEnd r).bind fun _ r => (getByte_failsAtEnd r).bind fun _ r =>
      (getByte_failsAtEnd r).bind fun _ r => Rd.failsAtEnd_ok _ r
  · exact Rd.failsAtEnd_ok _ r
  · exact Rd.failsAtEnd_ok _ r

theorem decodeBt_yields_wellFormed (clue : Byte) (isNode : Sparse Bool) (r : BitSrc) :
    (decodeBt clue isNode r).Yields (wellFormedBt clue isNode · = true) := by
  refine Rd.yields_bind _ fun b r => ?_
  split_ifs with hclue hnode
  · refine Rd.yields_bind _ fun e r => ?_
    split_ifs with he
    · exact Rd.yields_ok (by simp [wellFormedBt, hclue]) r
    · have he : e ≠ 0#8 := he
      exact Rd.yields_ok (by simp [wellFormedBt, hclue, he]) r
  · exact Rd.yields_ok (by simp [wellFormedBt, hclue, hnode]) r
  · exact Rd.yields_ok (by simp [wellFormedBt, hclue, hnode]) r

/-! ## Huffman items -/

theorem HrTab.Valid.decodeHr_yields {t : HrTab} (h : t.Valid) (r : BitSrc) :
    (decodeHr t r).Yields (wellFormedHr t · = true) := by
  have hclue := h.isSome_codeOf h.clue_mem
  refine (getsymFrom_yields _ _ _ _ _ r (by rw [Nat.zero_add, h.sum_bl])).bind fun s r hs => ?_
  split_ifs with hne
  · exact Rd.yields_ok (by simp [wellFormedHr, hne, h.isSome_codeOf hs]) r
  · refine (getnum_yields r).bind fun k r hk => ?_
    split_ifs with h1
    · exact Rd.yields_ok (by simp [wellFormedHr, h1, hk, hclue]) r
    · refine Rd.yields_bind _ fun b r => ?_
      split_ifs
      · refine Rd.yields_ok ?_ r
        exact hclue
      · refine Rd.yields_bind _ fun e r => Rd.yields_ok ?_ r
        exact hclue

/-! ## LightZhl symbols -/

theorem LzTab.Valid.getCode_yields {t : LzTab} (h : t.Valid) (r : BitSrc) :
    (getCode t r).Yields fun gs => gs.2 < Config.lzNsym ∧ (t.codeOf gs.2).isSome = true := by
  refine (getbits_yields _ _ r).bind fun g r hg => (getbits_yields _ _ r).bind fun i r hi => ?_
  split_ifs with hp
  · exact Rd.yields_err _ _ r
  · have hp : t.start g + i < Config.lzNsym := Nat.lt_of_not_le hp
    refine Rd.yields_ok ⟨?_, by rw [h.codeOf_getD hg hi hp]; rfl⟩ r
    have hlen : t.start g + i < t.order.length := h.length_order ▸ hp
    rw [List.getD_eq_getElem _ _ hlen]
    exact h.order_lt _ (List.getElem_mem hlen)

theorem getDisp_yields {bufBits : Nat} (hb : 8 ≤ bufBits) (r : BitSrc) :
    (getDisp bufBits r).Yields (· < 2 ^ bufBits) := by
  refine (getbits_yields _ _ r).bind fun p r hp => (getbits_yields _ _ r).bind fun v r hv => Rd.yields_ok ?_ r
  calc lzDbase p * 2 ^ (bufBits - 7) + v < lzDbase p * 2 ^ (bufBits - 7) + 2 ^ (lzDnb p + (bufBits - 7)) :=
        Nat.add_lt_add_left hv _
    _ = 2 ^ p * 2 ^ (bufBits - 7) := by rw [Nat.pow_add, ← Nat.add_mul, lzDbase_add]
    _ = 2 ^ (p + (bufBits - 7)) := (Nat.pow_add _ _ _).symm
    _ ≤ 2 ^ bufBits := Nat.pow_le_pow_right Nat.two_pos (by omega)

theorem getWidths_yields (k : Nat) (r : BitSrc) :
    (getWidths k r).Yields fun ws => ws.length = k ∧ ∀ w ∈ ws, w ≤ Config.lzMaxWidth := by
  induction k generalizing r with
  | zero => exact Rd.yields_ok ⟨rfl, nofun⟩ r
  | succ k ih =>
    refine Rd.yields_bind _ fun w r => ?_
    split_ifs with hw
    · exact Rd.yields_err _ _ r
    · refine (ih r).bind fun ws r ⟨hlen, hws⟩ => Rd.yields_ok ⟨by rw [List.length_cons, hlen], ?_⟩ r
      exact List.forall_mem_cons.2 ⟨Nat.le_of_not_lt hw, hws⟩

/-- The class of an excess is read back from its base and offset. -/
theorem lzExtraClass_add {k x : Nat} (hk : 1 ≤ k ∧ k ≤ 8) (hx : x < 2 ^ k) : lzExtraClass (lzXBase k + x) 8 = k := by
  have hbase : ∀ {a b}, a ≤ b → lzXBase a ≤ lzXBase b := fun hab =>
    Nat.add_le_add_left (Nat.pow_le_pow_right Nat.two_pos hab) 6
  have hlt : lzXBase k + x < lzXBase (k + 1) := by rw [lzXBase_succ]; omega
  obtain ⟨-, -, hle', hlt'⟩ := lzExtraClass_spec (e := lzXBase k + x) (n := 8)
    ((hbase hk.1).trans (Nat.le_add_right _ _)) (hlt.trans_le (hbase (by omega)))
  generalize lzExtraClass (lzXBase k + x) 8 = c at *
  rcases Nat.lt_trichotomy c k with h | h | h
  · have := hbase (show c + 1 ≤ k from h)
    omega
  · exact h
  · have := hbase (show k + 1 ≤ c from h)
    omega

theorem lzFields_yields_wellFormed {bufBits s : Nat} {t : LzTab} (hb : 8 ≤ bufBits) (hs : s < Config.lzNsym)
    (hcode : (t.codeOf s).isSome = true) (r : BitSrc) :
    (lzFields bufBits s r).Yields (wellFormedLz bufBits t · = true) := by
  unfold lzFields
  split_ifs with hlit hmatchS hmatchX hrecalc
  · refine Rd.yields_ok ?_ r
    rwa [wellFormedLz, BitVec.toNat_ofNat, Nat.mod_eq_of_lt hlit]
  · refine (getDisp_yields hb r).bind fun D r hD => Rd.yields_ok ?_ r
    simp only [wellFormedLz, Bool.and_eq_true, decide_eq_true_eq]
    refine ⟨⟨by omega, hD⟩, ?_⟩
    rwa [show 256 + (s - 256 + 4 - 4) = s by omega]
  · obtain ⟨k, rfl⟩ : ∃ k, s = 263 + k := ⟨s - 263, by omega⟩
    rw [Nat.add_sub_cancel_left]
    refine (getbits_yields _ _ r).bind fun x r hx => (getDisp_yields hb r).bind fun D r hD => Rd.yields_ok ?_ r
    have hk : 1 ≤ k ∧ k ≤ 8 := by omega
    have hlow : 2 ^ 1 ≤ 2 ^ k := Nat.pow_le_pow_right Nat.two_pos hk.1
    have hhigh : 2 ^ k ≤ 2 ^ 8 := Nat.pow_le_pow_right Nat.two_pos hk.2
    simp only [wellFormedLz, Bool.and_eq_true, decide_eq_true_eq, Nat.add_sub_cancel, lzExtraClass_add hk hx]
    refine ⟨⟨?_, hD⟩, hcode⟩
    rw [lzXBase]
    omega
  · subst hrecalc
    refine (getWidths_yields _ r).bind fun ws r ⟨hlen, hws⟩ => Rd.yields_ok ?_ r
    simp only [wellFormedLz, Bool.and_eq_true, decide_eq_true_eq, List.all_eq_true]
    exact ⟨⟨hlen, hws⟩, hcode⟩
  · refine Rd.yields_ok ?_ r
    obtain rfl : s = Config.lzEofSym := by
      change ¬s = 272 at hrecalc
      change s < 274 at hs
      change s = 273
      omega
    exact hcode

theorem LzTab.Valid.decodeLz_yields {t : LzTab} (h : t.Valid) {bufBits : Nat} (hb : 8 ≤ bufBits) (r : BitSrc) :
    (decodeLz bufBits t r).Yields (wellFormedLz bufBits t · = true) :=
  (h.getCode_yields r).bind fun _ r ⟨hs, hcode⟩ => lzFields_yields_wellFormed hb hs hcode r

/-- Settles O7: what each decoder yields, and where the RefPack decoder fails. -/
theorem decodedInstructionsWellFormed : Obligations.DecodedInstructionsWellFormed := by
  refine ⟨fun r => ?_, decodeRp_yields_wellFormed, decodeBt_yields_wellFormed,
    fun t r i r' ht => (t.valid_iff.1 ht).decodeHr_yields r i r',
    fun bufBits t r i r' hb ht => (t.valid_iff.1 ht).decodeLz_yields hb r i r', decodeRp_failsAtEnd⟩
  exact Rd.yields_bind _ fun w r => Rd.yields_ok (p := (wellFormed .hostop · = true)) (decodeHostop_wellFormed _ _) r

end Sys2Proof
end

section
/-! Headers (30 R121 to R126) as `EXTRACT_SIZE` and `DECODE` meet them, and the requests that are refused unread. -/

namespace Sys2Proof.Machine

/-! ## Refused requests -/

theorem failedWith_refuse (c : Cause) (u : State) : FailedWith c (refuse c u) := ⟨rfl, rfl, rfl, rfl, rfl, rfl, rfl⟩

/-- An operation refused as it starts. -/
theorem refused_at_start {i : Instr} {c : Codec} {op : BitVec 3} {cause : Cause} {s : State}
    (hc : cause.status = .unsupported) (h : exec i s = .next (refuse cause (beginOp c op s))) :
    ∃ t, exec i s = .next t ∧ t.status = .unsupported ∧ t.cause = cause ∧ t.dstLen = 0 ∧ t.result = 0 ∧
      t.busy = false ∧ t.done = true ∧ t.start = false ∧ t.dst = s.dst ∧ InputsKept s t ∧
      t.freeCount = s.freeCount :=
  ⟨_, h, hc, rfl, rfl, rfl, rfl, rfl, rfl, rfl, ⟨rfl, rfl, rfl, rfl, rfl, rfl⟩, rfl⟩

section
variable {s : State}

theorem exec_reserved5 (c : Codec) (h : s.busy = false) :
    exec (.hostopReserved5 c) s = .next (refuse .badOp (beginOp c 5 s)) := by
  show execHostopReserved5 c s = _
  exact hostOp_idle _ h

theorem exec_reserved6 (c : Codec) (h : s.busy = false) :
    exec (.hostopReserved6 c) s = .next (refuse .badOp (beginOp c 6 s)) := by
  show execHostopReserved6 c s = _
  exact hostOp_idle _ h

theorem exec_reserved7 (c : Codec) (h : s.busy = false) :
    exec (.hostopReserved7 c) s = .next (refuse .badOp (beginOp c 7 s)) := by
  show execHostopReserved7 c s = _
  exact hostOp_idle _ h

theorem exec_isValid_lz (h : s.busy = false) :
    exec (.isValid .lz) s = .next (refuse .noNativeHeader (beginOp .lz 1 s)) := by
  show execIsValid .lz s = _
  exact hostOp_idle _ h

theorem exec_extractSize_lz (h : s.busy = false) :
    exec (.extractSize .lz) s = .next (refuse .noNativeHeader (beginOp .lz 2 s)) := by
  show execExtractSize .lz s = _
  exact hostOp_idle _ h

theorem exec_extractSize {c : Codec} (hc : c ≠ .lz) (h : s.busy = false) :
    exec (.extractSize c) s = .next (extractSizeOp c (beginOp c 2 s)) := by
  show execExtractSize c s = _
  rw [execExtractSize, hostOp_idle _ h, if_neg hc]
  rfl

theorem exec_decode {c : Codec} (h : s.busy = false) (hd : (s.desc.of c).canDecode = true) :
    exec (.decode c) s = (decodeOp c (beginOp c 4 s)).outcome := by
  show execDecode c s = _
  rw [execDecode, hostOp_idle _ h, beginOp_desc, if_pos hd]

theorem exec_decode_begun {c : Codec} {t : State} (h : s.busy = false) (hf : decodeOp c (beginOp c 4 s) = .cont t)
    (hd : (s.desc.of c).canDecode = true) : exec (.decode c) s = .next t := by
  rw [exec_decode h hd, hf, outcome_cont]

theorem exec_decode_ended {c : Codec} {t : State} (h : s.busy = false) (hf : decodeOp c (beginOp c 4 s) = .ended t)
    (hd : (s.desc.of c).canDecode = true) : exec (.decode c) s = .next t := by
  rw [exec_decode h hd, hf, outcome_ended]

end

/-- Settles O19: each of the requests is refused as it starts. -/
theorem unsupportedRequestsRefused : Obligations.UnsupportedRequestsRefused := fun _ hb =>
  ⟨fun c => List.forall_mem_cons.2 ⟨refused_at_start rfl (exec_reserved5 c hb), List.forall_mem_cons.2
      ⟨refused_at_start rfl (exec_reserved6 c hb),
        List.forall_mem_singleton.2 (refused_at_start rfl (exec_reserved7 c hb))⟩⟩,
    List.forall_mem_cons.2 ⟨refused_at_start rfl (exec_isValid_lz hb),
      List.forall_mem_singleton.2 (refused_at_start rfl (exec_extractSize_lz hb))⟩⟩

/-! ## The parse -/

theorem beVal_two (m : Memory) (a : Nat) : beVal m a 2 = (m.read a).toNat * 256 + (m.read (a + 1)).toNat := by
  simp [beVal]

theorem beVal_three (m : Memory) (a : Nat) :
    beVal m a 3 = (m.read a).toNat * 2 ^ 16 + (m.read (a + 1)).toNat * 2 ^ 8 + (m.read (a + 2)).toNat := by
  simp [beVal, Nat.add_assoc]

theorem beVal_four (m : Memory) (a : Nat) :
    beVal m a 4 = (m.read a).toNat * 2 ^ 24 + (m.read (a + 1)).toNat * 2 ^ 16 + (m.read (a + 2)).toNat * 2 ^ 8 +
      (m.read (a + 3)).toNat := by
  simp [beVal, Nat.add_assoc]

theorem beVal_two_lt (m : Memory) (a : Nat) : beVal m a 2 < 2 ^ 16 := by
  have h0 := (m.read a).isLt
  have h1 := (m.read (a + 1)).isLt
  rw [beVal_two]
  omega

/-- Magic bit 15 picks the width of the length field. -/
theorem lengthWidth_eq {magic : Nat} (h : magic < 2 ^ 16) : lengthWidth magic = if 0x8000 ≤ magic then 4 else 3 := by
  have hbit : magic / 2 ^ 15 % 2 = 1 ↔ 0x8000 ≤ magic := by omega
  simp only [lengthWidth, Nat.testBit_eq_decide_div_mod_eq, decide_eq_true_eq, hbit]

/-- Magic bit 8 announces a skip field, as wide as the length field (a BinaryTree magic has the narrow one). -/
theorem skipWidth_eq {c : Codec} {magic : Nat} (h : magic ∈ magics c) :
    skipWidth c magic = if magic / 256 % 2 = 1 then lengthWidth magic else 0 := by
  have hbit : magic.testBit 8 = decide (magic / 256 % 2 = 1) := Nat.testBit_eq_decide_div_mod_eq
  cases c with
  | bt =>
    have hw : lengthWidth magic = 3 := by
      have : ∀ v ∈ magics .bt, lengthWidth v = 3 := by decide
      exact this magic h
    simp only [skipWidth, hbit, hw, decide_eq_true_eq]
  | _ => simp only [skipWidth, hbit, decide_eq_true_eq]

section
variable {c : Codec} {m : Memory} {len maxLen : Nat}

theorem parseHeader_badMagic (h : len < 2 ∨ beVal m 0 2 ∉ magics c) :
    ∃ sp, parseHeader c m len maxLen = .error (.badMagic, sp) := by
  unfold parseHeader
  split_ifs with hlen
  · exact ⟨_, rfl⟩
  · simp only [if_pos (h.resolve_left hlen)]
    exact ⟨_, rfl⟩

/-- Behind a known magic three checks are left. -/
theorem parseHeader_of_mem (h2 : 2 ≤ len) (hm : beVal m 0 2 ∈ magics c) :
    parseHeader c m len maxLen =
      let at2 := 2 + skipWidth c (beVal m 0 2)
      let w := lengthWidth (beVal m 0 2)
      if len < at2 then .error (.truncated, 2)
      else if len < at2 + w then .error (.truncated, at2)
      else if maxLen < beVal m at2 w then .error (.lengthMismatch, at2 + w)
      else .ok ⟨beVal m 0 2, beVal m at2 w, at2 + w⟩ := by
  unfold parseHeader getBe
  simp only [if_neg (Nat.not_lt.2 h2), if_neg (not_not_intro hm)]
  rcases Nat.lt_or_ge len (2 + skipWidth c (beVal m 0 2) + lengthWidth (beVal m 0 2)) with h | h
  · simp only [if_pos h, if_neg (Nat.not_le.2 h)]
  · simp only [if_pos h, if_neg (Nat.not_lt.2 h)]

theorem parseHeader_truncated (h2 : 2 ≤ len) (hm : beVal m 0 2 ∈ magics c)
    (h : len < 2 + skipWidth c (beVal m 0 2) + lengthWidth (beVal m 0 2)) :
    ∃ sp, parseHeader c m len maxLen = .error (.truncated, sp) := by
  rw [parseHeader_of_mem h2 hm]
  dsimp only
  split_ifs
  · exact ⟨_, rfl⟩
  · exact ⟨_, rfl⟩

theorem parseHeader_ok_magic {h : Header} (hp : parseHeader c m len maxLen = .ok h) :
    h.magic = beVal m 0 2 ∧ h.magic ∈ magics c := by
  rcases Nat.lt_or_ge len 2 with h2 | h2
  · obtain ⟨sp, he⟩ := parseHeader_badMagic (c := c) (m := m) (maxLen := maxLen) (.inl h2)
    rw [he] at hp
    cases hp
  · by_cases hm : beVal m 0 2 ∈ magics c
    · rw [parseHeader_of_mem h2 hm] at hp
      dsimp only at hp
      split_ifs at hp
      cases hp
      exact ⟨rfl, hm⟩
    · obtain ⟨sp, he⟩ := parseHeader_badMagic (c := c) (m := m) (len := len) (maxLen := maxLen) (.inr hm)
      rw [he] at hp
      cases hp

end

/-! ## EXTRACT_SIZE -/

section
variable {c : Codec} {s : State}

theorem extractSizeOp_of_ok {h : Header} (hh : s.header c = .ok h) : extractSizeOp c s = finishResult h.ulen s := by
  rw [extractSizeOp, hh]

theorem extractSizeOp_of_error {cause : Cause} {sp : Nat} (hh : s.header c = .error (cause, sp)) :
    FailedWith cause (extractSizeOp c s) := by
  rw [extractSizeOp, hh]
  exact failedWith_refuse cause _

theorem extractSizeOp_frame (c : Codec) (s : State) :
    (extractSizeOp c s).dst = s.dst ∧ InputsKept s (extractSizeOp c s) ∧ (extractSizeOp c s).codecSel = s.codecSel ∧
      (extractSizeOp c s).op = s.op := by
  unfold extractSizeOp
  split
  · exact ⟨rfl, ⟨rfl, rfl, rfl, rfl, rfl, rfl⟩, rfl, rfl⟩
  · exact ⟨rfl, ⟨rfl, rfl, rfl, rfl, rfl, rfl⟩, rfl, rfl⟩

end

/-- Settles O18: the answer is the header's, field by field. -/
theorem extractSizeAnswers : Obligations.ExtractSizeAnswers := by
  intro c s hc hb magic n w skip at0 ulen
  have hmagic : magic = beVal s.src 0 2 := (beVal_two s.src 0).symm
  have hw : w = lengthWidth magic := (lengthWidth_eq (hmagic ▸ beVal_two_lt s.src 0)).symm
  have hulen : ulen = beVal s.src at0 w := by
    show (if w = 4 then _ else _) = _
    rcases show w = 4 ∨ w = 3 from ite_eq_or_eq _ _ _ with h4 | h3
    · rw [if_pos h4, h4, beVal_four]
    · rw [if_neg (by omega), h3, beVal_three]
  have hat0 : magic ∈ magics c → at0 = 2 + skipWidth c magic := fun hm => by
    rw [skipWidth_eq hm, ← hw]
  obtain ⟨hdst, hkept, hsel, hop⟩ := extractSizeOp_frame c (beginOp c 2 s)
  refine ⟨_, exec_extractSize hc hb, hdst, hkept, hsel, hop, fun hbad => ?_, fun h2 hm ht => ?_,
    fun h2 hm hn hlong => ?_, fun h2 hm hn hle => ?_⟩
  · rw [hmagic] at hbad
    obtain ⟨sp, hp⟩ := parseHeader_badMagic hbad
    exact extractSizeOp_of_error hp
  · rw [hat0 hm, hw] at ht
    rw [hmagic] at ht hm
    obtain ⟨sp, hp⟩ := parseHeader_truncated h2 hm ht
    exact extractSizeOp_of_error hp
  · refine extractSizeOp_of_error (sp := at0 + w) ?_
    show parseHeader c s.src s.srcLen.toNat s.params.maxLen = _
    rw [parseHeader_of_mem h2 (hmagic ▸ hm), ← hmagic, ← hw, ← hat0 hm]
    dsimp only
    rw [← hulen, if_neg (by omega), if_neg (by omega), if_pos hlong]
  · have hp : (beginOp c 2 s).header c = .ok ⟨magic, ulen, at0 + w⟩ := by
      show parseHeader c s.src s.srcLen.toNat s.params.maxLen = _
      rw [parseHeader_of_mem h2 (hmagic ▸ hm), ← hmagic, ← hw, ← hat0 hm]
      dsimp only
      rw [← hulen, if_neg (by omega), if_neg (by omega), if_neg (by omega)]
    rw [extractSizeOp_of_ok hp]
    exact ⟨rfl, rfl, rfl, rfl, rfl, rfl, rfl⟩

/-! ## The header of a DECODE -/

/-- The registers a parsed header leaves (30 R121). -/
def behindHeader (h : Header) (s : State) : State :=
  { s with ctx := { s.ctx with sp := h.bodyAt, magic := BitVec.ofNat 16 h.magic, ulen := h.ulen } }

/-- The cursor at the field of the header that fails. -/
def atField (sp : Nat) (s : State) : State := { s with ctx := { s.ctx with sp := sp } }

theorem nothingPutOut_atField (sp : Nat) (s : State) : NothingPutOut s (atField sp s) := ⟨_, rfl, rfl, rfl⟩

theorem nothingPutOut_behindHeader (h : Header) (s : State) : NothingPutOut s (behindHeader h s) :=
  nothingPutOut_header _ _ _ s

section
variable {c : Codec} {s : State}

theorem readHeader_of_ok {h : Header} (hh : s.header c = .ok h) (k : State → Flow) :
    readHeader c s k = k (behindHeader h s) := by
  rw [readHeader, hh]
  rfl

theorem readHeader_of_error {cause : Cause} {sp : Nat} (hh : s.header c = .error (cause, sp)) (k : State → Flow) :
    readHeader c s k = .ended (fail cause (atField sp s)) := by
  rw [readHeader, hh]
  rfl

/-- Every headed engine begins its `DECODE` with the header. -/
theorem decodeOp_of_error {cause : Cause} {sp : Nat} (hc : c ≠ .lz) (hh : s.header c = .error (cause, sp)) :
    decodeOp c s = .ended (fail cause (atField sp s)) := by
  cases c with
  | rp => exact readHeader_of_error hh _
  | bt =>
    show decodeBtOp s = _
    exact readHeader_of_error hh _
  | hr =>
    show decodeHrOp s = _
    exact readHeader_of_error hh _
  | lz => exact absurd rfl hc

/-- A `DECODE` that has read its header and tables. -/
theorem NothingPutOut.bodyReached {t : State} (h : NothingPutOut (beginOp c 4 s) t) :
    BodyReached c t.ctx.sp t ∧ t.dst = s.dst ∧ InputsKept s t ∧ t.freeCount = s.freeCount := by
  obtain ⟨x, rfl, hdp, -⟩ := h
  exact ⟨⟨decoding_iff.2 ⟨rfl, rfl, rfl⟩, rfl, rfl, rfl, rfl, rfl, rfl, rfl, rfl, hdp⟩, rfl,
    ⟨rfl, rfl, rfl, rfl, rfl, rfl⟩, rfl⟩

/-- A `DECODE` that fails in its header or tables. -/
theorem NothingPutOut.failed {t : State} (h : NothingPutOut (beginOp c 4 s) t) (cause : Cause) :
    FailedWith cause (fail cause t) ∧ (fail cause t).diag.sp = BitVec.ofNat 32 t.ctx.sp ∧
      (fail cause t).diag.dp = 0 ∧ InputsKept s (fail cause t) := by
  obtain ⟨x, rfl, hdp, -⟩ := h
  exact ⟨failedWith_fail _ _, rfl, congrArg (BitVec.ofNat 32) hdp, ⟨rfl, rfl, rfl, rfl, rfl, rfl⟩⟩

end

/-- Settles O22: the header is the whole of RefPack's start, and the first thing every headed engine reads. -/
theorem decodeReadsHeader : Obligations.DecodeReadsHeader := by
  refine ⟨fun s h hb hd hp => ?_, fun c s cause sp hc hb hd hp => ?_⟩
  · have hdec : decodeOp .rp (beginOp .rp 4 s) = .cont (behindHeader h (beginOp .rp 4 s)) := by
      show decodeRpOp _ = _
      exact readHeader_of_ok (s := beginOp .rp 4 s) hp .cont
    obtain ⟨hbody, hdst, hkept, hfree⟩ := (nothingPutOut_behindHeader h (beginOp .rp 4 s)).bodyReached
    have hmagic : h.magic < 2 ^ 16 := (parseHeader_ok_magic hp).1 ▸ beVal_two_lt _ _
    exact ⟨_, exec_decode_begun hb hdec hd, hbody, rfl, Nat.mod_eq_of_lt hmagic, hdst, hkept, hfree⟩
  · obtain ⟨hfail, hsp, hdp, hkept⟩ := (nothingPutOut_atField sp (beginOp c 4 s)).failed cause
    exact ⟨_, exec_decode_ended hb (decodeOp_of_error hc hp) hd, hfail, hsp, hdp, hkept⟩

end Sys2Proof.Machine
end

section
/-! The node table of a BinaryTree stream (44 R300, R304): triple after triple, each fetched whole and then checked. -/

namespace Sys2Proof.Machine

/-! ## One triple -/

section
variable {t : State} (n : Nat)

/-- A triple that is there goes into the tables, unless it names the clue or a known node. -/
theorem loadTriples_succ (h : t.ctx.sp + 3 ≤ t.srcLen.toNat) :
    loadTriples (n + 1) t =
      if t.src.read t.ctx.sp = t.ctx.bt.clue ∨ isNodeByte t.ctx.bt.isNode (t.src.read t.ctx.sp) = true then
        .ended (fail .badTable (fetched 3 t))
      else loadTriples n (setBtNode (t.src.read t.ctx.sp) (t.src.read (t.ctx.sp + 1)) (t.src.read (t.ctx.sp + 2))
        (fetched 3 t)) := by
  rw [loadTriples, fetchByte_of_lt _ (by omega), fetchByte_of_lt _ (by simp; omega), fetchByte_of_lt _ (by simp; omega),
    fetched_add, fetched_add]
  rfl

/-- A triple that is cut short has been fetched as far as it goes. -/
theorem loadTriples_cut (h : t.ctx.sp ≤ t.srcLen.toNat) (hcut : t.srcLen.toNat < t.ctx.sp + 3) :
    loadTriples (n + 1) t = .ended (fail .truncated (fetched (t.srcLen.toNat - t.ctx.sp) t)) := by
  obtain h0 | h1 | h2 :
      t.srcLen.toNat - t.ctx.sp = 0 ∨ t.srcLen.toNat - t.ctx.sp = 1 ∨ t.srcLen.toNat - t.ctx.sp = 2 := by omega
  · rw [loadTriples, fetchByte_of_ge _ (by omega), h0]
    rfl
  · rw [loadTriples, fetchByte_of_lt _ (by omega), fetchByte_of_ge _ (by simp; omega), h1]
  · rw [loadTriples, fetchByte_of_lt _ (by omega), fetchByte_of_lt _ (by simp; omega),
      fetchByte_of_ge _ (by simp; omega), fetched_add, h2]

end

theorem isNodeByte_setD (isNode : Sparse Bool) (nd v : Byte) :
    isNodeByte (isNode.setD false nd.toNat true) v = true ↔ v = nd ∨ isNodeByte isNode v = true := by
  rw [isNodeByte, Sparse.getD_setD]
  by_cases h : v = nd
  · simp [h]
  · rw [if_neg fun he => h (BitVec.eq_of_toNat_eq he)]
    simp [h, isNodeByte]

/-! ## The first triples of the table -/

/-- The node that triple number `i` defines, counted from the cursor. -/
def nodeAt (b : State) (i : Nat) : Byte := b.src.read (b.ctx.sp + 3 * i)

/-- The first `k` triples from the cursor of `b` are there, and name `k` distinct nodes, none of them the clue. -/
structure TriplesGood (b : State) (k : Nat) : Prop where
  room : b.ctx.sp + 3 * k ≤ b.srcLen.toNat
  clue : ∀ i, i < k → nodeAt b i ≠ b.ctx.bt.clue
  distinct : ∀ i j, i < j → j < k → nodeAt b i ≠ nodeAt b j

/-- `t` is `b` with the first `k` triples loaded. -/
structure NodesLoaded (b : State) (k : Nat) (t : State) : Prop where
  begun : NothingPutOut b t
  sp : t.ctx.sp = b.ctx.sp + 3 * k
  ulen : t.ctx.ulen = b.ctx.ulen
  clue : t.ctx.bt.clue = b.ctx.bt.clue
  count : t.ctx.bt.count = b.ctx.bt.count
  stack : t.ctx.bt.stack = b.ctx.bt.stack
  isNode : ∀ v, isNodeByte t.ctx.bt.isNode v = true ↔ ∃ i, i < k ∧ nodeAt b i = v
  left : ∀ i, i < k → t.ctx.bt.left.read (nodeAt b i).toNat = b.src.read (b.ctx.sp + 3 * i + 1)
  right : ∀ i, i < k → t.ctx.bt.right.read (nodeAt b i).toNat = b.src.read (b.ctx.sp + 3 * i + 2)

theorem NothingPutOut.src {b t : State} (h : NothingPutOut b t) : t.src = b.src := by
  obtain ⟨_, rfl, -, -⟩ := h
  rfl

theorem NothingPutOut.srcLen {b t : State} (h : NothingPutOut b t) : t.srcLen = b.srcLen := by
  obtain ⟨_, rfl, -, -⟩ := h
  rfl

theorem NodesLoaded.zero {b : State} (h : b.ctx.bt.isNode = []) : NodesLoaded b 0 b where
  begun := .refl b
  sp := rfl
  ulen := rfl
  clue := rfl
  count := rfl
  stack := rfl
  isNode v := by rw [h]; exact ⟨nofun, nofun⟩
  left := nofun
  right := nofun

/-- A write at another node leaves the children read so far. -/
theorem read_write_toNat_ne (m : Memory) {v nd : Byte} (b : Byte) (h : v ≠ nd) :
    (m.write nd.toNat b).read v.toNat = m.read v.toNat :=
  Memory.read_write_other m b fun he => h (BitVec.eq_of_toNat_eq he)

/-- The next triple goes into the tables. -/
theorem NodesLoaded.succ {b t : State} {k : Nat} (h : NodesLoaded b k t) (hg : TriplesGood b (k + 1)) (n : Nat) :
    ∃ u, loadTriples (n + 1) t = loadTriples n u ∧ NodesLoaded b (k + 1) u := by
  have hnd : t.src.read t.ctx.sp = nodeAt b k := by rw [h.begun.src, h.sp, nodeAt]
  have hl : t.src.read (t.ctx.sp + 1) = b.src.read (b.ctx.sp + 3 * k + 1) := by rw [h.begun.src, h.sp]
  have hr : t.src.read (t.ctx.sp + 2) = b.src.read (b.ctx.sp + 3 * k + 2) := by rw [h.begun.src, h.sp]
  have hold : ∀ i, i < k → nodeAt b i ≠ nodeAt b k := fun i hi => hg.distinct i k hi (Nat.lt_succ_self k)
  have hnew : ¬(nodeAt b k = t.ctx.bt.clue ∨ isNodeByte t.ctx.bt.isNode (nodeAt b k) = true) := by
    rw [h.clue, h.isNode]
    rintro (hc | ⟨i, hi, he⟩)
    · exact hg.clue k (Nat.lt_succ_self k) hc
    · exact hold i hi he
  have hroom : t.ctx.sp + 3 ≤ t.srcLen.toNat := by
    rw [h.begun.srcLen, h.sp]
    have := hg.room
    omega
  refine ⟨_, by rw [loadTriples_succ n hroom, hnd, if_neg hnew, hl, hr], ?_⟩
  refine ⟨(h.begun.trans (nothingPutOut_fetched 3 t)).trans (nothingPutOut_setBtNode _ _ _ _), ?_, h.ulen, h.clue,
    h.count, h.stack, fun v => ?_, fun i hi => ?_, fun i hi => ?_⟩
  · rw [setBtNode_ctx_sp, fetched_ctx_sp, h.sp]
    omega
  · simp only [setBtNode_ctx_bt, fetched_ctx_bt, isNodeByte_setD, h.isNode]
    constructor
    · rintro (rfl | ⟨i, hi, he⟩)
      · exact ⟨k, Nat.lt_succ_self k, rfl⟩
      · exact ⟨i, Nat.lt_succ_of_lt hi, he⟩
    · rintro ⟨i, hi, rfl⟩
      rcases Nat.lt_succ_iff_lt_or_eq.1 hi with hlt | rfl
      · exact .inr ⟨i, hlt, rfl⟩
      · exact .inl rfl
  · rcases Nat.lt_succ_iff_lt_or_eq.1 hi with hlt | rfl
    · exact (read_write_toNat_ne _ _ (hold i hlt)).trans (h.left i hlt)
    · exact Memory.read_write_same _ _ _
  · rcases Nat.lt_succ_iff_lt_or_eq.1 hi with hlt | rfl
    · exact (read_write_toNat_ne _ _ (hold i hlt)).trans (h.right i hlt)
    · exact Memory.read_write_same _ _ _

/-- Good triples are loaded one by one. -/
theorem loadTriples_good {b : State} (hb : b.ctx.bt.isNode = []) (n : Nat) {k : Nat} (hg : TriplesGood b k) :
    ∃ t, loadTriples (k + n) b = loadTriples n t ∧ NodesLoaded b k t := by
  induction k generalizing n with
  | zero => exact ⟨b, by rw [Nat.zero_add], .zero hb⟩
  | succ k ih =>
    obtain ⟨t, ht, hloaded⟩ := ih (n + 1) ⟨by have := hg.room; omega, fun i hi => hg.clue i (Nat.lt_succ_of_lt hi),
      fun i j hij hj => hg.distinct i j hij (Nat.lt_succ_of_lt hj)⟩
    obtain ⟨u, hu, hloaded'⟩ := hloaded.succ hg n
    exact ⟨u, by rw [Nat.succ_add, ← Nat.add_succ, ht, hu], hloaded'⟩

section
variable {b : State} (hb : b.ctx.bt.isNode = []) (n : Nat) {j : Nat} (hg : TriplesGood b j)
include hb hg

/-- The first bad triple ends the load. -/
theorem loadTriples_bad (hroom : b.ctx.sp + 3 * (j + 1) ≤ b.srcLen.toNat)
    (hbad : nodeAt b j = b.ctx.bt.clue ∨ ∃ i, i < j ∧ nodeAt b i = nodeAt b j) :
    ∃ u, loadTriples (j + (n + 1)) b = .ended (fail .badTable u) ∧ NothingPutOut b u ∧
      u.ctx.sp = b.ctx.sp + 3 * (j + 1) := by
  obtain ⟨t, ht, hl⟩ := loadTriples_good hb (n + 1) hg
  have hnd : t.src.read t.ctx.sp = nodeAt b j := by rw [hl.begun.src, hl.sp, nodeAt]
  have hroom' : t.ctx.sp + 3 ≤ t.srcLen.toNat := by rw [hl.begun.srcLen, hl.sp]; omega
  refine ⟨fetched 3 t, ?_, hl.begun.trans (nothingPutOut_fetched 3 t), ?_⟩
  · rw [← hl.clue, ← hl.isNode] at hbad
    rw [ht, loadTriples_succ n hroom', hnd, if_pos hbad]
  · rw [fetched_ctx_sp, hl.sp]
    omega

/-- The end of the stream ends the load. -/
theorem loadTriples_truncated (hcut : b.srcLen.toNat < b.ctx.sp + 3 * (j + 1)) :
    ∃ u, loadTriples (j + (n + 1)) b = .ended (fail .truncated u) ∧ NothingPutOut b u ∧
      u.ctx.sp = b.srcLen.toNat := by
  obtain ⟨t, ht, hl⟩ := loadTriples_good hb (n + 1) hg
  have hsp : t.ctx.sp ≤ t.srcLen.toNat := by rw [hl.begun.srcLen, hl.sp]; exact hg.room
  have hcut' : t.srcLen.toNat < t.ctx.sp + 3 := by rw [hl.begun.srcLen, hl.sp]; omega
  refine ⟨_, ht.trans (loadTriples_cut n hsp hcut'), hl.begun.trans (nothingPutOut_fetched _ t), ?_⟩
  rw [fetched_ctx_sp, Nat.add_sub_cancel' hsp, hl.begun.srcLen]

end

/-! ## The start of a BinaryTree DECODE -/

/-- Behind the clue and the count (44 R300). -/
def atTriples (h : Header) (s : State) : State :=
  setBtHead (s.src.read h.bodyAt) (s.src.read (h.bodyAt + 1)) (fetched 2 (behindHeader h s))

theorem nothingPutOut_atTriples (h : Header) (s : State) : NothingPutOut s (atTriples h s) :=
  ((nothingPutOut_behindHeader h s).trans (nothingPutOut_fetched 2 _)).trans (nothingPutOut_setBtHead _ _ _)

section
variable {s : State} {h : Header} (hh : s.header .bt = .ok h)
include hh

theorem decodeBtOp_triples (h2 : h.bodyAt + 2 ≤ s.srcLen.toNat) :
    decodeOp .bt s = loadTriples (s.src.read (h.bodyAt + 1)).toNat (atTriples h s) := by
  show decodeBtOp s = _
  have h0 : (behindHeader h s).ctx.sp < (behindHeader h s).srcLen.toNat := by
    show h.bodyAt < s.srcLen.toNat
    omega
  have h1 : (fetched 1 (behindHeader h s)).ctx.sp < (fetched 1 (behindHeader h s)).srcLen.toNat := by
    show h.bodyAt + 1 < s.srcLen.toNat
    omega
  rw [decodeBtOp, readHeader_of_ok hh, fetchByte_of_lt _ h0, fetchByte_of_lt _ h1, fetched_add]
  rfl

theorem decodeBtOp_cut (h2 : s.srcLen.toNat < h.bodyAt + 2) :
    decodeOp .bt s = .ended (fail .truncated (fetched (s.srcLen.toNat - h.bodyAt) (behindHeader h s))) := by
  show decodeBtOp s = _
  have hle : h.bodyAt ≤ s.srcLen.toNat := (parseHeader_ok_le hh).1
  rcases Nat.eq_or_lt_of_le hle with heq | hlt
  · rw [decodeBtOp, readHeader_of_ok hh, fetchByte_of_ge _ (show s.srcLen.toNat ≤ h.bodyAt from heq.ge), ← heq,
      Nat.sub_self]
    rfl
  · rw [decodeBtOp, readHeader_of_ok hh, fetchByte_of_lt _ (show h.bodyAt < s.srcLen.toNat from hlt),
      fetchByte_of_ge _ (show s.srcLen.toNat ≤ h.bodyAt + 1 by omega), show s.srcLen.toNat - h.bodyAt = 1 by omega]

end

/-- Settles O23: good triples are loaded one by one (`loadTriples_good`), up to the end of the table, to the first bad
triple, or to the end of the stream. -/
theorem decodeLoadsNodeTable : Obligations.DecodeLoadsNodeTable := by
  intro s h hb hd hp clue count node
  have hbody : h.bodyAt ≤ s.srcLen.toNat := (parseHeader_ok_le hp).1
  have hstart : NothingPutOut (beginOp .bt 4 s) (atTriples h (beginOp .bt 4 s)) := nothingPutOut_atTriples h _
  have htriples : h.bodyAt + 2 ≤ s.srcLen.toNat →
      decodeOp .bt (beginOp .bt 4 s) = loadTriples count (atTriples h (beginOp .bt 4 s)) :=
    decodeBtOp_triples (s := beginOp .bt 4 s) hp
  have hsrcLen : BitVec.ofNat 32 s.srcLen.toNat = s.srcLen := by simp
  generalize hstate : atTriples h (beginOp .bt 4 s) = b at hstart htriples
  have hsp : b.ctx.sp = h.bodyAt + 2 := by rw [← hstate]; rfl
  have hisNode : b.ctx.bt.isNode = [] := by rw [← hstate]; rfl
  have hclue : b.ctx.bt.clue = clue := by rw [← hstate]; rfl
  have hnode : ∀ i, nodeAt b i = node i := fun i => by rw [← hstate]; rfl
  have hgood : ∀ {k}, h.bodyAt + 2 + 3 * k ≤ s.srcLen.toNat → (∀ i, i < k → node i ≠ clue) →
      (∀ i j, i < j → j < k → node i ≠ node j) → TriplesGood b k := fun hroom hne hdist =>
    ⟨by rw [hsp, hstart.srcLen]; exact hroom, fun i hi => by rw [hnode, hclue]; exact hne i hi,
      fun i j hij hj => by rw [hnode, hnode]; exact hdist i j hij hj⟩
  refine ⟨fun hroom hne hdist => ?_, fun j hj hroom hne hdist hbad => ?_, fun hcut => ?_,
    fun h2 hcut hne hdist => ?_⟩
  · obtain ⟨t, ht, hl⟩ := loadTriples_good hisNode 0 (hgood hroom hne hdist)
    obtain ⟨hreached, hdst, hkept, hfree⟩ := (hstart.trans hl.begun).bodyReached
    refine ⟨t, exec_decode_begun hb ((htriples (by omega)).trans ht) hd, ?_, ?_, hl.clue.trans hclue, ?_, ?_,
      fun v => ?_, fun i hi => ⟨?_, ?_⟩, hdst, hkept, hfree⟩
    · rwa [hl.sp, hsp] at hreached
    · rw [hl.ulen, ← hstate]; rfl
    · rw [hl.count, ← hstate]; rfl
    · rw [hl.stack, ← hstate]; rfl
    · simp only [hl.isNode, hnode]
    · rw [← hnode, hl.left i hi, hstart.src, hsp]
      exact congrArg s.src.read (by omega)
    · rw [← hnode, hl.right i hi, hstart.src, hsp]
      exact congrArg s.src.read (by omega)
  · obtain ⟨n, hn⟩ : ∃ n, count = j + (n + 1) := ⟨count - j - 1, by omega⟩
    obtain ⟨u, hu, hbegun, husp⟩ := loadTriples_bad hisNode n (hgood (by omega) hne hdist)
      (by rw [hsp, hstart.srcLen]; show _ ≤ s.srcLen.toNat; omega) (by simpa only [hnode, hclue] using hbad)
    obtain ⟨hfail, hdsp, hdp, hkept⟩ := (hstart.trans hbegun).failed .badTable
    refine ⟨_, exec_decode_ended hb ((htriples (by omega)).trans (hn ▸ hu)) hd, hfail, ?_, hdp, hkept⟩
    rw [hdsp, husp, hsp, show h.bodyAt + 2 + 3 * (j + 1) = h.bodyAt + 5 + 3 * j by omega]
  · obtain ⟨hfail, hdsp, hdp, hkept⟩ := ((nothingPutOut_behindHeader h (beginOp .bt 4 s)).trans
      (nothingPutOut_fetched (s.srcLen.toNat - h.bodyAt) _)).failed .truncated
    refine ⟨_, exec_decode_ended hb (decodeBtOp_cut (s := beginOp .bt 4 s) hp hcut) hd, hfail, hdsp.trans ?_, hdp,
      hkept⟩
    show BitVec.ofNat 32 (h.bodyAt + (s.srcLen.toNat - h.bodyAt)) = _
    rw [Nat.add_sub_cancel' hbody, hsrcLen]
  · obtain ⟨k, hk⟩ : ∃ k, k = (s.srcLen.toNat - (h.bodyAt + 2)) / 3 := ⟨_, rfl⟩
    obtain ⟨n, hn⟩ : ∃ n, count = k + (n + 1) := ⟨count - k - 1, by omega⟩
    obtain ⟨u, hu, hbegun, husp⟩ := loadTriples_truncated hisNode n
      (hgood (k := k) (by omega) (fun i hi => hne i (by omega)) fun i j hij hj => hdist i j hij (by omega))
      (by rw [hsp, hstart.srcLen]; show s.srcLen.toNat < _; omega)
    obtain ⟨hfail, hdsp, hdp, hkept⟩ := (hstart.trans hbegun).failed .truncated
    refine ⟨_, exec_decode_ended hb ((htriples h2).trans (hn ▸ hu)) hd, hfail, ?_, hdp, hkept⟩
    rw [hdsp, husp, hstart.srcLen]
    exact hsrcLen

end Sys2Proof.Machine
end

section
/-! The table of a Huffman stream (30 R145, 45 R396, R397): the leapfrog order walked by the decoder and counted by the
skips, and the table's bits read back. -/

namespace Sys2Proof

open Sys2Proof.Machine

/-! ## The leapfrog walk -/

theorem toByte_toNat (b : Byte) : toByte b.toNat = b := by rw [toByte, BitVec.ofNat_toNat, BitVec.setWidth_eq]

theorem toByte_add (a b : Nat) : toByte (a + b) = toByte a + toByte b := BitVec.ofNat_add ..

/-- How many of the `d` values behind `prev`, going upward and around, are not in `S`. -/
def freeBehind (S : List Byte) (prev : Byte) (d : Nat) : Nat :=
  ((List.range d).filter fun j => decide (prev + toByte (j + 1) ∉ S)).length

theorem freeBehind_succ (S : List Byte) (prev : Byte) (d : Nat) :
    freeBehind S prev (d + 1) = freeBehind S prev d + if prev + toByte (d + 1) ∈ S then 0 else 1 := by
  rw [freeBehind, List.range_succ, List.filter_append, List.length_append]
  by_cases h : prev + toByte (d + 1) ∈ S <;> simp [freeBehind, h]

/-- The first value taken off. -/
theorem freeBehind_succ' (S : List Byte) (prev : Byte) (d : Nat) :
    freeBehind S prev (d + 1) = (if prev + 1 ∈ S then 0 else 1) + freeBehind S (prev + 1) d := by
  have hshift : ∀ j, prev + toByte (j + 1 + 1) = prev + 1 + toByte (j + 1) := fun j => by
    rw [toByte_add (j + 1) 1, BitVec.add_assoc, BitVec.add_comm (toByte (j + 1))]
    rfl
  induction d with
  | zero => rw [freeBehind_succ]; exact Nat.add_comm _ _
  | succ d ih => rw [freeBehind_succ, ih, freeBehind_succ S (prev + 1), hshift, Nat.add_assoc]

theorem freeBehind_mono (S : List Byte) (prev : Byte) {d e : Nat} (h : d ≤ e) :
    freeBehind S prev d ≤ freeBehind S prev e := by
  induction e, h using Nat.le_induction with
  | base => exact le_rfl
  | succ e _ ih => rw [freeBehind_succ]; omega

/-- Every value stands `1` to `256` places behind `prev`. -/
theorem exists_dist (prev t : Byte) : ∃ d, d < 256 ∧ prev + toByte (d + 1) = t := by
  refine ⟨(t - prev - 1).toNat, BitVec.isLt _, ?_⟩
  rw [toByte_add, toByte_toNat, show toByte 1 = 1 from rfl, BitVec.sub_add_cancel, BitVec.add_comm,
    BitVec.sub_add_cancel]

theorem toByte_succ_injOn {i j : Nat} (hi : i < 256) (hj : j < 256) (h : toByte (i + 1) = toByte (j + 1)) : i = j := by
  have := congrArg BitVec.toNat h
  rw [toNat_toByte, toNat_toByte] at this
  omega

theorem card_byte : Fintype.card Byte = 256 := by
  rw [← FinEnum.card_eq_fintypeCard]
  exact FinEnum.card_bitVec 8

/-- Going all the way around meets every value once. -/
theorem freeBehind_all {S : List Byte} (hS : S.Nodup) (prev : Byte) : freeBehind S prev 256 = 256 - S.length := by
  have himage : ((Finset.range 256).filter fun j => prev + toByte (j + 1) ∉ S).image (fun j => prev + toByte (j + 1)) =
      S.toFinsetᶜ := by
    ext t
    simp only [Finset.mem_image, Finset.mem_filter, Finset.mem_range, Finset.mem_compl, List.mem_toFinset]
    constructor
    · rintro ⟨d, ⟨-, hfree⟩, rfl⟩
      exact hfree
    · intro ht
      obtain ⟨d, hd, rfl⟩ := exists_dist prev t
      exact ⟨d, ⟨hd, ht⟩, rfl⟩
  have hinj : Set.InjOn (fun j => prev + toByte (j + 1))
      ((Finset.range 256).filter fun j => prev + toByte (j + 1) ∉ S) := by
    intro i hi j hj h
    simp only [Finset.coe_filter, Finset.mem_range, Set.mem_ofPred_eq] at hi hj
    exact toByte_succ_injOn hi.1 hj.1 ((BitVec.add_right_inj prev).1 h)
  calc freeBehind S prev 256 = ((Finset.range 256).filter fun j => prev + toByte (j + 1) ∉ S).card := by
        rw [freeBehind, ← List.toFinset_card_of_nodup (List.nodup_range.filter _), List.toFinset_filter,
          List.toFinset_range]
        simp
    _ = S.toFinsetᶜ.card := by rw [← himage, Finset.card_image_of_injOn hinj]
    _ = 256 - S.length := by rw [Finset.card_compl, card_byte, List.toFinset_card_of_nodup hS]

/-- The free values are met one by one. -/
theorem exists_free (S : List Byte) (prev : Byte) {v f : Nat} (h : v < freeBehind S prev f) :
    ∃ d, d < f ∧ prev + toByte (d + 1) ∉ S ∧ freeBehind S prev d = v := by
  induction f with
  | zero => exact absurd h (Nat.not_lt_zero v)
  | succ f ih =>
    rw [freeBehind_succ] at h
    rcases Nat.lt_or_ge v (freeBehind S prev f) with hlt | hge
    · obtain ⟨d, hd, hrest⟩ := ih hlt
      exact ⟨d, Nat.lt_succ_of_lt hd, hrest⟩
    · split_ifs at h with hmem
      · omega
      · exact ⟨f, Nat.lt_succ_self f, hmem, by omega⟩

/-- The walk behind as many free values as lie before a free value stops at it. -/
theorem leapTo_freeBehind {assigned : Sparse Bool} {S : List Byte}
    (hS : ∀ b : Byte, assigned.getD false b.toNat = decide (b ∈ S)) {d f : Nat} (hd : d < f) (prev : Byte)
    (hfree : prev + toByte (d + 1) ∉ S) :
    leapTo assigned f (freeBehind S prev d + 1) prev.toNat = (prev + toByte (d + 1)).toNat := by
  induction d generalizing f prev with
  | zero =>
    obtain ⟨f, rfl⟩ : ∃ g, f = g + 1 := ⟨f - 1, by omega⟩
    have hnext : (prev.toNat + 1) % 256 = (prev + toByte 1).toNat := by rw [BitVec.toNat_add, toNat_toByte]
    rw [leapTo, hnext, hS, decide_eq_false hfree]
    rfl
  | succ d ih =>
    obtain ⟨f, rfl⟩ : ∃ g, f = g + 1 := ⟨f - 1, by omega⟩
    have hnext : (prev.toNat + 1) % 256 = (prev + 1).toNat := by rw [BitVec.toNat_add]; rfl
    have hshift : prev + toByte (d + 1 + 1) = prev + 1 + toByte (d + 1) := by
      rw [toByte_add (d + 1) 1, BitVec.add_assoc, BitVec.add_comm (toByte (d + 1))]
      rfl
    rw [hshift] at hfree ⊢
    rw [leapTo, hnext, hS, freeBehind_succ']
    by_cases hmem : prev + 1 ∈ S
    · rw [decide_eq_true hmem, if_pos hmem, Nat.zero_add]
      exact ih (by omega) _ hfree
    · simp only [decide_eq_false hmem, if_neg hmem]
      rw [if_neg (by simp), if_neg (by omega), Nat.add_sub_cancel, Nat.add_comm 1]
      exact ih (by omega) _ hfree

/-! ## The skips -/

/-- The symbol before the next one (45 R397). -/
def lastSym (syms : List Byte) : Byte := if syms.length = 0 then 255 else syms.getD (syms.length - 1) 0

/-- The bookkeeping after the symbols `syms`. -/
def leapOf (syms : List Byte) : Leap :=
  ⟨syms.reverse, syms.foldl (fun a s => a.setD false s.toNat true) [], (lastSym syms).toNat⟩

theorem lastSym_concat (syms : List Byte) (t : Byte) : lastSym (syms ++ [t]) = t := by
  simp [lastSym]

theorem leapOf_concat (syms : List Byte) (t : Byte) :
    leapOf (syms ++ [t]) = ⟨t :: (leapOf syms).symsRev, (leapOf syms).assigned.setD false t.toNat true, t.toNat⟩ := by
  simp [leapOf, lastSym_concat]

theorem assigned_leapOf (syms : List Byte) (b : Byte) :
    (leapOf syms).assigned.getD false b.toNat = decide (b ∈ syms) := by
  induction syms using List.reverseRecOn with
  | nil => rfl
  | append_singleton syms t ih =>
    rw [leapOf_concat, Sparse.getD_setD, ih]
    by_cases h : b = t
    · simp [h]
    · rw [if_neg fun he => h (BitVec.eq_of_toNat_eq he)]
      simp [h]

/-- The skip of the symbol behind `syms`, as the walk counts it. -/
theorem leapfrogSkip_concat (syms : List Byte) {d : Nat} (hd : d < 256) :
    leapfrogSkip (syms ++ [lastSym syms + toByte (d + 1)]) syms.length = freeBehind syms (lastSym syms) d := by
  have hprev : (if syms.length = 0 then (255 : Byte) else
      (syms ++ [lastSym syms + toByte (d + 1)]).getD (syms.length - 1) 0) = lastSym syms := by
    rw [lastSym]
    split_ifs with h
    · rfl
    · exact List.getD_append _ _ _ _ (by omega)
  have ht : (syms ++ [lastSym syms + toByte (d + 1)]).getD syms.length 0 = lastSym syms + toByte (d + 1) := by simp
  have hdist : (if lastSym syms + toByte (d + 1) = lastSym syms then 256 else
      (lastSym syms + toByte (d + 1) - lastSym syms).toNat) = d + 1 := by
    have hval : (lastSym syms + toByte (d + 1) - lastSym syms).toNat = (d + 1) % 256 := by
      rw [BitVec.add_comm, BitVec.add_sub_cancel, toNat_toByte]
    split_ifs with h
    · rw [h, BitVec.sub_self] at hval
      change 0 = _ at hval
      omega
    · rcases Nat.lt_or_ge (d + 1) 256 with hlt | hge
      · rw [hval, Nat.mod_eq_of_lt hlt]
      · obtain rfl : d = 255 := by omega
        exact absurd (show lastSym syms + toByte 256 = lastSym syms from BitVec.add_zero _) h
  simp only [leapfrogSkip, hprev, ht, hdist, List.take_left, Nat.add_sub_cancel]
  rfl

theorem leapfrogSkip_append {syms : List Byte} (more : List Byte) {i : Nat} (h : i < syms.length) :
    leapfrogSkip (syms ++ more) i = leapfrogSkip syms i := by
  simp only [leapfrogSkip, List.getD_append syms more 0 i h, List.getD_append syms more 0 (i - 1) (by omega),
    List.take_append_of_le_length h.le]

theorem numsBits_append (vs ws : List Nat) : numsBits (vs ++ ws) = numsBits vs ++ numsBits ws := List.flatMap_append

theorem hrSkipBits_concat (syms : List Byte) (t : Byte) :
    hrSkipBits (syms ++ [t]) = hrSkipBits syms ++ numBits (leapfrogSkip (syms ++ [t]) syms.length) := by
  have hold : (List.range syms.length).map (leapfrogSkip (syms ++ [t])) =
      (List.range syms.length).map (leapfrogSkip syms) :=
    List.map_congr_left fun i hi => leapfrogSkip_append [t] (List.mem_range.1 hi)
  rw [hrSkipBits, List.length_append, List.length_singleton, List.range_succ, List.map_append, numsBits_append, hold]
  simp [hrSkipBits, numsBits]

/-! ## Reading the skips -/

theorem getLeaps_add (a b : Nat) (l : Leap) (r : BitSrc) :
    getLeaps (a + b) l r = (getLeaps a l r).bind (getLeaps b) := by
  induction a generalizing l r with
  | zero => rw [Nat.zero_add]; rfl
  | succ a ih =>
    rw [Nat.succ_add, getLeaps, getLeaps]
    cases getnum r with
    | err e st r => rfl
    | ok v r =>
      simp only [Rd.bind_ok]
      split_ifs
      · rfl
      · exact ih _ r

/-- A new symbol is reached by its skip. -/
theorem leapTo_leapfrogSkip {syms : List Byte} (hs : syms.Nodup) {t : Byte} (ht : t ∉ syms) :
    leapTo (leapOf syms).assigned 256 (leapfrogSkip (syms ++ [t]) syms.length + 1) (leapOf syms).cur = t.toNat ∧
      leapfrogSkip (syms ++ [t]) syms.length + 1 ≤ 256 - syms.length := by
  obtain ⟨d, hd, rfl⟩ := exists_dist (lastSym syms) t
  rw [leapfrogSkip_concat syms hd]
  refine ⟨leapTo_freeBehind (assigned_leapOf syms) hd _ ht, ?_⟩
  have hnext := freeBehind_succ syms (lastSym syms) d
  have hmono := freeBehind_mono syms (lastSym syms) (show d + 1 ≤ 256 from hd)
  rw [if_neg ht] at hnext
  rw [freeBehind_all hs] at hmono
  omega

/-- Every skip within the unassigned values is that of a new symbol. -/
theorem exists_leapfrogSkip {syms : List Byte} (hs : syms.Nodup) {v : Nat} (hv : v + 1 ≤ 256 - syms.length) :
    ∃ t ∉ syms, leapfrogSkip (syms ++ [t]) syms.length = v := by
  rw [← freeBehind_all hs (lastSym syms)] at hv
  obtain ⟨d, hd, hfree, hcount⟩ := exists_free syms (lastSym syms) hv
  exact ⟨_, hfree, by rw [leapfrogSkip_concat syms hd, hcount]⟩

/-- One skip read. -/
theorem leap_leapOf {syms : List Byte} (hs : syms.Nodup) {t : Byte} (ht : t ∉ syms) :
    let cur := leapTo (leapOf syms).assigned 256 (leapfrogSkip (syms ++ [t]) syms.length + 1) (leapOf syms).cur
    (⟨BitVec.ofNat 8 cur :: (leapOf syms).symsRev, (leapOf syms).assigned.setD false cur true, cur⟩ : Leap) =
      leapOf (syms ++ [t]) := by
  rw [leapOf_concat, (leapTo_leapfrogSkip hs ht).1]
  exact congrArg (fun b => (⟨b :: _, _, _⟩ : Leap)) (toByte_toNat t)

theorem length_symsRev_leapOf (syms : List Byte) : (leapOf syms).symsRev.length = syms.length := List.length_reverse

theorem reads_getLeaps {syms : List Byte} (hs : syms.Nodup) :
    Reads (getLeaps syms.length Leap.init) (hrSkipBits syms) (leapOf syms) := by
  induction syms using List.reverseRecOn with
  | nil => exact Reads.pure _
  | append_singleton syms t ih =>
    obtain ⟨hsyms, ht⟩ : syms.Nodup ∧ t ∉ syms := by
      rw [List.nodup_append] at hs
      exact ⟨hs.1, fun hmem => hs.2.2 t hmem t (List.mem_singleton_self t) rfl⟩
    have hroom := (leapTo_leapfrogSkip hsyms ht).2
    have hone : Reads (getLeaps 1 (leapOf syms)) (numBits (leapfrogSkip (syms ++ [t]) syms.length))
        (leapOf (syms ++ [t])) := by
      rw [← List.append_nil (numBits _)]
      refine (reads_getnum (by omega)).bind ?_
      simp only [length_symsRev_leapOf, if_neg (Nat.not_lt.2 hroom)]
      exact leap_leapOf hsyms ht ▸ Reads.pure _
    rw [hrSkipBits_concat, List.length_append, List.length_singleton, funext (getLeaps_add syms.length 1 Leap.init)]
    exact (ih hsyms).bind hone

/-- Skips that were read are those of new symbols. -/
theorem bits_of_getLeaps {k : Nat} {l : Leap} {r r' : BitSrc} (hr : r.Held) (h : getLeaps k Leap.init r = .ok l r') :
    ∃ syms : List Byte, syms.length = k ∧ syms.Nodup ∧ l = leapOf syms ∧ r.bits = hrSkipBits syms ++ r'.bits ∧
      r'.Held := by
  induction k generalizing l r' with
  | zero => cases h; exact ⟨[], rfl, List.nodup_nil, rfl, rfl, hr⟩
  | succ k ih =>
    rw [getLeaps_add] at h
    obtain ⟨l', q, hl', h⟩ := Rd.bind_eq_ok h
    obtain ⟨syms, hlen, hs, rfl, hbits, hq⟩ := ih hl'
    obtain ⟨v, p, hv, h⟩ := Rd.bind_eq_ok h
    obtain ⟨hword, hp⟩ := bits_of_getnum hq hv
    rw [length_symsRev_leapOf] at h
    split_ifs at h with hroom
    obtain ⟨t, ht, rfl⟩ := exists_leapfrogSkip hs (Nat.le_of_not_lt hroom)
    dsimp only at h
    rw [leap_leapOf hs ht] at h
    cases h
    refine ⟨syms ++ [t], by simp [hlen], ?_, rfl, ?_, hp⟩
    · rw [← List.concat_eq_append]
      exact hs.concat ht
    · rw [hbits, hword, hrSkipBits_concat, List.append_assoc]

/-! ## Reading the table -/

/-- Clue, `maxlen` and counts of a table (45 R396). -/
def getHrHead (r : BitSrc) : Rd (Nat × Nat × List Nat) :=
  (getbits .none 8 r).bind fun clue r => (getbits .none 4 r).bind fun maxlen r =>
    if maxlen = 0 then .err .badTable .none r else (getNums maxlen r).bind fun bl r => .ok (clue, maxlen, bl) r

/-- The checks of the counts, then the skips (45 R396, R397). -/
def getHrSyms (p : Nat × Nat × List Nat) (r : BitSrc) : Rd (HrTab × Leap) :=
  if p.2.2.sum = 0 ∨ 256 < p.2.2.sum ∨ 2 ^ p.2.1 < HrTab.kraft p.2.2 then .err .badTable .none r
  else (getLeaps p.2.2.sum Leap.init r).bind fun l r =>
    if l.assigned.getD false p.1 then .ok (⟨BitVec.ofNat 8 p.1, p.2.1, p.2.2, l.symsRev.reverse⟩, l) r
    else .err .badTable .none r

theorem getHrTab_eq (r : BitSrc) : getHrTab r = (getHrHead r).bind getHrSyms := by
  unfold getHrTab getHrHead
  cases getbits .none 8 r with
  | err e st r => rfl
  | ok clue r =>
    simp only [Rd.bind_ok]
    cases getbits .none 4 r with
    | err e st r => rfl
    | ok maxlen r =>
      simp only [Rd.bind_ok]
      split_ifs
      · rfl
      · cases getNums maxlen r <;> rfl

theorem reads_getNums {vs : List Nat} (h : ∀ v ∈ vs, v ≤ 65534) : Reads (getNums vs.length) (numsBits vs) vs := by
  induction vs with
  | nil => exact Reads.pure []
  | cons v vs ih =>
    exact (reads_getnum (h v List.mem_cons_self)).bind ((ih fun u hu => h u (List.mem_cons_of_mem v hu)).map (v :: ·))

theorem bits_of_getNums {k : Nat} {vs : List Nat} {r r' : BitSrc} (hr : r.Held) (h : getNums k r = .ok vs r') :
    vs.length = k ∧ r.bits = numsBits vs ++ r'.bits ∧ r'.Held := by
  induction k generalizing vs r with
  | zero => cases h; exact ⟨rfl, rfl, hr⟩
  | succ k ih =>
    obtain ⟨v, q, hv, h⟩ := Rd.bind_eq_ok h
    obtain ⟨ws, p, hws, h⟩ := Rd.bind_eq_ok h
    cases h
    obtain ⟨hword, hq⟩ := bits_of_getnum hr hv
    obtain ⟨hlen, hbits, hp⟩ := ih hq hws
    exact ⟨by rw [List.length_cons, hlen], by rw [hword, hbits, ← List.append_assoc]; rfl, hp⟩

theorem reads_getHrHead {clue : Nat} {bl : List Nat} (hclue : clue < 256) (h1 : 1 ≤ bl.length) (h15 : bl.length ≤ 15)
    (hbl : ∀ v ∈ bl, v ≤ 65534) : Reads getHrHead (hrHeadBits clue bl.length bl) (clue, bl.length, bl) := by
  rw [hrHeadBits, List.append_assoc]
  refine (reads_getbits .none (by decide) hclue).bind ((reads_getbits .none (by decide) ?_).bind ?_)
  · show bl.length < 16
    omega
  · simp only [if_neg (show ¬bl.length = 0 by omega)]
    exact (reads_getNums hbl).map fun vs => (clue, bl.length, vs)

/-- The counts of a table pass the checks of 45 R396. -/
structure CountsGood (bl : List Nat) : Prop where
  pos : 1 ≤ bl.sum
  le : bl.sum ≤ 256
  kraft : HrTab.kraft bl ≤ 2 ^ bl.length

/-- The checks of the counts passed, the skips are read. -/
theorem getHrSyms_of_good {clue : Nat} {bl : List Nat} (h : CountsGood bl) (r : BitSrc) :
    getHrSyms (clue, bl.length, bl) r = (getLeaps bl.sum Leap.init r).bind fun l r =>
      if l.assigned.getD false clue then .ok (⟨BitVec.ofNat 8 clue, bl.length, bl, l.symsRev.reverse⟩, l) r
      else .err .badTable .none r := by
  have hpos := h.pos
  have hle := h.le
  have hk := h.kraft
  exact if_neg (show ¬(bl.sum = 0 ∨ 256 < bl.sum ∨ 2 ^ bl.length < HrTab.kraft bl) by omega)

theorem CountsGood.le_max {bl : List Nat} (h : CountsGood bl) : ∀ v ∈ bl, v ≤ 65534 := fun v hv => by
  have := List.le_sum_of_mem hv
  have := h.le
  omega

theorem length_le_256 {syms : List Byte} (h : syms.Nodup) : syms.length ≤ 256 := by
  rw [← card_byte, ← List.toFinset_card_of_nodup h]
  exact Finset.card_le_univ _

theorem HrTab.Valid.countsGood {t : HrTab} (h : t.Valid) : CountsGood t.bl where
  pos := by rw [h.sum_bl]; exact List.length_pos_of_mem h.clue_mem
  le := by rw [h.sum_bl]; exact length_le_256 h.nodup
  kraft := by rw [h.length_bl]; exact h.kraft_le

theorem HrTab.Valid.reads_getHrTab {t : HrTab} (h : t.Valid) : Reads getHrTab (hrTableBits t) (t, leapOf t.syms) := by
  have hlen := h.length_bl
  have h1 := h.maxlen_pos
  have h15 : t.maxlen ≤ 15 := h.maxlen_le
  rw [funext getHrTab_eq, hrTableBits, ← hlen]
  refine (reads_getHrHead t.clue.isLt (by omega) (by omega) h.countsGood.le_max).bind ?_
  rw [funext (getHrSyms_of_good h.countsGood), h.sum_bl, ← List.append_nil (hrSkipBits _)]
  refine (reads_getLeaps h.nodup).bind ?_
  simp only [assigned_leapOf, decide_eq_true h.clue_mem, if_true]
  rw [show (leapOf t.syms).symsRev.reverse = t.syms from List.reverse_reverse _, hlen, BitVec.ofNat_toNat,
    BitVec.setWidth_eq]
  exact Reads.pure _

/-- A table that was read is valid, and its bits stood there. -/
theorem bits_of_getHrTab {t : HrTab} {l : Leap} {r r' : BitSrc} (hr : r.Held) (h : getHrTab r = .ok (t, l) r') :
    t.Valid ∧ r.bits = hrTableBits t ++ r'.bits := by
  obtain ⟨clue, q, hclue, h⟩ := Rd.bind_eq_ok h
  obtain ⟨maxlen, p, hmaxlen, h⟩ := Rd.bind_eq_ok h
  split_ifs at h with h0
  obtain ⟨bl, u, hbl, h⟩ := Rd.bind_eq_ok h
  split_ifs at h with hbad
  obtain ⟨l', w, hl, h⟩ := Rd.bind_eq_ok h
  split_ifs at h with hassigned
  cases h
  obtain ⟨hcluebits, hq⟩ := bits_of_getbits (by decide) hr hclue
  obtain ⟨hmaxbits, hp⟩ := bits_of_getbits (by decide) hq hmaxlen
  obtain ⟨hlen, hblbits, hu⟩ := bits_of_getNums hp hbl
  obtain ⟨syms, hsum, hs, rfl, hskipbits, -⟩ := bits_of_getLeaps hu hl
  have hclue256 : clue < 256 := getbits_lt hclue
  have hmax16 : maxlen < 16 := getbits_lt hmaxlen
  have hsyms : (leapOf syms).symsRev.reverse = syms := List.reverse_reverse syms
  have hbyte : (BitVec.ofNat 8 clue).toNat = clue := Nat.mod_eq_of_lt hclue256
  rw [← hbyte, assigned_leapOf, decide_eq_true_eq] at hassigned
  rw [hsyms]
  refine ⟨⟨by show 1 ≤ maxlen; omega, by show maxlen ≤ 15; omega, hlen, hsum.symm, hs, ?_, hassigned⟩, ?_⟩
  · show HrTab.kraft bl ≤ 2 ^ maxlen
    omega
  · rw [hcluebits, hmaxbits, hblbits, hskipbits, hrTableBits, hrHeadBits, hbyte]
    simp only [List.append_assoc]

/-! ## Tables that are refused -/

section
variable {r : BitSrc} {tail : List Bool} (hr : r.Held)
include hr

theorem getHrTab_badCounts {clue : Nat} {bl : List Nat} (hclue : clue < 256) (h15 : bl.length ≤ 15)
    (hbl : ∀ v ∈ bl, v ≤ 65534) (hbits : r.bits = hrHeadBits clue bl.length bl ++ tail)
    (hbad : bl.length = 0 ∨ bl.sum = 0 ∨ 256 < bl.sum ∨ 2 ^ bl.length < HrTab.kraft bl) :
    ∃ r', getHrTab r = .err .badTable .none r' := by
  rcases Nat.eq_zero_or_pos bl.length with h0 | h1
  · rw [hrHeadBits, List.append_assoc, List.append_assoc] at hbits
    obtain ⟨q, hq, hheld, hqbits⟩ := (reads_getbits .none (by decide) hclue).ok hr hbits
    obtain ⟨p, hp, -, -⟩ := (reads_getbits .none (by decide) (show bl.length < 2 ^ 4 by omega)).ok hheld hqbits
    exact ⟨p, by simp only [getHrTab, hq, hp, Rd.bind_ok, if_pos h0]⟩
  · obtain ⟨q, hq, -, -⟩ := (reads_getHrHead hclue h1 h15 hbl).ok hr hbits
    exact ⟨q, by rw [getHrTab_eq, hq, Rd.bind_ok, getHrSyms, if_pos (hbad.resolve_left (Nat.ne_of_gt h1))]⟩

/-- A skip beyond the unassigned values is refused (45 R397). -/
theorem getLeaps_badSkip (m : Nat) {k : Nat} {syms : List Byte} (hk : k ≤ 65534) (hbad : 256 ≤ k + syms.length)
    (hbits : r.bits = numBits k ++ tail) : ∃ r', getLeaps (m + 1) (leapOf syms) r = .err .badTable .none r' := by
  obtain ⟨q, hq, -, -⟩ := (reads_getnum hk).ok hr hbits
  have hlt : 256 - (leapOf syms).symsRev.length < k + 1 := by rw [length_symsRev_leapOf]; omega
  exact ⟨q, by rw [getLeaps, hq, Rd.bind_ok, if_pos hlt]⟩

theorem getHrTab_badSkip {clue k : Nat} {bl : List Nat} {syms : List Byte} (hclue : clue < 256) (h1 : 1 ≤ bl.length)
    (h15 : bl.length ≤ 15) (hgood : CountsGood bl) (hs : syms.Nodup) (hlen : syms.length < bl.sum) (hk : k ≤ 65534)
    (hbad : 256 ≤ k + syms.length)
    (hbits : r.bits = hrHeadBits clue bl.length bl ++ hrSkipBits syms ++ numBits k ++ tail) :
    ∃ r', getHrTab r = .err .badTable .none r' := by
  rw [List.append_assoc, List.append_assoc] at hbits
  obtain ⟨m, hm⟩ : ∃ m, bl.sum = syms.length + (m + 1) := ⟨bl.sum - syms.length - 1, by omega⟩
  obtain ⟨q, hq, hheld, hqbits⟩ := (reads_getHrHead hclue h1 h15 hgood.le_max).ok hr hbits
  obtain ⟨p, hp, hpheld, hpbits⟩ := (reads_getLeaps hs).ok hheld hqbits
  obtain ⟨u, hu⟩ := getLeaps_badSkip hpheld m hk hbad hpbits
  refine ⟨u, ?_⟩
  rw [getHrTab_eq, hq, Rd.bind_ok, getHrSyms_of_good hgood, hm, getLeaps_add, hp, Rd.bind_ok, hu]
  rfl

theorem getHrTab_badClue {t : HrTab} {c : Byte} (h : HrTab.Valid { t with clue := c }) (hclue : t.clue ∉ t.syms)
    (hbits : r.bits = hrTableBits t ++ tail) : ∃ r', getHrTab r = .err .badTable .none r' := by
  have hlen : t.bl.length = t.maxlen := h.length_bl
  have h1 : 1 ≤ t.maxlen := h.maxlen_pos
  have h15 : t.maxlen ≤ 15 := h.maxlen_le
  have hgood : CountsGood t.bl := h.countsGood
  have hsum : t.bl.sum = t.syms.length := h.sum_bl
  rw [hrTableBits, ← hlen, List.append_assoc] at hbits
  obtain ⟨q, hq, hheld, hqbits⟩ := (reads_getHrHead t.clue.isLt (by omega) (by omega) hgood.le_max).ok hr hbits
  obtain ⟨p, hp, -, -⟩ := (reads_getLeaps h.nodup).ok hheld hqbits
  refine ⟨p, ?_⟩
  rw [getHrTab_eq, hq, Rd.bind_ok, getHrSyms_of_good hgood, hsum, hp, Rd.bind_ok, assigned_leapOf,
    decide_eq_false hclue]
  rfl

end

end Sys2Proof

namespace Sys2Proof.Machine

/-! ## The start of a Huffman DECODE -/

theorem total_reader (s : State) : s.reader.total = s.srcLen.toNat - s.ctx.sp := by
  simp [BitSrc.total, State.reader, State.rest]

/-- The reader after a reading from the stream: what the reading left. -/
theorem bits_reader_setReader {s : State} {r : BitSrc} {w : List Bool} (htotal : r.total = s.reader.total)
    (hbits : s.reader.bits = w ++ r.bits) : (s.setReader r).reader.bits = r.bits := by
  have hlen : r.used + r.bytes.length = s.srcLen.toNat - s.ctx.sp := htotal.trans (total_reader s)
  have hrest : s.rest = s.src.bytesFrom s.ctx.sp r.used ++ (s.setReader r).rest := by
    rw [State.rest, State.rest, setReader_src, setReader_srcLen,
      show (s.setReader r).ctx.sp = s.ctx.sp + r.used from rfl, ← Memory.bytesFrom_add]
    congr 1
    omega
  have hrest' : (s.setReader r).rest.length = r.bytes.length := by
    rw [State.rest, Memory.length_bytesFrom]
    show s.srcLen.toNat - (s.ctx.sp + r.used) = _
    omega
  have hsame : bytesBits (s.setReader r).rest = bytesBits r.bytes := by
    have hall : (natBits s.ctx.nacc s.ctx.acc.toNat ++ bytesBits (s.src.bytesFrom s.ctx.sp r.used)) ++
        bytesBits (s.setReader r).rest = (w ++ natBits r.nacc r.acc.toNat) ++ bytesBits r.bytes := by
      rw [List.append_assoc, ← bytesBits_append, ← hrest, List.append_assoc]
      exact hbits
    exact List.append_inj_right' hall (by rw [length_bytesBits, length_bytesBits, hrest'])
  exact congrArg (natBits r.nacc r.acc.toNat ++ ·) hsame

section
variable {s : State} {h : Header} (hh : s.header .hr = .ok h)
include hh

theorem decodeHrOp_ok {t : HrTab} {l : Leap} {r : BitSrc} (hr : getHrTab (behindHeader h s).reader = .ok (t, l) r) :
    decodeOp .hr s = .cont (setHrTab t l ((behindHeader h s).setReader r)) := by
  show decodeHrOp s = _
  rw [decodeHrOp, readHeader_of_ok hh, hr]

theorem decodeHrOp_err {e : Reject} {st : Stage} {r : BitSrc} (hr : getHrTab (behindHeader h s).reader = .err e st r) :
    decodeOp .hr s = .ended (fail (Cause.ofReject e) ((behindHeader h s).setReader r)) := by
  show decodeHrOp s = _
  rw [decodeHrOp, readHeader_of_ok hh, hr]

end

/-- Settles O24: `bits_of_getHrTab` and `reads_getHrTab` say which bits are accepted as which table, and the three
refusals which are not. -/
theorem decodeLoadsHuffmanTable : Obligations.DecodeLoadsHuffmanTable := by
  intro s h hb hd hp body failsWith
  have hheld : body.Held := ⟨Nat.zero_le 7, Nat.one_pos⟩
  have hbegun : ∀ r, NothingPutOut (beginOp .hr 4 s) ((behindHeader h (beginOp .hr 4 s)).setReader r) := fun r =>
    (nothingPutOut_behindHeader h _).trans (nothingPutOut_setReader _ r)
  have hmagic : h.magic < 2 ^ 16 := (parseHeader_ok_magic hp).1 ▸ beVal_two_lt _ _
  have hok : ∀ {t l r}, getHrTab body = .ok (t, l) r →
      exec (.decode .hr) s = .next (setHrTab t l ((behindHeader h (beginOp .hr 4 s)).setReader r)) := fun hr =>
    exec_decode_begun hb (decodeHrOp_ok (s := beginOp .hr 4 s) hp hr) hd
  have herr : ∀ {e st r}, getHrTab body = .err e st r → ∃ t, exec (.decode .hr) s = .next t ∧
      FailedWith (Cause.ofReject e) t ∧ t.diag.sp = BitVec.ofNat 32 (h.bodyAt + r.used) ∧ t.diag.dp = 0 ∧
      InputsKept s t := fun {e _ r} hr =>
    ⟨_, exec_decode_ended hb (decodeHrOp_err (s := beginOp .hr 4 s) hp hr) hd, (hbegun r).failed (Cause.ofReject e)⟩
  have hfails : ∀ {e st r}, getHrTab body = .err e st r → failsWith (Cause.ofReject e) := fun hr => by
    obtain ⟨t, ht, hfail, -, hdp, hkept⟩ := herr hr
    exact ⟨t, ht, hfail, hdp, hkept⟩
  refine ⟨fun tab leap r hr => ?_, fun e st r hr => ?_, fun tab tail hvalid hbits => ?_, fun tab hvalid hpre hne => ?_,
    fun clue maxlen bl tail hclue h15 hlen hbl hbits hbad => ?_,
    fun clue bl syms k tail hclue h1 h15 hle hkraft hs hlen hk hbad hbits => ?_,
    fun tab c tail hvalid hclue hbits => ?_⟩
  · obtain ⟨hvalid, hbits⟩ := bits_of_getHrTab hheld hr
    obtain ⟨hreached, hdst, hkept, hfree⟩ := ((hbegun r).trans (nothingPutOut_setHrTab tab leap _)).bodyReached
    refine ⟨_, hok hr, hreached, rfl, rfl, rfl, rfl, tab.valid_iff.2 hvalid, hbits, ?_, hdst, hkept, hfree⟩
    show (BitVec.ofNat 16 h.magic).toNat / 512 % 4 = _
    rw [BitVec.toNat_ofNat, Nat.mod_eq_of_lt hmagic]
  · obtain ⟨t, ht, hfail, hsp, -, hkept⟩ := herr hr
    exact ⟨t, ht, hfail, hsp, hkept⟩
  · obtain ⟨r, hr, -, htail⟩ := (tab.valid_iff.1 hvalid).reads_getHrTab.ok hheld hbits
    have htotal : r.total = body.total := by
      have hreads := getHrTab_readsFrom body
      rw [hr] at hreads
      exact hreads.1
    refine ⟨_, hok hr, decoding_iff.2 ⟨rfl, rfl, rfl⟩, rfl, ?_⟩
    rw [← htail] at hbits ⊢
    exact bits_reader_setReader (s := behindHeader h (beginOp .hr 4 s)) htotal hbits
  · obtain ⟨st, r, hr⟩ := (tab.valid_iff.1 hvalid).reads_getHrTab.cut hheld hpre hne
    exact hfails hr
  · subst hlen
    obtain ⟨r, hr⟩ := getHrTab_badCounts hheld hclue h15 hbl hbits hbad
    exact hfails hr
  · obtain ⟨r, hr⟩ := getHrTab_badSkip hheld hclue h1 h15 ⟨by omega, hle, hkraft⟩ hs hlen hk hbad hbits
    exact hfails hr
  · obtain ⟨r, hr⟩ := getHrTab_badClue hheld ((HrTab.valid_iff _).1 hvalid) hclue hbits
    exact hfails hr

end Sys2Proof.Machine
end

section
/-! The host operations that end within their step, and the step as the run of the instruction its words decode to. -/

namespace Sys2Proof.Machine

/-! ## The fresh context -/

theorem getElem?_lzInitOrder {p : Nat} (h : p < 274) : lzInitOrder[p]? = some (273 - p) := by
  rw [lzInitOrder, List.getElem?_map, List.getElem?_range h, Option.map_some]

/-- Settles O14: `beginOp` clears the registers, and `Ctx.fresh` has the start values. -/
theorem startGivesFreshContext : Obligations.StartGivesFreshContext := by
  intro c op s b
  refine ⟨rfl, rfl, rfl, rfl, rfl, rfl, rfl, rfl, ⟨rfl, rfl, rfl, rfl, rfl, rfl⟩, rfl, rfl, rfl, rfl, rfl, rfl, rfl, rfl,
    fun _ => rfl, fun _ => rfl, rfl, rfl, rfl, fun _ => ⟨rfl, rfl, rfl⟩, fun _ => rfl, rfl, fun _ => rfl,
    fun p hp => getElem?_lzInitOrder hp, rfl, rfl, rfl, rfl, fun _ => rfl⟩

/-! ## The step -/

/-- A fetched command is executed. -/
theorem step_of_fetch_instr {c : Codec} {s t : State} {i : Instr} (hs : s.start = false) (hd : s.decoding c = true)
    (hf : fetchCommand s = .instr i t) : step s = exec i t := by
  obtain ⟨hb, -, ho⟩ := decoding_iff.1 hd
  rw [step_busy hs hb ho, hf, runFetched]

section
variable {s : State} {i : Instr} {r : BitSrc} (hs : s.start = false)
include hs

theorem step_rp (hd : s.decoding .rp = true) (h : decodeRp s.reader = .ok i r) :
    step s = exec i ((noteRpBytes r.used s).setReader r) :=
  step_of_fetch_instr hs hd (by simp only [fetchCommand, ofSel_of_decoding hd, fetchRp, h])

theorem step_bt (hd : s.decoding .bt = true) (h : decodeBt s.ctx.bt.clue s.ctx.bt.isNode s.reader = .ok i r) :
    step s = exec i (s.setReader r) :=
  step_of_fetch_instr hs hd (by simp only [fetchCommand, ofSel_of_decoding hd, fetchBt, h])

theorem step_hr (hd : s.decoding .hr = true) (h : decodeHr s.ctx.hr.tab s.reader = .ok i r) :
    step s = exec i (s.setReader r) :=
  step_of_fetch_instr hs hd (by simp only [fetchCommand, ofSel_of_decoding hd, fetchHr, h])

/-- The symbol is counted between its code and its fields (46 R445). -/
theorem step_lz (hd : s.decoding .lz = true) {g sym : Nat} {r₀ : BitSrc}
    (hcode : getCode s.ctx.lz.tab s.reader = .ok (g, sym) r₀) (h : lzFields s.params.lzBufBits sym r₀ = .ok i r) :
    step s = exec i ((noteLzSymbol g sym s).setReader r) :=
  step_of_fetch_instr hs hd (by simp only [fetchCommand, ofSel_of_decoding hd, fetchLz, hcode, h])

end

/-- Settles O10: with `START` the sequencer runs the operation in the host registers, with `BUSY` the command its engine's
fetch gives. -/
theorem stepRunsDecodedInstruction : Obligations.StepRunsDecodedInstruction := by
  refine ⟨fun s => step_start, fun s i r hs hd h => step_rp hs hd h, fun s i r hs hd h => step_bt hs hd h,
    fun s i r hs hd h => step_hr hs hd h, fun s i r hs hd h => ?_, fun s => step_idle⟩
  obtain ⟨⟨g, sym⟩, r₀, hcode, hfields⟩ := Rd.bind_eq_ok h
  exact ⟨g, sym, ⟨r₀, hcode⟩, step_lz hs hd hcode hfields⟩

/-! ## IS_VALID -/

theorem exec_isValid {c : Codec} {s : State} (hc : c ≠ .lz) (h : s.busy = false) :
    exec (.isValid c) s = .next (finishResult (magicValid c s.src s.srcLen.toNat).toNat (beginOp c 1 s)) := by
  show execIsValid c s = _
  rw [execIsValid, hostOp_idle _ h, if_neg hc]
  rfl

/-- The twelve Huffman magics: a low byte of `FB`, and a high byte of `30` to `35` but for bit 15 (30 R126). -/
theorem mem_magics_hr_iff {m : Nat} (h : m < 2 ^ 16) :
    m ∈ magics .hr ↔ m % 256 = 0xFB ∧ 0x30 ≤ m / 256 % 128 ∧ m / 256 % 128 ≤ 0x35 := by
  simp only [magics, List.mem_cons, List.not_mem_nil, or_false]
  omega

/-- Settles O17: `RESULT` is the Boolean of `magicValid`, and the magics are those written out. -/
theorem isValidAnswers : Obligations.IsValidAnswers := by
  intro c s hc hb magic known
  have hmagic : beVal s.src 0 2 = magic := beVal_two s.src 0
  have hlt : magic < 2 ^ 16 := hmagic ▸ beVal_two_lt s.src 0
  have hknown : known = decide (magic ∈ magics c) := by
    cases c with
    | rp => rfl
    | bt => rfl
    | hr => exact decide_eq_decide.2 (mem_magics_hr_iff hlt).symm
    | lz => exact absurd rfl hc
  refine ⟨_, exec_isValid hc hb, rfl, rfl, rfl, rfl, rfl, rfl, ?_, rfl, ⟨rfl, rfl, rfl, rfl, rfl, rfl⟩, rfl, rfl, rfl,
    rfl, rfl⟩
  have hiff : 2 ≤ s.srcLen.toNat ∧ magic ∈ magics c ↔ 2 ≤ s.srcLen.toNat ∧ known = true := by
    rw [hknown, decide_eq_true_eq]
  rw [finishResult_result, magicValid, hmagic, ← Bool.decide_and]
  by_cases h : 2 ≤ s.srcLen.toNat ∧ magic ∈ magics c
  · rw [decide_eq_true h, if_pos (hiff.1 h)]; rfl
  · rw [decide_eq_false h, if_neg (hiff.not.1 h)]; rfl

/-! ## Requests refused before the input is read -/

theorem exec_encode {c : Codec} {s : State} (h : s.busy = false) (he : (s.desc.of c).canEncode = true) :
    exec (.encode c) s = (encodeOp c (beginOp c 3 s)).outcome := by
  show execEncode c s = _
  rw [execEncode, hostOp_idle _ h, beginOp_desc, if_pos he]

theorem exec_encode_noDirection {c : Codec} {s : State} (h : s.busy = false) (he : (s.desc.of c).canEncode = false) :
    exec (.encode c) s = .next (fail .noDirection (beginOp c 3 s)) := by
  show execEncode c s = _
  rw [execEncode, hostOp_idle _ h, beginOp_desc, if_neg (by simp [he]), outcome_ended]

theorem exec_decode_noDirection {c : Codec} {s : State} (h : s.busy = false) (hd : (s.desc.of c).canDecode = false) :
    exec (.decode c) s = .next (fail .noDirection (beginOp c 4 s)) := by
  show execDecode c s = _
  rw [execDecode, hostOp_idle _ h, beginOp_desc, if_neg (by simp [hd]), outcome_ended]

/-- A request that fails as it starts: no byte was read, so `DIAG` is zero (log 24). -/
theorem failed_at_start {i : Instr} {c : Codec} {op : BitVec 3} {cause : Cause} {s : State}
    (h : exec i s = .next (fail cause (beginOp c op s))) :
    ∃ t, exec i s = .next t ∧ FailedWith cause t ∧ t.diag = Diag.zero ∧ InputsKept s t :=
  ⟨_, h, failedWith_fail _ _, rfl, ⟨rfl, rfl, rfl, rfl, rfl, rfl⟩⟩

theorem encodeBtOp_long {s : State} (h : 2 ^ 24 ≤ s.ctx.n) : encodeBtOp s = .ended (fail .lengthUnrepresentable s) := by
  rw [encodeBtOp, if_pos h]

theorem encodeBtOp_badConfig {s : State} (h : s.ctx.n < 2 ^ 24) (hc : s.cfg.btPairsPerPass = 0) :
    encodeBtOp s = .ended (fail .badConfig s) := by
  rw [encodeBtOp, if_neg (Nat.not_le.2 h), if_pos hc]

theorem encodeHrOp_badConfig {s : State} (hc : s.cfg.hrDeltaPasses = 3) :
    encodeHrOp s = .ended (fail .badConfig s) := by
  rw [encodeHrOp, if_pos hc]

/-- Settles O20: each of the requests fails as it starts. -/
theorem encodeDecodeRefusals : Obligations.EncodeDecodeRefusals := by
  intro s hb
  refine ⟨fun c he => failed_at_start (exec_encode_noDirection hb he),
    fun c hd => failed_at_start (exec_decode_noDirection hb hd), fun he hn => failed_at_start (c := .bt) (op := 3) ?_,
    fun he hn hc => failed_at_start (c := .bt) (op := 3) ?_, fun he hc => failed_at_start (c := .hr) (op := 3) ?_⟩
  · rw [exec_encode (c := .bt) hb he]
    exact congrArg Flow.outcome (encodeBtOp_long (s := beginOp .bt 3 s) hn)
  · rw [exec_encode (c := .bt) hb he]
    exact congrArg Flow.outcome (encodeBtOp_badConfig (s := beginOp .bt 3 s) hn hc)
  · rw [exec_encode (c := .hr) hb he]
    exact congrArg Flow.outcome (encodeHrOp_badConfig (s := beginOp .hr 3 s) hc)

/-! ## ENCODE -/

theorem encodeBtOp_ok {s : State} (h : s.ctx.n < 2 ^ 24) (hc : s.cfg.btPairsPerPass ≠ 0) :
    let e := btEncode s.cfg.btPairsPerPass.toNat s.cfg.btThreshold.toNat s.cfg.btMaxPasses.toNat
      (Memory.bytesFrom s.src 0 s.ctx.n)
    encodeBtOp s = .ended (finish (emitAll e.2 { s with ctx := { s.ctx with btEnc := e.1 } })) := by
  rw [encodeBtOp, if_neg (Nat.not_le.2 h), if_neg hc]

theorem encodeHrOp_ok {s : State} (hc : s.cfg.hrDeltaPasses ≠ 3) :
    let e := hrEncode s.cfg.hrDeltaPasses.toNat s.params.hrRunMin s.params.hrChainsawPick
      (Memory.bytesFrom s.src 0 s.ctx.n)
    encodeHrOp s = .ended (finish (emitAll e.2 { s with ctx := { s.ctx with hr := e.1 } })) := by
  rw [encodeHrOp, if_neg hc]

/-- What an encodable request comes to: the encoder's stream is emitted from `DST[0]` on. -/
theorem encodeOp_of_encodable {c : Codec} {s : State} (h : encodable c s) :
    ∃ x : Ctx, x.dp = 0 ∧
      encodeOp c (beginOp c 3 s) = .ended (finish (emitted (encoderOutput c s) { beginOp c 3 s with ctx := x })) := by
  obtain ⟨-, hbt, hhr⟩ := h
  simp only [← emitAll_eq_emitted]
  cases c with
  | rp => exact ⟨{ Ctx.fresh s.srcLen.toNat with rpEnc := _ }, rfl, rfl⟩
  | bt =>
    obtain ⟨hlen, hpairs⟩ := hbt rfl
    refine ⟨_, ?_, encodeBtOp_ok (s := beginOp .bt 3 s) hlen hpairs⟩
    rfl
  | hr =>
    refine ⟨_, ?_, encodeHrOp_ok (s := beginOp .hr 3 s) (hhr rfl)⟩
    rfl
  | lz => exact ⟨{ Ctx.fresh s.srcLen.toNat with lz := _ }, rfl, rfl⟩

/-- Settles O21: every encoder emits its stream and ends with success. -/
theorem encodeNeverFailsOnData : Obligations.EncodeNeverFailsOnData := by
  intro c s hb h
  obtain ⟨x, hdp, hop⟩ := encodeOp_of_encodable h
  have hclear : OutcomeClear { beginOp c 3 s with ctx := x } := ⟨rfl, rfl, rfl, rfl, rfl, rfl, rfl⟩
  refine ⟨_, by rw [exec_encode hb h.1, hop, outcome_ended], endedWith_finish_emitted hclear hdp _,
    ⟨rfl, rfl, rfl, rfl, rfl, rfl⟩, rfl, rfl, rfl, rfl, rfl, fun a ha => ?_⟩
  exact Memory.read_writeList_of_ge _ _ (show x.dp + _ ≤ a by omega)

end Sys2Proof.Machine
end

section
/-! Streams that are written and read back: the header (30 R121, R128), the runs of a `DECODE`, and where its cursors
stand. -/

namespace Sys2Proof.Machine

/-! ## Bytes in a memory -/

theorem bytesFrom_append_iff (m : Memory) (a : Nat) (xs ys : List Byte) :
    m.bytesFrom a (xs ++ ys).length = xs ++ ys ↔
      m.bytesFrom a xs.length = xs ∧ m.bytesFrom (a + xs.length) ys.length = ys := by
  rw [List.length_append, Memory.bytesFrom_add]
  exact ⟨fun h => List.append_inj h (Memory.length_bytesFrom _ _ _), fun ⟨h1, h2⟩ => by rw [h1, h2]⟩

@[simp] theorem length_putBe (k v : Nat) : (putBe k v).length = k := by
  induction k with
  | zero => rfl
  | succ k ih => rw [putBe, List.length_cons, ih]

/-- A big-endian field is read back (41 R210, R211). -/
theorem beVal_putBe {m : Memory} {a k v : Nat} (h : m.bytesFrom a k = putBe k v) : beVal m a k = v % 256 ^ k := by
  induction k generalizing a with
  | zero => rw [beVal, Nat.pow_zero, Nat.mod_one]
  | succ k ih =>
    obtain ⟨hhead, htail⟩ := List.cons.inj h
    rw [beVal, hhead, ih htail, toNat_toByte, Nat.pow_succ, Nat.mod_mul, Nat.add_comm, Nat.mul_comm]

@[simp] theorem length_bytesAt (src : Nat → Byte) (a n : Nat) : (bytesAt src a n).length = n := by
  induction n generalizing a with
  | zero => rfl
  | succ n ih => rw [bytesAt, List.length_cons, ih]

theorem bytesAt_add (src : Nat → Byte) (a n k : Nat) :
    bytesAt src a (n + k) = bytesAt src a n ++ bytesAt src (a + n) k := by
  induction n generalizing a with
  | zero => rw [Nat.zero_add]; rfl
  | succ n ih => rw [Nat.succ_add, bytesAt, bytesAt, ih, List.cons_append, Nat.add_right_comm, Nat.add_assoc]

theorem getElem?_bytesAt (src : Nat → Byte) (a : Nat) {n i : Nat} (h : i < n) :
    (bytesAt src a n)[i]? = some (src (a + i)) := by
  induction n generalizing a i with
  | zero => exact absurd h (Nat.not_lt_zero i)
  | succ n ih =>
    cases i with
    | zero => rfl
    | succ i => rw [bytesAt, List.getElem?_cons_succ, ih _ (Nat.lt_of_succ_lt_succ h), Nat.add_right_comm, Nat.add_assoc]

/-! ## Headers that encoders write (30 R128) -/

/-- A header without a skip field. -/
def plainHeader (magic n : Nat) : List Byte := putBe 2 magic ++ putBe (lengthWidth magic) n

/-- `magic` is one of engine `c`, without a skip field, and its length field holds `n`. -/
structure PlainMagic (c : Codec) (magic n : Nat) : Prop where
  mem : magic ∈ magics c
  lt : magic < 2 ^ 16
  noSkip : skipWidth c magic = 0
  fits : n < 256 ^ lengthWidth magic

theorem length_plainHeader (magic n : Nat) : (plainHeader magic n).length = 2 + lengthWidth magic := by
  rw [plainHeader, List.length_append, length_putBe, length_putBe]

theorem rpHeaderBytes_plain {n : Nat} (h : n < 2 ^ 32) :
    ∃ magic, PlainMagic .rp magic n ∧ rpHeaderBytes n = plainHeader magic n := by
  unfold rpHeaderBytes
  split_ifs with hn
  · exact ⟨0x10FB, ⟨by decide, by decide, by decide, hn⟩, rfl⟩
  · exact ⟨0x90FB, ⟨by decide, by decide, by decide, h⟩, rfl⟩

/-- The magic of a Huffman stream names its delta passes (45 R394). -/
theorem hrHeaderBytes_plain {passes n : Nat} (hp : passes ≤ 2) (h : n < 2 ^ 32) :
    ∃ magic, PlainMagic .hr magic n ∧ hrHeaderBytes passes n = plainHeader magic n ∧ magic / 512 % 4 = passes := by
  unfold hrHeaderBytes
  obtain rfl | rfl | rfl : passes = 0 ∨ passes = 1 ∨ passes = 2 := by omega
  all_goals split_ifs with hn
  · exact ⟨0x30FB, ⟨by decide, by decide, by decide, hn⟩, rfl, rfl⟩
  · exact ⟨0xB0FB, ⟨by decide, by decide, by decide, h⟩, rfl, rfl⟩
  · exact ⟨0x32FB, ⟨by decide, by decide, by decide, hn⟩, rfl, rfl⟩
  · exact ⟨0xB2FB, ⟨by decide, by decide, by decide, h⟩, rfl, rfl⟩
  · exact ⟨0x34FB, ⟨by decide, by decide, by decide, hn⟩, rfl, rfl⟩
  · exact ⟨0xB4FB, ⟨by decide, by decide, by decide, h⟩, rfl, rfl⟩

theorem plainMagic_bt {n : Nat} (h : n < 2 ^ 24) : PlainMagic .bt 0x46FB n := ⟨by decide, by decide, by decide, h⟩

/-- What an encoder's header says is read back. -/
theorem parseHeader_plain {c : Codec} {m : Memory} {magic n maxLen : Nat} {body : List Byte} (h : PlainMagic c magic n)
    (hm : m.bytesFrom 0 (plainHeader magic n ++ body).length = plainHeader magic n ++ body) (hn : n ≤ maxLen) :
    parseHeader c m (plainHeader magic n ++ body).length maxLen = .ok ⟨magic, n, 2 + lengthWidth magic⟩ := by
  obtain ⟨hhead, -⟩ := (bytesFrom_append_iff _ _ _ _).1 hm
  obtain ⟨hmagic, hlen⟩ := (bytesFrom_append_iff _ _ _ _).1 hhead
  rw [length_putBe] at hmagic hlen
  rw [length_putBe, Nat.zero_add] at hlen
  have hmagic : beVal m 0 2 = magic := (beVal_putBe hmagic).trans (Nat.mod_eq_of_lt h.lt)
  have hlen : beVal m 2 (lengthWidth magic) = n := (beVal_putBe hlen).trans (Nat.mod_eq_of_lt h.fits)
  have htotal : (plainHeader magic n ++ body).length = 2 + lengthWidth magic + body.length := by
    rw [List.length_append, length_plainHeader]
  rw [parseHeader_of_mem (by omega) (hmagic ▸ h.mem), hmagic, h.noSkip]
  simp only [Nat.add_zero, hlen]
  rw [if_neg (by omega), if_neg (by omega), if_neg (by omega)]

theorem loaded_stream (s : State) (c : Codec) (op : BitVec 3) (out : List Byte) :
    (loaded s c op out).src.bytesFrom 0 out.length = out := Memory.bytesFrom_writeList [] 0 out

theorem loaded_srcLen (s : State) (c : Codec) (op : BitVec 3) {out : List Byte} (h : out.length < 2 ^ 32) :
    (loaded s c op out).srcLen.toNat = out.length := Nat.mod_eq_of_lt h

/-- The header of a loaded stream. -/
theorem loaded_header {s : State} {c : Codec} (op : BitVec 3) {magic n : Nat} {body : List Byte} (h : PlainMagic c magic n)
    (hlen : (plainHeader magic n ++ body).length < 2 ^ 32) (hn : n ≤ s.params.maxLen) :
    (beginOp c op (loaded s c op (plainHeader magic n ++ body))).header c = .ok ⟨magic, n, 2 + lengthWidth magic⟩ := by
  have hsrcLen := loaded_srcLen s c op hlen
  show parseHeader c _ (loaded s c op _).srcLen.toNat s.params.maxLen = _
  rw [hsrcLen]
  exact parseHeader_plain h (loaded_stream s c op _) hn

/-! ## Runs -/

/-- From every state of `P` a run comes to a state of `Q`. -/
def Leads (P Q : State → Prop) : Prop := ∀ s, P s → ∃ k t, Sys2Proof.core.run k s = .next t ∧ Q t

theorem core_run_succ {s t : State} (h : step s = .next t) (k : Nat) :
    Sys2Proof.core.run (k + 1) s = Sys2Proof.core.run k t := by
  have h : Sys2Proof.core.step s = .next t := h
  exact (Host.Core.run.eq_2 Sys2Proof.core s k).trans (by rw [h])

/-- A run that goes on has taken its first step. -/
theorem step_of_core_run {s t : State} {k : Nat} (h : Sys2Proof.core.run (k + 1) s = .next t) :
    ∃ u, step s = .next u ∧ Sys2Proof.core.run k u = .next t := by
  have h := (Host.Core.run.eq_2 Sys2Proof.core s k).symm.trans h
  split at h
  next u hu => exact ⟨u, hu, h⟩
  next => cases h
  next => cases h

theorem core_run_add {s t : State} {k : Nat} (h : Sys2Proof.core.run k s = .next t) (j : Nat) :
    Sys2Proof.core.run (k + j) s = Sys2Proof.core.run j t := by
  induction k generalizing s with
  | zero => cases h; rw [Nat.zero_add]
  | succ k ih =>
    obtain ⟨u, hu, h⟩ := step_of_core_run h
    rw [Nat.succ_add, core_run_succ hu, ih h]

section
variable {P Q R : State → Prop}

theorem Leads.refl (P : State → Prop) : Leads P P := fun s h => ⟨0, s, rfl, h⟩

theorem Leads.trans (h : Leads P Q) (h' : Leads Q R) : Leads P R := by
  intro s hs
  obtain ⟨k, t, hk, ht⟩ := h s hs
  obtain ⟨j, u, hj, hu⟩ := h' t ht
  exact ⟨k + j, u, (core_run_add hk j).trans hj, hu⟩

theorem Leads.of_step (h : ∀ s, P s → ∃ t, step s = .next t ∧ Q t) : Leads P Q := by
  intro s hs
  obtain ⟨t, ht, hq⟩ := h s hs
  exact ⟨1, t, core_run_succ ht 0, hq⟩

end

/-! ## A running DECODE -/

/-- A `DECODE` of engine `c` runs (40 R180). -/
structure Running (c : Codec) (s : State) : Prop where
  decoding : s.decoding c = true
  start : s.start = false
  clear : OutcomeClear s

/-- The bytes put out so far. -/
def Output (xs : List Byte) (s : State) : Prop := s.ctx.dp = xs.length ∧ s.dst.bytesFrom 0 xs.length = xs

/-- The bytes of the stream that are not fetched yet. -/
def Unread (rest : List Byte) (s : State) : Prop := s.ctx.sp ≤ s.srcLen.toNat ∧ s.rest = rest

/-- Only `DST` and the context have changed. -/
theorem Running.of_workingOn {c : Codec} {s t : State} (h : Running c s) (hw : WorkingOn s t) : Running c t := by
  have hclear := h.clear.workingOn hw
  obtain ⟨_, _, _, rfl⟩ := hw
  exact ⟨h.decoding, h.start, hclear⟩

theorem running_beginOp (c : Codec) (s : State) : Running c (beginOp c 4 s) :=
  ⟨decoding_iff.2 ⟨rfl, rfl, rfl⟩, rfl, outcomeClear_beginOp c 4 s⟩

theorem Output.read {xs : List Byte} {s : State} (h : Output xs s) {i : Nat} (hi : i < xs.length) :
    xs[i]? = some (s.dst.read i) := by
  have hread := Memory.getElem?_bytesFrom s.dst 0 xs.length i
  rwa [h.2, if_pos hi, Nat.zero_add] at hread

theorem Output.emitted {xs : List Byte} {s : State} (h : Output xs s) (ys : List Byte) :
    Output (xs ++ ys) (emitted ys s) := by
  obtain ⟨hdp, hdst⟩ := h
  refine ⟨by rw [emitted_ctx_dp, hdp, List.length_append], (bytesFrom_append_iff _ _ _ _).2 ⟨?_, ?_⟩⟩
  · rw [emitted_dst, hdp]
    refine Eq.trans (Memory.bytesFrom_congr fun b _ hb => ?_) hdst
    exact Memory.read_writeList_of_lt _ _ (by omega)
  · rw [emitted_dst, hdp, Nat.zero_add]
    exact Memory.bytesFrom_writeList _ _ _

/-- A success leaves what was put out. -/
theorem Output.endedWith {xs : List Byte} {s : State} (h : Output xs s) (hc : OutcomeClear s) :
    EndedWith xs (finish s) :=
  ⟨rfl, rfl, rfl, hc.cause, hc.result, hc.diag, congrArg (BitVec.ofNat 32) h.1, h.2⟩

theorem Unread.of_eq {rest : List Byte} {s t : State} (h : Unread rest s) (hsrc : t.src = s.src)
    (hlen : t.srcLen = s.srcLen) (hsp : t.ctx.sp = s.ctx.sp) : Unread rest t := by
  unfold Unread State.rest at *
  rwa [hsrc, hlen, hsp]

/-- The next bytes of the stream, and what is unread behind them. -/
theorem Unread.append {w more : List Byte} {s : State} (h : Unread (w ++ more) s) :
    s.src.bytesFrom s.ctx.sp w.length = w ∧ s.ctx.sp + w.length ≤ s.srcLen.toNat ∧ Unread more (fetched w.length s) := by
  obtain ⟨hsp, hrest⟩ := h
  have hlen : s.srcLen.toNat - s.ctx.sp = w.length + more.length := by
    rw [← List.length_append, ← hrest, State.rest, Memory.length_bytesFrom]
  have hbytes : s.src.bytesFrom s.ctx.sp (w ++ more).length = w ++ more := by
    rw [List.length_append, ← hlen]
    exact hrest
  obtain ⟨hw, hmore⟩ := (bytesFrom_append_iff _ _ _ _).1 hbytes
  refine ⟨hw, by omega, show s.ctx.sp + w.length ≤ s.srcLen.toNat by omega, ?_⟩
  show s.src.bytesFrom (s.ctx.sp + w.length) (s.srcLen.toNat - (s.ctx.sp + w.length)) = more
  rw [show s.srcLen.toNat - (s.ctx.sp + w.length) = more.length by omega]
  exact hmore

theorem unread_loaded {s : State} {c : Codec} {out : List Byte} (hlen : out.length < 2 ^ 32) :
    Unread out (beginOp c 4 (loaded s c 4 out)) := by
  refine ⟨Nat.zero_le _, ?_⟩
  show (loaded s c 4 out).src.bytesFrom 0 ((loaded s c 4 out).srcLen.toNat - 0) = out
  rw [loaded_srcLen s c 4 hlen]
  exact loaded_stream s c 4 out

/-- The stream behind its header. -/
theorem unread_behindHeader {s : State} {c : Codec} {w body : List Byte} {h : Header}
    (hlen : (w ++ body).length < 2 ^ 32) (hat : h.bodyAt = w.length) :
    Unread body (behindHeader h (beginOp c 4 (loaded s c 4 (w ++ body)))) := by
  obtain ⟨-, -, hbody⟩ := (unread_loaded (s := s) (c := c) hlen).append
  exact hbody.of_eq rfl rfl (hat.trans (Nat.zero_add _).symm)

/-- The first step of a loaded `DECODE`. -/
theorem step_loaded {s : State} {c : Codec} {out : List Byte} (hb : s.busy = false)
    (hd : (s.desc.of c).canDecode = true) :
    step (loaded s c 4 out) = (decodeOp c (beginOp c 4 (loaded s c 4 out))).outcome := by
  rw [step_start rfl]
  show exec (decodeHostop c.sel 4) _ = _
  rw [decodeHostop_of_hostopOf (i := .decode c) rfl, exec_decode (s := loaded s c 4 out) hb hd]

/-- A loaded `DECODE` succeeds if its run, once the header and the tables are read, does. -/
theorem loaded_endedWith {s : State} {c : Codec} {out xs : List Byte} {P : State → Prop} {t : State} (hb : s.busy = false)
    (hd : (s.desc.of c).canDecode = true) (ht : decodeOp c (beginOp c 4 (loaded s c 4 out)) = .cont t) (hP : P t)
    (hrun : Leads P (EndedWith xs)) : ∃ k u, Sys2Proof.core.run k (loaded s c 4 out) = .next u ∧ EndedWith xs u := by
  have hstart : Leads (· = loaded s c 4 out) P := Leads.of_step fun _ h =>
    ⟨t, by rw [h, step_loaded hb hd, ht, outcome_cont], hP⟩
  exact hstart.trans hrun _ rfl

end Sys2Proof.Machine
end

section
/-! Matches (43 R264, 46 R455): the positions in the chains lie behind the cursor, and what a match says of the input is
what a copy puts out. -/

namespace Sys2Proof.Machine

/-- Every position of the table is below `b`. -/
def Below (b : Nat) (t : Sparse Nat) : Prop := ∀ i q, Sparse.look t i = some q → q < b

theorem below_nil (b : Nat) : Below b [] := nofun

theorem Below.mono {b b' : Nat} {t : Sparse Nat} (h : Below b t) (hb : b ≤ b') : Below b' t :=
  fun i q hq => (h i q hq).trans_le hb

theorem Below.put {b : Nat} {t : Sparse Nat} (h : Below b t) (i : Nat) {o : Option Nat} (ho : ∀ q, o = some q → q < b) :
    Below b (Sparse.put t i o) := by
  intro j q hq
  rw [Sparse.look_put] at hq
  split_ifs at hq
  · exact ho q hq
  · exact h j q hq

theorem matchLen_le (src : Nat → Byte) (limit q p : Nat) : matchLen src limit q p ≤ limit := by
  induction limit generalizing q p with
  | zero => exact le_rfl
  | succ k ih =>
    unfold matchLen
    split_ifs
    · exact Nat.succ_le_succ (ih _ _)
    · exact Nat.zero_le _

theorem matchLen_same {src : Nat → Byte} {limit q p i : Nat} (h : i < matchLen src limit q p) :
    src (q + i) = src (p + i) := by
  induction limit generalizing q p i with
  | zero => exact absurd h (Nat.not_lt_zero i)
  | succ k ih =>
    unfold matchLen at h
    split_ifs at h with heq
    · cases i with
      | zero => exact heq
      | succ i =>
        rw [← Nat.add_assoc, ← Nat.add_assoc, Nat.add_right_comm, Nat.add_right_comm p]
        exact ih (Nat.lt_of_succ_lt_succ h)
    · exact absurd h (Nat.not_lt_zero i)

/-- At distance `D` the next `L` bytes at `p` repeat earlier ones. -/
structure Repeats (src : Nat → Byte) (p L D : Nat) : Prop where
  pos : 1 ≤ D
  le : D ≤ p
  same : ∀ i, i < L → src (p - D + i) = src (p + i)

theorem repeats_matchLen {src : Nat → Byte} {p q : Nat} (limit : Nat) (h : q < p) :
    Repeats src p (matchLen src limit q p) (p - q) :=
  ⟨by omega, Nat.sub_le _ _, fun i hi => by rw [Nat.sub_sub_self h.le]; exact matchLen_same hi⟩

section
variable {src : Nat → Byte} {p L D : Nat}

theorem Repeats.first (h : Repeats src p (L + 1) D) : src (p - D) = src p := h.same 0 (Nat.succ_pos L)

theorem Repeats.tail (h : Repeats src p (L + 1) D) : Repeats src (p + 1) L D := by
  refine ⟨h.pos, h.le.trans (Nat.le_succ p), fun i hi => ?_⟩
  have hsame := h.same (i + 1) (Nat.succ_lt_succ hi)
  have hle := h.le
  rwa [show p + 1 - D + i = p - D + (i + 1) by omega, show p + 1 + i = p + (i + 1) by omega]

end

/-- The copy of a repeated stretch puts it out (42 R236). -/
theorem Repeats.backBytes_eq {src : Nat → Byte} {p L D : Nat} (h : Repeats src p L D) {m : Memory}
    (hm : ∀ i, i < p → m.read i = src i) : backBytes m p L D = bytesAt src p L := by
  induction L generalizing p m with
  | zero => rfl
  | succ L ih =>
    have hpos := h.pos
    have hle := h.le
    have hfirst : m.read (p - D) = src p := (hm _ (by omega)).trans h.first
    rw [backBytes_succ m h.pos h.le, hfirst, bytesAt, ih h.tail fun i hi => ?_]
    rw [Memory.read_write]
    split_ifs with hi'
    · rw [hi']
    · exact hm i (by omega)

theorem Output.read_bytesAt {src : Nat → Byte} {k : Nat} {s : State} (h : Output (bytesAt src 0 k) s) :
    s.ctx.dp = k ∧ ∀ i, i < k → s.dst.read i = src i := by
  refine ⟨h.1.trans (length_bytesAt src 0 k), fun i hi => ?_⟩
  have hread := h.read (i := i) (by rwa [length_bytesAt])
  rw [getElem?_bytesAt src 0 hi, Nat.zero_add] at hread
  exact (Option.some.inj hread).symm

end Sys2Proof.Machine
end

section
/-! RefPack streams (43 R260 to R280): what the encoder writes, the decoder puts out again. -/

namespace Sys2Proof.Machine

/-! ## The search -/

theorem rpInsert_below {v : RpEnv} {p b : Nat} {e : RpEnc} (hp : p < b) (h : Below b e.head ∧ Below b e.link) :
    Below b (rpInsert v p e).head ∧ Below b (rpInsert v p e).link := by
  obtain ⟨hhead, hlink⟩ := h
  unfold rpInsert
  split_ifs
  · exact ⟨hhead.put _ fun q hq => Option.some.inj hq ▸ hp, hlink.put _ fun q => hhead _ q⟩
  · exact ⟨hhead, hlink⟩

theorem rpInsertSome_below (v : RpEnv) (take : Nat → Bool) {k p b : Nat} (next : Nat) {e : RpEnc}
    (hp : ∀ i, i < k → p + i < b) (h : Below b e.head ∧ Below b e.link) :
    Below b (rpInsertSome v take k p next e).2.head ∧ Below b (rpInsertSome v take k p next e).2.link := by
  induction k generalizing p next e with
  | zero => exact h
  | succ k ih =>
    have hrest : ∀ i, i < k → p + 1 + i < b := fun i hi => by
      have := hp (i + 1) (Nat.succ_lt_succ hi)
      omega
    unfold rpInsertSome
    split_ifs
    · exact ih _ hrest (rpInsert_below (hp 0 (Nat.succ_pos k)) h)
    · exact ih _ hrest h

/-- A match the search may select at `cp` (43 R264 to R267). -/
structure RpFound (v : RpEnv) (cp : Nat) (b : RpBest) : Prop where
  repeats : Repeats v.src cp b.L b.D
  dist_le : b.D ≤ Config.rpMaxDist
  len_le : b.L ≤ Config.rpMaxLen
  inside : cp + b.L ≤ v.n
  cost : b.C = rpCost v.bias b.D b.L

theorem rpWalk_found {v : RpEnv} {link : Sparse Nat} {cp : Nat} (hcp : cp ≤ v.n) (hlink : Below cp link) (f : Nat)
    {o : Option Nat} (ho : ∀ q, o = some q → q < cp) {b : RpBest} (hb : b.found = true → RpFound v cp b) :
    let r := rpWalk v link cp (min Config.rpMaxLen (v.n - cp)) (cp - Config.rpMaxDist) f o b
    r.found = true → RpFound v cp r := by
  induction f generalizing o b with
  | zero => cases o <;> exact hb
  | succ f ih =>
    cases o with
    | none => exact hb
    | some q =>
      have hq : q < cp := ho q rfl
      have hlen := matchLen_le v.src (min Config.rpMaxLen (v.n - cp)) q cp
      unfold rpWalk
      split_ifs with hmin
      · exact hb
      · refine ih (hlink _) ?_
        unfold rpConsider
        dsimp only
        split_ifs
        · exact fun _ => ⟨repeats_matchLen _ hq, show cp - q ≤ _ by omega, show matchLen _ _ _ _ ≤ _ by omega,
            show cp + matchLen _ _ _ _ ≤ _ by omega, rfl⟩
        · exact hb

theorem rpSearch_found {v : RpEnv} {e : RpEnc} (hhead : Below e.cp e.head) (hlink : Below e.cp e.link)
    (h : (rpSearch v e).found = true) : RpFound v e.cp (rpSearch v e) := by
  unfold rpSearch at h ⊢
  split_ifs at h ⊢ with hn
  exact rpWalk_found (by omega) hlink _ (hhead _) nofun h

/-! ## The commands -/

/-- The command of a match (43 R266, R272 to R274). -/
theorem rpMatchBytes_eq {bias C P L D : Nat} (hbias : bias ≤ 1) (hC : C = rpCost bias D L) (hCL : C < L) (hL : L ≤ 1028)
    (hD : 1 ≤ D) (hD' : D ≤ 131071) (hP : P ≤ 3) :
    ∃ i ∈ [Instr.rpShort P L D, .rpInt P L D, .rpLong P L D],
      rpMatchBytes C P L D = encodeRp i ∧ wellFormedRp i = true := by
  unfold rpCost at hC
  split_ifs at hC with h2 h3
  · subst hC
    refine ⟨.rpShort P L D, by simp, rfl, ?_⟩
    simp only [wellFormedRp, Bool.and_eq_true, decide_eq_true_eq]
    omega
  · subst hC
    refine ⟨.rpInt P L D, by simp, rfl, ?_⟩
    simp only [wellFormedRp, Bool.and_eq_true, decide_eq_true_eq]
    omega
  · subst hC
    refine ⟨.rpLong P L D, by simp, rfl, ?_⟩
    simp only [wellFormedRp, Bool.and_eq_true, decide_eq_true_eq]
    omega

/-- A RefPack `DECODE` that has put out the first `k` bytes of the encoder's input, with `rest` unread. -/
structure RpBody (v : RpEnv) (k : Nat) (rest : List Byte) (s : State) : Prop where
  running : Running .rp s
  ulen : s.ctx.ulen = v.n
  unread : Unread rest s
  output : Output (bytesAt v.src 0 k) s

section
variable {v : RpEnv} {k : Nat} {s : State} {more : List Byte}

theorem RpBody.of_rp {rest : List Byte} (h : RpBody v k rest s) (rp : RpDec) :
    RpBody v k rest { s with ctx := { s.ctx with rp := rp } } :=
  ⟨h.running.of_workingOn ⟨_, _, _, rfl⟩, h.ulen, h.unread.of_eq rfl rfl rfl, h.output⟩

/-- The words of a command are fetched. -/
theorem RpBody.command {i : Instr} (hi : wellFormedRp i = true) (h : RpBody v k (encodeRp i ++ more) s) :
    ∃ u, step s = exec i u ∧ RpBody v k more u := by
  obtain ⟨-, hdec⟩ := refPackDecodeOfEncode i hi more 0 s.ctx.acc s.ctx.nacc
  rw [← h.unread.2, Nat.zero_add] at hdec
  obtain ⟨-, -, hmore⟩ := h.unread.append
  exact ⟨_, step_rp h.running.start h.running.decoding hdec, h.running.of_workingOn ⟨_, _, _, rfl⟩, h.ulen,
    hmore.of_eq rfl rfl rfl, h.output⟩

theorem RpBody.emitted {n : Nat} (h : RpBody v k more s) :
    RpBody v (k + n) more (emitted (bytesAt v.src k n) s) := by
  refine ⟨h.running.of_workingOn ⟨_, _, _, rfl⟩, h.ulen, h.unread.of_eq rfl rfl rfl, ?_⟩
  rw [bytesAt_add, Nat.zero_add]
  exact h.output.emitted _

theorem RpBody.lits {P : Nat} (h : RpBody v k (bytesAt v.src k P ++ more) s) (hn : k + P ≤ v.n) :
    ∃ t, lits P s = .cont t ∧ RpBody v (k + P) more t := by
  obtain ⟨hbytes, hsp, hmore⟩ := h.unread.append
  rw [length_bytesAt] at hbytes hsp hmore
  have hdp : s.ctx.dp = k := h.output.read_bytesAt.1
  refine ⟨_, lits_ok P hsp (by rw [hdp, h.ulen]; exact hn), ?_⟩
  rw [literals, hbytes]
  have hfetched : RpBody v k more (fetched P s) := ⟨h.running.of_workingOn ⟨_, _, _, rfl⟩, h.ulen, hmore, h.output⟩
  exact hfetched.emitted

theorem RpBody.copy {L D : Nat} (h : RpBody v k more s) (hr : Repeats v.src k L D) (hn : k + L ≤ v.n) :
    ∃ t, copy L D s = .cont t ∧ RpBody v (k + L) more t := by
  obtain ⟨hdp, hread⟩ := h.output.read_bytesAt
  have hle := hr.le
  refine ⟨_, ?_, h.emitted⟩
  rw [Machine.copy, if_neg (by omega), copyLoop_ok L D hr.pos (by omega) (by rw [hdp, h.ulen]; exact hn), hdp,
    hr.backBytes_eq hread]

end

/-- The stream bytes `bs` take the output from `j` to `k` bytes. -/
def RpMakes (v : RpEnv) (bs : List Byte) (j k : Nat) : Prop :=
  ∀ more, Leads (RpBody v j (bs ++ more)) (RpBody v k more)

section
variable {v : RpEnv}

theorem rpMakes_nil (v : RpEnv) (k : Nat) : RpMakes v [] k k := fun _ => .refl _

theorem RpMakes.append {as bs : List Byte} {i j k : Nat} (h : RpMakes v as i j) (h' : RpMakes v bs j k) :
    RpMakes v (as ++ bs) i k := fun more => by
  rw [List.append_assoc]
  exact (h _).trans (h' more)

theorem rpMakes_literal {k P : Nat} (hi : wellFormedRp (.rpLiteral P) = true) (hn : k + P ≤ v.n) :
    RpMakes v (encodeRp (.rpLiteral P) ++ bytesAt v.src k P) k (k + P) := fun more => Leads.of_step fun s h => by
  rw [List.append_assoc] at h
  obtain ⟨u, hu, hbody⟩ := h.command hi
  obtain ⟨t, ht, hbody'⟩ := (hbody.of_rp (setRpCount P u).ctx.rp).lits hn
  refine ⟨t, hu.trans ?_, hbody'⟩
  show execRpLiteral P u = _
  rw [execRpLiteral, streamOp_decoding _ hbody.running.decoding, show lits P (setRpCount P u) = .cont t from ht,
    outcome_cont]

theorem rpMakes_match {k P : Nat} {b : RpBest} (hbias : v.bias ≤ 1) (hb : RpFound v (k + P) b) (hC : b.C < b.L)
    (hP : P ≤ 3) : RpMakes v (rpMatchBytes b.C P b.L b.D ++ bytesAt v.src k P) k (k + P + b.L) := by
  obtain ⟨i, hi, hbytes, hwf⟩ := rpMatchBytes_eq hbias hb.cost hC hb.len_le hb.repeats.pos hb.dist_le hP
  have hexec : ∀ u, exec i u = streamOp .rp u (rpMatch P b.L b.D) := by
    simp only [List.mem_cons, List.not_mem_nil, or_false] at hi
    obtain rfl | rfl | rfl := hi <;> exact fun _ => rfl
  refine fun more => Leads.of_step fun s h => ?_
  rw [hbytes, List.append_assoc] at h
  obtain ⟨u, hu, hbody⟩ := h.command hwf
  have hinside := hb.inside
  obtain ⟨t, ht, hbody'⟩ := (hbody.of_rp (setRpFields P b.L b.D u).ctx.rp).lits (by omega)
  obtain ⟨w, hw, hbody''⟩ := hbody'.copy hb.repeats hinside
  refine ⟨w, ?_, hbody''⟩
  rw [hu, hexec, streamOp_decoding _ hbody.running.decoding, rpMatch,
    show lits P (setRpFields P b.L b.D u) = .cont t from ht, andThen_cont, hw, outcome_cont]

/-- `flush_literals()` (43 R271): at most three literals are left over. -/
theorem rpFlush_makes {f rp run : Nat} (hf : run ≤ f) (hn : rp + run ≤ v.n) :
    (rpFlush v.src f rp run).2 ≤ 3 ∧ (rpFlush v.src f rp run).2 ≤ run ∧
      RpMakes v (rpFlush v.src f rp run).1 rp (rp + run - (rpFlush v.src f rp run).2) := by
  induction f generalizing rp run with
  | zero =>
    obtain rfl : run = 0 := by omega
    exact ⟨Nat.zero_le 3, le_rfl, rpMakes_nil v rp⟩
  | succ f ih =>
    unfold rpFlush
    split_ifs with hrun
    · obtain ⟨t, ht⟩ : ∃ t, t = min Config.rpLitChunkMax (run / 4 * 4) := ⟨_, rfl⟩
      have hchunk : 4 ≤ t ∧ t ≤ 112 ∧ t % 4 = 0 ∧ t ≤ run := by
        rw [show Config.rpLitChunkMax = 112 from rfl] at ht
        omega
      obtain ⟨h4, h112, hmod, htrun⟩ := hchunk
      have hwf : wellFormedRp (.rpLiteral t) = true := by
        simp only [wellFormedRp, Bool.and_eq_true, decide_eq_true_eq]
        exact ⟨⟨h4, h112⟩, hmod⟩
      dsimp only
      rw [← ht]
      obtain ⟨h3, hle, hmore⟩ := ih (rp := rp + t) (run := run - t) (by omega) (by omega)
      refine ⟨h3, by omega, ?_⟩
      have hall := (rpMakes_literal (v := v) (k := rp) hwf (by omega)).append hmore
      rwa [show rp + t + (run - t) = rp + run by omega] at hall
    · exact ⟨by show run ≤ 3; omega, le_rfl, by rw [Nat.add_sub_cancel]; exact rpMakes_nil v rp⟩

/-- The end marker with its trailing literals (42 R238). -/
theorem rpEof_ends {k P : Nat} (hP : P ≤ 3) (hn : k + P = v.n) :
    Leads (RpBody v k (encodeRp (.rpEof P) ++ bytesAt v.src k P)) (EndedWith (bytesAt v.src 0 v.n)) :=
  Leads.of_step fun s h => by
    obtain ⟨u, hu, hbody⟩ := h.command (by simpa [wellFormedRp] using hP)
    rw [← List.append_nil (bytesAt v.src k P)] at hbody
    obtain ⟨t, ht, hbody'⟩ := (hbody.of_rp (setRpCount P u).ctx.rp).lits hn.le
    rw [hn] at hbody'
    have hdp : t.ctx.dp = t.ctx.ulen := hbody'.output.read_bytesAt.1.trans hbody'.ulen.symm
    refine ⟨finish t, hu.trans ?_, hbody'.output.endedWith hbody'.running.clear⟩
    show execRpEof P u = _
    rw [execRpEof, streamOp_decoding _ hbody.running.decoding, show lits P (setRpCount P u) = .cont t from ht,
      andThen_cont, endHeaded, if_pos hdp, outcome_ended]

end

/-! ## The encoder's loop -/

/-- An encode under way: the bytes behind the header decode to the input before the pending literal run. -/
structure RpEncoding (v : RpEnv) (r : RpRun) : Prop where
  head : Below r.e.cp r.e.head
  link : Below r.e.cp r.e.link
  next_le : r.next ≤ r.e.cp
  run_le : r.e.run ≤ r.e.cp
  cp_le : r.e.cp ≤ v.n
  out : ∃ bs, r.out = rpHeaderBytes v.n ++ bs ∧ RpMakes v bs 0 (r.e.cp - r.e.run)

section
variable {v : RpEnv} {r : RpRun}

/-- The insertions of a step that passes `L` bytes. -/
theorem RpEncoding.insertPassed (h : RpEncoding v r) (L : Nat) {e : RpEnc} (hcp : e.cp = r.e.cp)
    (hhead : e.head = r.e.head) (hlink : e.link = r.e.link) :
    Below (r.e.cp + L) (rpInsertPassed v L r.next e).2.head ∧
      Below (r.e.cp + L) (rpInsertPassed v L r.next e).2.link ∧ (rpInsertPassed v L r.next e).1 ≤ r.e.cp + L := by
  have hbelow := rpInsertSome_below v (v.policy v.quick e.cp L) (k := e.cp + L - r.next) (p := r.next) (b := r.e.cp + L)
    r.next (e := e) (fun i hi => by omega)
    ⟨hhead ▸ h.head.mono (Nat.le_add_right _ _), hlink ▸ h.link.mono (Nat.le_add_right _ _)⟩
  have hnext := (rpInsertSome_next_le v (v.policy v.quick e.cp L) (e.cp + L - r.next) r.next r.next e le_rfl).2
  have := h.next_le
  exact ⟨hbelow.1, hbelow.2, hnext.trans (by omega)⟩

/-- Where the pending literals are flushed, at most three of them are left over. -/
theorem RpEncoding.flushed (h : RpEncoding v r) :
    let p := rpFlush v.src r.e.run (r.e.cp - r.e.run) r.e.run
    p.2 ≤ 3 ∧ p.2 ≤ r.e.cp ∧
      ∃ bs, r.out ++ p.1 = rpHeaderBytes v.n ++ bs ∧ RpMakes v bs 0 (r.e.cp - p.2) := by
  have hrun := h.run_le
  obtain ⟨bs, hout, hmakes⟩ := h.out
  obtain ⟨hleft3, hleft, hflush⟩ := rpFlush_makes (v := v) (f := r.e.run) (rp := r.e.cp - r.e.run) le_rfl
    (by have := h.cp_le; omega)
  rw [Nat.sub_add_cancel hrun] at hflush
  exact ⟨hleft3, hleft.trans hrun, _, by rw [hout, List.append_assoc], hmakes.append hflush⟩

theorem RpEncoding.step (hbias : v.bias ≤ 1) (h : RpEncoding v r) (hn : r.e.cp < v.n) :
    RpEncoding v (rpEncStep v r) ∧ r.e.cp < (rpEncStep v r).e.cp := by
  unfold rpEncStep
  dsimp only
  split_ifs with hmatch
  · obtain ⟨hfound, h3, hC⟩ := hmatch
    have hb := rpSearch_found h.head h.link hfound
    obtain ⟨hhead, hlink, hnext⟩ := h.insertPassed (rpSearch v r.e).L
      (e := { r.e with bL := (rpSearch v r.e).L, bC := (rpSearch v r.e).C, bD := (rpSearch v r.e).D }) rfl rfl rfl
    obtain ⟨hleft3, hleft, bs, hout, hmakes⟩ := h.flushed
    have hat := Nat.sub_add_cancel hleft
    have hcommand := rpMakes_match hbias (hat.symm ▸ hb) hC hleft3
    rw [hat] at hcommand
    refine ⟨⟨hhead, hlink, hnext, Nat.zero_le _, hb.inside, _, ?_, hmakes.append hcommand⟩,
      show r.e.cp < r.e.cp + _ by omega⟩
    simp only [hout, List.append_assoc]
  · obtain ⟨hhead, hlink, hnext⟩ := h.insertPassed 1
      (e := { r.e with bL := (rpSearch v r.e).L, bC := (rpSearch v r.e).C, bD := (rpSearch v r.e).D }) rfl rfl rfl
    obtain ⟨bs, hout, hmakes⟩ := h.out
    refine ⟨⟨hhead, hlink, hnext, Nat.succ_le_succ h.run_le, hn, bs, hout, ?_⟩, Nat.lt_succ_self _⟩
    show RpMakes v bs 0 (r.e.cp + 1 - (r.e.run + 1))
    rwa [Nat.add_sub_add_right]

/-- The loop ends behind the last byte. -/
theorem RpEncoding.loop (hbias : v.bias ≤ 1) (h : RpEncoding v r) {f : Nat} (hf : v.n ≤ r.e.cp + f) :
    RpEncoding v (rpEncLoop v f r) ∧ (rpEncLoop v f r).e.cp = v.n := by
  induction f generalizing r with
  | zero => exact ⟨h, h.cp_le.antisymm hf⟩
  | succ f ih =>
    unfold rpEncLoop
    split_ifs with hn
    · obtain ⟨hstep, hlt⟩ := h.step hbias hn
      exact ih hstep (by omega)
    · exact ⟨h, h.cp_le.antisymm (Nat.le_of_not_lt hn)⟩

theorem rpEncoding_start (v : RpEnv) (n : Nat) : RpEncoding v ⟨(Ctx.fresh n).rpEnc, 0, rpHeaderBytes v.n⟩ :=
  ⟨below_nil 0, below_nil 0, le_rfl, le_rfl, Nat.zero_le _, [], (List.append_nil _).symm, rpMakes_nil v 0⟩

end

/-- What `RP_ENCODE` writes behind the header decodes to its input. -/
theorem rpEncode_decodes {v : RpEnv} (hbias : v.bias ≤ 1) :
    ∃ body, (rpEncode v (Ctx.fresh v.n).rpEnc).2 = rpHeaderBytes v.n ++ body ∧
      Leads (RpBody v 0 body) (EndedWith (bytesAt v.src 0 v.n)) := by
  obtain ⟨h, hcp⟩ := (rpEncoding_start v v.n).loop hbias (Nat.le_add_left v.n 0)
  obtain ⟨hleft3, hleft, bs, hout, hmakes⟩ := h.flushed
  simp only [rpEncode, rpFinish]
  rw [hout, List.append_assoc, List.append_assoc]
  rw [hcp] at hleft3 hleft hmakes ⊢
  exact ⟨_, rfl, (hmakes _).trans (rpEof_ends hleft3 (Nat.sub_add_cancel hleft))⟩

/-- Settles O57: the stream decodes chunk by chunk, each command as the encoder's loop writes it. -/
theorem refPackRoundTrip : Obligations.RefPackRoundTrip := by
  intro v s hbias hb hd hlegal hn out hlen
  obtain ⟨body, hout, hrun⟩ := rpEncode_decodes hbias
  obtain ⟨-, hmax, -⟩ := hlegal
  obtain ⟨magic, hmagic, hheader⟩ := rpHeaderBytes_plain (hn.trans_lt hmax)
  rw [hheader] at hout
  change out = _ at hout
  rw [hout] at hlen ⊢
  have hparsed := loaded_header (s := s) 4 hmagic hlen hn
  refine loaded_endedWith hb hd (readHeader_of_ok hparsed .cont) ⟨?_, rfl, ?_, rfl, rfl⟩ hrun
  · exact (running_beginOp _ _).of_workingOn (nothingPutOut_behindHeader _ _).workingOn
  · exact unread_behindHeader hlen (length_plainHeader magic v.n).symm

end Sys2Proof.Machine
end

section
/-! The BinaryTree dictionary (44 R320 to R327): its nodes have new names and older children, and undoing its merges gives
the input back. -/

namespace Sys2Proof.Machine

/-! ## Dictionaries -/

/-- The names of the nodes. -/
def nodeNames (ns : List (Byte × Byte × Byte)) : List Byte := ns.map Prod.fst

/-- A byte the builder may merge: a byte of the input or the name of a node, and not the clue (44 R324). -/
def Mergeable (clue : Byte) (input : List Byte) (ns : List (Byte × Byte × Byte)) (a : Byte) : Prop :=
  (a ∈ input ∨ a ∈ nodeNames ns) ∧ a ≠ clue

/-- A value that can name the next node (44 R322). -/
def Fresh (clue : Byte) (input : List Byte) (ns : List (Byte × Byte × Byte)) (j : Byte) : Prop :=
  j ∉ input ∧ j ∉ nodeNames ns ∧ j ≠ clue

/-- Nodes in the order of their creation, each of a fresh name and two older children. -/
inductive Dictionary (clue : Byte) (input : List Byte) : List (Byte × Byte × Byte) → Prop
  | nil : Dictionary clue input []
  | snoc {ns : List (Byte × Byte × Byte)} {j a b : Byte} (h : Dictionary clue input ns) (hj : Fresh clue input ns j)
      (ha : Mergeable clue input ns a) (hb : Mergeable clue input ns b) : Dictionary clue input (ns ++ [(j, a, b)])

theorem nodeNames_append (ns ms : List (Byte × Byte × Byte)) :
    nodeNames (ns ++ ms) = nodeNames ns ++ nodeNames ms := List.map_append

theorem mem_nodeNames {ns : List (Byte × Byte × Byte)} {x : Byte × Byte × Byte} (h : x ∈ ns) : x.1 ∈ nodeNames ns :=
  List.mem_map_of_mem h

section
variable {clue : Byte} {input : List Byte} {ns : List (Byte × Byte × Byte)}

theorem Mergeable.append {a : Byte} (h : Mergeable clue input ns a) (ms : List (Byte × Byte × Byte)) :
    Mergeable clue input (ns ++ ms) a :=
  ⟨h.1.imp_right fun hmem => nodeNames_append ns ms ▸ List.mem_append_left _ hmem, h.2⟩

theorem Dictionary.nodup (h : Dictionary clue input ns) : (clue :: nodeNames ns).Nodup := by
  induction h with
  | nil => exact List.nodup_singleton clue
  | snoc h hj _ _ ih =>
    obtain ⟨-, hname, hclue⟩ := hj
    rw [nodeNames_append, ← List.cons_append]
    refine List.nodup_append.2 ⟨ih, List.nodup_singleton _, fun x hx y hy => ?_⟩
    obtain rfl := List.mem_singleton.1 hy
    rcases List.mem_cons.1 hx with rfl | hx
    · exact hclue.symm
    · exact fun he => hname (he ▸ hx)

/-- With the clue there are at most 256 names. -/
theorem Dictionary.length_le (h : Dictionary clue input ns) : ns.length ≤ 255 := by
  have := length_le_256 h.nodup
  rw [List.length_cons, nodeNames, List.length_map] at this
  omega

theorem Dictionary.mem (h : Dictionary clue input ns) {x : Byte × Byte × Byte} (hx : x ∈ ns) :
    x.1 ≠ clue ∧ x.1 ∉ input ∧ x.2.1 ≠ clue ∧ x.2.2 ≠ clue := by
  induction h with
  | nil => cases hx
  | snoc h hj ha hb ih =>
    rcases List.mem_append.1 hx with hx | hx
    · exact ih hx
    · obtain rfl := List.mem_singleton.1 hx
      exact ⟨hj.2.2, hj.1, ha.2, hb.2⟩

theorem Dictionary.children (h : Dictionary clue input ns) {k : Nat} {j a b : Byte} (hk : ns[k]? = some (j, a, b)) :
    (a ∈ input ∨ a ∈ nodeNames (ns.take k)) ∧ (b ∈ input ∨ b ∈ nodeNames (ns.take k)) := by
  induction h with
  | nil => cases hk
  | @snoc ns j' a' b' h hj ha hb ih =>
    rcases Nat.lt_trichotomy k ns.length with hlt | rfl | hgt
    · rw [List.getElem?_append_left hlt] at hk
      rw [List.take_append_of_le_length hlt.le]
      exact ih hk
    · rw [List.getElem?_concat_length] at hk
      cases hk
      rw [List.take_left]
      exact ⟨ha.1, hb.1⟩
    · rw [List.getElem?_eq_none (by rw [List.length_append, List.length_singleton]; omega)] at hk
      cases hk

/-- The merges of one pass: their pairs are of the buffer before the pass (44 R326). -/
theorem Dictionary.append (h : Dictionary clue input ns) {sel : List ((Byte × Byte) × Byte)}
    (hpairs : ∀ x ∈ sel, Mergeable clue input ns x.1.1 ∧ Mergeable clue input ns x.1.2)
    (hnames : (sel.map Prod.snd).Nodup) (hfresh : ∀ x ∈ sel, Fresh clue input ns x.2) :
    Dictionary clue input (ns ++ sel.map fun x => (x.2, x.1.1, x.1.2)) := by
  induction sel generalizing ns with
  | nil => rwa [List.map_nil, List.append_nil]
  | cons x sel ih =>
    obtain ⟨hx, hsel⟩ := List.nodup_cons.1 hnames
    obtain ⟨ha, hb⟩ := hpairs x List.mem_cons_self
    rw [List.map_cons, List.append_cons]
    refine ih (h.snoc (hfresh x List.mem_cons_self) ha hb) (fun y hy => ?_) hsel fun y hy => ?_
    · obtain ⟨ha, hb⟩ := hpairs y (List.mem_cons_of_mem x hy)
      exact ⟨ha.append _, hb.append _⟩
    · obtain ⟨hinput, hname, hclue⟩ := hfresh y (List.mem_cons_of_mem x hy)
      refine ⟨hinput, ?_, hclue⟩
      rw [nodeNames_append, List.mem_append, not_or]
      refine ⟨hname, fun hmem => hx ?_⟩
      have he : y.2 = x.2 := List.mem_singleton.1 hmem
      exact he ▸ List.mem_map_of_mem hy

end

/-! ## Undoing merges -/

/-- Every occurrence of the node's name replaced by its children. -/
def unjoin (x : Byte × Byte × Byte) (bs : List Byte) : List Byte :=
  bs.flatMap fun v => if v = x.1 then [x.2.1, x.2.2] else [v]

/-- The merges undone, the last one first. -/
def unjoinAll (ns : List (Byte × Byte × Byte)) (bs : List Byte) : List Byte := ns.foldr unjoin bs

theorem unjoin_append (x : Byte × Byte × Byte) (as bs : List Byte) :
    unjoin x (as ++ bs) = unjoin x as ++ unjoin x bs := List.flatMap_append

theorem unjoin_of_not_mem {x : Byte × Byte × Byte} {bs : List Byte} (h : x.1 ∉ bs) : unjoin x bs = bs := by
  induction bs with
  | nil => rfl
  | cons b bs ih =>
    obtain ⟨hb, hbs⟩ := List.ne_and_not_mem_of_not_mem_cons h
    rw [← List.singleton_append, unjoin_append, ih hbs]
    simp [unjoin, hb.symm]

theorem unjoin_name (x : Byte × Byte × Byte) : unjoin x [x.1] = [x.2.1, x.2.2] := by simp [unjoin]

theorem unjoinAll_append (ns ms : List (Byte × Byte × Byte)) (bs : List Byte) :
    unjoinAll (ns ++ ms) bs = unjoinAll ns (unjoinAll ms bs) := List.foldr_append

theorem unjoinAll_append_bytes (ns : List (Byte × Byte × Byte)) (as bs : List Byte) :
    unjoinAll ns (as ++ bs) = unjoinAll ns as ++ unjoinAll ns bs := by
  induction ns with
  | nil => rfl
  | cons x ns ih => exact (congrArg (unjoin x) ih).trans (unjoin_append x _ _)

theorem unjoinAll_nil (ns : List (Byte × Byte × Byte)) : unjoinAll ns [] = [] := by
  induction ns with
  | nil => rfl
  | cons x ns ih => exact congrArg (unjoin x) ih

theorem unjoinAll_of_not_mem {ns : List (Byte × Byte × Byte)} {bs : List Byte} (h : ∀ v ∈ bs, v ∉ nodeNames ns) :
    unjoinAll ns bs = bs := by
  induction ns with
  | nil => rfl
  | cons x ns ih =>
    have hns : unjoinAll ns bs = bs := ih fun v hv hmem => h v hv (List.mem_cons_of_mem _ hmem)
    exact (congrArg (unjoin x) hns).trans (unjoin_of_not_mem fun hx => h _ hx List.mem_cons_self)

/-- The merges of one pass, as nodes. -/
def selNodes (sel : List ((Byte × Byte) × Byte)) : List (Byte × Byte × Byte) := sel.map fun x => (x.2, x.1.1, x.1.2)

theorem nodeNames_selNodes (sel : List ((Byte × Byte) × Byte)) : nodeNames (selNodes sel) = sel.map Prod.snd := by
  rw [nodeNames, selNodes, List.map_map]
  rfl

section
variable {sel : List ((Byte × Byte) × Byte)}

/-- A join byte stands for its pair, since no pair holds a join byte of the same pass. -/
theorem unjoinAll_selNodes_name (hnames : (sel.map Prod.snd).Nodup) {a b j : Byte} (h : ((a, b), j) ∈ sel)
    (ha : a ∉ sel.map Prod.snd) (hb : b ∉ sel.map Prod.snd) : unjoinAll (selNodes sel) [j] = [a, b] := by
  induction sel with
  | nil => cases h
  | cons x sel ih =>
    obtain ⟨hx, hsel⟩ := List.nodup_cons.1 hnames
    obtain ⟨hax, ha⟩ := List.ne_and_not_mem_of_not_mem_cons ha
    obtain ⟨hbx, hb⟩ := List.ne_and_not_mem_of_not_mem_cons hb
    show unjoin (x.2, x.1.1, x.1.2) (unjoinAll (selNodes sel) [j]) = _
    rcases List.mem_cons.1 h with rfl | h
    · rw [unjoinAll_of_not_mem fun v hv => by rw [List.mem_singleton.1 hv, nodeNames_selNodes]; exact hx]
      exact unjoin_name _
    · rw [ih hsel h ha hb]
      refine unjoin_of_not_mem ?_
      simp only [List.mem_cons, List.not_mem_nil, or_false, not_or]
      exact ⟨hax.symm, hbx.symm⟩

theorem joinNodes_some {a b j : Byte} (h : joinOf sel a b = some j) (t : List Byte) :
    joinNodes sel (a :: b :: t) = j :: joinNodes sel t := by rw [joinNodes, h]

theorem joinNodes_none {a b : Byte} (h : joinOf sel a b = none) (t : List Byte) :
    joinNodes sel (a :: b :: t) = a :: joinNodes sel (b :: t) := by rw [joinNodes, h]

theorem mem_of_joinOf {a b j : Byte} (h : joinOf sel a b = some j) : ((a, b), j) ∈ sel := by
  obtain ⟨x, hx, rfl⟩ := Option.map_eq_some_iff.1 h
  have hpair : x.1 = (a, b) := by simpa using List.find?_some hx
  exact hpair ▸ List.mem_of_find?_eq_some hx

/-- Undoing the merges of a pass gives the buffer before it. -/
theorem unjoinAll_joinNodes (hnames : (sel.map Prod.snd).Nodup) {bs : List Byte} (h : ∀ v ∈ bs, v ∉ sel.map Prod.snd) :
    unjoinAll (selNodes sel) (joinNodes sel bs) = bs := by
  have hkeep : ∀ v ∈ bs, unjoinAll (selNodes sel) [v] = [v] := fun v hv =>
    unjoinAll_of_not_mem fun w hw => by rw [List.mem_singleton.1 hw, nodeNames_selNodes]; exact h v hv
  induction bs using joinNodes.induct sel with
  | case1 a b t j hj ih =>
    simp only [List.forall_mem_cons] at h hkeep
    obtain ⟨ha, hb, ht⟩ := h
    rw [joinNodes_some hj, ← List.singleton_append, unjoinAll_append_bytes,
      unjoinAll_selNodes_name hnames (mem_of_joinOf hj) ha hb, ih ht hkeep.2.2]
    rfl
  | case2 a b t hj ih =>
    have ht := ih (List.forall_mem_cons.1 h).2 (List.forall_mem_cons.1 hkeep).2
    rw [joinNodes_none hj, ← List.singleton_append, unjoinAll_append_bytes, hkeep a List.mem_cons_self, ht]
    rfl
  | case3 l hl =>
    rw [joinNodes.eq_2 _ _ hl]
    exact unjoinAll_of_not_mem fun v hv => by rw [nodeNames_selNodes]; exact h v hv

theorem mem_joinNodes {bs : List Byte} {v : Byte} (h : v ∈ joinNodes sel bs) : v ∈ bs ∨ v ∈ sel.map Prod.snd := by
  induction bs using joinNodes.induct sel with
  | case1 a b t j hj ih =>
    rw [joinNodes_some hj] at h
    rcases List.mem_cons.1 h with rfl | h
    · exact .inr (List.mem_map_of_mem (mem_of_joinOf hj))
    · exact (ih h).imp_left fun h => List.mem_cons_of_mem _ (List.mem_cons_of_mem _ h)
  | case2 a b t hj ih =>
    rw [joinNodes_none hj] at h
    rcases List.mem_cons.1 h with rfl | h
    · exact .inl List.mem_cons_self
    · exact (ih h).imp_left (List.mem_cons_of_mem _)
  | case3 l hl =>
    rw [joinNodes.eq_2 _ _ hl] at h
    exact .inl h

theorem length_joinNodes_le (sel : List ((Byte × Byte) × Byte)) (bs : List Byte) :
    (joinNodes sel bs).length ≤ bs.length := by
  induction bs using joinNodes.induct sel with
  | case1 a b t j hj ih => rw [joinNodes_some hj]; simp only [List.length_cons]; omega
  | case2 a b t hj ih => rw [joinNodes_none hj]; simp only [List.length_cons] at ih ⊢; omega
  | case3 l hl => rw [joinNodes.eq_2 _ _ hl]

end

/-! ## Counts -/

theorem getD_bump (t : Sparse Nat) (i v : Nat) : (bump t i).getD 0 v = t.getD 0 v + if v = i then 1 else 0 := by
  rw [bump, Sparse.getD_setD]
  split_ifs with h
  · rw [h]
  · rfl

/-- A byte of the input has a count. -/
theorem getD_btFreq_pos {bs : List Byte} {f : Sparse Nat} {v : Byte} (h : v ∈ bs ∨ 0 < f.getD 0 v.toNat) :
    0 < (btFreq bs f).getD 0 v.toNat := by
  induction bs generalizing f with
  | nil => exact h.resolve_left List.not_mem_nil
  | cons b bs ih =>
    refine ih ?_
    rw [getD_bump]
    rcases h with h | h
    · rcases List.mem_cons.1 h with rfl | h
      · exact .inr (by rw [if_pos rfl]; omega)
      · exact .inl h
    · exact .inr (by omega)

theorem not_mem_of_unused {input : List Byte} {v : Byte} (h : v ∈ btUnused (btFreq input [])) : v ∉ input := by
  intro hmem
  have hzero := of_decide_eq_true (List.mem_filter.1 h).2
  have := getD_btFreq_pos (f := []) (Or.inl hmem)
  omega

theorem nodup_allBytes : allBytes.Nodup := by
  refine List.Nodup.map_on (fun i hi j hj h => ?_) List.nodup_range
  have := congrArg BitVec.toNat h
  rw [toNat_toByte, toNat_toByte] at this
  rw [List.mem_range] at hi hj
  omega

theorem leastFrequent_mem (f : Sparse Nat) (d : Byte) (vs : List Byte) : leastFrequent f d vs ∈ d :: vs := by
  induction vs generalizing d with
  | nil => exact List.mem_cons_self
  | cons v vs ih =>
    unfold leastFrequent
    split_ifs
    · exact List.mem_cons_of_mem d (ih v)
    · rcases List.mem_cons.1 (ih d) with h | h
      · rw [h]; exact List.mem_cons_self
      · exact List.mem_cons_of_mem d (List.mem_cons_of_mem v h)

/-- A pair is listed only where it was counted. -/
theorem mem_btPairs {clue : Byte} {bs : List Byte} {m : Sparse Nat} (hs : m.sorted = true) {e : Nat × Nat}
    (h : e ∈ btPairs clue bs m) :
    (∃ a ∈ bs, ∃ b ∈ bs, a ≠ clue ∧ b ≠ clue ∧ e.1 = 256 * a.toNat + b.toNat) ∨ ∃ e' ∈ m, e'.1 = e.1 := by
  induction bs generalizing m with
  | nil => exact .inr ⟨e, h, rfl⟩
  | cons a bs ih =>
    cases bs with
    | nil => exact .inr ⟨e, h, rfl⟩
    | cons b t =>
      rw [btPairs] at h
      split_ifs at h with hclue
      · rcases ih (Sparse.sorted_put _ _ hs) h with ⟨x, hx, y, hy, hne⟩ | ⟨e', he', heq⟩
        · exact .inl ⟨x, List.mem_cons_of_mem a hx, y, List.mem_cons_of_mem a hy, hne⟩
        · rcases Sparse.mem_put hs he' with ⟨hi, -⟩ | he'
          · exact .inl ⟨a, List.mem_cons_self, b, List.mem_cons_of_mem a List.mem_cons_self, hclue.1, hclue.2,
              heq.symm.trans hi⟩
          · exact .inr ⟨e', he', heq⟩
      · rcases ih hs h with ⟨x, hx, y, hy, hne⟩ | hm
        · exact .inl ⟨x, List.mem_cons_of_mem a hx, y, List.mem_cons_of_mem a hy, hne⟩
        · exact .inr hm

theorem pairOf_index (a b : Byte) : pairOf (256 * a.toNat + b.toNat) = (a, b) := by
  have ha := a.isLt
  have hb := b.isLt
  refine Prod.ext (BitVec.eq_of_toNat_eq ?_) (BitVec.eq_of_toNat_eq ?_)
  · show (256 * a.toNat + b.toNat) / 256 % 256 = a.toNat
    omega
  · show (256 * a.toNat + b.toNat) % 256 = b.toNat
    omega

/-! ## The passes -/

/-- What the builder keeps (44 R320 to R327). -/
structure BtBuilt (input : List Byte) (e : BtEnc) : Prop where
  dictionary : Dictionary e.clue input e.nodes
  nodup_free : e.free.Nodup
  fresh : ∀ v ∈ e.free, Fresh e.clue input e.nodes v
  buf_mem : ∀ v ∈ e.buf, v ∈ input ∨ v ∈ nodeNames e.nodes
  undone : unjoinAll e.nodes e.buf = input
  length_buf : e.buf.length ≤ input.length
  /-- An input that leaves no value for the clue has a clue other than 0. -/
  clue : e.clue ∈ input → e.clue ≠ 0

theorem btClue_unused {f : Sparse Nat} {c : Byte} {free : List Byte} (h : btUnused f = c :: free) :
    btClue f = (c, free) := by rw [btClue, h]

theorem btClue_none {f : Sparse Nat} (h : btUnused f = []) :
    btClue f = (leastFrequent f 1 (allBytes.drop 2), []) := by rw [btClue, h]

theorem btStart_eq (input : List Byte) :
    btStart input = ⟨input, btFreq input [], (btClue (btFreq input [])).2, (btClue (btFreq input [])).1, [], [], 0⟩ := rfl

theorem btBuilt_start (input : List Byte) : BtBuilt input (btStart input) := by
  rw [btStart_eq]
  cases hunused : btUnused (btFreq input []) with
  | nil =>
    rw [btClue_none hunused]
    refine ⟨.nil, List.nodup_nil, nofun, fun v hv => .inl hv, rfl, le_rfl, fun _ h0 => ?_⟩
    have hmem := leastFrequent_mem (btFreq input []) 1 (allBytes.drop 2)
    change leastFrequent _ _ _ = 0 at h0
    rw [h0] at hmem
    revert hmem
    decide
  | cons c free =>
    have hnodup : (c :: free).Nodup := hunused ▸ nodup_allBytes.filter _
    obtain ⟨hc, hfree⟩ := List.nodup_cons.1 hnodup
    have hinput : ∀ v ∈ c :: free, v ∉ input := fun v hv => not_mem_of_unused (hunused ▸ hv)
    rw [btClue_unused hunused]
    exact ⟨.nil, hfree, fun v hv => ⟨hinput v (List.mem_cons_of_mem c hv), List.not_mem_nil, fun he : v = c => hc (he ▸ hv)⟩,
      fun v hv => .inl hv, rfl, le_rfl, fun hmem => absurd hmem (hinput c List.mem_cons_self)⟩

theorem mem_btCandidates {threshold : Nat} {m : Sparse Nat} {e : Nat × Nat} (h : e ∈ btCandidates threshold m) :
    e ∈ m := (List.mem_filter.1 (List.mem_insertionSort _ |>.1 h)).1

/-- As many pairs as join bytes are selected. -/
theorem map_snd_btSelect {k : Nat} {cand : List (Nat × Nat)} {free : List Byte} (hc : k ≤ cand.length)
    (hf : k ≤ free.length) : (btSelect k cand free).map Prod.snd = free.take k := by
  rw [btSelect, List.map_snd_zip]
  rw [List.length_map, List.length_take, List.length_take]
  omega

theorem BtBuilt.pass {input : List Byte} {e : BtEnc} (h : BtBuilt input e) {threshold k passes : Nat} {pair : Sparse Nat}
    (hc : k ≤ (btCandidates threshold (btPairs e.clue e.buf [])).length) (hf : k ≤ e.free.length) :
    let sel := btSelect k (btCandidates threshold (btPairs e.clue e.buf [])) e.free
    BtBuilt input { e with
      free := e.free.drop k
      nodes := e.nodes ++ sel.map fun x => (x.2, x.1.1, x.1.2)
      buf := joinNodes sel e.buf
      pair := pair
      passes := passes } := by
  intro sel
  have hsnd : sel.map Prod.snd = e.free.take k := map_snd_btSelect hc hf
  have hnames : (sel.map Prod.snd).Nodup := hsnd ▸ h.nodup_free.sublist (List.take_sublist _ _)
  have hfresh : ∀ v ∈ sel.map Prod.snd, Fresh e.clue input e.nodes v := fun v hv =>
    h.fresh v (List.mem_of_mem_take (hsnd ▸ hv))
  have hpairs : ∀ x ∈ sel, Mergeable e.clue input e.nodes x.1.1 ∧ Mergeable e.clue input e.nodes x.1.2 := by
    intro x hx
    obtain ⟨c, hc, hpair⟩ := List.mem_map.1 (List.of_mem_zip hx).1
    have hcand := mem_btCandidates (List.mem_of_mem_take hc)
    rcases mem_btPairs (m := []) rfl hcand with ⟨a, ha, b, hb, hane, hbne, hindex⟩ | ⟨e', he', -⟩
    · rw [hindex, pairOf_index] at hpair
      rw [← hpair]
      exact ⟨⟨h.buf_mem a ha, hane⟩, ⟨h.buf_mem b hb, hbne⟩⟩
    · cases he'
  have hbuf : ∀ v ∈ e.buf, v ∉ sel.map Prod.snd := fun v hv hmem => by
    obtain ⟨hinput, hname, -⟩ := hfresh v hmem
    exact (h.buf_mem v hv).elim hinput hname
  have hsplit : (e.free.take k ++ e.free.drop k).Nodup := (List.take_append_drop k e.free).symm ▸ h.nodup_free
  obtain ⟨-, hdrop, hdisjoint⟩ := List.nodup_append.1 hsplit
  refine ⟨h.dictionary.append hpairs hnames fun x hx => hfresh _ (List.mem_map_of_mem hx), hdrop, fun v hv => ?_,
    fun v hv => ?_, ?_, (length_joinNodes_le _ _).trans h.length_buf, h.clue⟩
  · obtain ⟨hinput, hname, hclue⟩ := h.fresh v (List.mem_of_mem_drop hv)
    refine ⟨hinput, ?_, hclue⟩
    show v ∉ nodeNames (e.nodes ++ selNodes sel)
    rw [nodeNames_append, nodeNames_selNodes, hsnd, List.mem_append, not_or]
    exact ⟨hname, fun hmem => hdisjoint v hmem v hv rfl⟩
  · show v ∈ input ∨ v ∈ nodeNames (e.nodes ++ selNodes sel)
    rw [nodeNames_append, nodeNames_selNodes, List.mem_append]
    rcases mem_joinNodes hv with hv | hv
    · exact (h.buf_mem v hv).imp_right .inl
    · exact .inr (.inr hv)
  · show unjoinAll (e.nodes ++ selNodes sel) (joinNodes sel e.buf) = input
    rw [unjoinAll_append, unjoinAll_joinNodes hnames hbuf, h.undone]

theorem BtBuilt.passes {input : List Byte} (perPass threshold k : Nat) {e : BtEnc} (h : BtBuilt input e) :
    BtBuilt input (btPasses perPass threshold k e) := by
  induction k generalizing e with
  | zero => exact h
  | succ k ih =>
    unfold btPasses
    dsimp only
    split_ifs with hfree hcand
    · exact h
    · exact ⟨h.dictionary, h.nodup_free, h.fresh, h.buf_mem, h.undone, h.length_buf, h.clue⟩
    · exact ih (h.pass ((min_le_right _ _).trans (min_le_right _ _)) ((min_le_right _ _).trans (min_le_left _ _)))

theorem btBuilt_encode (perPass threshold maxPasses : Nat) (input : List Byte) :
    BtBuilt input (btEncode perPass threshold maxPasses input).1 := (btBuilt_start input).passes _ _ _

/-- Settles O53: the builder's nodes are a `Dictionary`. -/
theorem binaryTreeNodesBounded : Obligations.BinaryTreeNodesBounded := by
  intro perPass threshold maxPasses input e
  have h : Dictionary e.clue input e.nodes := (btBuilt_encode perPass threshold maxPasses input).dictionary
  exact ⟨h.length_le, (List.nodup_cons.1 h.nodup).2, fun x => h.mem, fun k j a b => h.children⟩

end Sys2Proof.Machine
end

section
/-! The BinaryTree round trip (44 R332): the table is loaded, and each item puts out what undoing the merges makes of its
byte. -/

namespace Sys2Proof.Machine

/-! ## The tree under a byte -/

/-- The node tables hold the nodes `ns` (44 R304). -/
structure TreeLoaded (ns : List (Byte × Byte × Byte)) (s : State) : Prop where
  isNode : ∀ v, isNodeByte s.ctx.bt.isNode v = true ↔ v ∈ nodeNames ns
  children : ∀ x ∈ ns, s.ctx.bt.left.read x.1.toNat = x.2.1 ∧ s.ctx.bt.right.read x.1.toNat = x.2.2

theorem TreeLoaded.setBtStack {ns : List (Byte × Byte × Byte)} {s : State} (h : TreeLoaded ns s) (st : List Byte) :
    TreeLoaded ns (setBtStack st s) := ⟨h.isNode, h.children⟩

/-- Popping `v` puts out `out` and leaves the stack below it, in a stack of `h` more places (44 R309). -/
def Expands (ns : List (Byte × Byte × Byte)) (h : Nat) (v : Byte) (out : List Byte) : Prop :=
  ∀ (s : State) (st : List Byte), TreeLoaded ns s → s.ctx.bt.stack = v :: st → st.length + h + 1 ≤ s.params.btStackDepth →
    s.ctx.dp + out.length ≤ s.ctx.ulen →
    ∃ c, c + 1 ≤ 2 * out.length ∧ ∀ f, btExpand (c + f) s = btExpand f (emitted out (setBtStack st s))

section
variable {ns : List (Byte × Byte × Byte)}

theorem expands_leaf (h : Nat) {v : Byte} (hv : v ∉ nodeNames ns) : Expands ns h v [v] := by
  intro s st hs hst _ hroom
  refine ⟨1, le_rfl, fun f => ?_⟩
  rw [Nat.add_comm, btExpand, hst]
  dsimp only
  rw [if_neg fun hn => hv ((hs.isNode v).1 hn), emit_of_lt (s := setBtStack st s) hroom, andThen_cont]

theorem expands_node {h : Nat} {x : Byte × Byte × Byte} {as bs : List Byte} (hx : x ∈ ns) (ha : Expands ns h x.2.1 as)
    (hb : Expands ns h x.2.2 bs) : Expands ns (h + 1) x.1 (as ++ bs) := by
  intro s st hs hst hdepth hroom
  rw [List.length_append] at hroom
  obtain ⟨hleft, hright⟩ := hs.children x hx
  have hpop : ∀ f, btExpand (f + 1) s = btExpand f (setBtStack (x.2.1 :: x.2.2 :: st) s) := fun f => by
    rw [btExpand, hst]
    dsimp only
    rw [if_pos ((hs.isNode _).2 (mem_nodeNames hx)), if_neg (by omega), hleft, hright]
  obtain ⟨c, hc, hleft⟩ := ha (setBtStack (x.2.1 :: x.2.2 :: st) s) (x.2.2 :: st) (hs.setBtStack _) rfl
    (show st.length + 1 + h + 1 ≤ s.params.btStackDepth by omega)
    (show s.ctx.dp + as.length ≤ s.ctx.ulen by omega)
  obtain ⟨d, hd, hright⟩ := hb (emitted as (setBtStack (x.2.2 :: st) s)) st ⟨hs.isNode, hs.children⟩ rfl
    (show st.length + h + 1 ≤ s.params.btStackDepth by omega)
    (show s.ctx.dp + as.length + bs.length ≤ s.ctx.ulen by omega)
  refine ⟨c + d + 1, by rw [List.length_append]; omega, fun f => ?_⟩
  calc btExpand (c + d + 1 + f) s
      = btExpand (c + (d + f)) (setBtStack (x.2.1 :: x.2.2 :: st) s) := by
        rw [Nat.add_right_comm, hpop, Nat.add_assoc]
    _ = btExpand (d + f) (emitted as (setBtStack (x.2.2 :: st) s)) := hleft _
    _ = btExpand f (emitted bs (emitted as (setBtStack st s))) := hright f
    _ = btExpand f (emitted (as ++ bs) (setBtStack st s)) := by rw [emitted_append]

theorem Expands.mono {h k : Nat} {v : Byte} {out : List Byte} (he : Expands ns h v out) (hk : h ≤ k) :
    Expands ns k v out := fun s st hs hst hdepth hroom => he s st hs hst (by omega) hroom

theorem unjoinAll_leaf {ks : List (Byte × Byte × Byte)} (hsub : ks ⊆ ns) {v : Byte} (hv : v ∉ nodeNames ns) :
    unjoinAll ks [v] = [v] := unjoinAll_of_not_mem fun w hw hmem => by
  obtain rfl := List.mem_singleton.1 hw
  exact hv (List.map_subset Prod.fst hsub hmem)

/-- A byte expands to what undoing the merges makes of it: a node's children are older. -/
theorem Dictionary.expands {clue : Byte} {input : List Byte} {ks : List (Byte × Byte × Byte)}
    (h : Dictionary clue input ks) (hsub : ks ⊆ ns) (hleaf : ∀ v ∈ input, v ∉ nodeNames ns) {v : Byte}
    (hv : v ∉ nodeNames ns ∨ v ∈ nodeNames ks) : Expands ns ks.length v (unjoinAll ks [v]) := by
  induction h generalizing v with
  | nil => exact expands_leaf _ (hv.resolve_right List.not_mem_nil)
  | @snoc ks j a b h hj ha hb ih =>
    have hks : ks ⊆ ns := fun x hx => hsub (List.mem_append_left _ hx)
    have hchild : ∀ {w}, Mergeable clue input ks w → Expands ns ks.length w (unjoinAll ks [w]) := fun hw =>
      ih hks (hw.1.imp_left (hleaf _))
    rw [List.length_append, List.length_singleton]
    rcases hv with hv | hv
    · rw [unjoinAll_leaf hsub hv]
      exact expands_leaf _ hv
    · rw [nodeNames_append, List.mem_append] at hv
      rw [unjoinAll_append]
      rcases hv with hv | hv
      · have hne : j ∉ [v] := fun he => hj.2.1 (List.mem_singleton.1 he ▸ hv)
        rw [show unjoinAll [(j, a, b)] [v] = [v] from unjoin_of_not_mem hne]
        exact (ih hks (.inr hv)).mono (Nat.le_succ _)
      · obtain rfl : v = j := List.mem_singleton.1 hv
        rw [show unjoinAll [(v, a, b)] [v] = [a] ++ [b] from unjoin_name (v, a, b), unjoinAll_append_bytes]
        exact expands_node (hsub (List.mem_append_right _ (List.mem_singleton.2 rfl))) (hchild ha) (hchild hb)

end

/-- An empty stack ends the loop. -/
theorem btExpand_done (f : Nat) {s : State} (h : s.ctx.bt.stack = []) : btExpand f s = .cont s := by
  cases f with
  | zero => rfl
  | succ f => rw [btExpand, h]

theorem Expands.btExpandNode {ns : List (Byte × Byte × Byte)} {h : Nat} {v : Byte} {out : List Byte}
    (he : Expands ns h v out) {s : State} (hs : TreeLoaded ns s) (hdepth : h + 1 ≤ s.params.btStackDepth)
    (hroom : s.ctx.dp + out.length ≤ s.ctx.ulen) : btExpandNode v s = .cont (emitted out (setBtStack [] s)) := by
  obtain ⟨c, hc, hrun⟩ := he (setBtStack [v] s) [] (hs.setBtStack _) rfl
    (show 0 + h + 1 ≤ s.params.btStackDepth by omega) hroom
  have hbound : c ≤ btExpandBound s := by
    unfold btExpandBound
    omega
  rw [Machine.btExpandNode, ← Nat.add_sub_cancel' hbound, hrun]
  exact btExpand_done _ rfl

/-! ## The items -/

/-- A BinaryTree `DECODE` of `n` bytes that has put out `xs`, with `rest` unread, under the tables of `e`. -/
structure BtItems (e : BtEnc) (n : Nat) (xs rest : List Byte) (s : State) : Prop where
  running : Running .bt s
  ulen : s.ctx.ulen = n
  unread : Unread rest s
  output : Output xs s
  clue : s.ctx.bt.clue = e.clue
  tree : TreeLoaded e.nodes s
  depth : 256 ≤ s.params.btStackDepth

section
variable {e : BtEnc} {n : Nat} {xs more : List Byte} {s : State}

/-- The bytes of an item are fetched. -/
theorem BtItems.item {i : Instr} (hi : wellFormedBt s.ctx.bt.clue s.ctx.bt.isNode i = true)
    (h : BtItems e n xs (encodeBt i ++ more) s) : ∃ u, step s = exec i u ∧ BtItems e n xs more u := by
  have hdec := binaryTreeDecodeOfEncode s.ctx.bt.clue s.ctx.bt.isNode i hi more 0 s.ctx.acc s.ctx.nacc
  rw [← h.unread.2, Nat.zero_add] at hdec
  obtain ⟨-, -, hmore⟩ := h.unread.append
  exact ⟨_, step_bt h.running.start h.running.decoding hdec, h.running.of_workingOn ⟨_, _, _, rfl⟩, h.ulen,
    hmore.of_eq rfl rfl rfl, h.output, h.clue, ⟨h.tree.isNode, h.tree.children⟩, h.depth⟩

theorem BtItems.emitted (h : BtItems e n xs more s) (ys : List Byte) (st : List Byte) :
    BtItems e n (xs ++ ys) more (emitted ys (setBtStack st s)) :=
  ⟨h.running.of_workingOn ⟨_, _, _, rfl⟩, h.ulen, h.unread.of_eq rfl rfl rfl,
    Output.emitted (s := setBtStack st s) h.output ys, h.clue, ⟨h.tree.isNode, h.tree.children⟩, h.depth⟩

/-- An item that puts out one byte. -/
theorem BtItems.emit {i : Instr} {b : Byte} (hi : wellFormedBt s.ctx.bt.clue s.ctx.bt.isNode i = true)
    (hexec : ∀ u, exec i u = streamOp .bt u (emit b)) (h : BtItems e n xs (encodeBt i ++ more) s)
    (hroom : xs.length + 1 ≤ n) : ∃ t, step s = .next t ∧ BtItems e n (xs ++ [b]) more t := by
  obtain ⟨u, hu, hitems⟩ := h.item hi
  refine ⟨Machine.emitted [b] u, ?_, hitems.emitted [b] u.ctx.bt.stack⟩
  have hlt : u.ctx.dp < u.ctx.ulen := by
    rw [hitems.output.1, hitems.ulen]
    exact hroom
  rw [hu, hexec, streamOp_decoding _ hitems.running.decoding, emit_of_lt hlt, outcome_cont]

end

theorem btBody_cons (clue b : Byte) (bs : List Byte) : btBody clue (b :: bs) = btBody clue [b] ++ btBody clue bs := by
  simp only [btBody]
  split_ifs <;> rfl

theorem unjoinAll_cons (ns : List (Byte × Byte × Byte)) (b : Byte) (bs : List Byte) :
    unjoinAll ns (b :: bs) = unjoinAll ns [b] ++ unjoinAll ns bs := unjoinAll_append_bytes ns [b] bs

section
variable {e : BtEnc} {input : List Byte} (he : BtBuilt input e)
include he

theorem BtBuilt.leaf : ∀ v ∈ input, v ∉ nodeNames e.nodes := fun v hv hname => by
  obtain ⟨x, hx, rfl⟩ := List.mem_map.1 hname
  obtain ⟨-, hinput, -, -⟩ := he.dictionary.mem hx
  exact hinput hv

theorem BtBuilt.clue_not_name : e.clue ∉ nodeNames e.nodes := (List.nodup_cons.1 he.dictionary.nodup).1

/-- A byte of the buffer, escaped if it is the clue, decodes to what undoing the merges makes of it. -/
theorem BtBuilt.item {b : Byte} (hb : b ∈ e.buf) {n : Nat} {xs : List Byte} (more : List Byte)
    (hroom : xs.length + (unjoinAll e.nodes [b]).length ≤ n) :
    Leads (BtItems e n xs (btBody e.clue [b] ++ more)) (BtItems e n (xs ++ unjoinAll e.nodes [b]) more) :=
  Leads.of_step fun s h => by
    by_cases hname : b ∈ nodeNames e.nodes
    · have hne : b ≠ e.clue := fun hc => he.clue_not_name (hc ▸ hname)
      have hnode : isNodeByte s.ctx.bt.isNode b = true := (h.tree.isNode b).2 hname
      rw [show btBody e.clue [b] = encodeBt (.btNode b) by simp [btBody, encodeBt, hne]] at h
      obtain ⟨u, hu, hitems⟩ := h.item (by simp [wellFormedBt, h.clue, hne, hnode])
      refine ⟨_, ?_, hitems.emitted _ []⟩
      have hexpand := (he.dictionary.expands (List.Subset.refl _) he.leaf (.inr hname)).btExpandNode hitems.tree
        (by have := he.dictionary.length_le; have := hitems.depth; omega)
        (by rw [hitems.output.1, hitems.ulen]; exact hroom)
      rw [hu]
      show execBtNode b u = _
      rw [execBtNode, streamOp_decoding _ hitems.running.decoding, hexpand, outcome_cont]
    · have hnode : isNodeByte s.ctx.bt.isNode b = false := by
        rw [← Bool.not_eq_true, h.tree.isNode]
        exact hname
      rw [unjoinAll_leaf (List.Subset.refl _) hname] at hroom ⊢
      by_cases hclue : b = e.clue
      · have h0 : b ≠ 0 := hclue ▸ he.clue (hclue ▸ (he.buf_mem b hb).resolve_right hname)
        rw [show btBody e.clue [b] = encodeBt (.btEsc b b) by simp [btBody, encodeBt, hclue]] at h
        exact h.emit (by simpa [wellFormedBt, h.clue, hclue] using hclue ▸ h0) (fun _ => rfl) hroom
      · rw [show btBody e.clue [b] = encodeBt (.btLeaf b) by simp [btBody, encodeBt, hclue]] at h
        exact h.emit (by simp [wellFormedBt, h.clue, hclue, hnode]) (fun _ => rfl) hroom

theorem BtBuilt.items {bs : List Byte} (hbs : ∀ b ∈ bs, b ∈ e.buf) {n : Nat} {xs : List Byte} (more : List Byte)
    (hroom : xs.length + (unjoinAll e.nodes bs).length ≤ n) :
    Leads (BtItems e n xs (btBody e.clue bs ++ more)) (BtItems e n (xs ++ unjoinAll e.nodes bs) more) := by
  induction bs generalizing xs with
  | nil =>
    rw [unjoinAll_nil, List.append_nil]
    exact .refl _
  | cons b bs ih =>
    obtain ⟨hb, hbs⟩ := List.forall_mem_cons.1 hbs
    rw [unjoinAll_cons, List.length_append] at hroom
    rw [btBody_cons, List.append_assoc, unjoinAll_cons, ← List.append_assoc xs]
    exact (he.item hb _ (by omega)).trans (ih hbs (by rw [List.length_append]; omega))

/-- The items of the stream put out the input (44 R332). -/
theorem BtBuilt.stream : Leads (BtItems e input.length [] (btBody e.clue e.buf ++ [e.clue, 0])) (EndedWith input) := by
  have hbody := he.items (fun _ hb => hb) (n := input.length) (xs := []) [e.clue, 0]
    (by rw [he.undone, List.length_nil, Nat.zero_add])
  rw [he.undone, List.nil_append] at hbody
  refine hbody.trans (Leads.of_step fun s h => ?_)
  obtain ⟨u, hu, hitems⟩ := h.item (i := .btEnd e.clue) (more := []) (by simp [wellFormedBt, h.clue])
  refine ⟨finish u, ?_, hitems.output.endedWith hitems.running.clear⟩
  have hdp : u.ctx.dp = u.ctx.ulen := hitems.output.1.trans hitems.ulen.symm
  rw [hu]
  show execBtEnd e.clue u = _
  rw [execBtEnd, streamOp_decoding _ hitems.running.decoding, endHeaded, if_pos hdp, outcome_ended]

end

/-! ## The table -/

theorem length_btTriples (ns : List (Byte × Byte × Byte)) : (btTriples ns).length = 3 * ns.length := by
  induction ns with
  | nil => rfl
  | cons x ns ih => simp only [btTriples, List.length_cons, ih]; omega

/-- A triple in a memory that holds the table. -/
theorem read_btTriples {m : Memory} {a : Nat} {ns : List (Byte × Byte × Byte)}
    (hm : m.bytesFrom a (btTriples ns).length = btTriples ns) {i : Nat} {x : Byte × Byte × Byte} (hx : ns[i]? = some x) :
    m.read (a + 3 * i) = x.1 ∧ m.read (a + 3 * i + 1) = x.2.1 ∧ m.read (a + 3 * i + 2) = x.2.2 := by
  induction ns generalizing a i with
  | nil => cases hx
  | cons y ns ih =>
    obtain ⟨hj, hm⟩ := List.cons.inj hm
    obtain ⟨hl, hm⟩ := List.cons.inj hm
    obtain ⟨hr, hm⟩ := List.cons.inj hm
    cases i with
    | zero =>
      obtain rfl := Option.some.inj hx
      exact ⟨hj, hl, hr⟩
    | succ i =>
      have := ih hm hx
      rwa [show a + 1 + 1 + 1 + 3 * i = a + 3 * (i + 1) by omega] at this

section
variable {clue : Byte} {input : List Byte} {ns : List (Byte × Byte × Byte)} (h : Dictionary clue input ns)
include h

/-- The table of a dictionary loads. -/
theorem Dictionary.loads {b : State} (hb : b.ctx.bt.isNode = []) (hclue : b.ctx.bt.clue = clue) {more : List Byte}
    (hunread : Unread (btTriples ns ++ more) b) :
    ∃ t, loadTriples ns.length b = .cont t ∧ NothingPutOut b t ∧ Unread more t ∧ t.ctx.ulen = b.ctx.ulen ∧
      t.ctx.bt.clue = clue ∧ TreeLoaded ns t := by
  obtain ⟨hbytes, hroom, hmore⟩ := hunread.append
  have hread := fun {i x} => read_btTriples (i := i) (x := x) hbytes
  have hnode : ∀ i, (hi : i < ns.length) → nodeAt b i = ns[i].1 := fun i hi =>
    (hread (List.getElem?_eq_getElem hi)).1
  rw [length_btTriples] at hroom hmore
  obtain ⟨hclueNot, hnodup⟩ := List.nodup_cons.1 h.nodup
  have hgood : TriplesGood b ns.length := by
    refine ⟨hroom, fun i hi => ?_, fun i j hij hj => ?_⟩
    · rw [hnode i hi, hclue]
      exact (h.mem (List.getElem_mem hi)).1
    · rw [hnode i (hij.trans hj), hnode j hj]
      intro heq
      have hlen : (nodeNames ns).length = ns.length := List.length_map _
      have := (List.Nodup.getElem_inj_iff hnodup (hi := hlen ▸ hij.trans hj) (hj := hlen ▸ hj)).1
        (by simpa [nodeNames] using heq)
      omega
  obtain ⟨t, ht, hl⟩ := loadTriples_good hb 0 hgood
  refine ⟨t, ht, hl.begun, hmore.of_eq hl.begun.src hl.begun.srcLen hl.sp, hl.ulen, hl.clue.trans hclue,
    fun v => ?_, fun x hx => ?_⟩
  · rw [hl.isNode, nodeNames, List.mem_map]
    constructor
    · rintro ⟨i, hi, rfl⟩
      exact ⟨_, List.getElem_mem hi, (hnode i hi).symm⟩
    · rintro ⟨x, hx, rfl⟩
      obtain ⟨i, hi, rfl⟩ := List.getElem_of_mem hx
      exact ⟨i, hi, hnode i hi⟩
  · obtain ⟨i, hi, rfl⟩ := List.getElem_of_mem hx
    obtain ⟨-, hleft, hright⟩ := hread (List.getElem?_eq_getElem hi)
    rw [← hnode i hi]
    exact ⟨(hl.left i hi).trans hleft, (hl.right i hi).trans hright⟩

end

theorem length_btBody_le (clue : Byte) (bs : List Byte) : (btBody clue bs).length ≤ 2 * bs.length := by
  induction bs with
  | nil => exact Nat.le_refl 0
  | cons b bs ih =>
    unfold btBody
    split_ifs <;> simp only [List.length_cons] <;> omega

/-- What stands behind the header. -/
def btTail (e : BtEnc) : List Byte :=
  [e.clue, toByte e.nodes.length] ++ (btTriples e.nodes ++ (btBody e.clue e.buf ++ [e.clue, 0]))

theorem btOutput_eq (n : Nat) (e : BtEnc) : btOutput n e = plainHeader 0x46FB n ++ btTail e := by
  simp only [btOutput, btTail, plainHeader, List.append_assoc]
  rfl

theorem BtBuilt.length_lt {e : BtEnc} {input : List Byte} (he : BtBuilt input e) (hn : input.length < 2 ^ 24) :
    (btOutput input.length e).length < 2 ^ 32 := by
  have hbody := length_btBody_le e.clue e.buf
  have hbuf := he.length_buf
  have hnodes := he.dictionary.length_le
  rw [btOutput_eq, btTail]
  simp only [List.length_append, length_plainHeader, length_btTriples, List.length_cons, List.length_nil]
  have hwidth : lengthWidth 0x46FB = 3 := rfl
  omega

/-- A `DECODE` reads the clue, the count and the table behind the header. -/
theorem BtBuilt.begins {e : BtEnc} {input : List Byte} (he : BtBuilt input e) {u : State} {h : Header}
    (hh : u.header .bt = .ok h) (hunread : Unread (btTail e) (behindHeader h u)) :
    ∃ t, decodeOp .bt u = .cont t ∧ NothingPutOut u t ∧ Unread (btBody e.clue e.buf ++ [e.clue, 0]) t ∧
      t.ctx.ulen = h.ulen ∧ t.ctx.bt.clue = e.clue ∧ TreeLoaded e.nodes t := by
  obtain ⟨hhead, hroom, htriples⟩ := hunread.append
  obtain ⟨hclue, hcount⟩ := List.cons.inj hhead
  obtain ⟨hcount, -⟩ := List.cons.inj hcount
  have hcount : u.src.read (h.bodyAt + 1) = toByte e.nodes.length := hcount
  have hle := he.dictionary.length_le
  obtain ⟨t, ht, hnothing, hbody, hulen, hcl, htree⟩ := he.dictionary.loads (b := atTriples h u) rfl hclue
    (htriples.of_eq rfl rfl rfl)
  refine ⟨t, ?_, (nothingPutOut_atTriples h u).trans hnothing, hbody, hulen, hcl, htree⟩
  rw [decodeBtOp_triples hh hroom, hcount, toNat_toByte, Nat.mod_eq_of_lt (by omega), ht]

/-- Settles O58: the encoder's dictionary loads, and each item puts out its stretch of the input. -/
theorem binaryTreeRoundTrip : Obligations.BinaryTreeRoundTrip := by
  intro perPass threshold maxPasses input s _ hn hb hd hlegal hmax
  obtain ⟨e, he⟩ : ∃ e, e = (btEncode perPass threshold maxPasses input).1 := ⟨_, rfl⟩
  have hbuilt : BtBuilt input e := he ▸ btBuilt_encode perPass threshold maxPasses input
  have hout : (btEncode perPass threshold maxPasses input).2 = btOutput input.length e := he ▸ rfl
  have hlen := hbuilt.length_lt hn
  rw [hout]
  rw [btOutput_eq] at hlen ⊢
  have hunread := unread_behindHeader (s := s) (c := .bt) hlen
    (h := ⟨0x46FB, input.length, 2 + lengthWidth 0x46FB⟩) (length_plainHeader _ _).symm
  obtain ⟨t, ht, hbegun, hbody, hulen, hclue, htree⟩ :=
    hbuilt.begins (loaded_header (s := s) 4 (plainMagic_bt hn) hlen hmax) hunread
  obtain ⟨-, -, -, -, hdepth, -⟩ := hlegal
  have hrunning := (running_beginOp _ _).of_workingOn hbegun.workingOn
  obtain ⟨x, rfl, hdp, -⟩ := hbegun
  exact loaded_endedWith hb hd ht ⟨hrunning, hulen, hbody, ⟨hdp, rfl⟩, hclue, htree, hdepth⟩ hbuilt.stream

end Sys2Proof.Machine
end

section
/-! An encoder's stream begins with its header (30 R128), so that `IS_VALID` and `EXTRACT_SIZE` answer of it (40 R191). -/

namespace Sys2Proof.Machine

/-! ## Bytes put out stay put out -/

theorem out_prefix_drain (acc : Word) (f nacc : Nat) (out : List Byte) : out <+: (drain acc f nacc out).out := by
  induction f generalizing nacc out with
  | zero => exact List.prefix_rfl
  | succ f ih =>
    unfold drain
    split_ifs
    · exact (List.prefix_append _ _).trans (ih _ _)
    · exact List.prefix_rfl

theorem out_prefix_put (w : BitSink) (nb v : Nat) : w.out <+: (w.put nb v).out := out_prefix_drain _ _ _ _

theorem out_prefix_putNum (w : BitSink) (v : Nat) : w.out <+: (w.putNum v).out :=
  (out_prefix_put _ _ _).trans (out_prefix_put _ _ _)

theorem out_prefix_flush (w : BitSink) : w.out <+: w.flush.out := by
  unfold BitSink.flush
  split_ifs
  · exact out_prefix_put _ _ _
  · exact List.prefix_rfl

theorem out_prefix_putNums (vs : List Nat) (w : BitSink) : w.out <+: (putNums vs w).out := by
  induction vs generalizing w with
  | nil => exact List.prefix_rfl
  | cons v vs ih => exact (out_prefix_putNum w v).trans (ih _)

theorem out_prefix_hrPutTok (h : HrCtx) (w : BitSink) (t : HrTok) : w.out <+: (hrPutTok h w t).out := by
  cases t with
  | lit s => exact out_prefix_put _ _ _
  | run r => exact (out_prefix_put _ _ _).trans (out_prefix_putNum _ _)
  | esc b =>
    exact (((out_prefix_put _ _ _).trans (out_prefix_putNum _ _)).trans (out_prefix_put _ _ _)).trans
      (out_prefix_put _ _ _)

theorem out_prefix_hrPutToks (h : HrCtx) (ts : List HrTok) (w : BitSink) : w.out <+: (hrPutToks h ts w).out := by
  induction ts generalizing w with
  | nil => exact List.prefix_rfl
  | cons t ts ih => exact (out_prefix_hrPutTok h w t).trans (ih _)

theorem out_prefix_hrBody (h : HrCtx) (runMin : Nat) (w : BitSink) : w.out <+: (hrBody h runMin w).out := by
  have htable := (out_prefix_put w 8 h.tab.clue.toNat).trans (out_prefix_put _ 4 h.tab.maxlen)
  have hcounts := (htable.trans (out_prefix_putNums h.tab.bl _)).trans
    (out_prefix_putNums (leapSkips h.tab.syms [] 255).1 _)
  have htoks := hcounts.trans (out_prefix_hrPutToks h (hrTokens h.tab.clue runMin h.data.length h.data) _)
  exact (((htoks.trans (out_prefix_put _ _ _)).trans (out_prefix_putNum _ 0)).trans (out_prefix_put _ 1 1)).trans
    (out_prefix_flush _)

theorem out_prefix_rpEncStep (v : RpEnv) (r : RpRun) : r.out <+: (rpEncStep v r).out := by
  unfold rpEncStep
  dsimp only
  split_ifs
  · simp only [List.append_assoc]
    exact List.prefix_append _ _
  · exact List.prefix_rfl

theorem out_prefix_rpEncLoop (v : RpEnv) (f : Nat) (r : RpRun) : r.out <+: (rpEncLoop v f r).out := by
  induction f generalizing r with
  | zero => exact List.prefix_rfl
  | succ f ih =>
    unfold rpEncLoop
    split_ifs
    · exact (out_prefix_rpEncStep v r).trans (ih _)
    · exact List.prefix_rfl

theorem rpHeaderBytes_prefix (v : RpEnv) (e : RpEnc) : rpHeaderBytes v.n <+: (rpEncode v e).2 := by
  refine (out_prefix_rpEncLoop v v.n ⟨e, 0, rpHeaderBytes v.n⟩).trans ?_
  simp only [rpEncode, rpFinish, List.append_assoc]
  exact List.prefix_append _ _

theorem hrHeaderBytes_prefix (passes runMin : Nat) (pick : ChainsawPick) (input : List Byte) :
    hrHeaderBytes passes input.length <+: (hrEncode passes runMin pick input).2 := by
  unfold hrEncode
  generalize hrBuild passes runMin pick (deltaPasses passes input) = h
  exact out_prefix_hrBody h runMin ⟨0, 0, _⟩

theorem btHeader_prefix (perPass threshold maxPasses : Nat) (input : List Byte) :
    plainHeader 0x46FB input.length <+: (btEncode perPass threshold maxPasses input).2 :=
  ⟨_, (btOutput_eq _ _).symm⟩

/-! ## The header of a stream -/

/-- The stream of a headed engine begins with its header. -/
theorem exists_header {c : Codec} (hc : c ≠ .lz) {s : State} (he : encodable c s) :
    ∃ magic, PlainMagic c magic s.srcLen.toNat ∧ plainHeader magic s.srcLen.toNat <+: encoderOutput c s := by
  have hn : s.srcLen.toNat < 2 ^ 32 := s.srcLen.isLt
  have hlen : (s.src.bytesFrom 0 s.srcLen.toNat).length = s.srcLen.toNat := Memory.length_bytesFrom _ _ _
  obtain ⟨-, hbt, hhr⟩ := he
  cases c with
  | rp =>
    obtain ⟨magic, hmagic, hheader⟩ := rpHeaderBytes_plain hn
    exact ⟨magic, hmagic, hheader ▸ rpHeaderBytes_prefix (rpEnvOf (beginOp .rp 3 s)) _⟩
  | bt =>
    have hprefix := btHeader_prefix s.cfg.btPairsPerPass.toNat s.cfg.btThreshold.toNat s.cfg.btMaxPasses.toNat
      (s.src.bytesFrom 0 s.srcLen.toNat)
    rw [hlen] at hprefix
    exact ⟨0x46FB, plainMagic_bt (hbt rfl).1, hprefix⟩
  | hr =>
    have hpasses : s.cfg.hrDeltaPasses.toNat ≤ 2 := by
      have hne : s.cfg.hrDeltaPasses.toNat ≠ 3 := fun h => hhr rfl (BitVec.eq_of_toNat_eq h)
      have := s.cfg.hrDeltaPasses.isLt
      omega
    obtain ⟨magic, hmagic, hheader, -⟩ := hrHeaderBytes_plain hpasses hn
    have hprefix := hrHeaderBytes_prefix s.cfg.hrDeltaPasses.toNat s.params.hrRunMin s.params.hrChainsawPick
      (s.src.bytesFrom 0 s.srcLen.toNat)
    rw [hlen, hheader] at hprefix
    exact ⟨magic, hmagic, hprefix⟩
  | lz => exact absurd rfl hc

theorem magicValid_plain {c : Codec} {m : Memory} {magic n : Nat} {body : List Byte} (h : PlainMagic c magic n)
    (hm : m.bytesFrom 0 (plainHeader magic n ++ body).length = plainHeader magic n ++ body) :
    magicValid c m (plainHeader magic n ++ body).length = true := by
  obtain ⟨hhead, -⟩ := (bytesFrom_append_iff _ _ _ _).1 hm
  obtain ⟨hmagic, -⟩ := (bytesFrom_append_iff _ _ _ _).1 hhead
  rw [length_putBe] at hmagic
  rw [magicValid, beVal_putBe hmagic, show magic % 256 ^ 2 = magic from Nat.mod_eq_of_lt h.lt,
    decide_eq_true h.mem, Bool.and_true, decide_eq_true_eq, List.length_append, length_plainHeader]
  omega

/-- Settles O56: the stream begins with a header of the input's length. -/
theorem encodedStreamsAreValid : Obligations.EncodedStreamsAreValid := by
  intro c s hc he hmax hlen u hu hparams
  obtain ⟨magic, hmagic, body, hout⟩ := exists_header hc he
  rw [← hout] at hlen ⊢
  constructor
  · refine ⟨_, exec_isValid hc hu, rfl, ?_⟩
    rw [loaded_srcLen u c 1 hlen, magicValid_plain hmagic (loaded_stream u c 1 _)]
    rfl
  · refine ⟨_, exec_extractSize hc hu, ?_, ?_⟩
    all_goals rw [extractSizeOp_of_ok (loaded_header 2 hmagic hlen (hparams ▸ hmax))]
    · rfl
    · exact BitVec.ofNat_toNat ..

end Sys2Proof.Machine
end

section
/-! Bit streams written and read back: what the bit writer has written (41 R213, R216), and the bits a running `DECODE` has
before it (41 R217). -/

namespace Sys2Proof.Machine

/-! ## The writer -/

/-- The writer stands between two writings, with `bs` written. -/
def Wrote (bs : List Bool) (w : BitSink) : Prop := w.nacc ≤ 7 ∧ w.acc.toNat < 2 ^ w.nacc ∧ w.bits = bs

theorem wrote_start (out : List Byte) : Wrote (bytesBits out) ⟨0, 0, out⟩ :=
  ⟨Nat.zero_le 7, Nat.one_pos, List.append_nil _⟩

section
variable {bs : List Bool} {w : BitSink} (h : Wrote bs w)
include h

theorem Wrote.put {nb v : Nat} (hnb : nb ≤ 16) (hv : v < 2 ^ nb) : Wrote (bs ++ natBits nb v) (w.put nb v) := by
  obtain ⟨hnacc, hacc, rfl⟩ := h
  obtain ⟨hbits, hheld⟩ := bitWriterAppendsBits w nb v hnb hv hnacc hacc
  exact ⟨hheld.1, hheld.2, hbits⟩

/-- The flush fills the last byte (41 R216). -/
theorem Wrote.flush : ∃ pad, bytesBits w.flush.out = bs ++ pad := by
  unfold BitSink.flush
  split_ifs with hpos
  · obtain ⟨hle, -, hput⟩ := h.put (nb := 8 - w.nacc) (v := 0) (by omega) (Nat.two_pow_pos _)
    obtain ⟨hnacc, -, hbits⟩ := h
    refine ⟨natBits (8 - w.nacc) 0, ?_⟩
    have hlen := congrArg List.length hput
    have hlen' := congrArg List.length hbits
    simp only [BitSink.bits, List.length_append, length_bytesBits, length_natBits] at hlen hlen'
    have hzero : (w.put (8 - w.nacc) 0).nacc = 0 := by omega
    rw [← hput, BitSink.bits, hzero]
    exact (List.append_nil _).symm
  · obtain ⟨-, -, hbits⟩ := h
    refine ⟨[], ?_⟩
    rw [← hbits, BitSink.bits, Nat.eq_zero_of_not_pos hpos, List.append_nil]
    exact (List.append_nil _).symm

/-- A number in the `NUM` code (30 R146). -/
theorem Wrote.putNum {v : Nat} (hv : v ≤ 65534) : Wrote (bs ++ numBits v) (w.putNum v) := by
  obtain ⟨z, u, hz, hu⟩ : ∃ z u, v + 1 = 2 ^ z + u ∧ u < 2 ^ z := exists_two_pow_add (Nat.succ_ne_zero v)
  have hlen : bitlen (v + 1) = z + 1 := by rw [hz, bitlen_two_pow_add hu]
  have hz15 : z ≤ 15 := by
    by_contra hlt
    have : 2 ^ 16 ≤ 2 ^ z := Nat.pow_le_pow_right Nat.two_pos (by omega)
    omega
  have hzero : natBits (bitlen (v + 1) - 1) 0 = List.replicate (bitlen (v + 1) - 1) false := by
    generalize bitlen (v + 1) - 1 = k
    induction k with
    | zero => rfl
    | succ k ih => rw [natBits, ih, Nat.zero_testBit, List.replicate_succ]
  have hfirst := h.put (nb := bitlen (v + 1) - 1) (v := 0) (by omega) (Nat.two_pow_pos _)
  have hboth := hfirst.put (nb := bitlen (v + 1)) (v := v + 1) (by omega)
    (by rw [hlen, Nat.pow_succ, hz]; omega)
  rwa [hzero, List.append_assoc] at hboth

theorem Wrote.putNums {vs : List Nat} (hvs : ∀ v ∈ vs, v ≤ 65534) : Wrote (bs ++ numsBits vs) (putNums vs w) := by
  induction vs generalizing bs w with
  | nil => rwa [show numsBits [] = [] from rfl, List.append_nil]
  | cons v vs ih =>
    obtain ⟨hv, hvs⟩ := List.forall_mem_cons.1 hvs
    have hrest := ih (h.putNum hv) hvs
    rwa [List.append_assoc] at hrest

end

/-! ## The reader of a running DECODE -/

/-- The bits not consumed yet, at a place between two readings. -/
def Ahead (bs : List Bool) (s : State) : Prop := s.reader.Held ∧ s.reader.bits = bs

section
variable {s : State} {more : List Bool}

theorem Ahead.of_eq {bs : List Bool} {t : State} (h : Ahead bs s) (hr : t.reader = s.reader) : Ahead bs t := by
  rwa [Ahead, hr]

theorem Ahead.setReader {w : List Bool} {r : BitSrc} (h : Ahead (w ++ more) s) (hf : s.reader.Follows r)
    (hr : r.bits = more) : Ahead more (s.setReader r) := by
  obtain ⟨hheld, hbits⟩ := h
  exact ⟨hf.2 hheld, (bits_reader_setReader hf.1 (hr.symm ▸ hbits)).trans hr⟩

/-- A word that stands there is read. -/
theorem Ahead.read {α : Type} {f : BitSrc → Rd α} {w : List Bool} {a : α} (h : Ahead (w ++ more) s) (hw : Reads f w a)
    (hf : (f s.reader).ReadsFrom s.reader) : ∃ r, f s.reader = .ok a r ∧ Ahead more (s.setReader r) := by
  obtain ⟨hheld, hbits⟩ := h
  obtain ⟨r, hr, -, hmore⟩ := hw.ok hheld hbits
  rw [hr] at hf
  exact ⟨r, hr, Ahead.setReader ⟨hheld, hbits⟩ hf hmore⟩

/-- The bits of a stream whose accumulator is empty. -/
theorem Unread.ahead {rest : List Byte} (h : Unread rest s) (hacc : s.ctx.acc = 0) (hnacc : s.ctx.nacc = 0) :
    Ahead (bytesBits rest) s := by
  obtain ⟨-, hrest⟩ := h
  unfold Ahead State.reader
  rw [hrest, hacc, hnacc]
  exact ⟨⟨Nat.zero_le 7, Nat.one_pos⟩, rfl⟩

end

end Sys2Proof.Machine
end

section
/-! The coder model of LightZhl (46 R440 to R446): under legal group widths every symbol has a code, and the encoder
writes it. -/

namespace Sys2Proof

/-! ## Codable tables -/

/-- A table under which every symbol has a code (46 R440, R442). -/
structure LzTab.Codable (t : LzTab) : Prop where
  order : t.order.Perm (List.range Config.lzNsym)
  widths : Machine.groupWidthsLegal t.nbits
  base_eq : t.base = lzBase t.nbits

namespace LzTab

variable {t : LzTab}

theorem Codable.valid (h : t.Codable) : t.Valid where
  length_order := h.order.length_eq.trans List.length_range
  nodup := h.order.nodup_iff.2 List.nodup_range
  order_lt _ hs := List.mem_range.1 (h.order.mem_iff.1 hs)
  length_nbits := h.widths.1
  nbits_le := h.widths.2.1
  base_eq := h.base_eq

/-- The last group ends where the widths do. -/
theorem getD_lzBaseFrom_last (b : Nat) {ws : List Nat} {g : Nat} (h : ws.length = g + 1) :
    (lzBaseFrom b ws).getD g 0 + 2 ^ ws.getD g 0 = b + (ws.map fun w => 2 ^ w).sum := by
  induction ws generalizing b g with
  | nil => cases h
  | cons w ws ih =>
    cases g with
    | zero =>
      obtain rfl := List.eq_nil_of_length_eq_zero (Nat.succ.inj h)
      rfl
    | succ g =>
      rw [List.map_cons, List.sum_cons, ← Nat.add_assoc]
      exact ih (b + 2 ^ w) (Nat.succ.inj h)

theorem lt_start_of_groupOf_lt {p n k : Nat} (hk : t.groupOf p n < k) (hn : k ≤ n) : p < t.start k := by
  induction n with
  | zero => omega
  | succ n ih =>
    unfold LzTab.groupOf at hk
    split_ifs at hk with hle
    · omega
    · rcases Nat.lt_or_ge n k with hlt | hge
      · obtain rfl : k = n + 1 := by omega
        exact Nat.lt_of_not_le hle
      · exact ih hk hge

/-- A position lies in its group. -/
theorem Codable.lt_group_end (h : t.Codable) {p : Nat} (hp : p < Config.lzNsym) :
    p < t.start (t.groupOf p 15) + 2 ^ t.width (t.groupOf p 15) := by
  rcases Nat.lt_or_ge (t.groupOf p 15) 15 with hlt | hge
  · rw [← h.valid.start_succ hlt]
    exact lt_start_of_groupOf_lt (Nat.lt_succ_self _) hlt
  · obtain ⟨hlen, -, hsum⟩ := h.widths
    have hlast := getD_lzBaseFrom_last 0 (g := 15) hlen
    rw [show t.groupOf p 15 = 15 from (t.groupOf_le p 15).antisymm hge, LzTab.start, LzTab.width, h.base_eq, lzBase, hlast]
    omega

/-- The code of a symbol: its group and its place there. -/
theorem Codable.codeOf_eq (h : t.Codable) {s : Nat} (hs : s < Config.lzNsym) :
    t.codeOf s = some (t.groupOf (t.order.idxOf s) 15,
      t.order.idxOf s - t.start (t.groupOf (t.order.idxOf s) 15)) := by
  have hp : t.order.idxOf s < t.order.length := List.idxOf_lt_length_of_mem (h.order.mem_iff.2 (List.mem_range.2 hs))
  have hend := h.lt_group_end (h.valid.length_order ▸ hp)
  have hstart := h.valid.start_groupOf_le (t.order.idxOf s) 15
  exact if_pos ⟨hp, by omega⟩

end LzTab

namespace Machine

theorem lzSort_perm (stat : Sparse Nat) : (lzSort stat).Perm (List.range Config.lzNsym) := by
  refine ((List.perm_insertionSort _ _).map _).trans ?_
  rw [List.map_map, show (Prod.snd ∘ fun s => (stat.getD 0 s, s)) = id from rfl, List.map_id]
  exact List.reverse_perm _

theorem lzInitOrder_perm : lzInitOrder.Perm (List.range Config.lzNsym) := by
  have hrev : lzInitOrder = (List.range Config.lzNsym).reverse := by
    refine List.ext_getElem? fun p => ?_
    rcases Nat.lt_or_ge p 274 with hp | hp
    · rw [getElem?_lzInitOrder hp, List.getElem?_reverse (by rwa [List.length_range]), List.length_range,
        List.getElem?_range (show 274 - 1 - p < 274 by omega)]
    · rw [List.getElem?_eq_none (by simpa [lzInitOrder] using hp), List.getElem?_eq_none (by simpa using hp)]
  rw [hrev]
  exact List.reverse_perm _

/-- The tables behind a rebuild, or at the start of a call. -/
theorem codable_of_groups {v : LzEnv} (hv : ∀ stat order, groupWidthsLegal (v.groups stat order)) {order : List Nat}
    (horder : order.Perm (List.range Config.lzNsym)) (stat : Sparse Nat) :
    LzTab.Codable ⟨order, v.groups stat order, lzBase (v.groups stat order)⟩ := ⟨horder, hv _ _, rfl⟩

/-! ## Codes and fields written -/

section
variable {bs : List Bool}

/-- `put_code(s)` writes the code of `s`. -/
theorem wrote_lzPutCode {r : LzRun} (hr : r.c.tab.Codable) (h : Wrote bs r.w) {s : Nat} (hs : s < Config.lzNsym) :
    Wrote (bs ++ lzCodeBits r.c.tab s) (lzPutCode s r).w := by
  have hcode := hr.codeOf_eq hs
  obtain ⟨hg, hi, -, -⟩ := hr.valid.codeOf_eq_some hcode
  have hw : r.c.tab.width (r.c.tab.groupOf (r.c.tab.order.idxOf s) 15) ≤ 12 := hr.valid.width_le _
  rw [lzCodeBits, hcode, ← List.append_assoc]
  exact (h.put (nb := 4) (by decide) hg).put (by omega) hi

theorem wrote_putWidths {ws : List Nat} (hws : ∀ w ∈ ws, w ≤ Config.lzMaxWidth) {w : BitSink} (h : Wrote bs w) :
    Wrote (bs ++ widthsBits ws) (putWidths ws w) := by
  induction ws generalizing bs w with
  | nil => rwa [widthsBits, List.append_nil]
  | cons v vs ih =>
    obtain ⟨hv, hvs⟩ := List.forall_mem_cons.1 hws
    have hfirst := h.put (nb := 4) (v := v) (by decide) (show v < 16 from Nat.lt_of_le_of_lt hv (by decide))
    have hrest := ih hvs hfirst
    rwa [List.append_assoc] at hrest

/-- The displacement field (46 R451). -/
theorem wrote_disp {bufBits D : Nat} (hb : 8 ≤ bufBits) (hb' : bufBits ≤ 16) (hD : D < 2 ^ bufBits) {w : BitSink}
    (h : Wrote bs w) :
    Wrote (bs ++ dispBits bufBits D) ((w.put 3 (lzDispClass bufBits D)).put (lzDnb (lzDispClass bufBits D) + (bufBits - 7))
      (D - lzDbase (lzDispClass bufBits D) * 2 ^ (bufBits - 7))) := by
  obtain ⟨hp, -, hlt⟩ := lzDispClass_spec hb hD
  have hnb : lzDnb (lzDispClass bufBits D) + (bufBits - 7) ≤ 16 := by unfold lzDnb; omega
  have hboth := (h.put (nb := 3) (by decide) hp).put hnb hlt
  rwa [List.append_assoc] at hboth

end

end Machine

end Sys2Proof
end

section
/-! The LightZhl round trip (46 R462): encoder and decoder count the same symbols and rebuild the same tables, and every
match the encoder finds copies the bytes it stands for. -/

namespace Sys2Proof.Machine

/-! ## The decoder -/

/-- A LightZhl `DECODE` that has put out the first `k` bytes of the encoder's input, under the coder model of `c`, with the
bits `more` before it. -/
structure LzBody (v : LzEnv) (k : Nat) (c : LzCtx) (more : List Bool) (s : State) : Prop where
  running : Running .lz s
  bufBits : s.params.lzBufBits = v.bufBits
  room : v.n ≤ s.outLimit.toNat
  ahead : Ahead more s
  output : Output (bytesAt v.src 0 k) s
  mirrored : Mirrored s
  stat : s.ctx.lz.stat = c.stat
  tab : s.ctx.lz.tab = c.tab

/-- A context whose symbol `sym` is counted. -/
def lzNoted (sym : Nat) (c : LzCtx) : LzCtx := { c with stat := lzCount c.stat sym }

section
variable {v : LzEnv} {k : Nat} {c : LzCtx} {more : List Bool} {s : State}

theorem LzBody.of_coder (h : LzBody v k c more s) {c' : LzCtx} (hstat : c'.stat = c.stat) (htab : c'.tab = c.tab) :
    LzBody v k c' more s :=
  ⟨h.running, h.bufBits, h.room, h.ahead, h.output, h.mirrored, h.stat.trans hstat.symm, h.tab.trans htab.symm⟩

/-- A symbol with its fields is fetched and counted. -/
theorem LzBody.symbol {sym : Nat} {w : List Bool} {i : Instr} (hc : c.tab.Codable) (hs : sym < Config.lzNsym)
    (hw : Reads (lzFields v.bufBits sym) w i) (h : LzBody v k c (lzCodeBits c.tab sym ++ (w ++ more)) s) :
    ∃ u, step s = exec i u ∧ LzBody v k (lzNoted sym c) more u := by
  obtain ⟨hheld, hbits⟩ := h.ahead
  obtain ⟨q, hq, hqheld, hqbits⟩ := (hc.valid.reads_getCode (hc.codeOf_eq hs)).ok hheld hbits
  obtain ⟨r, hr, -, hrbits⟩ := hw.ok hqheld hqbits
  rw [← h.tab] at hq
  rw [← h.bufBits] at hr
  have hcode := getCode_readsFrom s.ctx.lz.tab s.reader
  have hfields := lzFields_readsFrom s.params.lzBufBits sym q
  rw [hq] at hcode
  rw [hr] at hfields
  have hmore : Ahead more (s.setReader r) := by
    rw [← List.append_assoc] at hbits
    exact Ahead.setReader ⟨hheld, hbits⟩ (hcode.trans hfields) hrbits
  exact ⟨_, step_lz h.running.start h.running.decoding hq hr, h.running.of_workingOn ⟨_, _, _, rfl⟩, h.bufBits, h.room,
    hmore.of_eq rfl, h.output, h.mirrored, congrArg (lzCount · sym) h.stat, h.tab⟩

/-- The next byte is put out. -/
theorem LzBody.emit (h : LzBody v k c more s) (hk : k < v.n) :
    ∃ t, lzEmit (v.src k) s = .cont t ∧ LzBody v (k + 1) c more t := by
  have hdp : s.ctx.dp = k := h.output.read_bytesAt.1
  have hroom := h.room
  have hout : Output (bytesAt v.src 0 (k + 1)) (lzEmitRaw (v.src k) s) := by
    have := h.output.emitted [v.src k]
    rw [bytesAt_add, Nat.zero_add]
    exact this
  exact ⟨_, lzEmit_of_lt (by omega), h.running.of_workingOn ⟨_, _, _, rfl⟩, h.bufBits, h.room, h.ahead.of_eq rfl, hout,
    h.mirrored.lzEmitRaw _, h.stat, h.tab⟩

/-- A copy through the circular buffer repeats the output (46 R436, R437). -/
theorem LzBody.copy {L D : Nat} (h : LzBody v k c more s) (hr : Repeats v.src k L D) (hD : D < 2 ^ v.bufBits)
    (hn : k + L ≤ v.n) : ∃ t, lzCopy D L s = .cont t ∧ LzBody v (k + L) c more t := by
  induction L generalizing k s with
  | zero => exact ⟨s, rfl, h⟩
  | succ L ih =>
    obtain ⟨hdp, hread⟩ := h.output.read_bytesAt
    obtain ⟨hwp, hbuf⟩ := h.mirrored
    have hpos := hr.pos
    have hle := hr.le
    have hsize : s.params.lzSize = 2 ^ v.bufBits := by rw [Params.lzSize, h.bufBits]
    have hbyte : s.ctx.lz.cbuf.read ((s.ctx.lz.wp - D) % s.params.lzSize) = v.src k := by
      rw [hbuf D hpos (by omega) (by omega), hdp, hread _ (by omega), hr.first]
    obtain ⟨t, ht, hbody⟩ := h.emit (by omega)
    obtain ⟨u, hu, hbody'⟩ := ih hbody hr.tail (by omega)
    refine ⟨u, ?_, by rwa [Nat.add_right_comm] at hbody'⟩
    rw [lzCopy, hbyte, ht, andThen_cont, hu]

theorem LzBody.lit (h : LzBody v k c more s) (hk : k < v.n) :
    ∃ t, exec (.lzLit (v.src k)) s = .next t ∧ LzBody v (k + 1) c more t := by
  obtain ⟨t, ht, hbody⟩ := h.emit hk
  refine ⟨t, ?_, hbody⟩
  show execLzLit (v.src k) s = _
  rw [execLzLit, streamOp_decoding _ h.running.decoding, ht, outcome_cont]

theorem LzBody.match {L D : Nat} (h : LzBody v k c more s) (hr : Repeats v.src k L D) (hD : D < 2 ^ v.bufBits)
    (hn : k + L ≤ v.n) :
    ∃ t, streamOp .lz s (lzMatch L D) = .next t ∧ LzBody v (k + L) c more t := by
  obtain ⟨t, ht, hbody⟩ := h.copy hr hD hn
  have hwp : s.ctx.lz.wp = k := h.mirrored.1.trans h.output.read_bytesAt.1
  have hpos := hr.pos
  have hle := hr.le
  refine ⟨t, ?_, hbody⟩
  rw [streamOp_decoding _ h.running.decoding, lzMatch, if_neg (by omega), ht, outcome_cont]

end

/-! ## What the encoder has sent -/

/-- The context behind the first table. -/
def lzFirst (v : LzEnv) : LzCtx := (lzPutTable v ⟨(Ctx.fresh v.n).lz, ⟨0, 0, []⟩⟩).c

/-- The first table's bits. -/
def lzFirstBits (v : LzEnv) : List Bool := widthsBits (v.groups [] lzInitOrder)

/-- The bits written decode to the first `k` bytes of the input, and leave the decoder with the encoder's coder model. -/
structure LzSent (v : LzEnv) (k : Nat) (r : LzRun) : Prop where
  codable : r.c.tab.Codable
  bits : ∃ bs, Wrote (lzFirstBits v ++ bs) r.w ∧ ∀ more, Leads (LzBody v 0 (lzFirst v) (bs ++ more)) (LzBody v k r.c more)

/-- `RECALC` with the tables behind it (46 R446). -/
def lzRecalced (v : LzEnv) (r : LzRun) : LzRun :=
  lzPutTable v ⟨lzRebuild (lzPutCode Config.lzRecalcSym r).c, (lzPutCode Config.lzRecalcSym r).w⟩

/-- What `put_symbol` does before the symbol's code (46 R446). -/
def lzRenewed (v : LzEnv) (r : LzRun) : LzRun :=
  if r.c.nsym = Config.lzRecalcLen then ⟨{ (lzRecalced v r).c with nsym := 0 }, (lzRecalced v r).w⟩ else r

theorem lzPutSymbol_eq (v : LzEnv) (s : Nat) (r : LzRun) :
    lzPutSymbol v s r =
      ⟨{ (lzPutCode s (lzRenewed v r)).c with nsym := (lzPutCode s (lzRenewed v r)).c.nsym + 1 },
        (lzPutCode s (lzRenewed v r)).w⟩ := rfl

section
variable {v : LzEnv} {k k' : Nat} {r r' : LzRun}

theorem LzSent.of_coder (h : LzSent v k r) (hstat : r'.c.stat = r.c.stat) (htab : r'.c.tab = r.c.tab) (hw : r'.w = r.w) :
    LzSent v k r' := by
  obtain ⟨hcodable, bs, hwrote, hleads⟩ := h
  refine ⟨htab ▸ hcodable, bs, hw ▸ hwrote, fun more s hs => ?_⟩
  obtain ⟨j, t, ht, hbody⟩ := hleads more s hs
  exact ⟨j, t, ht, hbody.of_coder hstat htab⟩

/-- A symbol with its fields, and what its instruction does. -/
theorem LzSent.symbol (h : LzSent v k r) {sym : Nat} {w : List Bool} {i : Instr} (hs : sym < Config.lzNsym)
    (hf : Reads (lzFields v.bufBits sym) w i) (hw : ∀ bs, Wrote bs (lzPutCode sym r).w → Wrote (bs ++ w) r'.w)
    (hc : r'.c.tab.Codable)
    (hexec : ∀ more u, LzBody v k (lzNoted sym r.c) more u → ∃ t, exec i u = .next t ∧ LzBody v k' r'.c more t) :
    LzSent v k' r' := by
  obtain ⟨hcodable, bs, hwrote, hleads⟩ := h
  refine ⟨hc, bs ++ (lzCodeBits r.c.tab sym ++ w), ?_, fun more => ?_⟩
  · rw [← List.append_assoc, ← List.append_assoc]
    exact hw _ (wrote_lzPutCode hcodable hwrote hs)
  · rw [List.append_assoc, List.append_assoc]
    refine (hleads _).trans (Leads.of_step fun s hs' => ?_)
    obtain ⟨u, hu, hbody⟩ := hs'.symbol hcodable hs hf
    obtain ⟨t, ht, hbody'⟩ := hexec more u hbody
    exact ⟨t, hu.trans ht, hbody'⟩

variable (hv : ∀ stat order, groupWidthsLegal (v.groups stat order))
include hv

omit hv in
theorem lzPutCode_stat (s : Nat) (r : LzRun) : (lzPutCode s r).c.stat = lzCount r.c.stat s := rfl

omit hv in
theorem lzNoted_stat (s : Nat) (c : LzCtx) : (lzNoted s c).stat = lzCount c.stat s := rfl

omit hv in
theorem lzRebuild_tab (c : LzCtx) : (lzRebuild c).tab = ⟨lzSort (lzAge c.stat), c.tab.nbits, c.tab.base⟩ := by
  simp only [lzRebuild]

/-- The rebuild on both sides (46 R438, R446). -/
theorem LzSent.recalced (h : LzSent v k r) : LzSent v k (lzRecalced v r) := by
  obtain ⟨c, hc⟩ : ∃ c, c = lzRebuild (lzPutCode Config.lzRecalcSym r).c := ⟨_, rfl⟩
  have hstat : c.stat = lzAge (lzCount r.c.stat Config.lzRecalcSym) := hc ▸ rfl
  have horder : c.tab.order = lzSort (lzAge (lzCount r.c.stat Config.lzRecalcSym)) := by
    rw [hc, lzRebuild_tab, lzPutCode_stat]
  have hperm : c.tab.order.Perm (List.range Config.lzNsym) := horder ▸ lzSort_perm _
  obtain ⟨hlen, hle, -⟩ := hv c.stat c.tab.order
  have hcodable := codable_of_groups hv hperm c.stat
  have hrun : lzRecalced v r = lzPutTable v ⟨c, (lzPutCode Config.lzRecalcSym r).w⟩ := hc ▸ rfl
  rw [hrun]
  refine h.symbol (by norm_num) (reads_lzFields_recalc v.bufBits hlen hle)
    (fun bs hbs => wrote_putWidths hle hbs) hcodable fun more u hu => ?_
  refine ⟨setLzWidths (v.groups c.stat c.tab.order) (lzRecalcOrder u), ?_, hu.running.of_workingOn ⟨_, _, _, rfl⟩,
    hu.bufBits, hu.room, hu.ahead.of_eq rfl, hu.output, hu.mirrored, ?_, ?_⟩
  · show execLzRecalc _ u = _
    rw [execLzRecalc, streamOp_decoding _ hu.running.decoding, outcome_cont]
  · show lzAge u.ctx.lz.stat = c.stat
    rw [hu.stat, hstat]
    rfl
  · simp only [setLzWidths_ctx_lz, lzRecalcOrder_ctx_lz, hu.stat, lzNoted_stat, ← horder]
    rfl

theorem LzSent.renewed (h : LzSent v k r) : LzSent v k (lzRenewed v r) := by
  unfold lzRenewed
  split_ifs
  · exact (h.recalced hv).of_coder rfl rfl rfl
  · exact h

/-- A symbol through `put_symbol`; `w` are the field bits behind it. -/
theorem LzSent.putSymbol (h : LzSent v k r) {sym : Nat} {w : List Bool} {i : Instr} (hs : sym < Config.lzNsym)
    (hf : Reads (lzFields v.bufBits sym) w i) (hw : ∀ bs, Wrote bs (lzPutSymbol v sym r).w → Wrote (bs ++ w) r'.w)
    (hr : r'.c = (lzPutSymbol v sym r).c)
    (hexec : ∀ c more u, LzBody v k c more u → ∃ t, exec i u = .next t ∧ LzBody v k' c more t) : LzSent v k' r' := by
  have hrenewed := h.renewed hv
  refine hrenewed.symbol hs hf hw (hr ▸ hrenewed.codable) fun more u hu => ?_
  obtain ⟨t, ht, hbody⟩ := hexec _ more u hu
  exact ⟨t, ht, hr ▸ hbody.of_coder rfl rfl⟩

theorem LzSent.putLit (h : LzSent v k r) (hk : k < v.n) : LzSent v (k + 1) (lzPutSymbol v (v.src k).toNat r) :=
  h.putSymbol hv ((v.src k).isLt.trans (by decide)) (reads_lzFields_lit _ _)
    (fun bs hbs => (List.append_nil bs).symm ▸ hbs) rfl fun _ _ _ hu => hu.lit hk

theorem LzSent.putLits (h : LzSent v k r) {m : Nat} (hk : k + m ≤ v.n) :
    LzSent v (k + m) (lzPutLits v (bytesAt v.src k m) r) := by
  induction m generalizing k r with
  | zero => exact h
  | succ m ih =>
    have hrest := ih (h.putLit hv (by omega)) (by omega)
    rwa [Nat.add_right_comm] at hrest

variable (hb : 8 ≤ v.bufBits ∧ v.bufBits ≤ 16)
include hb

/-- A match the matcher may commit to (46 R450, R455). -/
structure LzFound (v : LzEnv) (p : Nat) (m : Nat × Nat) : Prop where
  repeats : Repeats v.src p m.1 m.2
  len_ge : 4 ≤ m.1
  len_le : m.1 ≤ 521
  dist_lt : m.2 < 2 ^ v.bufBits
  inside : p + m.1 ≤ v.n

theorem LzSent.putMatch (h : LzSent v k r) {L D : Nat} (hm : LzFound v k (L, D)) :
    LzSent v (k + L) (lzPutMatch v L D r) := by
  obtain ⟨hrep, h4, h521, hD, hn⟩ := hm
  obtain ⟨hb8, hb16⟩ := hb
  unfold lzPutMatch
  dsimp only at *
  rw [show Config.lzMin = 4 from rfl]
  split_ifs with hshort
  · exact h.putSymbol hv (show 256 + (L - 4) < 274 by omega) (reads_lzFields_matchS hb8 hb16 ⟨h4, by omega⟩ hD)
      (fun bs hbs => wrote_disp hb8 hb16 hD hbs) rfl fun _ _ _ hu => hu.match hrep hD hn
  · obtain ⟨hk1, hk8, hle, hlt⟩ := lzExtraClass_spec (e := L - 4) (n := 8) (by rw [lzXBase]; omega)
      (by rw [lzXBase]; omega)
    rw [lzXBase_succ] at hlt
    refine h.putSymbol hv (show 263 + lzExtraClass (L - 4) 8 < 274 by omega) (reads_lzFields_matchX hb8 hb16 ⟨by omega, h521⟩ hD) (fun bs hbs => ?_) rfl
      fun _ _ _ hu => hu.match hrep hD hn
    rw [← List.append_assoc]
    exact wrote_disp hb8 hb16 hD (hbs.put (by omega) (by omega))

end

end Sys2Proof.Machine
end

section
/-! The LightZhl matcher (46 R454 to R458): what it commits to repeats earlier bytes of the input. -/

namespace Sys2Proof.Machine

/-! ## Insertions -/

/-- The chains hold positions below `b`. -/
def ChainsBelow (b : Nat) (c : LzCtx) : Prop := Below b c.lzhead ∧ Below b c.lzlink

/-- Only the chains differ. -/
def SameButChains (c c' : LzCtx) : Prop :=
  c'.stat = c.stat ∧ c'.tab = c.tab ∧ c'.pos = c.pos ∧ c'.nraw = c.nraw

theorem lzInsert_same (v : LzEnv) (p : Nat) (c : LzCtx) : SameButChains c (lzInsert v p c) := by
  unfold lzInsert
  split_ifs <;> exact ⟨rfl, rfl, rfl, rfl⟩

theorem lzInsertRange_same (v : LzEnv) (k p : Nat) (c : LzCtx) : SameButChains c (lzInsertRange v k p c) := by
  induction k generalizing p c with
  | zero => exact ⟨rfl, rfl, rfl, rfl⟩
  | succ k ih =>
    obtain ⟨hstat, htab, hpos, hnraw⟩ := lzInsert_same v p c
    obtain ⟨hstat', htab', hpos', hnraw'⟩ := ih (p + 1) (lzInsert v p c)
    exact ⟨hstat'.trans hstat, htab'.trans htab, hpos'.trans hpos, hnraw'.trans hnraw⟩

theorem ChainsBelow.insert {v : LzEnv} {p b : Nat} {c : LzCtx} (h : ChainsBelow b c) (hp : p < b) :
    ChainsBelow b (lzInsert v p c) := by
  obtain ⟨hhead, hlink⟩ := h
  unfold lzInsert
  split_ifs
  · exact ⟨hhead.put _ fun q hq => Option.some.inj hq ▸ hp, hlink.put _ fun q => hhead _ q⟩
  · exact ⟨hhead, hlink⟩

theorem ChainsBelow.insertRange {v : LzEnv} {k p b : Nat} {c : LzCtx} (h : ChainsBelow b c) (hp : p + k ≤ b) :
    ChainsBelow b (lzInsertRange v k p c) := by
  induction k generalizing p c with
  | zero => exact h
  | succ k ih => exact ih (h.insert (by omega)) (by omega)

theorem ChainsBelow.mono {b b' : Nat} {c : LzCtx} (h : ChainsBelow b c) (hb : b ≤ b') : ChainsBelow b' c :=
  ⟨h.1.mono hb, h.2.mono hb⟩

/-! ## The search -/

section
variable {v : LzEnv} {p : Nat}

theorem lzConsider_found {q : Nat} (hq : q < p) (hp : p ≤ v.n) (hD : p - q < 2 ^ v.bufBits) {best : Option (Nat × Nat)}
    (hbest : ∀ m, best = some m → LzFound v p m) {m : Nat × Nat}
    (hm : lzConsider v p (min Config.lzMaxMatch (v.n - p)) q best = some m) : LzFound v p m := by
  have hle := matchLen_le v.src (min Config.lzMaxMatch (v.n - p)) q p
  unfold lzConsider at hm
  dsimp only at hm
  split_ifs at hm with hbetter
  · cases hm
    exact ⟨repeats_matchLen _ hq, hbetter.1, hle.trans (min_le_left _ _), hD,
      show p + matchLen _ _ _ _ ≤ v.n by have := min_le_right Config.lzMaxMatch (v.n - p); omega⟩
  · exact hbest m hm

theorem lzWalk_found {link : Sparse Nat} (hlink : Below p link) (hp : p ≤ v.n) {f seen : Nat} {o : Option Nat}
    (ho : ∀ q, o = some q → q < p) {best : Option (Nat × Nat)} (hbest : ∀ m, best = some m → LzFound v p m)
    {m : Nat × Nat} (hm : lzWalk v link p (min Config.lzMaxMatch (v.n - p)) f seen o best = some m) : LzFound v p m := by
  induction f generalizing seen o best with
  | zero => cases o <;> exact hbest m hm
  | succ f ih =>
    cases o with
    | none => exact hbest m hm
    | some q =>
      unfold lzWalk at hm
      split_ifs at hm with hnear
      · exact ih (hlink _) (fun m hm => lzConsider_found (ho q rfl) hp hnear.1 hbest hm) hm
      · exact hbest m hm

theorem lzFind_found {c : LzCtx} (hc : ChainsBelow p c) {m : Nat × Nat} (hm : lzFind v c p = some m) : LzFound v p m := by
  obtain ⟨hhead, hlink⟩ := hc
  unfold lzFind at hm
  split_ifs at hm with hn
  exact lzWalk_found hlink (by omega) (hhead _) (fun _ h => by cases h) hm

end

/-! ## The match committed to -/

/-- The backward step keeps the end of the match and the start of the literals. -/
theorem lzBackward_found {v : LzEnv} {D : Nat} {f start L nraw : Nat} (hm : LzFound v start (L, D)) (hn : nraw ≤ start) :
    let b := lzBackward v D f start L nraw
    LzFound v b.1 (b.2.1, D) ∧ b.1 + b.2.1 = start + L ∧ b.2.2 ≤ b.1 ∧ b.1 - b.2.2 = start - nraw := by
  induction f generalizing start L nraw with
  | zero => exact ⟨hm, rfl, hn, rfl⟩
  | succ f ih =>
    unfold lzBackward
    split_ifs with hback
    · obtain ⟨hpos, hL, hD, hsame⟩ := hback
      obtain ⟨⟨h1, h2, hrep⟩, h4, -, hlt, hinside⟩ := hm
      dsimp only at h1 h2 hrep h4 hinside
      have hL : L < 521 := hL
      have hfound : LzFound v (start - 1) (L + 1, D) := by
        refine ⟨⟨h1, by dsimp only; omega, fun i hi => ?_⟩, by dsimp only; omega, hL, hlt, by dsimp only; omega⟩
        cases i with
        | zero => rw [Nat.add_zero, Nat.add_zero]; exact hsame.symm
        | succ i =>
          have := hrep i (Nat.lt_of_succ_lt_succ hi)
          rwa [show start - 1 - D + (i + 1) = start - D + i by omega, show start - 1 + (i + 1) = start + i by omega]
      obtain ⟨hb, hend, hle, hstart⟩ := ih hfound (show nraw - 1 ≤ start - 1 by omega)
      exact ⟨hb, by omega, hle, by omega⟩
    · exact ⟨hm, rfl, hn, rfl⟩

/-- The lazy step may move on by one, with the byte it passes a literal (46 R456). -/
theorem lzLazy_found {v : LzEnv} {c : LzCtx} {m : Nat × Nat} (hc : ChainsBelow (c.pos + 1) c) (hm : LzFound v c.pos m)
    (hn : c.nraw ≤ c.pos) :
    let l := lzLazy v c m
    LzFound v l.1 l.2.2.1 ∧ c.pos ≤ l.1 ∧ l.2.1 ≤ l.1 ∧ l.1 - l.2.1 = c.pos - c.nraw ∧ l.2.2.2 = c.pos + 1 := by
  unfold lzLazy
  split
  next m2 hm2 =>
    split_ifs
    · exact ⟨lzFind_found hc hm2, Nat.le_succ _, Nat.succ_le_succ hn, by dsimp only; omega, rfl⟩
    · exact ⟨hm, le_rfl, hn, rfl, rfl⟩
  next => exact ⟨hm, le_rfl, hn, rfl, rfl⟩

/-! ## The writer leaves the chains -/

theorem lzPutSymbol_chains (v : LzEnv) (s : Nat) {r : LzRun} {b : Nat} (h : ChainsBelow b r.c) :
    ChainsBelow b (lzPutSymbol v s r).c := by
  rw [lzPutSymbol_eq]
  unfold lzRenewed
  split_ifs <;> exact h

theorem lzPutLits_chains (v : LzEnv) (bs : List Byte) {r : LzRun} {b : Nat} (h : ChainsBelow b r.c) :
    ChainsBelow b (lzPutLits v bs r).c := by
  induction bs generalizing r with
  | nil => exact h
  | cons x xs ih => exact ih (lzPutSymbol_chains v _ h)

theorem lzPutMatch_chains (v : LzEnv) (L D : Nat) {r : LzRun} {b : Nat} (h : ChainsBelow b r.c) :
    ChainsBelow b (lzPutMatch v L D r).c := by
  unfold lzPutMatch
  dsimp only
  split_ifs <;> exact lzPutSymbol_chains v _ h

/-! ## The loop -/

/-- An encode under way (46 R450): everything before the pending literals is sent. -/
structure LzEncoding (v : LzEnv) (r : LzRun) : Prop where
  chains : ChainsBelow r.c.pos r.c
  nraw_le : r.c.nraw ≤ r.c.pos
  pos_le : r.c.pos ≤ v.n
  sent : LzSent v (r.c.pos - r.c.nraw) r

section
variable {v : LzEnv} (hv : ∀ stat order, groupWidthsLegal (v.groups stat order)) (hb : 8 ≤ v.bufBits ∧ v.bufBits ≤ 16)
  {r : LzRun}
include hv hb

/-- The literals, the match, and the insertions behind it. -/
theorem LzEncoding.commit {start nraw first : Nat} {m : Nat × Nat} (hm : LzFound v start m) (hn : nraw ≤ start)
    (hfirst : first ≤ start + m.1) (hc : ChainsBelow (start + m.1) r.c) (hs : LzSent v (start - nraw) r) :
    let r' := lzPutMatch v m.1 m.2 (lzPutLits v (bytesAt v.src (start - nraw) nraw) r)
    LzEncoding v ⟨{ lzInsertRange v (start + m.1 - first) first r'.c with pos := start + m.1, nraw := 0 }, r'.w⟩ := by
  intro r'
  have hinside := hm.inside
  have hlits := hs.putLits hv (m := nraw) (by omega)
  rw [Nat.sub_add_cancel hn] at hlits
  have hsent : LzSent v (start + m.1) r' := hlits.putMatch hv hb hm
  have hchains : ChainsBelow (start + m.1) r'.c := lzPutMatch_chains v _ _ (lzPutLits_chains v _ hc)
  obtain ⟨hstat, htab, -, -⟩ := lzInsertRange_same v (start + m.1 - first) first r'.c
  exact ⟨hchains.insertRange (by omega), Nat.zero_le _, hinside, hsent.of_coder hstat htab rfl⟩

theorem LzEncoding.step (h : LzEncoding v r) (hn : r.c.pos < v.n) :
    LzEncoding v (lzEncStep v r) ∧ r.c.pos < (lzEncStep v r).c.pos := by
  have hnraw := h.nraw_le
  obtain ⟨c, hcdef⟩ : ∃ c, c = lzInsert v r.c.pos r.c := ⟨_, rfl⟩
  obtain ⟨hstat, htab, hpos, hcraw⟩ : SameButChains r.c c := hcdef ▸ lzInsert_same v _ _
  have hchains : ChainsBelow (r.c.pos + 1) c := hcdef ▸ (h.chains.mono (Nat.le_succ _)).insert (Nat.lt_succ_self _)
  have hsent : LzSent v (r.c.pos - r.c.nraw) ⟨c, r.w⟩ := h.sent.of_coder hstat htab rfl
  unfold lzEncStep
  split
  next =>
    rw [← hcdef]
    refine ⟨⟨?_, ?_, ?_, ?_⟩, ?_⟩
    · show ChainsBelow (c.pos + 1) _
      rw [hpos]
      exact hchains
    · show c.nraw + 1 ≤ c.pos + 1
      omega
    · show c.pos + 1 ≤ v.n
      omega
    · show LzSent v (c.pos + 1 - (c.nraw + 1)) _
      rw [Nat.add_sub_add_right, hpos, hcraw]
      exact hsent.of_coder rfl rfl rfl
    · show r.c.pos < c.pos + 1
      omega
  next m hm =>
    rw [← hcdef]
    dsimp only
    obtain ⟨hfound, hle, hlraw, hstart, hfirst⟩ := lzLazy_found (hpos.symm ▸ hchains)
      (hpos.symm ▸ lzFind_found h.chains hm) (by omega)
    generalize lzLazy v c m = l at *
    obtain ⟨pos, nraw, ⟨L, D⟩, first⟩ := l
    dsimp only at *
    obtain ⟨hback, hend, hbraw, hbstart⟩ := lzBackward_found (f := nraw) hfound hlraw
    generalize lzBackward v D nraw pos L nraw = b at *
    obtain ⟨start, L', nraw'⟩ := b
    dsimp only at *
    have h4 : 4 ≤ L := hfound.len_ge
    refine ⟨LzEncoding.commit hv hb (r := ⟨c, r.w⟩) hback hbraw (by dsimp only; omega)
      (hchains.mono (by dsimp only; omega)) ?_, by omega⟩
    rwa [hbstart, hstart, hpos, hcraw]

/-- The loop ends behind the last byte. -/
theorem LzEncoding.loop (h : LzEncoding v r) {f : Nat} (hf : v.n ≤ r.c.pos + f) :
    LzEncoding v (lzEncLoop v f r) ∧ (lzEncLoop v f r).c.pos = v.n := by
  induction f generalizing r with
  | zero => exact ⟨h, h.pos_le.antisymm hf⟩
  | succ f ih =>
    unfold lzEncLoop
    split_ifs with hn
    · obtain ⟨hstep, hlt⟩ := h.step hv hb hn
      exact ih hstep (by omega)
    · exact ⟨h, h.pos_le.antisymm (Nat.le_of_not_lt hn)⟩

omit hb in
theorem lzEncoding_start : LzEncoding v (lzPutTable v ⟨(Ctx.fresh v.n).lz, ⟨0, 0, []⟩⟩) := by
  obtain ⟨-, hle, -⟩ := hv [] lzInitOrder
  refine ⟨⟨below_nil _, below_nil _⟩, le_rfl, Nat.zero_le _, codable_of_groups hv lzInitOrder_perm [], [], ?_,
    fun more => .refl _⟩
  rw [List.append_nil]
  exact wrote_putWidths hle (wrote_start [])

omit hb in
/-- The last literals, the end symbol and the flush (46 R450). -/
theorem LzEncoding.ends (h : LzEncoding v r) (hpos : r.c.pos = v.n) :
    ∃ bs, bytesBits (lzPutSymbol v Config.lzEofSym (lzPutLits v (bytesAt v.src (v.n - r.c.nraw) r.c.nraw) r)).w.flush.out =
        lzFirstBits v ++ bs ∧ Leads (LzBody v 0 (lzFirst v) bs) (EndedWith (bytesAt v.src 0 v.n)) := by
  have hnraw := h.nraw_le
  have hlits := h.sent
  rw [hpos] at hnraw hlits
  have hall := (hlits.putLits hv (m := r.c.nraw) (by omega)).renewed hv
  rw [Nat.sub_add_cancel hnraw] at hall
  obtain ⟨hcodable, bs, hwrote, hleads⟩ := hall
  obtain ⟨pad, hpad⟩ := (wrote_lzPutCode hcodable hwrote (s := Config.lzEofSym) (by norm_num)).flush
  refine ⟨_, hpad.trans (by rw [List.append_assoc, List.append_assoc]), (hleads _).trans (Leads.of_step fun s hs => ?_)⟩
  obtain ⟨u, hu, hbody⟩ := hs.symbol (more := pad) hcodable (by norm_num) (reads_lzFields_eof v.bufBits)
  refine ⟨finish u, hu.trans ?_, hbody.output.endedWith hbody.running.clear⟩
  show execLzEof u = _
  rw [execLzEof, streamOp_decoding _ hbody.running.decoding, outcome_ended]

/-- What `LZ_ENCODE` writes: the first table's bits, then bits that decode to the input. -/
theorem lzEncode_decodes :
    ∃ bs, bytesBits (lzEncode v (Ctx.fresh v.n).lz).2 = lzFirstBits v ++ bs ∧
      Leads (LzBody v 0 (lzFirst v) bs) (EndedWith (bytesAt v.src 0 v.n)) := by
  obtain ⟨h, hpos⟩ := (lzEncoding_start hv).loop hv hb (Nat.le_add_left v.n _)
  exact h.ends hv hpos

end

/-- Settles O60: the first table is read, and encoder and decoder stay in step to the end symbol. -/
theorem lightZhlRoundTrip : Obligations.LightZhlRoundTrip := by
  intro v s hbits hv hb hd hlegal _ hroom out hlen
  obtain ⟨-, -, -, -, -, -, hb8, hb16⟩ := hlegal
  obtain ⟨bs, hbs, hrun⟩ := lzEncode_decodes hv (hbits ▸ ⟨hb8, hb16⟩)
  obtain ⟨hwlen, hwle, -⟩ := hv [] lzInitOrder
  have hahead := (unread_loaded (s := s) (c := .lz) hlen).ahead rfl rfl
  rw [show bytesBits out = _ from hbs] at hahead
  have hreads := reads_getWidths hwle
  rw [hwlen] at hreads
  obtain ⟨r, hr, hmore⟩ := hahead.read hreads (getWidths_readsFrom _ _)
  refine loaded_endedWith hb hd 
    (t := setLzWidths (v.groups [] lzInitOrder) ((beginOp .lz 4 (loaded s .lz 4 out)).setReader r)) ?_
    ⟨(running_beginOp _ _).of_workingOn ⟨_, _, _, rfl⟩, hbits.symm, hroom, hmore.of_eq rfl, ⟨rfl, rfl⟩, ?_, rfl, rfl⟩ hrun
  · show decodeLzOp _ = _
    rw [decodeLzOp, getLzTab, hr]
  · exact ⟨rfl, fun d h1 h2 _ => absurd (h1.trans (show d ≤ 0 from h2)) (by decide)⟩

end Sys2Proof.Machine
end

section
/-! Huffman code lengths (45 R370, R371): the merge gives the live symbols depths that fill the code space. -/

namespace Sys2Proof.Machine

/-! ## The merge -/

/-- The part of the code space that codes of the given depths take, out of `2^255`. -/
def share (depth : Sparse Nat) (ss : List Nat) : Nat := (ss.map fun s => 2 ^ (255 - depth.getD 0 s)).sum

theorem share_append (depth : Sparse Nat) (ss ts : List Nat) :
    share depth (ss ++ ts) = share depth ss + share depth ts := by
  rw [share, List.map_append, List.sum_append, share, share]

theorem share_perm (depth : Sparse Nat) {ss ts : List Nat} (h : ss.Perm ts) : share depth ss = share depth ts :=
  (h.map _).sum_eq

theorem share_congr {depth depth' : Sparse Nat} {ss : List Nat} (h : ∀ s ∈ ss, depth'.getD 0 s = depth.getD 0 s) :
    share depth' ss = share depth ss :=
  congrArg List.sum (List.map_congr_left fun s hs => by rw [h s hs])

/-- One step deeper, a code takes half the space. -/
theorem share_deeper {depth depth' : Sparse Nat} {ss : List Nat} (h : ∀ s ∈ ss, depth'.getD 0 s = depth.getD 0 s + 1)
    (hle : ∀ s ∈ ss, depth.getD 0 s ≤ 254) : 2 * share depth' ss = share depth ss := by
  induction ss with
  | nil => rfl
  | cons s ss ih =>
    obtain ⟨hs, hss⟩ := List.forall_mem_cons.1 h
    obtain ⟨hle, hles⟩ := List.forall_mem_cons.1 hle
    have hrest := ih hss hles
    simp only [share, List.map_cons, List.sum_cons] at hrest ⊢
    rw [hs, Nat.mul_add, hrest, ← Nat.pow_succ', show (255 - (depth.getD 0 s + 1)).succ = 255 - depth.getD 0 s by omega]

theorem getD_deepen (depth : Sparse Nat) (ss : List Nat) (s : Nat) :
    (deepen depth ss).getD 0 s = depth.getD 0 s + ss.count s := by
  induction ss generalizing depth with
  | nil => rfl
  | cons t ss ih =>
    rw [deepen, ih, Sparse.getD_setD, List.count_cons]
    by_cases h : s = t
    · simp only [h, beq_self_eq_true, if_true]; omega
    · simp [if_neg h, Ne.symm h]

theorem takeMin_perm (m : HuffNode) (l : List HuffNode) : ((takeMin m l).1 :: (takeMin m l).2).Perm (m :: l) := by
  induction l generalizing m with
  | nil => exact .refl _
  | cons x xs ih =>
    unfold takeMin
    split_ifs
    · exact (List.Perm.swap _ _ _).trans ((ih x).cons m)
    · exact ((List.Perm.swap _ _ _).trans ((ih m).cons x)).trans (List.Perm.swap _ _ _)

/-- One merge step takes two entries off the live set and puts one there. -/
theorem mergeLoop_step (f next : Nat) (x y : HuffNode) (t : List HuffNode) (depth : Sparse Nat) :
    ∃ a b rest count, (a :: b :: rest).Perm (x :: y :: t) ∧
      mergeLoop (f + 1) next (x :: y :: t) depth =
        mergeLoop f (next + 1) (⟨count, next, a.under ++ b.under⟩ :: rest) (deepen depth (a.under ++ b.under)) := by
  have hfirst := takeMin_perm x (y :: t)
  obtain ⟨a, rest, hmin⟩ : ∃ a rest, takeMin x (y :: t) = (a, rest) := ⟨_, _, rfl⟩
  rw [hmin] at hfirst
  rw [mergeLoop, hmin]
  cases rest with
  | nil => cases hfirst.length_eq
  | cons z zs =>
    have hsecond := takeMin_perm z zs
    exact ⟨a, _, _, _, (hsecond.cons a).trans hfirst, rfl⟩

/-- After `m` merge steps: the entries' symbols are the live ones, and each entry's depths fill the code space. -/
structure Merging (live : List Nat) (m : Nat) (nodes : List HuffNode) (depth : Sparse Nat) : Prop where
  perm : (nodes.flatMap HuffNode.under).Perm live
  share : ∀ x ∈ nodes, share depth x.under = 2 ^ 255
  depth_le : ∀ s, depth.getD 0 s ≤ m
  length : nodes.length + m = live.length

section
variable {live : List Nat} {m : Nat} {nodes : List HuffNode} {depth : Sparse Nat}

theorem Merging.of_perm (h : Merging live m nodes depth) {nodes' : List HuffNode} (hp : nodes'.Perm nodes) :
    Merging live m nodes' depth :=
  ⟨(hp.flatMap_right _).trans h.perm, fun x hx => h.share x (hp.mem_iff.1 hx), h.depth_le, hp.length_eq ▸ h.length⟩

variable (hlive : live.Nodup) (hlen : live.length ≤ 256)
include hlive hlen

theorem Merging.step {a b : HuffNode} {rest : List HuffNode} (h : Merging live m (a :: b :: rest) depth)
    (count next : Nat) :
    Merging live (m + 1) (⟨count, next, a.under ++ b.under⟩ :: rest) (deepen depth (a.under ++ b.under)) := by
  have hperm := h.perm
  have hlength := h.length
  simp only [List.flatMap_cons, ← List.append_assoc] at hperm
  obtain ⟨hnodup, -, hdisjoint⟩ := List.nodup_append.1 (hperm.nodup_iff.2 hlive)
  simp only [List.length_cons] at hlength
  have hin : ∀ s ∈ a.under ++ b.under, (deepen depth (a.under ++ b.under)).getD 0 s = depth.getD 0 s + 1 :=
    fun s hs => by rw [getD_deepen, List.count_eq_one_of_mem hnodup hs]
  refine ⟨by simpa only [List.flatMap_cons] using hperm, fun x hx => ?_, fun s => ?_, ?_⟩
  · rcases List.mem_cons.1 hx with rfl | hx
    · have hhalf := share_deeper hin fun s _ => (h.depth_le s).trans (by omega)
      rw [share_append depth, h.share a List.mem_cons_self,
        h.share b (List.mem_cons_of_mem _ List.mem_cons_self)] at hhalf
      exact Nat.eq_of_mul_eq_mul_left Nat.two_pos (hhalf.trans (Nat.two_mul _).symm)
    · refine (share_congr fun s hs => ?_).trans (h.share x (List.mem_cons_of_mem _ (List.mem_cons_of_mem _ hx)))
      have hout : s ∉ a.under ++ b.under := fun hs' => hdisjoint s hs' s (List.mem_flatMap.2 ⟨x, hx, hs⟩) rfl
      rw [getD_deepen, List.count_eq_zero_of_not_mem hout, Nat.add_zero]
  · have hcount := List.nodup_iff_count_le_one.1 hnodup s
    have := h.depth_le s
    rw [getD_deepen]
    omega
  · simp only [List.length_cons]
    omega

omit hlive in
theorem Merging.single {x : HuffNode} (h : Merging live m [x] depth) :
    Machine.share depth live = 2 ^ 255 ∧ ∀ s, depth.getD 0 s ≤ 255 := by
  have hperm := h.perm
  have hlength := h.length
  rw [List.flatMap_singleton] at hperm
  rw [List.length_singleton] at hlength
  exact ⟨(share_perm depth hperm).symm.trans (h.share x List.mem_cons_self), fun s => (h.depth_le s).trans (by omega)⟩

/-- The loop ends with one entry, whose symbols are all the live ones. -/
theorem Merging.loop (hpos : 0 < nodes.length) {f next : Nat} (hf : nodes.length ≤ f + 1)
    (h : Merging live m nodes depth) :
    Machine.share (mergeLoop f next nodes depth) live = 2 ^ 255 ∧
      ∀ s, (mergeLoop f next nodes depth).getD 0 s ≤ 255 := by
  induction f generalizing nodes depth m next with
  | zero =>
    obtain ⟨x, rfl⟩ := List.length_eq_one_iff.1 (Nat.le_antisymm hf hpos)
    exact h.single hlen
  | succ f ih =>
    match nodes with
    | [x] => exact h.single hlen
    | x :: y :: t =>
      obtain ⟨a, b, rest, count, hp, heq⟩ := mergeLoop_step f next x y t depth
      have hlength := hp.length_eq
      simp only [List.length_cons] at hlength hf
      rw [heq]
      exact ih (by simp only [List.length_cons]; omega) (by simp only [List.length_cons]; omega)
        ((h.of_perm hp).step hlive hlen count next)

end

/-! ## The depths -/

theorem nodup_liveSyms (cnt : Sparse Nat) : (liveSyms cnt).Nodup := List.nodup_range.filter _

theorem length_liveSyms_le (cnt : Sparse Nat) : (liveSyms cnt).length ≤ 256 :=
  (List.length_filter_le _ _).trans_eq List.length_range

theorem mem_liveSyms {cnt : Sparse Nat} {s : Nat} : s ∈ liveSyms cnt ↔ s < 256 ∧ 0 < cnt.getD 0 s := by
  rw [liveSyms, List.mem_filter, List.mem_range, decide_eq_true_eq]

/-- Where the depths fill the code space and there are two symbols, none has depth 0. -/
theorem depth_pos_of_share {depth : Sparse Nat} {live : List Nat} (hshare : share depth live = 2 ^ 255)
    (htwo : 2 ≤ live.length) {s : Nat} (hs : s ∈ live) : 1 ≤ depth.getD 0 s := by
  by_contra hzero
  have hperm := List.perm_cons_erase hs
  have hlength := hperm.length_eq
  rw [share_perm depth hperm] at hshare
  cases hrest : live.erase s with
  | nil =>
    rw [hrest, List.length_singleton] at hlength
    omega
  | cons t ts =>
    have hpos := Nat.two_pow_pos (255 - depth.getD 0 t)
    rw [hrest] at hshare
    simp only [share, List.map_cons, List.sum_cons] at hshare
    rw [Nat.eq_zero_of_not_pos hzero, Nat.sub_zero] at hshare
    omega

/-- The depths of the live symbols (45 R370, R371). -/
structure DepthsGood (live : List Nat) (depth : Sparse Nat) : Prop where
  pos : ∀ s ∈ live, 1 ≤ depth.getD 0 s
  le : ∀ s, depth.getD 0 s ≤ 255
  /-- They fill the code space, but for a single symbol. -/
  full : share depth live = 2 ^ 255 ∨ ∃ s, live = [s] ∧ depth.getD 0 s = 1

theorem huffDepths_good {cnt : Sparse Nat} (hne : liveSyms cnt ≠ []) :
    DepthsGood (liveSyms cnt) (huffDepths cnt) := by
  unfold huffDepths
  split
  next s hs =>
    rw [hs]
    have hone : (Sparse.setD [] 0 s 1 : Sparse Nat).getD 0 s = 1 := by rw [Sparse.getD_setD, if_pos rfl]
    refine ⟨fun t ht => ?_, fun t => ?_, .inr ⟨s, rfl, hone⟩⟩
    · rw [List.mem_singleton.1 ht, hone]
    · rw [Sparse.getD_setD]
      split_ifs
      · decide
      · exact Nat.zero_le 255
  next live hsingle =>
    have hlen := length_liveSyms_le cnt
    have hpos : 0 < (liveSyms cnt).length := List.length_pos_of_ne_nil hne
    have hstart : Merging (liveSyms cnt) 0 ((liveSyms cnt).map fun s => ⟨cnt.getD 0 s, s, [s]⟩) [] := by
      refine ⟨?_, fun x hx => ?_, fun s => le_rfl, by rw [List.length_map]; rfl⟩
      · rw [List.flatMap_map, List.flatMap_singleton']
      · obtain ⟨s, -, rfl⟩ := List.mem_map.1 hx
        rw [share, List.map_singleton, List.sum_singleton, show (Sparse.getD [] 0 s : Nat) = 0 from rfl, Nat.sub_zero]
    obtain ⟨hshare, hle⟩ := hstart.loop (nodup_liveSyms cnt) hlen (f := (liveSyms cnt).length) (next := 256)
      (by rwa [List.length_map]) (by rw [List.length_map]; exact Nat.le_succ _)
    have htwo : 2 ≤ (liveSyms cnt).length := by
      by_contra hlt
      obtain ⟨s, hs⟩ := List.length_eq_one_iff.1 (show (liveSyms cnt).length = 1 by omega)
      exact hsingle s hs
    exact ⟨fun s hs => depth_pos_of_share hshare htwo hs, hle, .inl hshare⟩

end Sys2Proof.Machine
end

section
/-! The chainsaw (45 R372): each step keeps the number of codes and the code space they fill, and it ends with no code
longer than 15 bits. -/

namespace Sys2Proof.Machine

/-! ## Weighted counts -/

/-- The codes counted by length, each weighed by its length. -/
def weigh (f : Nat → Nat) (bl : List Nat) : Nat := ∑ l ∈ Finset.range bl.length, bl.getD l 0 * f l

/-- The number of codes. -/
abbrev codeTotal (bl : List Nat) : Nat := weigh (fun _ => 1) bl

/-- The code space they take, out of `2^255`. -/
abbrev codeSpace (bl : List Nat) : Nat := weigh (fun l => 2 ^ (255 - l)) bl

section
variable {bl : List Nat} {i : Nat}

theorem getD_set_same (h : i < bl.length) (v : Nat) : (bl.set i v).getD i 0 = v := by
  simp [List.getD_eq_getElem?_getD, h]

theorem getD_set_ne {l : Nat} (h : l ≠ i) (v : Nat) : (bl.set i v).getD l 0 = bl.getD l 0 := by
  simp [List.getD_eq_getElem?_getD, h.symm]

theorem weigh_set (f : Nat → Nat) (h : i < bl.length) (v : Nat) :
    weigh f (bl.set i v) + bl.getD i 0 * f i = weigh f bl + v * f i := by
  have hi : i ∈ Finset.range bl.length := Finset.mem_range.2 h
  have hrest : ∑ l ∈ (Finset.range bl.length).erase i, (bl.set i v).getD l 0 * f l =
      ∑ l ∈ (Finset.range bl.length).erase i, bl.getD l 0 * f l :=
    Finset.sum_congr rfl fun l hl => by rw [getD_set_ne (Finset.ne_of_mem_erase hl)]
  rw [weigh, weigh, List.length_set, ← Finset.add_sum_erase _ _ hi, ← Finset.add_sum_erase _ _ hi, hrest,
    getD_set_same h]
  omega

theorem weigh_set_add (f : Nat → Nat) (h : i < bl.length) (k : Nat) :
    weigh f (bl.set i (bl.getD i 0 + k)) = weigh f bl + k * f i := by
  have hset := weigh_set f h (bl.getD i 0 + k)
  rw [Nat.add_mul] at hset
  omega

theorem weigh_set_sub (f : Nat → Nat) (h : i < bl.length) {k : Nat} (hk : k ≤ bl.getD i 0) :
    weigh f (bl.set i (bl.getD i 0 - k)) + k * f i = weigh f bl := by
  have hset := weigh_set f h (bl.getD i 0 - k)
  have hmul : (bl.getD i 0 - k) * f i + k * f i = bl.getD i 0 * f i := by rw [← Nat.add_mul, Nat.sub_add_cancel hk]
  omega

/-- Two codes of the longest length and one of length `j` become one a bit shorter and two a bit longer. -/
theorem weigh_chainsawStep (f : Nat → Nat) {top j : Nat} (htop : top < bl.length) (hj : j + 2 ≤ top)
    (h2 : 2 ≤ bl.getD top 0) (h1 : 1 ≤ bl.getD j 0) :
    weigh f (chainsawStep bl top j) + 2 * f top + f j = weigh f bl + f (top - 1) + 2 * f (j + 1) := by
  obtain ⟨b1, hb1⟩ : ∃ b, b = bl.set top (bl.getD top 0 - 2) := ⟨_, rfl⟩
  obtain ⟨b2, hb2⟩ : ∃ b, b = b1.set (top - 1) (b1.getD (top - 1) 0 + 1) := ⟨_, rfl⟩
  obtain ⟨b3, hb3⟩ : ∃ b, b = b2.set j (b2.getD j 0 - 1) := ⟨_, rfl⟩
  have hstep : chainsawStep bl top j = b3.set (j + 1) (b3.getD (j + 1) 0 + 2) := by rw [hb3, hb2, hb1]; rfl
  have hl1 : b1.length = bl.length := by rw [hb1, List.length_set]
  have hl2 : b2.length = bl.length := by rw [hb2, List.length_set, hl1]
  have hl3 : b3.length = bl.length := by rw [hb3, List.length_set, hl2]
  have hj1 : 1 ≤ b2.getD j 0 := by rwa [hb2, getD_set_ne (by omega), hb1, getD_set_ne (by omega)]
  have hw1 := weigh_set_sub f htop h2
  have hw2 := weigh_set_add f (bl := b1) (i := top - 1) (by omega) 1
  have hw3 := weigh_set_sub f (bl := b2) (i := j) (by omega) hj1
  have hw4 := weigh_set_add f (bl := b3) (i := j + 1) (by omega) 2
  rw [← hb1] at hw1
  rw [← hb2] at hw2
  rw [← hb3] at hw3
  rw [hstep]
  omega

theorem length_chainsawStep (bl : List Nat) (top j : Nat) : (chainsawStep bl top j).length = bl.length := by
  simp [chainsawStep]

/-- No code of length 0 comes in. -/
theorem chainsawStep_zero {top j : Nat} (hj : 1 ≤ j) (htop : j + 2 ≤ top) :
    (chainsawStep bl top j).getD 0 0 = bl.getD 0 0 := by
  simp only [chainsawStep]
  rw [getD_set_ne (by omega), getD_set_ne (by omega), getD_set_ne (by omega), getD_set_ne (by omega)]

theorem weigh_le {f : Nat → Nat} {c : Nat} (h : ∀ l, 0 < bl.getD l 0 → f l ≤ c) : weigh f bl ≤ codeTotal bl * c := by
  rw [codeTotal, weigh, weigh, Finset.sum_mul]
  refine Finset.sum_le_sum fun l _ => ?_
  rw [Nat.mul_one]
  rcases Nat.eq_zero_or_pos (bl.getD l 0) with hzero | hpos
  · rw [hzero, Nat.zero_mul, Nat.zero_mul]
  · exact Nat.mul_le_mul_left _ (h l hpos)

theorem mul_le_weigh (f : Nat → Nat) (h : i < bl.length) : bl.getD i 0 * f i ≤ weigh f bl :=
  Finset.single_le_sum (f := fun l => bl.getD l 0 * f l) (fun _ _ => Nat.zero_le _) (Finset.mem_range.2 h)

end

/-! ## The largest length -/

theorem getLastD_filter_range (p : Nat → Bool) (n : Nat) :
    let m := ((List.range n).filter p).getLastD 0
    (m = 0 ∨ m < n ∧ p m = true) ∧ ∀ l, m < l → l < n → p l = false := by
  induction n with
  | zero => exact ⟨.inl rfl, fun l _ hl => absurd hl (Nat.not_lt_zero l)⟩
  | succ n ih =>
    rw [List.range_succ, List.filter_append]
    cases hp : p n with
    | true =>
      simp only [List.filter_singleton, hp, cond_true, List.getLastD_concat]
      exact ⟨.inr ⟨Nat.lt_succ_self n, trivial⟩, fun l hl hl' => absurd hl (by omega)⟩
    | false =>
      simp only [List.filter_singleton, hp, cond_false, List.append_nil]
      refine ⟨ih.1.imp_right fun ⟨hlt, hm⟩ => ⟨Nat.lt_succ_of_lt hlt, hm⟩, fun l hl hl' => ?_⟩
      rcases Nat.lt_succ_iff_lt_or_eq.1 hl' with hlt | rfl
      · exact ih.2 l hl hlt
      · exact hp

theorem lmax_spec (bl : List Nat) :
    (lmax bl = 0 ∨ lmax bl < bl.length ∧ 0 < bl.getD (lmax bl) 0) ∧ ∀ l, lmax bl < l → bl.getD l 0 = 0 := by
  obtain ⟨hlast, hbeyond⟩ := getLastD_filter_range (fun l => decide (0 < bl.getD l 0)) bl.length
  simp only [decide_eq_true_eq] at hlast
  refine ⟨hlast, fun l hl => ?_⟩
  rcases Nat.lt_or_ge l bl.length with hlt | hge
  · exact Nat.eq_zero_of_not_pos (of_decide_eq_false (hbeyond l hl hlt))
  · exact List.getD_eq_default _ _ hge

/-! ## The picks -/

theorem chainsawPick_some {pick : ChainsawPick} {bl : List Nat} {top j : Nat} (h : chainsawPick pick bl top = some j) :
    1 ≤ j ∧ j + 2 ≤ top ∧ 1 ≤ bl.getD j 0 := by
  have hmem : j ∈ (List.range (top - 1)).filter fun l => 1 ≤ l ∧ 0 < bl.getD l 0 := by
    cases pick
    · exact List.mem_of_mem_head? h
    · exact List.mem_of_mem_getLast? h
  simp only [List.mem_filter, List.mem_range, decide_eq_true_eq] at hmem
  obtain ⟨hlt, h1, hpos⟩ := hmem
  exact ⟨h1, by omega, hpos⟩

theorem chainsawPick_none {pick : ChainsawPick} {bl : List Nat} {top : Nat} (h : chainsawPick pick bl top = none) {l : Nat}
    (h1 : 1 ≤ l) (hl : l < top - 1) : bl.getD l 0 = 0 := by
  have hnil : ((List.range (top - 1)).filter fun l => 1 ≤ l ∧ 0 < bl.getD l 0) = [] := by
    cases pick
    · exact List.head?_eq_none_iff.1 h
    · exact List.getLast?_eq_none_iff.1 h
  have hnot := List.filter_eq_nil_iff.1 hnil l (List.mem_range.2 hl)
  simp only [decide_eq_true_eq, not_and] at hnot
  exact Nat.eq_zero_of_not_pos (hnot h1)

/-! ## The loop -/

/-- Counts by length of `n` codes that fill the code space. -/
structure FullCode (n : Nat) (bl : List Nat) : Prop where
  length : bl.length = 256
  zero : bl.getD 0 0 = 0
  total : codeTotal bl = n
  space : codeSpace bl = 2 ^ 255

section
variable {n : Nat} {bl : List Nat}

/-- The longest length of a full code is that of an even number of codes. -/
theorem FullCode.two_le (h : FullCode n bl) (hpos : 0 < lmax bl) : 2 ≤ bl.getD (lmax bl) 0 := by
  obtain ⟨hlast, hbeyond⟩ := lmax_spec bl
  obtain ⟨hlt, hcount⟩ := hlast.resolve_left (by omega)
  have hlen := h.length
  have hmem : lmax bl ∈ Finset.range bl.length := Finset.mem_range.2 hlt
  have hspace := h.space
  rw [codeSpace, weigh, ← Finset.add_sum_erase _ _ hmem] at hspace
  have hdvd : 2 ^ (256 - lmax bl) ∣ ∑ l ∈ (Finset.range bl.length).erase (lmax bl), bl.getD l 0 * 2 ^ (255 - l) := by
    refine Finset.dvd_sum fun l hl => ?_
    rcases Nat.lt_or_ge (lmax bl) l with hgt | hle
    · rw [hbeyond l hgt, Nat.zero_mul]
      exact Nat.dvd_zero _
    · have hne := Finset.ne_of_mem_erase hl
      exact Dvd.dvd.mul_left (Nat.pow_dvd_pow 2 (by omega)) _
  have hall : 2 ^ (256 - lmax bl) ∣ bl.getD (lmax bl) 0 * 2 ^ (255 - lmax bl) := by
    refine (Nat.dvd_add_left hdvd).1 ?_
    rw [hspace]
    exact Nat.pow_dvd_pow 2 (by omega)
  rw [show 256 - lmax bl = 255 - lmax bl + 1 by omega, Nat.pow_succ, Nat.mul_comm] at hall
  exact Nat.le_of_dvd hcount (Nat.dvd_of_mul_dvd_mul_right (Nat.two_pow_pos _) hall)

/-- At most 256 codes that fill the space are not all of the two longest lengths, if these are 15 and 16 or more. -/
theorem FullCode.exists_pick (h : FullCode n bl) (hn : n ≤ 256) (htop : 15 < lmax bl) (pick : ChainsawPick) :
    ∃ j, chainsawPick pick bl (lmax bl) = some j := by
  rw [← Option.ne_none_iff_exists']
  intro hnone
  have hle : codeSpace bl ≤ codeTotal bl * 2 ^ 240 := by
    refine weigh_le fun l hl => Nat.pow_le_pow_right Nat.two_pos ?_
    have hl0 : l ≠ 0 := fun h0 => by rw [h0, h.zero] at hl; exact absurd hl (Nat.lt_irrefl 0)
    by_contra hlt
    rw [chainsawPick_none hnone (by omega) (by omega)] at hl
    exact absurd hl (Nat.lt_irrefl 0)
  rw [h.space, h.total] at hle
  have := Nat.mul_le_mul_right (2 ^ 240) hn
  exact absurd (hle.trans this) (by norm_num)

theorem FullCode.step (h : FullCode n bl) {j : Nat} {pick : ChainsawPick} (htop : 15 < lmax bl)
    (hj : chainsawPick pick bl (lmax bl) = some j) :
    FullCode n (chainsawStep bl (lmax bl) j) ∧
      weigh id (chainsawStep bl (lmax bl) j) < weigh id bl := by
  obtain ⟨h1, hj2, hcount⟩ := chainsawPick_some hj
  obtain ⟨hlt, -⟩ := (lmax_spec bl).1.resolve_left (by omega)
  have hstep := fun f => weigh_chainsawStep f hlt hj2 (h.two_le (by omega)) hcount
  have hlen := h.length
  refine ⟨⟨(length_chainsawStep _ _ _).trans hlen, (chainsawStep_zero h1 hj2).trans h.zero, ?_, ?_⟩, ?_⟩
  · have hone : codeTotal _ + 2 * 1 + 1 = codeTotal bl + 1 + 2 * 1 := hstep fun _ => 1
    rw [h.total] at hone
    omega
  · have hspace := hstep fun l => 2 ^ (255 - l)
    have htwice : 2 ^ (255 - (lmax bl - 1)) = 2 * 2 ^ (255 - lmax bl) := by
      rw [← Nat.pow_succ', show (255 - lmax bl).succ = 255 - (lmax bl - 1) by omega]
    have htwice' : 2 ^ (255 - j) = 2 * 2 ^ (255 - (j + 1)) := by
      rw [← Nat.pow_succ', show (255 - (j + 1)).succ = 255 - j by omega]
    have hfull := h.space
    rw [codeSpace] at hfull ⊢
    omega
  · have := hstep id
    dsimp only [id] at this
    omega

/-- The chainsaw ends with no code longer than 15 bits. -/
theorem FullCode.chainsaw (hn : n ≤ 256) (pick : ChainsawPick) {f : Nat} (hf : weigh id bl ≤ f) (h : FullCode n bl) :
    FullCode n (chainsaw pick f bl) ∧ lmax (Machine.chainsaw pick f bl) ≤ 15 := by
  induction f generalizing bl with
  | zero =>
    refine ⟨h, ?_⟩
    show lmax bl ≤ 15
    rcases (lmax_spec bl).1 with hzero | ⟨hlt, hcount⟩
    · omega
    · have hle : bl.getD (lmax bl) 0 * lmax bl ≤ 0 := (mul_le_weigh id hlt).trans hf
      have hzero := Nat.eq_zero_of_le_zero hle
      rcases Nat.mul_eq_zero.1 hzero with hcount0 | htop0
      · omega
      · omega
  | succ f ih =>
    unfold Machine.chainsaw
    dsimp only
    split_ifs with htop
    · obtain ⟨j, hj⟩ := h.exists_pick hn htop pick
      obtain ⟨hstep, hlt⟩ := h.step htop hj
      rw [hj]
      exact ih (by omega) hstep
    · exact ⟨h, Nat.le_of_not_lt htop⟩

end

end Sys2Proof.Machine
end

section
/-! The counts by length of the encoder's code (45 R372, R373): 15 bits at most, and within the code space. -/

namespace Sys2Proof.Machine

/-! ## The histogram -/

theorem length_histogram (cnt depth : Sparse Nat) : (histogram cnt depth).length = 256 := by
  rw [histogram, List.length_map, List.length_range]

theorem getD_histogram (cnt depth : Sparse Nat) {l : Nat} (h : l < 256) :
    (histogram cnt depth).getD l 0 = if l = 0 then 0 else ((liveSyms cnt).filter fun s => depth.getD 0 s = l).length := by
  rw [histogram, List.getD_eq_getElem?_getD, List.getElem?_map, List.getElem?_range h]
  rfl

/-- Counting by length and then weighing is weighing symbol by symbol. -/
theorem sum_filter_depth (f d : Nat → Nat) {ss : List Nat} (h : ∀ s ∈ ss, 1 ≤ d s ∧ d s ≤ 255) :
    ∑ l ∈ Finset.range 256, (if l = 0 then 0 else (ss.filter fun s => d s = l).length) * f l =
      (ss.map fun s => f (d s)).sum := by
  induction ss with
  | nil => exact Finset.sum_eq_zero fun l _ => by rw [List.filter_nil, List.length_nil, ite_self, Nat.zero_mul]
  | cons s ss ih =>
    obtain ⟨⟨hpos, hle⟩, hss⟩ := List.forall_mem_cons.1 h
    have hsplit : ∀ l ∈ Finset.range 256, (if l = 0 then 0 else ((s :: ss).filter fun s => d s = l).length) * f l =
        (if l = d s then f l else 0) + (if l = 0 then 0 else (ss.filter fun s => d s = l).length) * f l := by
      intro l _
      by_cases hl : d s = l
      · have hne : l ≠ 0 := by omega
        rw [if_neg hne, if_neg hne, if_pos hl.symm, List.filter_cons_of_pos (by simpa using hl), List.length_cons,
          Nat.succ_mul, Nat.add_comm]
      · rw [if_neg (Ne.symm hl), List.filter_cons_of_neg (by simpa using hl), Nat.zero_add]
    rw [Finset.sum_congr rfl hsplit, Finset.sum_add_distrib, Finset.sum_ite_eq', if_pos (Finset.mem_range.2 (by omega)),
      ih hss, List.map_cons, List.sum_cons]

section
variable {cnt depth : Sparse Nat} (h : DepthsGood (liveSyms cnt) depth)
include h

theorem weigh_histogram (f : Nat → Nat) :
    weigh f (histogram cnt depth) = ((liveSyms cnt).map fun s => f (depth.getD 0 s)).sum := by
  rw [weigh, length_histogram, ← sum_filter_depth f (fun s => depth.getD 0 s) fun s hs => ⟨h.pos s hs, h.le s⟩]
  exact Finset.sum_congr rfl fun l hl => by rw [getD_histogram cnt depth (Finset.mem_range.1 hl)]

theorem codeTotal_histogram : codeTotal (histogram cnt depth) = (liveSyms cnt).length := by
  rw [codeTotal, weigh_histogram h, List.map_const', List.sum_replicate, smul_eq_mul, Nat.mul_one]

theorem codeSpace_histogram : codeSpace (histogram cnt depth) = share depth (liveSyms cnt) := weigh_histogram h _

/-- The measure of the chainsaw starts within its bound. -/
theorem weigh_id_histogram_le : weigh id (histogram cnt depth) ≤ 65280 := by
  have hle : weigh id (histogram cnt depth) ≤ codeTotal (histogram cnt depth) * 255 := by
    refine weigh_le fun l hl => ?_
    by_contra hgt
    rw [List.getD_eq_default _ _ (by rw [length_histogram]; exact Nat.lt_of_not_le hgt)] at hl
    exact absurd hl (Nat.lt_irrefl 0)
  rw [codeTotal_histogram h] at hle
  have := length_liveSyms_le cnt
  omega

end

/-! ## The counts sent -/

/-- The counts of `n` codes of at most 15 bits within the code space. -/
structure BoundedCode (n : Nat) (bl : List Nat) : Prop where
  length : bl.length = 256
  zero : bl.getD 0 0 = 0
  total : codeTotal bl = n
  space : codeSpace bl ≤ 2 ^ 255
  lmax_le : lmax bl ≤ 15

theorem chainsaw_of_le (pick : ChainsawPick) (f : Nat) {bl : List Nat} (h : lmax bl ≤ 15) : chainsaw pick f bl = bl := by
  cases f with
  | zero => rfl
  | succ f => rw [chainsaw, if_neg (Nat.not_lt.2 h)]

theorem boundedCode_chainsaw {cnt depth : Sparse Nat} (h : DepthsGood (liveSyms cnt) depth) (pick : ChainsawPick) :
    BoundedCode (liveSyms cnt).length (chainsaw pick 65280 (histogram cnt depth)) := by
  have hlen := length_histogram cnt depth
  have hzero : (histogram cnt depth).getD 0 0 = 0 := getD_histogram cnt depth (by decide)
  rcases h.full with hfull | ⟨s, hs, hone⟩
  · obtain ⟨hcode, hmax⟩ := FullCode.chainsaw (length_liveSyms_le cnt) pick (weigh_id_histogram_le h)
      ⟨hlen, hzero, codeTotal_histogram h, (codeSpace_histogram h).trans hfull⟩
    exact ⟨hcode.length, hcode.zero, hcode.total, hcode.space.le, hmax⟩
  · have hmax : lmax (histogram cnt depth) ≤ 15 := by
      rcases (lmax_spec (histogram cnt depth)).1 with h0 | ⟨hlt, hcount⟩
      · omega
      · have hle := mul_le_weigh id hlt
        rw [weigh_histogram h, hs, List.map_singleton, List.sum_singleton, hone] at hle
        have := Nat.le_mul_of_pos_left (lmax (histogram cnt depth)) hcount
        dsimp only [id] at hle
        omega
    rw [chainsaw_of_le pick _ hmax]
    refine ⟨hlen, hzero, codeTotal_histogram h, ?_, hmax⟩
    rw [codeSpace_histogram h, share, hs, List.map_singleton, List.sum_singleton]
    exact Nat.pow_le_pow_right Nat.two_pos (Nat.sub_le _ _)

theorem weigh_cons (f : Nat → Nat) (c : Nat) (cs : List Nat) :
    weigh f (c :: cs) = c * f 0 + weigh (fun i => f (i + 1)) cs := by
  rw [weigh, List.length_cons, Finset.sum_range_succ', Nat.add_comm]
  rfl

theorem weigh_append_zeros (f : Nat → Nat) (cs : List Nat) {zs : List Nat} (h : ∀ i, zs.getD i 0 = 0) :
    weigh f (cs ++ zs) = weigh f cs := by
  induction cs generalizing f with
  | nil => exact Finset.sum_eq_zero fun i _ => by rw [List.nil_append, h, Nat.zero_mul]
  | cons c cs ih => rw [List.cons_append, weigh_cons, weigh_cons, ih]

theorem codeTotal_eq_sum (cs : List Nat) : codeTotal cs = cs.sum := by
  induction cs with
  | nil => rfl
  | cons c cs ih => rw [codeTotal, weigh_cons, List.sum_cons, Nat.mul_one]; exact congrArg (c + ·) ih

theorem weigh_eq_kraft {cs : List Nat} {k : Nat} (h : cs.length ≤ k + 1) :
    weigh (fun i => 2 ^ (k - i)) cs = HrTab.kraft cs * 2 ^ (k + 1 - cs.length) := by
  induction cs generalizing k with
  | nil => rw [HrTab.kraft, Nat.zero_mul]; rfl
  | cons c cs ih =>
    rw [List.length_cons] at h ⊢
    rw [weigh_cons, HrTab.kraft, Nat.add_mul, Nat.mul_assoc, ← Nat.pow_add, Nat.sub_zero,
      show cs.length + (k + 1 - (cs.length + 1)) = k by omega]
    congr 1
    cases k with
    | zero =>
      obtain rfl := List.eq_nil_of_length_eq_zero (show cs.length = 0 by omega)
      rw [HrTab.kraft, Nat.zero_mul]
      rfl
    | succ k =>
      rw [show k + 1 + 1 - (cs.length + 1) = k + 1 - cs.length by omega, ← ih (by omega)]
      exact congrArg (weigh · cs) (funext fun i => by rw [Nat.add_sub_add_right])

/-- The counts from length 1 to the longest. -/
def sentCounts (bl : List Nat) : List Nat := (bl.take (lmax bl + 1)).drop 1

section
variable {n : Nat} {bl : List Nat} (h : BoundedCode n bl)
include h

theorem BoundedCode.eq_sentCounts :
    (sentCounts bl).length = lmax bl ∧ bl = 0 :: sentCounts bl ++ bl.drop (lmax bl + 1) := by
  have hlen := h.length
  have hmax := h.lmax_le
  have hzero := h.zero
  refine ⟨by rw [sentCounts, List.length_drop, List.length_take]; omega, ?_⟩
  cases bl with
  | nil => cases hlen
  | cons b bs =>
    obtain rfl : b = 0 := hzero
    rw [sentCounts, List.take_succ_cons, List.drop_succ_cons, List.drop_zero, List.drop_succ_cons, List.cons_append,
      List.take_append_drop]

theorem BoundedCode.weigh_eq (f : Nat → Nat) : weigh f bl = weigh (fun i => f (i + 1)) (sentCounts bl) := by
  have hbeyond : ∀ i, (bl.drop (lmax bl + 1)).getD i 0 = 0 := fun i => by
    rw [List.getD_eq_getElem?_getD, List.getElem?_drop, ← List.getD_eq_getElem?_getD]
    exact (lmax_spec bl).2 _ (by omega)
  calc weigh f bl = weigh f (0 :: sentCounts bl ++ bl.drop (lmax bl + 1)) := congrArg _ h.eq_sentCounts.2
    _ = _ := by rw [weigh_append_zeros f _ hbeyond, weigh_cons, Nat.zero_mul, Nat.zero_add]

theorem BoundedCode.sum_sentCounts : (sentCounts bl).sum = n := by
  rw [← codeTotal_eq_sum, ← h.total]
  exact (h.weigh_eq fun _ => 1).symm

theorem BoundedCode.kraft_sentCounts : HrTab.kraft (sentCounts bl) ≤ 2 ^ (sentCounts bl).length := by
  have hlen := h.eq_sentCounts.1
  have hmax := h.lmax_le
  have hspace := h.space
  have hkraft := weigh_eq_kraft (cs := sentCounts bl) (k := 254) (by omega)
  have hweigh : codeSpace bl = weigh (fun i => 2 ^ (254 - i)) (sentCounts bl) := by
    rw [codeSpace, h.weigh_eq]
    exact congrArg (weigh · _) (funext fun i => congrArg (2 ^ ·) (by omega))
  rw [hweigh, hkraft] at hspace
  have hsplit : 2 ^ 255 = 2 ^ (sentCounts bl).length * 2 ^ (254 + 1 - (sentCounts bl).length) := by
    rw [← Nat.pow_add]
    exact congrArg (2 ^ ·) (by omega)
  rw [hsplit] at hspace
  exact Nat.le_of_mul_le_mul_right hspace (Nat.two_pow_pos _)

theorem BoundedCode.length_sentCounts (hn : 1 ≤ n) : 1 ≤ (sentCounts bl).length ∧ (sentCounts bl).length ≤ 15 := by
  refine ⟨List.length_pos_iff.2 fun hnil => ?_, h.eq_sentCounts.1.trans_le h.lmax_le⟩
  have hsum := h.sum_sentCounts
  rw [hnil, List.sum_nil] at hsum
  omega

end

theorem codeCounts_eq (pick : ChainsawPick) (cnt : Sparse Nat) :
    codeCounts pick cnt = sentCounts (chainsaw pick 65280 (histogram cnt (huffDepths cnt))) := rfl

end Sys2Proof.Machine
end

section
/-! The canonical code (45 R374, R375): the codes the encoder assigns are those the decoder works out of the counts and the
order of the symbols. -/

namespace Sys2Proof.Machine

/-! ## Lengths by rank -/

/-- The lengths the counts stand for, ascending from `len`. -/
def lengthsOf : (len : Nat) → List Nat → List Nat
  | _, [] => []
  | len, c :: cs => List.replicate c len ++ lengthsOf (len + 1) cs

theorem le_of_mem_lengthsOf {len l : Nat} {cs : List Nat} (h : l ∈ lengthsOf len cs) : len ≤ l := by
  induction cs generalizing len with
  | nil => cases h
  | cons c cs ih =>
    rcases List.mem_append.1 h with h | h
    · exact (List.eq_of_mem_replicate h).ge
    · exact (Nat.le_succ len).trans (ih h)

theorem pairwise_lengthsOf (len : Nat) (cs : List Nat) : (lengthsOf len cs).Pairwise (· ≤ ·) := by
  induction cs generalizing len with
  | nil => exact List.Pairwise.nil
  | cons c cs ih =>
    refine List.pairwise_append.2 ⟨List.pairwise_replicate.2 (.inr le_rfl), ih _, fun a ha b hb => ?_⟩
    rw [List.eq_of_mem_replicate ha]
    exact (Nat.le_succ len).trans (le_of_mem_lengthsOf hb)

theorem map_fst_lengthsByRank {cs : List Nat} (len : Nat) {ss : List Nat} (h : cs.sum ≤ ss.length) :
    (lengthsByRank cs len ss).map Prod.fst = lengthsOf len cs := by
  induction cs generalizing len ss with
  | nil => rfl
  | cons c cs ih =>
    rw [List.sum_cons] at h
    rw [lengthsByRank, List.map_append, List.map_map, ih (len + 1) (by rw [List.length_drop]; omega), lengthsOf]
    congr 1
    rw [show (Prod.fst ∘ fun s : Nat => (len, s)) = fun _ => len from rfl, List.map_const', List.length_take,
      min_eq_left (by omega)]

theorem map_snd_lengthsByRank (cs : List Nat) (len : Nat) (ss : List Nat) :
    (lengthsByRank cs len ss).map Prod.snd = ss.take cs.sum := by
  induction cs generalizing len ss with
  | nil => rw [List.sum_nil, List.take_zero]; rfl
  | cons c cs ih =>
    rw [lengthsByRank, List.map_append, List.map_map, ih, List.sum_cons, List.take_add]
    congr 1
    exact List.map_id _

/-! ## The canonical order -/

theorem canonicalOrder_perm (lens : List (Nat × Nat)) : (canonicalOrder lens).Perm lens := List.perm_insertionSort _ _

/-- The order of 45 R375: ascending length, then ascending symbol. -/
abbrev CanonicalLe (x y : Nat × Nat) : Prop := x.1 < y.1 ∨ (x.1 = y.1 ∧ x.2 ≤ y.2)

theorem canonicalOrder_sorted (lens : List (Nat × Nat)) : (canonicalOrder lens).Pairwise CanonicalLe := by
  have htotal : Std.Total CanonicalLe := ⟨fun x y => by unfold CanonicalLe; omega⟩
  have htrans : IsTrans (Nat × Nat) CanonicalLe := ⟨fun x y z => by unfold CanonicalLe; omega⟩
  exact List.pairwise_insertionSort (r := CanonicalLe) lens

/-- In canonical order the lengths ascend. -/
theorem map_fst_canonicalOrder {cs ss : List Nat} (h : cs.sum ≤ ss.length) :
    (canonicalOrder (lengthsByRank cs 1 ss)).map Prod.fst = lengthsOf 1 cs := by
  have hsorted : ((canonicalOrder (lengthsByRank cs 1 ss)).map Prod.fst).Pairwise (· ≤ ·) := by
    refine List.pairwise_map.2 ((canonicalOrder_sorted _).imp fun hle => ?_)
    unfold CanonicalLe at hle
    omega
  refine List.Perm.eq_of_pairwise (fun _ _ _ _ => Nat.le_antisymm) hsorted (pairwise_lengthsOf 1 cs) ?_
  rw [← map_fst_lengthsByRank 1 h]
  exact (canonicalOrder_perm _).map _

theorem map_snd_canonicalOrder {cs ss : List Nat} (h : cs.sum = ss.length) :
    ((canonicalOrder (lengthsByRank cs 1 ss)).map Prod.snd).Perm ss := by
  refine ((canonicalOrder_perm _).map _).trans ?_
  rw [map_snd_lengthsByRank, h, List.take_length]

/-! ## The codes -/

/-- Codes for ascending lengths: `prev` the length before, `next` the next code of it (45 R375). -/
def codesFrom (prev next : Nat) : List Nat → List Nat
  | [] => []
  | len :: ls => next * 2 ^ (len - prev) :: codesFrom len (next * 2 ^ (len - prev) + 1) ls

/-- The decoder's code of a position is the one assigned to it. -/
theorem codeAt_eq {cs : List Nat} {prev next first len : Nat} (hprev : prev ≤ len)
    (hfirst : first = next * 2 ^ (len - prev)) (idx : Nat) {m : Nat} (hm : m < (lengthsOf len cs).length) :
    ∃ l code, HrTab.codeAt (idx + m) cs len first idx = some (l, code) ∧ (lengthsOf len cs)[m]? = some l ∧
      (codesFrom prev next (lengthsOf len cs))[m]? = some code := by
  induction cs generalizing prev next first len idx m with
  | nil => exact absurd hm (Nat.not_lt_zero m)
  | cons c cs ih =>
    induction c generalizing prev next first idx m with
    | zero =>
      rw [lengthsOf, List.replicate_zero, List.nil_append] at hm ⊢
      rw [codeAt_cons_of_ge (by omega), Nat.add_zero]
      refine ih (by omega) ?_ idx hm
      rw [hfirst, Nat.add_zero, show len + 1 - prev = len - prev + 1 by omega, Nat.pow_succ, Nat.mul_assoc]
    | succ c ihc =>
      rw [lengthsOf, List.replicate_succ, List.cons_append, codesFrom, ← hfirst]
      cases m with
      | zero => exact ⟨len, first, by rw [codeAt_cons_of_lt (by omega), Nat.add_zero, Nat.sub_self, Nat.add_zero], rfl, rfl⟩
      | succ m =>
        rw [lengthsOf, List.replicate_succ, List.cons_append, List.length_cons] at hm
        obtain ⟨l, code, hcode, hl, hc⟩ := ihc (prev := len) (next := first + 1) (first := first + 1) le_rfl
          (by rw [Nat.sub_self, Nat.pow_zero, Nat.mul_one]) (idx + 1) (m := m) (Nat.lt_of_succ_lt_succ hm)
        refine ⟨l, code, ?_, hl, hc⟩
        rw [← hcode, show idx + (m + 1) = idx + 1 + m by omega]
        rcases Nat.lt_or_ge (idx + 1 + m) (idx + (c + 1)) with hlt | hge
        · rw [codeAt_cons_of_lt hlt, codeAt_cons_of_lt (by omega)]
          exact congrArg some (Prod.ext rfl (by dsimp only; omega))
        · rw [codeAt_cons_of_ge hge, codeAt_cons_of_ge (by omega)]
          congr 1 <;> omega

section
variable {ord : List (Nat × Nat)}

theorem assignCodes_other {s : Nat} (h : s ∉ ord.map Prod.snd) (prev next : Nat) (t : Sparse Nat) :
    (assignCodes prev next ord t).getD 0 s = t.getD 0 s := by
  induction ord generalizing prev next t with
  | nil => rfl
  | cons x ord ih =>
    obtain ⟨hx, hrest⟩ := List.ne_and_not_mem_of_not_mem_cons h
    rw [assignCodes, ih hrest, Sparse.getD_setD, if_neg hx]

theorem assignCodes_getD (h : (ord.map Prod.snd).Nodup) (prev next : Nat) (t : Sparse Nat) {m : Nat} {x : Nat × Nat}
    (hx : ord[m]? = some x) :
    (codesFrom prev next (ord.map Prod.fst))[m]? = some ((assignCodes prev next ord t).getD 0 x.2) := by
  induction ord generalizing prev next t m with
  | nil => cases hx
  | cons y ord ih =>
    obtain ⟨hy, hrest⟩ := List.nodup_cons.1 h
    cases m with
    | zero =>
      obtain rfl := Option.some.inj hx
      rw [assignCodes, assignCodes_other hy, Sparse.getD_setD, if_pos rfl]
      rfl
    | succ m => exact ih hrest _ _ _ hx

theorem lenTable_other {s : Nat} (h : s ∉ ord.map Prod.snd) (t : Sparse Nat) :
    (lenTable ord t).getD 0 s = t.getD 0 s := by
  induction ord generalizing t with
  | nil => rfl
  | cons x ord ih =>
    obtain ⟨hx, hrest⟩ := List.ne_and_not_mem_of_not_mem_cons h
    rw [lenTable, ih hrest, Sparse.getD_setD, if_neg hx]

theorem lenTable_getD (h : (ord.map Prod.snd).Nodup) (t : Sparse Nat) {x : Nat × Nat} (hx : x ∈ ord) :
    (lenTable ord t).getD 0 x.2 = x.1 := by
  induction ord generalizing t with
  | nil => cases hx
  | cons y ord ih =>
    obtain ⟨hy, hrest⟩ := List.nodup_cons.1 h
    rcases List.mem_cons.1 hx with rfl | hx
    · rw [lenTable, lenTable_other hy, Sparse.getD_setD, if_pos rfl]
    · exact ih hrest _ hx

end

/-! ## The encoder's code -/

/-- The table is one the decoder accepts, and the codes written are its codes. -/
structure HrCoded (h : HrCtx) : Prop where
  valid : h.tab.Valid
  code : ∀ s ∈ h.tab.syms, h.tab.codeOf s = some (h.len.getD 0 s.toNat, h.code.getD 0 s.toNat)

theorem valid_of_counts {clue : Byte} {bl : List Nat} {syms : List Byte} (h1 : 1 ≤ bl.length) (h15 : bl.length ≤ 15)
    (hsum : bl.sum = syms.length) (hnodup : syms.Nodup) (hkraft : HrTab.kraft bl ≤ 2 ^ bl.length) (hclue : clue ∈ syms) :
    HrTab.Valid ⟨clue, bl.length, bl, syms⟩ := ⟨h1, h15, rfl, hsum, hnodup, hkraft, hclue⟩

theorem codeOf_of_mem {clue s : Byte} {maxlen : Nat} {bl : List Nat} {syms : List Byte} (hs : s ∈ syms) :
    HrTab.codeOf ⟨clue, maxlen, bl, syms⟩ s = HrTab.codeAt (syms.idxOf s) bl 1 0 0 := by
  rw [HrTab.codeOf, if_pos (List.contains_iff_mem.2 hs)]

theorem exists_at_idxOf {ord : List (Nat × Nat)} {s : Byte} (hs : s ∈ ord.map fun x => toByte x.2) :
    ∃ x, ord[(ord.map fun x => toByte x.2).idxOf s]? = some x ∧ toByte x.2 = s := by
  have hat := List.getElem?_idxOf hs
  rw [List.getElem?_map] at hat
  exact Option.map_eq_some_iff.1 hat

theorem rankOrder_perm (cnt : Sparse Nat) : (rankOrder cnt).Perm (liveSyms cnt) := List.perm_insertionSort _ _

section
variable {cnt : Sparse Nat} (pick : ChainsawPick)

/-- The symbols with their lengths, in canonical order. -/
def hrOrder (pick : ChainsawPick) (cnt : Sparse Nat) : List (Nat × Nat) :=
  canonicalOrder (lengthsByRank (codeCounts pick cnt) 1 (rankOrder cnt))

/-- The symbols in canonical order. -/
def hrSyms (pick : ChainsawPick) (cnt : Sparse Nat) : List Byte := (hrOrder pick cnt).map fun x => toByte x.2

theorem toByte_injOn {a b : Nat} (ha : a < 256) (hb : b < 256) (h : toByte a = toByte b) : a = b := by
  have := congrArg BitVec.toNat h
  rwa [toNat_toByte, toNat_toByte, Nat.mod_eq_of_lt ha, Nat.mod_eq_of_lt hb] at this

variable (hne : liveSyms cnt ≠ [])
include hne

theorem boundedCode_codeCounts :
    ∃ bl, BoundedCode (liveSyms cnt).length bl ∧ codeCounts pick cnt = sentCounts bl :=
  ⟨_, boundedCode_chainsaw (huffDepths_good hne) pick, codeCounts_eq pick cnt⟩

theorem sum_codeCounts : (codeCounts pick cnt).sum = (rankOrder cnt).length := by
  obtain ⟨bl, hbl, heq⟩ := boundedCode_codeCounts pick hne
  rw [heq, hbl.sum_sentCounts, (rankOrder_perm cnt).length_eq]

theorem hrOrder_perm : ((hrOrder pick cnt).map Prod.snd).Perm (liveSyms cnt) :=
  (map_snd_canonicalOrder (sum_codeCounts pick hne)).trans (rankOrder_perm cnt)

theorem mem_hrSyms {s : Byte} : s ∈ hrSyms pick cnt ↔ 0 < cnt.getD 0 s.toNat := by
  have hmap : hrSyms pick cnt = ((hrOrder pick cnt).map Prod.snd).map toByte := by rw [List.map_map]; rfl
  rw [hmap, ((hrOrder_perm pick hne).map toByte).mem_iff, List.mem_map]
  constructor
  · rintro ⟨a, ha, rfl⟩
    obtain ⟨hlt, hpos⟩ := mem_liveSyms.1 ha
    rwa [toNat_toByte, Nat.mod_eq_of_lt hlt]
  · exact fun hpos => ⟨s.toNat, mem_liveSyms.2 ⟨s.isLt, hpos⟩, toByte_toNat s⟩

theorem nodup_hrSyms : (hrSyms pick cnt).Nodup := by
  have hmap : hrSyms pick cnt = ((hrOrder pick cnt).map Prod.snd).map toByte := by rw [List.map_map]; rfl
  rw [hmap, ((hrOrder_perm pick hne).map toByte).nodup_iff]
  exact (nodup_liveSyms cnt).map_on fun a ha b hb h =>
    toByte_injOn (mem_liveSyms.1 ha).1 (mem_liveSyms.1 hb).1 h

theorem length_hrSyms : (hrSyms pick cnt).length = (codeCounts pick cnt).sum := by
  have hlen := (hrOrder_perm pick hne).length_eq
  rw [List.length_map] at hlen
  rw [hrSyms, List.length_map, hlen, sum_codeCounts pick hne, (rankOrder_perm cnt).length_eq]

/-- The table of the encoder's code is valid when the clue is counted. -/
theorem valid_hrTab {clue : Byte} (hclue : 0 < cnt.getD 0 clue.toNat) :
    HrTab.Valid ⟨clue, (codeCounts pick cnt).length, codeCounts pick cnt, hrSyms pick cnt⟩ := by
  obtain ⟨bl, hbl, heq⟩ := boundedCode_codeCounts pick hne
  obtain ⟨h1, h15⟩ := hbl.length_sentCounts (List.length_pos_iff.2 hne)
  have hkraft := hbl.kraft_sentCounts
  rw [← heq] at h1 h15 hkraft
  exact valid_of_counts h1 h15 (length_hrSyms pick hne).symm (nodup_hrSyms pick hne) hkraft
    ((mem_hrSyms pick hne).2 hclue)

/-- Position by position the decoder's codes are those assigned. -/
theorem codeAt_hrOrder {m : Nat} {x : Nat × Nat} (hx : (hrOrder pick cnt)[m]? = some x) :
    HrTab.codeAt m (codeCounts pick cnt) 1 0 0 =
      some ((lenTable (hrOrder pick cnt) []).getD 0 x.2, (assignCodes 0 0 (hrOrder pick cnt) []).getD 0 x.2) := by
  have hnodup : ((hrOrder pick cnt).map Prod.snd).Nodup := (hrOrder_perm pick hne).nodup_iff.2 (nodup_liveSyms cnt)
  have hfst : (hrOrder pick cnt).map Prod.fst = lengthsOf 1 (codeCounts pick cnt) :=
    map_fst_canonicalOrder (sum_codeCounts pick hne).le
  have hm : m < (lengthsOf 1 (codeCounts pick cnt)).length := by
    rw [← hfst, List.length_map]
    exact (List.getElem?_eq_some_iff.1 hx).1
  obtain ⟨l, code, hat, hl, hcode⟩ := codeAt_eq (Nat.zero_le 1) (Nat.zero_mul _).symm 0 hm
  rw [Nat.zero_add] at hat
  have hassigned := assignCodes_getD hnodup 0 0 [] hx
  rw [hfst, hcode] at hassigned
  rw [← hfst, List.getElem?_map, hx] at hl
  rw [hat, lenTable_getD hnodup [] (List.mem_of_getElem? hx), Option.some.inj hl, Option.some.inj hassigned]

/-- The decoder's code of a symbol is its length and the code assigned to it. -/
theorem codeOf_hrSyms (clue : Byte) (maxlen : Nat) {s : Byte} (hs : s ∈ hrSyms pick cnt) :
    HrTab.codeOf ⟨clue, maxlen, codeCounts pick cnt, hrSyms pick cnt⟩ s =
      some ((lenTable (hrOrder pick cnt) []).getD 0 s.toNat, (assignCodes 0 0 (hrOrder pick cnt) []).getD 0 s.toNat) := by
  rw [codeOf_of_mem hs]
  unfold hrSyms at hs ⊢
  obtain ⟨x, hx, hsym⟩ := exists_at_idxOf hs
  have hlive : x.2 ∈ liveSyms cnt :=
    (hrOrder_perm pick hne).mem_iff.1 (List.mem_map_of_mem (List.mem_of_getElem? hx))
  have hval : x.2 = s.toNat := by
    rw [← hsym, toNat_toByte, Nat.mod_eq_of_lt (mem_liveSyms.1 hlive).1]
  rw [← hval]
  exact codeAt_hrOrder pick hne hx

end

end Sys2Proof.Machine
end

section
/-! What the Huffman encoder writes (45 R350, R383): the table and the items, bit by bit as the decoder reads them. -/

namespace Sys2Proof.Machine

/-! ## Counts -/

theorem countBytes_eq_btFreq (bs : List Byte) (t : Sparse Nat) : countBytes bs t = btFreq bs t := by
  induction bs generalizing t with
  | nil => rfl
  | cons b bs ih => exact ih _

/-- A token's symbol is counted, and so is the clue of the end item (45 R382). -/
theorem hrCounts_pos {clue : Byte} {toks : List HrTok} {s : Byte} (h : s = clue ∨ ∃ t ∈ toks, tokSym clue t = s) :
    0 < (hrCounts clue toks).getD 0 s.toNat := by
  rw [hrCounts, countBytes_eq_btFreq]
  refine getD_btFreq_pos (.inl (List.mem_append.2 ?_))
  rcases h with rfl | ⟨t, ht, rfl⟩
  · exact .inr List.mem_cons_self
  · exact .inl (List.mem_map_of_mem ht)

theorem liveSyms_hrCounts_ne_nil (clue : Byte) (toks : List HrTok) : liveSyms (hrCounts clue toks) ≠ [] :=
  List.ne_nil_of_mem (mem_liveSyms.2 ⟨clue.isLt, hrCounts_pos (.inl rfl)⟩)

/-! ## The encoder state -/

section
variable (passes runMin : Nat) (pick : ChainsawPick) (data : List Byte)

/-- The tokens of a filtered input. -/
def hrToksOf (runMin : Nat) (data : List Byte) : List HrTok := hrTokens (hrClue data) runMin data.length data

/-- The counts of a filtered input. -/
def hrCntOf (runMin : Nat) (data : List Byte) : Sparse Nat := hrCounts (hrClue data) (hrToksOf runMin data)

theorem hrBuild_tab : (hrBuild passes runMin pick data).tab =
    ⟨hrClue data, (codeCounts pick (hrCntOf runMin data)).length, codeCounts pick (hrCntOf runMin data),
      hrSyms pick (hrCntOf runMin data)⟩ := by
  unfold hrBuild
  rfl

theorem hrBuild_len : (hrBuild passes runMin pick data).len = lenTable (hrOrder pick (hrCntOf runMin data)) [] := by
  simp only [hrBuild, hrOrder, hrCntOf, hrToksOf]

theorem hrBuild_code :
    (hrBuild passes runMin pick data).code = assignCodes 0 0 (hrOrder pick (hrCntOf runMin data)) [] := by
  simp only [hrBuild, hrOrder, hrCntOf, hrToksOf]

theorem hrBuild_data : (hrBuild passes runMin pick data).data = data := by
  unfold hrBuild
  rfl

/-- The encoder's code (45 R370 to R375) is the one the decoder works out of the table. -/
theorem hrCoded_hrBuild : HrCoded (hrBuild passes runMin pick data) := by
  have hne := liveSyms_hrCounts_ne_nil (hrClue data) (hrToksOf runMin data)
  refine ⟨?_, fun s hs => ?_⟩
  · rw [hrBuild_tab]
    exact valid_hrTab pick hne (hrCounts_pos (.inl rfl))
  · rw [hrBuild_tab] at hs ⊢
    dsimp only at hs
    rw [hrBuild_len, hrBuild_code]
    exact codeOf_hrSyms pick hne _ _ hs

/-- Every token's symbol has a code, and so has the clue. -/
theorem mem_syms_hrBuild {s : Byte} (h : s = hrClue data ∨ ∃ t ∈ hrToksOf runMin data, tokSym (hrClue data) t = s) :
    s ∈ (hrBuild passes runMin pick data).tab.syms := by
  have hne : liveSyms (hrCntOf runMin data) ≠ [] := liveSyms_hrCounts_ne_nil (hrClue data) (hrToksOf runMin data)
  have hpos : 0 < (hrCntOf runMin data).getD 0 s.toNat := hrCounts_pos h
  rw [hrBuild_tab]
  dsimp only
  exact (mem_hrSyms pick hne).2 hpos

end

/-! ## The skips -/

/-- The encoder's walk counts the free values before the next symbol (45 R377). -/
theorem leapSkip_eq_freeBehind {assigned : Sparse Bool} {S : List Byte}
    (hS : ∀ b : Byte, assigned.getD false b.toNat = decide (b ∈ S)) {d f : Nat} (hd : d < f) (hd' : d < 256) (prev : Byte) :
    leapSkip assigned (prev + toByte (d + 1)).toNat f prev.toNat = freeBehind S prev d := by
  induction d generalizing f prev with
  | zero =>
    obtain ⟨f, rfl⟩ : ∃ g, f = g + 1 := ⟨f - 1, by omega⟩
    have hnext : (prev.toNat + 1) % 256 = (prev + toByte 1).toNat := by rw [BitVec.toNat_add, toNat_toByte]
    rw [leapSkip, hnext]
    exact if_pos rfl
  | succ d ih =>
    obtain ⟨f, rfl⟩ : ∃ g, f = g + 1 := ⟨f - 1, by omega⟩
    have hnext : (prev.toNat + 1) % 256 = (prev + 1).toNat := by rw [BitVec.toNat_add]; rfl
    have hshift : prev + toByte (d + 1 + 1) = prev + 1 + toByte (d + 1) := by
      rw [toByte_add (d + 1) 1, BitVec.add_assoc, BitVec.add_comm (toByte (d + 1))]
      rfl
    have hne : (prev + 1).toNat ≠ (prev + 1 + toByte (d + 1)).toNat := fun he => by
      have := BitVec.eq_of_toNat_eq he
      rw [← hshift] at this
      have := toByte_succ_injOn (i := 0) (j := d + 1) (by decide) hd' ((BitVec.add_right_inj prev).1 this)
      omega
    rw [hshift, leapSkip, hnext]
    rw [if_neg hne, ih (by omega) (by omega), hS, freeBehind_succ']
    simp only [decide_eq_true_eq]

theorem leapSkip_le (assigned : Sparse Bool) (s f t : Nat) : leapSkip assigned s f t ≤ f := by
  induction f generalizing t with
  | zero => exact le_rfl
  | succ f ih =>
    have := ih ((t + 1) % 256)
    unfold leapSkip
    dsimp only
    split_ifs <;> omega

theorem leapSkips_le (ss : List Byte) (assigned : Sparse Bool) (cur : Nat) :
    ∀ v ∈ (leapSkips ss assigned cur).1, v ≤ 65534 := by
  induction ss generalizing assigned cur with
  | nil => nofun
  | cons s ss ih =>
    exact List.forall_mem_cons.2 ⟨(leapSkip_le _ _ 256 _).trans (by decide), ih _ _⟩

/-- The skips written are those of the leapfrog order (45 R377, R397). -/
theorem numsBits_leapSkips (syms more : List Byte) :
    hrSkipBits syms ++ numsBits (leapSkips more (leapOf syms).assigned (leapOf syms).cur).1 =
      hrSkipBits (syms ++ more) := by
  induction more generalizing syms with
  | nil => rw [List.append_nil]; exact List.append_nil _
  | cons s more ih =>
    obtain ⟨d, hd, rfl⟩ := exists_dist (lastSym syms) s
    have hskip : leapSkip (leapOf syms).assigned (lastSym syms + toByte (d + 1)).toNat 256 (leapOf syms).cur =
        leapfrogSkip (syms ++ [lastSym syms + toByte (d + 1)]) syms.length := by
      rw [leapfrogSkip_concat syms hd]
      exact leapSkip_eq_freeBehind (assigned_leapOf syms) hd hd _
    have hrest := ih (syms ++ [lastSym syms + toByte (d + 1)])
    rw [hrSkipBits_concat, ← hskip, leapOf_concat, List.append_assoc, List.append_assoc] at hrest
    exact hrest

/-! ## The table -/

section
variable {bs : List Bool} {w : BitSink}

/-- Clue, longest length, counts and skips are the table's bits (30 R145). -/
theorem Wrote.hrTable {t : HrTab} (ht : t.Valid) (h : Wrote bs w) :
    Wrote (bs ++ hrTableBits t)
      (Machine.putNums (leapSkips t.syms [] 255).1 (Machine.putNums t.bl ((w.put 8 t.clue.toNat).put 4 t.maxlen))) := by
  have hmax : t.maxlen ≤ 15 := ht.maxlen_le
  have hhead := (h.put (nb := 8) (by decide) t.clue.isLt).put (nb := 4) (v := t.maxlen) (by decide) (by omega)
  have hall := (hhead.putNums ht.countsGood.le_max).putNums (leapSkips_le t.syms [] 255)
  have hskips : numsBits (leapSkips t.syms [] 255).1 = hrSkipBits t.syms := numsBits_leapSkips [] t.syms
  rw [hskips] at hall
  simpa only [hrTableBits, hrHeadBits, List.append_assoc] using hall

/-! ## The items -/

theorem length_le_of_codeAt {m len first idx l code : Nat} {ns : List Nat}
    (h : HrTab.codeAt m ns len first idx = some (l, code)) : l < len + ns.length := by
  induction ns generalizing len first idx with
  | nil => cases h
  | cons n ns ih =>
    rw [List.length_cons]
    rcases Nat.lt_or_ge m (idx + n) with hm | hm
    · rw [codeAt_cons_of_lt hm] at h
      cases h
      omega
    · rw [codeAt_cons_of_ge hm] at h
      have := ih h
      omega

/-- A code has at most 15 bits, and fits them. -/
theorem code_bounds {t : HrTab} (ht : t.Valid) {s : Byte} {l code : Nat} (h : t.codeOf s = some (l, code)) :
    l ≤ 15 ∧ code < 2 ^ l := by
  obtain ⟨-, hat⟩ := HrTab.codeOf_eq_some h
  have hl := length_le_of_codeAt hat
  have hmax : t.maxlen ≤ 15 := ht.maxlen_le
  rw [ht.length_bl] at hl
  refine ⟨by omega, code_lt_of_codeAt hat (Nat.zero_le _) ?_⟩
  rw [ht.length_bl, Nat.zero_mul, Nat.zero_add, Nat.pow_add, Nat.pow_one]
  exact Nat.mul_le_mul_left _ ht.kraft_le

variable {hr : HrCtx} (hc : HrCoded hr)
include hc

theorem Wrote.hrPutCode (h : Wrote bs w) {s : Byte} (hs : s ∈ hr.tab.syms) :
    Wrote (bs ++ hrCodeBits hr.tab s) (hrPutCode hr s w) := by
  have hcode := hc.code s hs
  obtain ⟨hl, hlt⟩ := code_bounds hc.valid hcode
  rw [hrCodeBits, hcode]
  exact h.put (by omega) hlt

/-- The item a token is written as (45 R383). -/
def tokItem : HrTok → Instr
  | .lit s => .hrLit s
  | .esc b => .hrEsc b
  | .run r => .hrRun r

/-- The bits of tokens. -/
def toksBits (t : HrTab) (toks : List HrTok) : List Bool := toks.flatMap fun tok => encodeHr t (tokItem tok)

theorem Wrote.hrPutTok (h : Wrote bs w) {tok : HrTok} (hs : tokSym hr.tab.clue tok ∈ hr.tab.syms)
    (hrun : ∀ r, tok = .run r → r ≤ 65534) :
    Wrote (bs ++ encodeHr hr.tab (tokItem tok)) (hrPutTok hr w tok) := by
  cases tok with
  | lit s => exact h.hrPutCode hc hs
  | run r =>
    have hall := (h.hrPutCode hc hs).putNum (hrun r rfl)
    rwa [List.append_assoc] at hall
  | esc b =>
    have hall := (((h.hrPutCode hc hs).putNum (v := 0) (by decide)).put (nb := 1) (v := 0) (by decide) (by decide)).put
      (nb := 8) (by decide) b.isLt
    simp only [List.append_assoc] at hall
    simp only [tokItem, encodeHr, List.append_assoc]
    exact hall

theorem Wrote.hrPutToks {toks : List HrTok} (h : Wrote bs w) (hs : ∀ tok ∈ toks, tokSym hr.tab.clue tok ∈ hr.tab.syms)
    (hrun : ∀ r, HrTok.run r ∈ toks → r ≤ 65534) :
    Wrote (bs ++ toksBits hr.tab toks) (hrPutToks hr toks w) := by
  induction toks generalizing bs w with
  | nil => rwa [show toksBits hr.tab [] = [] from rfl, List.append_nil]
  | cons tok toks ih =>
    obtain ⟨hfirst, hrest⟩ := List.forall_mem_cons.1 hs
    have htok := h.hrPutTok hc hfirst fun r he => hrun r (he ▸ List.mem_cons_self)
    have hall := ih htok hrest fun r hr => hrun r (List.mem_cons_of_mem _ hr)
    rwa [List.append_assoc] at hall

/-- The end item and the flush (45 R350). -/
theorem Wrote.hrEnd (h : Wrote bs w) :
    ∃ pad, bytesBits (((Machine.hrPutCode hr hr.tab.clue w).putNum 0).put 1 1).flush.out =
      bs ++ (encodeHr hr.tab .hrEof ++ pad) := by
  obtain ⟨pad, hpad⟩ := (((h.hrPutCode hc hc.valid.clue_mem).putNum (v := 0) (by decide)).put (nb := 1) (v := 1) (by decide)
    (by decide)).flush
  refine ⟨pad, hpad.trans ?_⟩
  simp only [encodeHr, List.append_assoc]
  rfl

end

end Sys2Proof.Machine
end

section
/-! The Huffman-with-Runlength round trip (45 R405): each token puts out its stretch of the filtered input, and the end of
the stream undoes the filter. -/

namespace Sys2Proof.Machine

/-! ## The delta filter -/

theorem undeltaFrom_deltaFrom (prev : Byte) (x : List Byte) : undeltaFrom prev (deltaFrom prev x) = x := by
  induction x generalizing prev with
  | nil => rfl
  | cons b bs ih => rw [deltaFrom, undeltaFrom, BitVec.sub_add_cancel, ih]

theorem deltaInverse_deltaForward (x : List Byte) : deltaInverse (deltaForward x) = x := undeltaFrom_deltaFrom 0 x

theorem deltaPasses_deltaForward (k : Nat) (x : List Byte) :
    deltaPasses k (deltaForward x) = deltaForward (deltaPasses k x) := by
  induction k generalizing x with
  | zero => rfl
  | succ k ih => exact ih (deltaForward x)

/-- The inverse filter undoes the filter (45 R353). -/
theorem deltaUndo_deltaPasses (k : Nat) (x : List Byte) : deltaUndo k (deltaPasses k x) = x := by
  induction k with
  | zero => rfl
  | succ k ih => rw [deltaPasses, deltaUndo, deltaPasses_deltaForward, deltaInverse_deltaForward, ih]

theorem length_deltaFrom (prev : Byte) (x : List Byte) : (deltaFrom prev x).length = x.length := by
  induction x generalizing prev with
  | nil => rfl
  | cons b bs ih => rw [deltaFrom, List.length_cons, ih, List.length_cons]

theorem length_deltaPasses (k : Nat) (x : List Byte) : (deltaPasses k x).length = x.length := by
  induction k generalizing x with
  | zero => rfl
  | succ k ih => rw [deltaPasses, ih, deltaForward, length_deltaFrom]

theorem length_undeltaFrom (prev : Byte) (x : List Byte) : (undeltaFrom prev x).length = x.length := by
  induction x generalizing prev with
  | nil => rfl
  | cons b bs ih => rw [undeltaFrom, List.length_cons, ih, List.length_cons]

theorem length_deltaUndo (k : Nat) (x : List Byte) : (deltaUndo k x).length = x.length := by
  induction k generalizing x with
  | zero => rfl
  | succ k ih => rw [deltaUndo, ih, deltaInverse, length_undeltaFrom]

/-! ## Tokens -/

theorem runLen_spec (b : Byte) (cap : Nat) (bs : List Byte) :
    runLen b cap bs ≤ cap ∧ bs = List.replicate (runLen b cap bs) b ++ bs.drop (runLen b cap bs) := by
  induction cap generalizing bs with
  | zero => cases bs <;> exact ⟨le_rfl, rfl⟩
  | succ k ih =>
    cases bs with
    | nil => exact ⟨Nat.zero_le _, rfl⟩
    | cons c cs =>
      unfold runLen
      split_ifs with hc
      · obtain ⟨hle, hcs⟩ := ih cs
        refine ⟨Nat.succ_le_succ hle, ?_⟩
        rw [List.replicate_succ, List.cons_append, List.drop_succ_cons, ← hcs, hc]
      · exact ⟨Nat.zero_le _, rfl⟩

/-- A token as the encoder makes it: the clue is escaped, and a run has 1 to 30,000 bytes (45 R380). -/
def TokOk (clue : Byte) : HrTok → Prop
  | .lit s => s ≠ clue
  | .esc b => b = clue
  | .run r => 1 ≤ r ∧ r ≤ 30000

/-- The token of one byte. -/
def byteTok (clue b : Byte) : HrTok := if b = clue then .esc b else .lit b

theorem hrTokens_cons (clue : Byte) (runMin f : Nat) (b : Byte) (bs : List Byte) :
    hrTokens clue runMin (f + 1) (b :: bs) =
      if runMin ≤ runLen b Config.hrRunCap bs then
        byteTok clue b :: .run (runLen b Config.hrRunCap bs) ::
          hrTokens clue runMin f (bs.drop (runLen b Config.hrRunCap bs))
      else byteTok clue b :: hrTokens clue runMin f bs := rfl

theorem tokOk_byteTok (clue b : Byte) : TokOk clue (byteTok clue b) := by
  unfold byteTok
  split_ifs with h
  · exact h
  · exact h

theorem tokOk_of_mem {clue : Byte} {runMin f : Nat} (hmin : 1 ≤ runMin) {bs : List Byte} :
    ∀ tok ∈ hrTokens clue runMin f bs, TokOk clue tok := by
  induction f generalizing bs with
  | zero => nofun
  | succ f ih =>
    cases bs with
    | nil => nofun
    | cons b bs =>
      rw [hrTokens_cons]
      split_ifs with hrun
      · exact List.forall_mem_cons.2 ⟨tokOk_byteTok clue b, List.forall_mem_cons.2
          ⟨⟨hmin.trans hrun, (runLen_spec b _ bs).1⟩, ih⟩⟩
      · exact List.forall_mem_cons.2 ⟨tokOk_byteTok clue b, ih⟩

theorem tokItem_wellFormed {t : HrTab} (ht : t.Valid) {tok : HrTok} (hok : TokOk t.clue tok)
    (hs : tokSym t.clue tok ∈ t.syms) : wellFormedHr t (tokItem tok) = true := by
  have hcode := ht.isSome_codeOf hs
  cases tok with
  | lit s => simpa [tokItem, wellFormedHr] using ⟨hok, hcode⟩
  | esc b => exact hcode
  | run r =>
    obtain ⟨h1, hle⟩ := hok
    simp only [tokItem, wellFormedHr, Bool.and_eq_true, decide_eq_true_eq]
    exact ⟨⟨h1, by omega⟩, hcode⟩

/-! ## The items decoded -/

/-- A Huffman `DECODE` of `n` bytes that has put out `xs`, with the bits `more` before it. -/
structure HrItems (t : HrTab) (passes n : Nat) (xs : List Byte) (more : List Bool) (s : State) : Prop where
  running : Running .hr s
  ulen : s.ctx.ulen = n
  ahead : Ahead more s
  output : Output xs s
  tab : s.ctx.hr.tab = t
  passes : s.ctx.hr.passes = passes

section
variable {t : HrTab} {passes n : Nat} {xs : List Byte} {more : List Bool} {s : State}

theorem HrItems.item {i : Instr} (ht : t.Valid) (hi : wellFormedHr t i = true)
    (h : HrItems t passes n xs (encodeHr t i ++ more) s) : ∃ u, step s = exec i u ∧ HrItems t passes n xs more u := by
  obtain ⟨r, hr, hmore⟩ := h.ahead.read (ht.reads_decodeHr hi) (decodeHr_readsFrom _ _)
  rw [← h.tab] at hr
  exact ⟨_, step_hr h.running.start h.running.decoding hr, h.running.of_workingOn ⟨_, _, _, rfl⟩, h.ulen, hmore,
    h.output, h.tab, h.passes⟩

theorem HrItems.emitted (h : HrItems t passes n xs more s) (ys : List Byte) :
    HrItems t passes n (xs ++ ys) more (emitted ys s) :=
  ⟨h.running.of_workingOn ⟨_, _, _, rfl⟩, h.ulen, h.ahead.of_eq rfl, h.output.emitted ys, h.tab, h.passes⟩

theorem HrItems.emit (h : HrItems t passes n xs more s) {i : Instr} {b : Byte}
    (hexec : exec i s = streamOp .hr s (emit b)) (hroom : xs.length < n) :
    ∃ u, exec i s = .next u ∧ HrItems t passes n (xs ++ [b]) more u := by
  refine ⟨_, ?_, h.emitted [b]⟩
  have hlt : s.ctx.dp < s.ctx.ulen := by rwa [h.output.1, h.ulen]
  rw [hexec, streamOp_decoding _ h.running.decoding, emit_of_lt hlt, outcome_cont]

/-- A run repeats the last byte (45 R400). -/
theorem HrItems.run {b : Byte} (h : HrItems t passes n (xs ++ [b]) more s) {k : Nat} (hroom : xs.length + 1 + k ≤ n) :
    ∃ u, exec (.hrRun k) s = .next u ∧ HrItems t passes n (xs ++ [b] ++ List.replicate k b) more u := by
  refine ⟨_, ?_, h.emitted (List.replicate k b)⟩
  have hdp : s.ctx.dp = xs.length + 1 := h.output.1.trans (by rw [List.length_append, List.length_singleton])
  have hlast : s.dst.read (s.ctx.dp - 1) = b := by
    have hread := h.output.read (i := xs.length) (by rw [List.length_append]; exact Nat.lt_succ_self _)
    rw [List.getElem?_concat_length] at hread
    rw [hdp, Nat.add_sub_cancel]
    exact (Option.some.inj hread).symm
  show execHrRun k s = _
  rw [execHrRun, streamOp_decoding _ h.running.decoding, hrRunOp, if_neg (by omega), hlast,
    emitRun_ok b k (by rw [hdp, h.ulen]; exact hroom), outcome_cont]

theorem exec_byteTok (clue b : Byte) (s : State) : exec (tokItem (byteTok clue b)) s = streamOp .hr s (emit b) := by
  unfold byteTok
  split_ifs <;> rfl

theorem toksBits_cons (t : HrTab) (tok : HrTok) (toks : List HrTok) :
    toksBits t (tok :: toks) = encodeHr t (tokItem tok) ++ toksBits t toks := List.flatMap_cons

theorem byteTok_decodes (ht : t.Valid) {b : Byte} (hs : tokSym t.clue (byteTok t.clue b) ∈ t.syms) (hroom : xs.length < n) :
    Leads (HrItems t passes n xs (encodeHr t (tokItem (byteTok t.clue b)) ++ more))
      (HrItems t passes n (xs ++ [b]) more) := Leads.of_step fun _ h => by
  obtain ⟨u, hu, hitems⟩ := h.item ht (tokItem_wellFormed ht (tokOk_byteTok _ b) hs)
  obtain ⟨w, hw, hitems'⟩ := hitems.emit (exec_byteTok _ b u) hroom
  exact ⟨w, hu.trans hw, hitems'⟩

theorem run_decodes (ht : t.Valid) {b : Byte} {k : Nat} (hok : TokOk t.clue (.run k)) (hs : t.clue ∈ t.syms)
    (hroom : xs.length + 1 + k ≤ n) :
    Leads (HrItems t passes n (xs ++ [b]) (encodeHr t (tokItem (.run k)) ++ more))
      (HrItems t passes n (xs ++ [b] ++ List.replicate k b) more) := Leads.of_step fun _ h => by
  obtain ⟨u, hu, hitems⟩ := h.item ht (tokItem_wellFormed ht hok hs)
  obtain ⟨w, hw, hitems'⟩ := hitems.run hroom
  exact ⟨w, hu.trans hw, hitems'⟩

/-- The tokens put out the bytes they stand for. -/
theorem hrTokens_decode (ht : t.Valid) {runMin : Nat} (hmin : 1 ≤ runMin) {f : Nat} {bs : List Byte} (hf : bs.length ≤ f)
    (hroom : xs.length + bs.length ≤ n) (hs : ∀ tok ∈ hrTokens t.clue runMin f bs, tokSym t.clue tok ∈ t.syms) :
    Leads (HrItems t passes n xs (toksBits t (hrTokens t.clue runMin f bs) ++ more))
      (HrItems t passes n (xs ++ bs) more) := by
  have hok := tokOk_of_mem (clue := t.clue) (f := f) hmin (bs := bs)
  induction f generalizing xs bs with
  | zero =>
    obtain rfl := List.eq_nil_of_length_eq_zero (Nat.le_zero.1 hf)
    rw [List.append_nil]
    exact .refl _
  | succ f ih =>
    cases bs with
    | nil =>
      rw [List.append_nil]
      exact .refl _
    | cons b bs =>
      rw [List.length_cons] at hf hroom
      rw [hrTokens_cons] at hs hok ⊢
      split_ifs at hs hok ⊢ with hrun
      · obtain ⟨hbs, hs⟩ := List.forall_mem_cons.1 hs
        obtain ⟨hrs, hs⟩ := List.forall_mem_cons.1 hs
        obtain ⟨-, hok⟩ := List.forall_mem_cons.1 hok
        obtain ⟨hrok, hok⟩ := List.forall_mem_cons.1 hok
        obtain ⟨-, hsplit⟩ := runLen_spec b Config.hrRunCap bs
        generalize runLen b Config.hrRunCap bs = k at *
        have hlen := congrArg List.length hsplit
        rw [List.length_append, List.length_replicate] at hlen
        have hall : xs ++ [b] ++ List.replicate k b ++ bs.drop k = xs ++ b :: bs := by
          rw [List.append_assoc, ← hsplit, List.append_assoc, List.singleton_append]
        rw [toksBits_cons, toksBits_cons, List.append_assoc, List.append_assoc, ← hall]
        refine ((byteTok_decodes ht hbs (by omega)).trans (run_decodes ht hrok hrs (by omega))).trans
          (ih (by omega) ?_ hs hok)
        simp only [List.length_append, List.length_singleton, List.length_replicate]
        omega
      · obtain ⟨hbs, hs⟩ := List.forall_mem_cons.1 hs
        obtain ⟨-, hok⟩ := List.forall_mem_cons.1 hok
        rw [toksBits_cons, List.append_assoc, List.append_cons xs]
        refine (byteTok_decodes ht hbs (by omega)).trans (ih (by omega) ?_ hs hok)
        rw [List.length_append, List.length_singleton]
        omega

/-- The end item undoes the filter on all that was put out (45 R393, R402). -/
theorem hrEof_ends (ht : t.Valid) (hn : xs.length = n) :
    Leads (HrItems t passes n xs (encodeHr t .hrEof ++ more)) (EndedWith (deltaUndo passes xs)) :=
  Leads.of_step fun s h => by
    obtain ⟨u, hu, hitems⟩ := h.item ht (show wellFormedHr t .hrEof = true from ht.isSome_codeOf ht.clue_mem)
    obtain ⟨hdp, hdst⟩ := hitems.output
    have hulen : u.ctx.ulen = xs.length := hitems.ulen.trans hn.symm
    have hout : Output (deltaUndo passes xs) (undoDelta u) := by
      refine ⟨hdp.trans (length_deltaUndo _ _).symm, ?_⟩
      · show (u.dst.writeList 0 (deltaUndo u.ctx.hr.passes (u.dst.bytesFrom 0 u.ctx.ulen))).bytesFrom 0 _ = _
        rw [hulen, hdst, hitems.passes]
        exact Memory.bytesFrom_writeList _ _ _
    refine ⟨finish (undoDelta u), ?_, hout.endedWith (hitems.running.clear.workingOn ⟨_, _, _, rfl⟩)⟩
    rw [hu]
    show execHrEof u = _
    rw [execHrEof, streamOp_decoding _ hitems.running.decoding, endHeaded, if_pos (hdp.trans hulen.symm), outcome_ended]

end

/-! ## The stream -/

/-- The bits `HR_ENCODE` writes behind the header (45 R350). -/
def hrBits (h : HrCtx) (toks : List HrTok) (pad : List Bool) : List Bool :=
  hrTableBits h.tab ++ (toksBits h.tab toks ++ (encodeHr h.tab .hrEof ++ pad))

/-- What `hrBody` writes behind the bytes `w`. -/
theorem hrBody_bits {h : HrCtx} (hc : HrCoded h) {runMin : Nat} (hmin : 1 ≤ runMin)
    (hs : ∀ tok ∈ hrTokens h.tab.clue runMin h.data.length h.data, tokSym h.tab.clue tok ∈ h.tab.syms) (w : List Byte) :
    ∃ body pad, (hrBody h runMin ⟨0, 0, w⟩).out = w ++ body ∧
      bytesBits body = hrBits h (hrTokens h.tab.clue runMin h.data.length h.data) pad := by
  obtain ⟨body, hbody⟩ := out_prefix_hrBody h runMin ⟨0, 0, w⟩
  have htoks := ((wrote_start w).hrTable hc.valid).hrPutToks hc hs fun r hr =>
    (tokOk_of_mem hmin (.run r) hr).2.trans (by decide)
  obtain ⟨pad, hpad⟩ := htoks.hrEnd hc
  refine ⟨body, pad, hbody.symm, ?_⟩
  have hall : bytesBits (w ++ body) = _ := (congrArg bytesBits hbody).trans hpad
  rw [bytesBits_append, List.append_assoc, List.append_assoc] at hall
  exact List.append_cancel_left hall

/-- Behind its table the stream decodes to the filtered input, and then to the input. -/
theorem hrStream_decodes {h : HrCtx} (hc : HrCoded h) {runMin passes : Nat} (hmin : 1 ≤ runMin)
    (hs : ∀ tok ∈ hrTokens h.tab.clue runMin h.data.length h.data, tokSym h.tab.clue tok ∈ h.tab.syms) (pad : List Bool) :
    Leads (HrItems h.tab passes h.data.length []
        (toksBits h.tab (hrTokens h.tab.clue runMin h.data.length h.data) ++ (encodeHr h.tab .hrEof ++ pad)))
      (EndedWith (deltaUndo passes h.data)) :=
  (hrTokens_decode hc.valid hmin le_rfl (Nat.zero_add _).le hs).trans (hrEof_ends hc.valid rfl)

theorem hrEncode_out (passes runMin : Nat) (pick : ChainsawPick) (input : List Byte) :
    (hrEncode passes runMin pick input).2 =
      (hrBody (hrBuild passes runMin pick (deltaPasses passes input)) runMin
        ⟨0, 0, hrHeaderBytes passes input.length⟩).out := by simp only [hrEncode]

/-- Settles O59: the table is read, each token puts out its stretch of the filtered input, and the end undoes the filter. -/
theorem huffmanRoundTrip : Obligations.HuffmanRoundTrip := by
  intro passes runMin pick input s hpasses hmin hb hd hlegal hmax hlen
  obtain ⟨h, hh⟩ : ∃ h, h = hrBuild passes runMin pick (deltaPasses passes input) := ⟨_, rfl⟩
  have hcoded : HrCoded h := hh ▸ hrCoded_hrBuild passes runMin pick _
  have hdata : h.data = deltaPasses passes input := hh ▸ hrBuild_data passes runMin pick _
  have hclue : h.tab.clue = hrClue h.data := by rw [hdata, hh, hrBuild_tab]
  have hsyms : ∀ tok ∈ hrTokens h.tab.clue runMin h.data.length h.data, tokSym h.tab.clue tok ∈ h.tab.syms := by
    rw [hclue, hdata, hh]
    exact fun tok htok => mem_syms_hrBuild passes runMin pick _ (.inr ⟨tok, htok, rfl⟩)
  have hn : h.data.length = input.length := by rw [hdata, length_deltaPasses]
  obtain ⟨-, hmax32, -⟩ := hlegal
  obtain ⟨magic, hmagic, hheader, hmpasses⟩ := hrHeaderBytes_plain hpasses (hmax.trans_lt hmax32)
  obtain ⟨body, pad, hout, hbits⟩ := hrBody_bits hcoded hmin hsyms (plainHeader magic input.length)
  have hstream : (hrEncode passes runMin pick input).2 = plainHeader magic input.length ++ body := by
    rw [hrEncode_out, ← hh, hheader, hout]
  rw [hstream] at hlen ⊢
  have hparsed := loaded_header (s := s) 4 hmagic hlen hmax
  have hahead := (unread_behindHeader (s := s) (c := .hr) hlen (h := ⟨magic, input.length, 2 + lengthWidth magic⟩)
    (length_plainHeader _ _).symm).ahead rfl rfl
  rw [hbits] at hahead
  obtain ⟨r, hr, hmore⟩ := hahead.read hcoded.valid.reads_getHrTab (getHrTab_readsFrom _)
  have hundo : deltaUndo passes h.data = input := by rw [hdata, deltaUndo_deltaPasses]
  have hrun := hrStream_decodes hcoded (passes := passes) hmin hsyms pad
  rw [hundo] at hrun
  refine loaded_endedWith hb hd (decodeHrOp_ok hparsed hr)
    ⟨(running_beginOp _ _).of_workingOn ⟨_, _, _, rfl⟩, hn.symm, hmore.of_eq rfl, ⟨rfl, rfl⟩, rfl, ?_⟩ hrun
  show (BitVec.ofNat 16 magic).toNat / 512 % 4 = passes
  rw [BitVec.toNat_ofNat, Nat.mod_eq_of_lt hmagic.lt, hmpasses]

end Sys2Proof.Machine
end

section
/-! PROOFS. Two decodes of one input side by side: what the model's shared operations make of two states that differ in the
configuration, the free values, the bytes of `SRC` behind `SRC_LEN` and the bytes of `DST` from `dp` on alone (40 R193). -/

namespace Sys2Proof.Machine

/-! ## Memories that agree below an address -/

/-- The memories hold the same bytes below `n`. -/
def AgreeBelow (n : Nat) (m m' : Memory) : Prop := ∀ a, a < n → m.read a = m'.read a

section
variable {n : Nat} {m m' : Memory}

theorem AgreeBelow.bytesFrom (h : AgreeBelow n m m') {a k : Nat} (hk : a + k ≤ n) : m.bytesFrom a k = m'.bytesFrom a k :=
  Memory.bytesFrom_congr fun b _ hb => h b (by omega)

theorem AgreeBelow.write (h : AgreeBelow n m m') (b : Byte) : AgreeBelow (n + 1) (m.write n b) (m'.write n b) :=
  fun a ha => by
    rw [Memory.read_write, Memory.read_write]
    split_ifs with hne
    · rfl
    · exact h a (by omega)

theorem AgreeBelow.writeList (h : AgreeBelow n m m') (k : Nat) (bs : List Byte) :
    AgreeBelow n (m.writeList k bs) (m'.writeList k bs) := fun a ha => by
  rw [Memory.read_writeList, Memory.read_writeList, h a ha]

theorem AgreeBelow.beVal (h : AgreeBelow n m m') {a k : Nat} (hk : a + k ≤ n) : beVal m a k = beVal m' a k := by
  induction k generalizing a with
  | zero => rfl
  | succ k ih => rw [Machine.beVal, Machine.beVal, h a (by omega), ih (by omega)]

theorem AgreeBelow.getBe (h : AgreeBelow n m m') (a k : Nat) : getBe m n a k = getBe m' n a k := by
  unfold Machine.getBe
  split_ifs with hk
  · rw [h.beVal hk]
  · rfl

theorem AgreeBelow.parseHeader (h : AgreeBelow n m m') (c : Codec) (maxLen : Nat) :
    parseHeader c m n maxLen = parseHeader c m' n maxLen := by
  unfold Machine.parseHeader
  rcases Nat.lt_or_ge n 2 with hn | hn
  · rw [if_pos hn, if_pos hn]
  · rw [if_neg (Nat.not_lt.2 hn), if_neg (Nat.not_lt.2 hn), h.beVal hn]
    simp only [h.getBe]

end

/-! ## The relations -/

/-- Two running decodes of one input: they differ in nothing that the rest of the decode reads. -/
def Twins (s t : State) : Prop :=
  (∃ cfg free src dst, t = { s with cfg := cfg, freeCount := free, src := src, dst := dst }) ∧
    s.start = false ∧ s.busy = true ∧ s.op = 4 ∧ s.dstLen = 0 ∧
    AgreeBelow s.srcLen.toNat s.src t.src ∧ AgreeBelow s.ctx.dp s.dst t.dst

/-- Two ended operations with one outcome. -/
structure EndedTwins (s t : State) : Prop where
  startLeft : s.start = false
  startRight : t.start = false
  busyLeft : s.busy = false
  busyRight : t.busy = false
  done : s.done = t.done
  status : s.status = t.status
  cause : s.cause = t.cause
  result : s.result = t.result
  dstLen : s.dstLen = t.dstLen
  diag : s.diag = t.diag
  dst : AgreeBelow s.dstLen.toNat s.dst t.dst

/-- Both pieces go on as twins or both have ended as twins. -/
def Flow.Twins : Flow → Flow → Prop
  | .cont s, .cont t => Machine.Twins s t
  | .ended s, .ended t => EndedTwins s t
  | _, _ => False

theorem Flow.Twins.andThen {f g : Flow} {k : State → Flow} (h : f.Twins g)
    (hk : ∀ u v, Machine.Twins u v → (k u).Twins (k v)) : (f.andThen k).Twins (g.andThen k) := by
  cases f with
  | cont u =>
    cases g with
    | cont v => exact hk u v h
    | ended v => exact h.elim
  | ended u =>
    cases g with
    | cont v => exact h.elim
    | ended v => exact h

/-! ## What twins share -/

namespace Twins

section
variable {s t : State} (h : Twins s t)
include h

theorem ctx : t.ctx = s.ctx := by obtain ⟨⟨_, _, _, _, rfl⟩, -⟩ := h; rfl

theorem params : t.params = s.params := by obtain ⟨⟨_, _, _, _, rfl⟩, -⟩ := h; rfl

theorem srcLen : t.srcLen = s.srcLen := by obtain ⟨⟨_, _, _, _, rfl⟩, -⟩ := h; rfl

theorem outLimit : t.outLimit = s.outLimit := by obtain ⟨⟨_, _, _, _, rfl⟩, -⟩ := h; rfl

theorem codecSel : t.codecSel = s.codecSel := by obtain ⟨⟨_, _, _, _, rfl⟩, -⟩ := h; rfl

theorem src : AgreeBelow s.srcLen.toNat s.src t.src := h.2.2.2.2.2.1

theorem dst : AgreeBelow s.ctx.dp s.dst t.dst := h.2.2.2.2.2.2

theorem reader : t.reader = s.reader := by
  have hrest : s.rest = t.rest := by
    unfold State.rest
    rw [h.ctx, h.srcLen]
    exact Memory.bytesFrom_congr fun b _ hb => h.src b (by omega)
  unfold State.reader
  rw [h.ctx, hrest]

theorem header (c : Codec) : t.header c = s.header c := by
  unfold State.header
  rw [h.srcLen, h.params, h.src.parseHeader]

theorem diagHere : diagHere t = diagHere s := by simp only [Machine.diagHere, h.ctx]

theorem diagLz (st : Stage) : diagLz st t = diagLz st s := by simp only [Machine.diagLz, h.ctx]

/-- An operation on the context that leaves the destination cursor. -/
theorem mapCtx (f : Ctx → Ctx) (hf : (f s.ctx).dp = s.ctx.dp) :
    Twins { s with ctx := f s.ctx } { t with ctx := f t.ctx } := by
  obtain ⟨⟨cfg, free, src, dst, rfl⟩, hstart, hbusy, hop, hlen, hsrc, hdst⟩ := h
  exact ⟨⟨cfg, free, src, dst, rfl⟩, hstart, hbusy, hop, hlen, hsrc, fun a ha => hdst a (hf ▸ ha)⟩

/-- An operation on the context and one byte written at the destination cursor. -/
theorem mapCtxWrite (f : Ctx → Ctx) (b : Byte) (hf : (f s.ctx).dp = s.ctx.dp + 1) :
    Twins { s with dst := s.dst.write s.ctx.dp b, ctx := f s.ctx }
      { t with dst := t.dst.write t.ctx.dp b, ctx := f t.ctx } := by
  obtain ⟨⟨cfg, free, src, dst, rfl⟩, hstart, hbusy, hop, hlen, hsrc, hdst⟩ := h
  exact ⟨⟨cfg, free, src, _, rfl⟩, hstart, hbusy, hop, hlen, hsrc, fun a ha => hdst.write b a (hf ▸ ha)⟩

theorem setReader (r : BitSrc) : Twins (s.setReader r) (t.setReader r) :=
  h.mapCtx (fun x => { x with sp := x.sp + r.used, acc := r.acc, nacc := r.nacc }) rfl

/-! ## The ends of an operation -/

theorem raise (c : Cause) (d : Diag) {m m' : Memory} {n n' : Nat} :
    EndedTwins (Machine.raise c d { s with dst := m, freeCount := n })
      (Machine.raise c d { t with dst := m', freeCount := n' }) := by
  obtain ⟨⟨cfg, free, src, dst, rfl⟩, hstart, -⟩ := h
  exact ⟨hstart, hstart, rfl, rfl, rfl, rfl, rfl, rfl, rfl, rfl, fun a ha => absurd ha (Nat.not_lt_zero a)⟩

theorem fail (c : Cause) : EndedTwins (fail c s) (fail c t) := by
  rw [Machine.fail, Machine.fail, h.diagHere]
  exact h.raise c _

theorem failLz (c : Cause) (st : Stage) : EndedTwins (failLz c st s) (failLz c st t) := by
  rw [Machine.failLz, Machine.failLz, h.diagLz]
  exact h.raise c _

theorem finish : EndedTwins (finish s) (finish t) := by
  obtain ⟨⟨cfg, free, src, dst, rfl⟩, hstart, -, -, -, -, hdst⟩ := h
  exact ⟨hstart, hstart, rfl, rfl, rfl, rfl, rfl, rfl, rfl, rfl,
    fun a ha => hdst a (Nat.lt_of_lt_of_le ha (Nat.mod_le _ _))⟩

/-! ## The shared operations -/

theorem emitRaw (b : Byte) : Twins (emitRaw b s) (emitRaw b t) := h.mapCtxWrite (fun x => { x with dp := x.dp + 1 }) b rfl

theorem emit (b : Byte) : (emit b s).Twins (emit b t) := by
  unfold Machine.emit
  rw [h.ctx]
  split_ifs
  · exact h.emitRaw b
  · exact h.fail _

theorem lzEmitRaw (b : Byte) : Twins (lzEmitRaw b s) (lzEmitRaw b t) := by
  obtain ⟨⟨_, _, _, _, rfl⟩, -⟩ := id h
  exact h.mapCtxWrite (fun x => { x with dp := x.dp + 1, lz := { x.lz with
    cbuf := x.lz.cbuf.write (x.lz.wp % s.params.lzSize) b, wp := x.lz.wp + 1 } }) b rfl

theorem lzEmit (b : Byte) : (lzEmit b s).Twins (lzEmit b t) := by
  unfold Machine.lzEmit
  rw [h.ctx, h.outLimit]
  split_ifs
  · exact h.lzEmitRaw b
  · exact h.failLz _ _

theorem fetchByte {k : Byte → State → Flow} (hk : ∀ b u v, Twins u v → (k b u).Twins (k b v)) :
    (fetchByte s k).Twins (fetchByte t k) := by
  rcases Nat.lt_or_ge s.ctx.sp s.srcLen.toNat with hlt | hge
  · have hbyte : t.src.read t.ctx.sp = s.src.read s.ctx.sp := by rw [h.ctx, h.src _ hlt]
    rw [fetchByte_of_lt k hlt, fetchByte_of_lt k (by rwa [h.ctx, h.srcLen]), hbyte]
    exact hk _ _ _ (h.mapCtx (fun x => { x with sp := x.sp + 1 }) rfl)
  · rw [fetchByte_of_ge k hge, fetchByte_of_ge k (by rwa [h.ctx, h.srcLen])]
    exact h.fail _

theorem endHeaded {k : State → Flow} (hk : s.ctx.dp = s.ctx.ulen → (k s).Twins (k t)) :
    (endHeaded s k).Twins (endHeaded t k) := by
  unfold Machine.endHeaded
  rw [h.ctx]
  split_ifs with hdp
  · exact hk hdp
  · exact h.fail _

theorem readHeader (c : Codec) {k : State → Flow} (hk : ∀ u v, Twins u v → (k u).Twins (k v)) :
    (readHeader c s k).Twins (readHeader c t k) := by
  unfold Machine.readHeader
  rw [h.header]
  cases s.header c with
  | error e => exact (h.mapCtx (fun x => { x with sp := e.2 }) rfl).fail _
  | ok hd =>
    exact hk _ _ (h.mapCtx (fun x =>
      { x with sp := hd.bodyAt, magic := BitVec.ofNat 16 hd.magic, ulen := hd.ulen }) rfl)

end

section
variable {s t : State}

theorem lits (n : Nat) (h : Twins s t) : (lits n s).Twins (lits n t) := by
  induction n generalizing s t with
  | zero => exact h
  | succ n ih => exact h.fetchByte fun b _ _ h => (h.emit b).andThen fun _ _ => ih

/-- A copy reads bytes already put out, below the destination cursor. -/
theorem copyLoop {D : Nat} (hD : 1 ≤ D) (n : Nat) (h : Twins s t) (hdp : 0 < s.ctx.dp) :
    (copyLoop D n s).Twins (copyLoop D n t) := by
  induction n generalizing s t with
  | zero => exact h
  | succ n ih =>
    rw [Machine.copyLoop, Machine.copyLoop, h.ctx, ← h.dst _ (by omega)]
    unfold Machine.emit
    rw [h.ctx]
    split_ifs
    · exact ih (h.emitRaw _) (Nat.succ_pos _)
    · exact h.fail _

theorem copy (L : Nat) {D : Nat} (hD : 1 ≤ D) (h : Twins s t) : (copy L D s).Twins (copy L D t) := by
  unfold Machine.copy
  rw [h.ctx]
  split_ifs with hlt
  · exact h.fail _
  · exact h.copyLoop hD L (by omega)

theorem emitRun (b : Byte) (n : Nat) (h : Twins s t) : (emitRun b n s).Twins (emitRun b n t) := by
  induction n generalizing s t with
  | zero => exact h
  | succ n ih => exact (h.emit b).andThen fun _ _ => ih

theorem lzCopy (D n : Nat) (h : Twins s t) : (lzCopy D n s).Twins (lzCopy D n t) := by
  induction n generalizing s t with
  | zero => exact h
  | succ n ih =>
    rw [Machine.lzCopy, Machine.lzCopy, h.ctx, h.params]
    exact (h.lzEmit _).andThen fun _ _ => ih

end

end Twins

end Sys2Proof.Machine
end

section
/-! PROOFS. The outcome of a `DECODE` depends on its input alone (40 R193): twins take every fetch, every command and the
start of a decode together, hence every run. -/

namespace Sys2Proof.Machine

/-! ## The commands -/

/-- Both have a next state: running twins, or the ends of twins. -/
def Paired (s t : State) : Prop := Twins s t ∨ EndedTwins s t

/-- The two outcomes are next states, paired. -/
def NextPaired (o o' : Outcome) : Prop := ∃ u v, o = .next u ∧ o' = .next v ∧ Paired u v

theorem Flow.Twins.next {f g : Flow} (h : f.Twins g) : NextPaired f.outcome g.outcome := by
  cases f with
  | cont u =>
    cases g with
    | cont v => exact ⟨u, v, rfl, rfl, .inl h⟩
    | ended v => exact h.elim
  | ended u =>
    cases g with
    | cont v => exact h.elim
    | ended v => exact ⟨u, v, rfl, rfl, .inr h⟩

namespace Twins

section
variable {s t : State}

theorem rpMatch (P L : Nat) {D : Nat} (hD : 1 ≤ D) (h : Twins s t) : (rpMatch P L D s).Twins (rpMatch P L D t) :=
  (lits P (h.mapCtx (fun x => { x with rp := { x.rp with P := P, L := L, D := D } }) rfl)).andThen
    fun _ _ => copy L hD

theorem litsAlone (P : Nat) (h : Twins s t) :
    (Machine.lits P (setRpCount P s)).Twins (Machine.lits P (setRpCount P t)) :=
  lits P (h.mapCtx (fun x => { x with rp := { x.rp with P := P } }) rfl)

theorem setBtStack (st : List Byte) (h : Twins s t) : Twins (setBtStack st s) (setBtStack st t) :=
  h.mapCtx (fun x => { x with bt := { x.bt with stack := st } }) rfl

theorem btExpand (f : Nat) (h : Twins s t) : (btExpand f s).Twins (btExpand f t) := by
  induction f generalizing s t with
  | zero => exact h
  | succ f ih =>
    rw [Machine.btExpand, Machine.btExpand, h.ctx, h.params]
    cases s.ctx.bt.stack with
    | nil => exact h
    | cons v st =>
      dsimp only
      split_ifs
      · exact (h.setBtStack st).fail _
      · exact ih (h.setBtStack _)
      · exact ((h.setBtStack st).emit v).andThen fun _ _ => ih

theorem btExpandNode (nd : Byte) (h : Twins s t) : (btExpandNode nd s).Twins (btExpandNode nd t) := by
  have hbound : btExpandBound t = btExpandBound s := by simp only [btExpandBound, h.ctx, h.params]
  rw [Machine.btExpandNode, Machine.btExpandNode, hbound]
  exact (h.setBtStack [nd]).btExpand _

/-- A run repeats a byte already put out, below the destination cursor. -/
theorem hrRunOp (k : Nat) (h : Twins s t) : (hrRunOp k s).Twins (hrRunOp k t) := by
  unfold Machine.hrRunOp
  rw [h.ctx]
  split_ifs with hdp
  · exact h.fail _
  · rw [h.dst _ (by omega)]
    exact h.emitRun _ k

/-- The inverse filter, once all of the output stands below the cursor. -/
theorem undoDelta (h : Twins s t) (hdp : s.ctx.dp = s.ctx.ulen) : Twins (undoDelta s) (undoDelta t) := by
  obtain ⟨⟨cfg, free, src, dst, rfl⟩, hstart, hbusy, hop, hlen, hsrc, hdst⟩ := h
  refine ⟨⟨cfg, free, src, _, rfl⟩, hstart, hbusy, hop, hlen, hsrc, ?_⟩
  have hbytes : s.dst.bytesFrom 0 s.ctx.ulen = dst.bytesFrom 0 s.ctx.ulen := hdst.bytesFrom (by omega)
  simp only [Machine.undoDelta, ← hbytes]
  exact hdst.writeList 0 _

theorem endStream (h : Twins s t) :
    (Machine.endHeaded s fun s => .ended (Machine.finish s)).Twins
      (Machine.endHeaded t fun s => .ended (Machine.finish s)) := h.endHeaded fun _ => h.finish

theorem lzMatch (L D : Nat) (h : Twins s t) : (lzMatch L D s).Twins (lzMatch L D t) := by
  unfold Machine.lzMatch
  rw [h.ctx]
  split_ifs
  · exact h.failLz _ _
  · exact h.lzCopy D L

theorem setLzWidths (ws : List Nat) (h : Twins s t) : Twins (setLzWidths ws s) (setLzWidths ws t) :=
  h.mapCtx (fun x => { x with lz := { x.lz with tab := { x.lz.tab with nbits := ws, base := lzBase ws } } }) rfl

theorem lzRecalcOrder (h : Twins s t) : Twins (lzRecalcOrder s) (lzRecalcOrder t) :=
  h.mapCtx (fun x => { x with lz := { x.lz with
    stat := lzAge x.lz.stat, tab := { x.lz.tab with order := lzSort (lzAge x.lz.stat) } } }) rfl

theorem streamOp {c : Codec} {f : State → Flow} (h : Twins s t) (hc : Codec.ofSel s.codecSel = c)
    (hf : (f s).Twins (f t)) : NextPaired (streamOp c s f) (streamOp c t f) := by
  have hd : s.decoding c = true := decoding_iff.2 ⟨h.2.2.1, by rw [← hc, sel_ofSel], h.2.2.2.1⟩
  have hd' : t.decoding c = true := by
    obtain ⟨⟨_, _, _, _, rfl⟩, -⟩ := h
    exact hd
  rw [streamOp_decoding f hd, streamOp_decoding f hd']
  exact hf.next

theorem exec_command {i : Instr} (h : Twins s t) (hi : IsCommand (Codec.ofSel s.codecSel) i)
    (hwf : i.engine = .rp → wellFormedRp i = true) : NextPaired (exec i s) (exec i t) := by
  obtain ⟨hop, hc⟩ := hi
  cases i with
  | rpShort P L D =>
    have hD : 1 ≤ D := by have := hwf rfl; simp [wellFormedRp] at this; omega
    exact h.streamOp hc.symm (h.rpMatch P L hD)
  | rpInt P L D =>
    have hD : 1 ≤ D := by have := hwf rfl; simp [wellFormedRp] at this; omega
    exact h.streamOp hc.symm (h.rpMatch P L hD)
  | rpLong P L D =>
    have hD : 1 ≤ D := by have := hwf rfl; simp [wellFormedRp] at this; omega
    exact h.streamOp hc.symm (h.rpMatch P L hD)
  | rpLiteral P => exact h.streamOp (f := fun s => Machine.lits P (setRpCount P s)) hc.symm (h.litsAlone P)
  | rpEof P =>
    exact h.streamOp (f := fun s => (Machine.lits P (setRpCount P s)).andThen fun s =>
      Machine.endHeaded s fun s => .ended (Machine.finish s)) hc.symm ((h.litsAlone P).andThen fun _ _ => endStream)
  | btLeaf b => exact h.streamOp hc.symm (h.emit b)
  | btNode b => exact h.streamOp hc.symm (h.btExpandNode b)
  | btEsc _ e => exact h.streamOp hc.symm (h.emit e)
  | btEnd _ =>
    exact h.streamOp (f := fun s => Machine.endHeaded s fun s => .ended (Machine.finish s)) hc.symm h.endStream
  | hrLit b => exact h.streamOp hc.symm (h.emit b)
  | hrRun k => exact h.streamOp hc.symm (h.hrRunOp k)
  | hrEsc b => exact h.streamOp hc.symm (h.emit b)
  | hrEof =>
    exact h.streamOp (f := fun s => Machine.endHeaded s fun s => .ended (Machine.finish (Machine.undoDelta s))) hc.symm
      (h.endHeaded fun hdp => (h.undoDelta hdp).finish)
  | lzLit b => exact h.streamOp hc.symm (h.lzEmit b)
  | lzMatchS L D => exact h.streamOp hc.symm (h.lzMatch L D)
  | lzMatchX L D => exact h.streamOp hc.symm (h.lzMatch L D)
  | lzRecalc ws =>
    exact h.streamOp (f := fun s => .cont (Machine.setLzWidths ws (Machine.lzRecalcOrder s))) hc.symm
      (h.lzRecalcOrder.setLzWidths ws)
  | lzEof => exact h.streamOp (f := fun s => .ended (Machine.finish s)) hc.symm h.finish
  | _ => cases hop

end

end Twins

/-! ## The fetch -/

/-- Both fetches give one command, with twins after it, or both have ended as twins. -/
def Fetched.Twins : Fetched → Fetched → Prop
  | .instr i s, .instr j t => i = j ∧ Machine.Twins s t
  | .ended s, .ended t => EndedTwins s t
  | _, _ => False

namespace Twins

section
variable {s t : State} (h : Twins s t)
include h

theorem noteRpBytes (k : Nat) : Twins (noteRpBytes k s) (noteRpBytes k t) := by
  have hrest : t.rest = s.rest := congrArg BitSrc.bytes h.reader
  unfold Machine.noteRpBytes
  rw [hrest]
  exact h.mapCtx (fun x => { x with rp := setRpBytes (s.rest.take k) x.rp }) rfl

theorem noteLzSymbol (g sym : Nat) : Twins (noteLzSymbol g sym s) (noteLzSymbol g sym t) :=
  h.mapCtx (fun x => { x with lz := { x.lz with stat := lzCount x.lz.stat sym, group := g, symbol := sym } }) rfl

theorem fetchRp : (fetchRp s).Twins (fetchRp t) := by
  unfold Machine.fetchRp
  rw [h.reader]
  cases decodeRp s.reader with
  | ok i r => exact ⟨rfl, (h.noteRpBytes r.used).setReader r⟩
  | err e _ r => exact (h.setReader r).fail _

theorem fetchBt : (fetchBt s).Twins (fetchBt t) := by
  unfold Machine.fetchBt
  rw [h.reader, h.ctx]
  cases decodeBt s.ctx.bt.clue s.ctx.bt.isNode s.reader with
  | ok i r => exact ⟨rfl, h.setReader r⟩
  | err e _ r => exact (h.setReader r).fail _

theorem fetchHr : (fetchHr s).Twins (fetchHr t) := by
  unfold Machine.fetchHr
  rw [h.reader, h.ctx]
  cases decodeHr s.ctx.hr.tab s.reader with
  | ok i r => exact ⟨rfl, h.setReader r⟩
  | err e _ r => exact (h.setReader r).fail _

theorem fetchLz : (fetchLz s).Twins (fetchLz t) := by
  unfold Machine.fetchLz
  rw [h.reader, h.ctx, h.params]
  cases getCode s.ctx.lz.tab s.reader with
  | err e st r => exact (h.setReader r).failLz _ _
  | ok gs r =>
    dsimp only
    cases lzFields s.params.lzBufBits gs.2 r with
    | ok i r => exact ⟨rfl, (h.noteLzSymbol gs.1 gs.2).setReader r⟩
    | err e st r => exact ((h.noteLzSymbol gs.1 gs.2).setReader r).failLz _ _

theorem fetchCommand : (fetchCommand s).Twins (fetchCommand t) := by
  unfold Machine.fetchCommand
  rw [h.codecSel]
  cases Codec.ofSel s.codecSel with
  | rp => exact h.fetchRp
  | bt => exact h.fetchBt
  | hr => exact h.fetchHr
  | lz => exact h.fetchLz

end

end Twins

theorem fetchRp_wellFormed {s u : State} {i : Instr} (h : fetchRp s = .instr i u) : wellFormedRp i = true := by
  unfold fetchRp at h
  split at h
  next i r hd => cases h; exact decodeRp_yields_wellFormed _ _ _ hd
  next => cases h

theorem fetchCommand_wellFormedRp {s u : State} {i : Instr} (h : fetchCommand s = .instr i u) (hi : i.engine = .rp) :
    wellFormedRp i = true := by
  have hrp : Codec.ofSel s.codecSel = .rp := (fetchCommand_command s i u h).1.2.symm.trans hi
  unfold fetchCommand at h
  rw [hrp] at h
  exact fetchRp_wellFormed h

/-! ## The steps -/

theorem Twins.step {s t : State} (h : Twins s t) : NextPaired (step s) (step t) := by
  have hfetch := h.fetchCommand
  have hstep : Machine.step t = runFetched (Machine.fetchCommand t) := by
    obtain ⟨⟨_, _, _, _, rfl⟩, hstart, hbusy, hop, -⟩ := h
    exact step_busy hstart hbusy hop
  rw [step_busy h.2.1 h.2.2.1 h.2.2.2.1, hstep]
  cases hs : Machine.fetchCommand s with
  | ended u =>
    cases ht : Machine.fetchCommand t with
    | ended v => rw [hs, ht] at hfetch; exact ⟨u, v, rfl, rfl, .inr hfetch⟩
    | instr j v => rw [hs, ht] at hfetch; exact hfetch.elim
  | instr i u =>
    cases ht : Machine.fetchCommand t with
    | ended v => rw [hs, ht] at hfetch; exact hfetch.elim
    | instr j v =>
      rw [hs, ht] at hfetch
      obtain ⟨rfl, htwins⟩ := hfetch
      obtain ⟨hi, x, rfl⟩ := fetchCommand_command s i u hs
      exact htwins.exec_command hi (fetchCommand_wellFormedRp hs)

theorem Paired.step {s t : State} (h : Paired s t) : NextPaired (step s) (step t) := by
  obtain h | h := h
  · exact h.step
  · exact ⟨s, t, step_idle h.startLeft h.busyLeft, step_idle h.startRight h.busyRight, .inr h⟩

theorem Paired.run {k : Nat} {s t u v : State} (h : Paired s t) (hu : Sys2Proof.core.run k s = .next u)
    (hv : Sys2Proof.core.run k t = .next v) : Paired u v := by
  induction k generalizing s t with
  | zero => cases hu; cases hv; exact h
  | succ k ih =>
    obtain ⟨s', t', hs, ht, h⟩ := h.step
    exact ih h ((core_run_succ hs k).symm.trans hu) ((core_run_succ ht k).symm.trans hv)

/-! ## The start of a decode -/

namespace Twins

section
variable {s t : State} (h : Twins s t)
include h

theorem setBtNode (nd l r : Byte) : Twins (setBtNode nd l r s) (setBtNode nd l r t) :=
  h.mapCtx (fun x => { x with bt := { x.bt with
    isNode := x.bt.isNode.setD false nd.toNat true
    left := x.bt.left.write nd.toNat l
    right := x.bt.right.write nd.toNat r } }) rfl

theorem setBtHead (clue count : Byte) : Twins (setBtHead clue count s) (setBtHead clue count t) :=
  h.mapCtx (fun x => { x with bt := { x.bt with clue := clue, count := count, isNode := [] } }) rfl

theorem setHrTab (tab : HrTab) (l : Leap) : Twins (setHrTab tab l s) (setHrTab tab l t) :=
  h.mapCtx (fun x => { x with hr := { x.hr with
    tab := tab, passes := passesOf x.magic, assigned := l.assigned, cur := l.cur } }) rfl

end

section
variable {s t : State}

theorem loadTriples (n : Nat) (h : Twins s t) : (loadTriples n s).Twins (loadTriples n t) := by
  induction n generalizing s t with
  | zero => exact h
  | succ n ih =>
    refine h.fetchByte fun nd _ _ h => h.fetchByte fun l _ _ h => h.fetchByte fun r u v h => ?_
    rw [h.ctx]
    split_ifs
    · exact h.fail _
    · exact ih (h.setBtNode nd l r)

theorem decodeHrOp (h : Twins s t) : (decodeHrOp s).Twins (decodeHrOp t) := by
  refine h.readHeader .hr fun u v h => ?_
  rw [h.reader]
  cases getHrTab u.reader with
  | ok tl r => exact (h.setReader r).setHrTab tl.1 tl.2
  | err e _ r => exact (h.setReader r).fail _

theorem decodeLzOp (h : Twins s t) : (decodeLzOp s).Twins (decodeLzOp t) := by
  unfold Machine.decodeLzOp
  rw [h.reader]
  cases getLzTab s.reader with
  | ok ws r => exact (h.setReader r).setLzWidths ws
  | err e st r => exact (h.setReader r).failLz _ _

theorem decodeOp (c : Codec) (h : Twins s t) : (decodeOp c s).Twins (decodeOp c t) := by
  cases c with
  | rp => exact h.readHeader .rp fun _ _ h => h
  | bt =>
    show (decodeBtOp s).Twins (decodeBtOp t)
    exact h.readHeader .bt fun _ _ h => h.fetchByte fun clue _ _ h => h.fetchByte fun count _ _ h =>
      (h.setBtHead clue count).loadTriples _
  | hr => exact h.decodeHrOp
  | lz => exact h.decodeLzOp

theorem exec_decode {c : Codec} (hs : s.busy = false) (ht : t.busy = false) (hdesc : s.desc = t.desc)
    (h : Twins (beginOp c 4 s) (beginOp c 4 t)) : NextPaired (exec (.decode c) s) (exec (.decode c) t) := by
  cases hd : (s.desc.of c).canDecode with
  | true =>
    rw [Machine.exec_decode hs hd, Machine.exec_decode ht (hdesc ▸ hd)]
    exact (h.decodeOp c).next
  | false =>
    rw [exec_decode_noDirection hs hd, exec_decode_noDirection ht (hdesc ▸ hd)]
    exact ⟨_, _, rfl, rfl, .inr (h.fail _)⟩

end

end Twins

/-- Settles O50: `START` makes twins of the two machines, and twins stay paired to the end. -/
theorem decodeDependsOnInputOnly : Obligations.DecodeDependsOnInputOnly := by
  intro s t hbs hbt hss hst hos hot hsel hlen hlim hdesc hpar hsrc k u v hk hu hv
  obtain ⟨k, rfl⟩ := Nat.exists_eq_add_of_le' hk
  have htwins : Twins (beginOp (Codec.ofSel s.codecSel) 4 s) (beginOp (Codec.ofSel s.codecSel) 4 t) :=
    ⟨⟨t.cfg, t.freeCount, t.src, t.dst, by simp only [beginOp, hlen, hlim, hdesc, hpar]⟩, rfl, rfl, rfl, rfl, hsrc,
      fun a ha => absurd ha (Nat.not_lt_zero a)⟩
  have hdecode : decodeHostop s.codecSel 4 = .decode (Codec.ofSel s.codecSel) := by
    have := decodeHostop_of_hostopOf (i := .decode (Codec.ofSel s.codecSel)) rfl
    rwa [sel_ofSel] at this
  obtain ⟨s', t', hs, ht, h⟩ := htwins.exec_decode hbs hbt hdesc
  rw [← hdecode, ← hos, ← step_start hss] at hs
  rw [← hdecode, hsel, ← hot, ← step_start hst] at ht
  obtain h | h := h.run ((core_run_succ hs k).symm.trans hu) ((core_run_succ ht k).symm.trans hv)
  · obtain ⟨⟨_, _, _, _, rfl⟩, -, -, -, hdst, -⟩ := h
    exact ⟨rfl, rfl, rfl, rfl, rfl, rfl, rfl, fun a ha => by simp [hdst] at ha⟩
  · exact ⟨h.busyLeft.trans h.busyRight.symm, h.done, h.status, h.cause, h.result, h.dstLen, h.diag, h.dst⟩

end Sys2Proof.Machine
end

section
/-! What a read of the bit reader gives (41 R217). -/

namespace Sys2Proof

/-- Settles O8: a field that was read is the front of the unread bits, and a read cut short leaves no byte of the
stream. -/
theorem bitReaderTakesNextBits : Obligations.BitReaderTakesNextBits := by
  intro st nb r hnb hnacc hacc
  have hspec := getbits_spec st hnb ⟨hnacc, hacc⟩
  have hreads := getbits_readsFrom st nb r
  cases hget : getbits st nb r with
  | ok v r' =>
    rw [hget] at hspec hreads
    obtain ⟨hv, hbits⟩ := hspec
    obtain ⟨htotal, hheld⟩ := hreads
    obtain ⟨hnacc', hacc'⟩ := hheld ⟨hnacc, hacc⟩
    have hfield := length_natBits nb v
    refine ⟨fun _ => ⟨v, r', rfl, ?_, ?_, hv, hnacc', hacc', htotal⟩, fun hshort => ?_⟩
    · rw [hbits, List.take_left' hfield]
    · rw [hbits, List.drop_left' hfield]
    · rw [hbits, List.length_append, hfield] at hshort
      omega
  | err e st' r' =>
    rw [hget] at hspec hreads
    obtain ⟨rfl, rfl, hshort, hnil⟩ := hspec
    have htotal : r'.used + r'.bytes.length = r.used + r.bytes.length := hreads
    rw [hnil, List.length_nil, Nat.add_zero] at htotal
    exact ⟨fun hle => absurd hshort (Nat.not_lt_of_le hle), fun _ => ⟨r', rfl, hnil, htotal⟩⟩

end Sys2Proof
end

section
/-! The RefPack commands that go through (42 R232 to R238), and the ends of the headed byte streams. -/

namespace Sys2Proof.Machine

/-! ## Commands that go through -/

/-- `copy(L, D)` with the distance inside the output and room for the bytes (42 R236). -/
theorem copy_ok (L D : Nat) {s : State} (h1 : 1 ≤ D) (h2 : D ≤ s.ctx.dp) (h3 : s.ctx.dp + L ≤ s.ctx.ulen) :
    copy L D s = .cont (emitted (backBytes s.dst s.ctx.dp L D) s) := by
  rw [copy, if_neg (Nat.not_lt.2 h2), copyLoop_ok L D h1 h2 h3]

/-- Settles O26: behind the literals the copy counts its distance from their end. -/
theorem refPackMatchCompletes : Obligations.RefPackMatchCompletes := by
  intro P L D s hd hsp hdp hD hdist i hi
  have hdpAt : (emitted (literals P s) (fetched P (setRpFields P L D s))).ctx.dp = s.ctx.dp + P := by simp
  rw [exec_rpMatch_copy hd hsp (by omega) hi, copy_ok L D hD (by rwa [hdpAt]) (by rwa [hdpAt]), outcome_cont,
    emitted_append, hdpAt]
  rfl

/-- The literals of a command without a copy. -/
theorem lits_setRpCount (P : Nat) {s : State} (hsp : s.ctx.sp + P ≤ s.srcLen.toNat) (hdp : s.ctx.dp + P ≤ s.ctx.ulen) :
    lits P (setRpCount P s) = .cont (emitted (literals P s) (fetched P (setRpCount P s))) :=
  lits_ok P (s := setRpCount P s) hsp hdp

/-- Settles O27: the command is its literals. -/
theorem refPackLiteralCompletes : Obligations.RefPackLiteralCompletes := by
  intro P s hd hsp hdp
  show execRpLiteral P s = _
  rw [execRpLiteral, streamOp_decoding _ hd, lits_setRpCount P hsp hdp, outcome_cont]

/-! ## The ends of the headed byte streams -/

theorem endHeaded_of_eq {s : State} (k : State → Flow) (h : s.ctx.dp = s.ctx.ulen) : endHeaded s k = k s := by
  rw [endHeaded, if_pos h]

theorem endHeaded_of_ne {s : State} (k : State → Flow) (h : s.ctx.dp ≠ s.ctx.ulen) :
    endHeaded s k = .ended (fail .lengthMismatch s) := by rw [endHeaded, if_neg h]

/-- `RP.EOF` behind its literals comes to the check of the length. -/
theorem exec_rpEof {P : Nat} {s : State} (hd : s.decoding .rp = true) (hsp : s.ctx.sp + P ≤ s.srcLen.toNat)
    (hdp : s.ctx.dp + P ≤ s.ctx.ulen) :
    exec (.rpEof P) s =
      (endHeaded (emitted (literals P s) (fetched P (setRpCount P s))) fun t => .ended (finish t)).outcome := by
  show execRpEof P s = _
  rw [execRpEof, streamOp_decoding _ hd, lits_setRpCount P hsp hdp, andThen_cont]

theorem exec_btEnd (c : Byte) {s : State} (hd : s.decoding .bt = true) :
    exec (.btEnd c) s = (endHeaded s fun t => .ended (finish t)).outcome := by
  show execBtEnd c s = _
  rw [execBtEnd, streamOp_decoding _ hd]

/-- Settles O29: either end is the check of the length, on RefPack behind the trailing literals; a success discards the
registers of the command. -/
theorem byteStreamEndChecksLength : Obligations.ByteStreamEndChecksLength := by
  refine ⟨fun P s hd hsp hdp => ?_, fun c s hd => ?_⟩
  · have hdpAt : (emitted (literals P s) (fetched P (setRpCount P s))).ctx.dp = s.ctx.dp + P := by simp
    rw [exec_rpEof hd hsp hdp]
    refine ⟨fun heq => ?_, fun hne => ?_⟩
    · rw [endHeaded_of_eq _ (hdpAt.trans heq)]
      rfl
    · rw [endHeaded_of_ne _ (hdpAt.trans_ne hne)]
      exact ⟨_, rfl, failedWith_fail _ _, WorkingOn.fail_inputsKept _ ⟨_, _, _, rfl⟩, rfl,
        congrArg (BitVec.ofNat 32) hdpAt⟩
  · rw [exec_btEnd c hd]
    refine ⟨fun heq => ?_, fun hne => ?_⟩
    · rw [endHeaded_of_eq _ heq, outcome_ended]
    · rw [endHeaded_of_ne _ hne]
      exact ⟨_, rfl, failedWith_fail _ _, (WorkingOn.refl s).fail_inputsKept _, rfl⟩

end Sys2Proof.Machine
end

section
/-! How much a reading takes (41 R217): no reading gives bits back, and every word of a stream begins with a bit of its
own. -/

namespace Sys2Proof

/-- Where the reading from `r` gives a value, it has taken at least `k` bits. -/
def Rd.Spends {α : Type} (k : Nat) (r : BitSrc) (x : Rd α) : Prop :=
  ∀ a r', x = .ok a r' → r'.bits.length + k ≤ r.bits.length

namespace Rd

variable {α β : Type} {k : Nat} {r : BitSrc}

theorem spends_ok (a : α) (r : BitSrc) : (Rd.ok a r).Spends 0 r := by
  rintro _ _ ⟨⟩
  exact le_rfl

theorem spends_err (k : Nat) (e : Reject) (st : Stage) (r r' : BitSrc) : (Rd.err e st r : Rd α).Spends k r' := nofun

theorem Spends.mono {j : Nat} {x : Rd α} (h : x.Spends k r) (hj : j ≤ k) : x.Spends j r := fun a r' hx =>
  (Nat.add_le_add_left hj _).trans (h a r' hx)

/-- What is read behind it gives no bits back. -/
theorem Spends.bind {x : Rd α} {f : α → BitSrc → Rd β} (hx : x.Spends k r) (hf : ∀ a r', (f a r').Spends 0 r') :
    (x.bind f).Spends k r := by
  intro b q h
  obtain ⟨a, r', ha, hb⟩ := Rd.bind_eq_ok h
  exact (Nat.add_le_add_right (hf a r' b q hb) k).trans (hx a r' ha)

end Rd

/-! ## The primitives -/

/-- A refill moves bits from the bytes into the accumulator. -/
theorem refill_length (st : Stage) (nb : Nat) (bs : List Byte) (used : Nat) (acc : Word) (nacc : Nat) (q : BitSrc)
    (h : refill st nb bs used acc nacc = .ok () q) : nb ≤ q.nacc ∧ q.bits.length = nacc + 8 * bs.length := by
  induction bs generalizing used acc nacc with
  | nil =>
    unfold refill at h
    split_ifs at h with hle
    cases h
    exact ⟨hle, length_bits _⟩
  | cons b bs ih =>
    unfold refill at h
    split_ifs at h with hle
    · cases h
      exact ⟨hle, length_bits _⟩
    · obtain ⟨hnb, hlen⟩ := ih _ _ _ h
      refine ⟨hnb, hlen.trans ?_⟩
      rw [List.length_cons]
      omega

theorem getbits_spends (st : Stage) (nb : Nat) (r : BitSrc) : (getbits st nb r).Spends nb r := by
  intro v r' h
  obtain ⟨_, q, hq, hv⟩ := Rd.bind_eq_ok h
  cases hv
  obtain ⟨hnb, hlen⟩ := refill_length st nb _ _ _ _ q hq
  rw [length_bits] at hlen ⊢
  rw [length_bits]
  show q.nacc - nb + 8 * q.bytes.length + nb ≤ _
  omega

theorem getByte_spends (r : BitSrc) : (getByte r).Spends 8 r := by
  intro b r' h
  unfold getByte at h
  split at h
  next => cases h
  next c bs hbytes =>
    cases h
    rw [length_bits, length_bits, hbytes, List.length_cons]
    show r.nacc + 8 * bs.length + 8 ≤ _
    omega

theorem getbits_spends_zero (st : Stage) (nb : Nat) (r : BitSrc) : (getbits st nb r).Spends 0 r :=
  (getbits_spends st nb r).mono (Nat.zero_le nb)

theorem getByte_spends_zero (r : BitSrc) : (getByte r).Spends 0 r := (getByte_spends r).mono (Nat.zero_le _)

theorem countZeros_spends (z k : Nat) (r : BitSrc) : (countZeros z k r).Spends 0 r := by
  induction k generalizing z r with
  | zero =>
    refine (getbits_spends_zero _ 1 r).bind fun b r => ?_
    split_ifs
    · exact Rd.spends_err _ _ _ r r
    · exact Rd.spends_ok z r
  | succ k ih =>
    refine (getbits_spends_zero _ 1 r).bind fun b r => ?_
    split_ifs
    · exact ih _ r
    · exact Rd.spends_ok z r

theorem appendBits_spends (m k : Nat) (r : BitSrc) : (appendBits m k r).Spends 0 r := by
  induction k generalizing m r with
  | zero => exact Rd.spends_ok m r
  | succ k ih => exact (getbits_spends_zero _ 1 r).bind fun b r => ih _ r

theorem getnum_spends (r : BitSrc) : (getnum r).Spends 0 r :=
  (countZeros_spends 0 15 r).bind fun z r => (appendBits_spends 1 z r).bind fun m r => Rd.spends_ok (m - 1) r

/-! ## The words of the four formats -/

theorem decodeRp_spends (r : BitSrc) : (decodeRp r).Spends 8 r := by
  refine (getByte_spends r).bind fun b0 r => ?_
  dsimp only
  split_ifs
  · exact (getByte_spends_zero r).bind fun _ r => Rd.spends_ok _ r
  · exact (getByte_spends_zero r).bind fun _ r => (getByte_spends_zero r).bind fun _ r => Rd.spends_ok _ r
  · exact (getByte_spends_zero r).bind fun _ r => (getByte_spends_zero r).bind fun _ r =>
      (getByte_spends_zero r).bind fun _ r => Rd.spends_ok _ r
  · exact Rd.spends_ok _ r
  · exact Rd.spends_ok _ r

theorem decodeBt_spends (clue : Byte) (isNode : Sparse Bool) (r : BitSrc) : (decodeBt clue isNode r).Spends 8 r := by
  refine (getByte_spends r).bind fun b r => ?_
  split_ifs
  · refine (getByte_spends_zero r).bind fun e r => ?_
    split_ifs
    · exact Rd.spends_ok _ r
    · exact Rd.spends_ok _ r
  · exact Rd.spends_ok _ r
  · exact Rd.spends_ok _ r

/-- A symbol has a code of at least one bit; where no length is left, there is no symbol. -/
theorem getsymFrom_spends (syms : List Byte) (ns : List Nat) (code first idx : Nat) (r : BitSrc) :
    (getsymFrom syms ns code first idx r).Spends 1 r := by
  induction ns generalizing code first idx r with
  | nil => exact Rd.spends_err _ _ _ r r
  | cons n ns ih =>
    refine (getbits_spends _ 1 r).bind fun b r => ?_
    dsimp only
    split_ifs
    · exact Rd.spends_ok _ r
    · exact (ih _ _ _ r).mono (Nat.zero_le 1)

theorem decodeHr_spends (t : HrTab) (r : BitSrc) : (decodeHr t r).Spends 1 r := by
  refine (getsymFrom_spends _ _ _ _ _ r).bind fun s r => ?_
  split_ifs
  · exact Rd.spends_ok _ r
  · refine (getnum_spends r).bind fun k r => ?_
    split_ifs
    · exact Rd.spends_ok _ r
    · refine (getbits_spends_zero _ 1 r).bind fun b r => ?_
      split_ifs
      · exact Rd.spends_ok _ r
      · exact (getbits_spends_zero _ 8 r).bind fun _ r => Rd.spends_ok _ r

theorem getCode_spends (t : LzTab) (r : BitSrc) : (getCode t r).Spends 4 r := by
  refine (getbits_spends _ 4 r).bind fun g r => (getbits_spends_zero _ _ r).bind fun i r => ?_
  split_ifs
  · exact Rd.spends_err _ _ _ r r
  · exact Rd.spends_ok _ r

theorem getDisp_spends (bufBits : Nat) (r : BitSrc) : (getDisp bufBits r).Spends 0 r :=
  (getbits_spends_zero _ 3 r).bind fun _ r => (getbits_spends_zero _ _ r).bind fun _ r => Rd.spends_ok _ r

theorem getWidths_spends (k : Nat) (r : BitSrc) : (getWidths k r).Spends 0 r := by
  induction k generalizing r with
  | zero => exact Rd.spends_ok _ r
  | succ k ih =>
    refine (getbits_spends_zero _ 4 r).bind fun w r => ?_
    split_ifs
    · exact Rd.spends_err _ _ _ r r
    · exact (ih r).bind fun _ r => Rd.spends_ok _ r

theorem lzFields_spends (bufBits s : Nat) (r : BitSrc) : (lzFields bufBits s r).Spends 0 r := by
  unfold lzFields
  split_ifs
  · exact Rd.spends_ok _ r
  · exact (getDisp_spends _ r).bind fun _ r => Rd.spends_ok _ r
  · exact (getbits_spends_zero _ _ r).bind fun _ r => (getDisp_spends _ r).bind fun _ r => Rd.spends_ok _ r
  · exact (getWidths_spends _ r).bind fun _ r => Rd.spends_ok _ r
  · exact Rd.spends_ok _ r

end Sys2Proof
end

section
/-! Every operation ends (70 R556): the bits of the input not consumed yet bound the commands that are still to come. -/

namespace Sys2Proof.Machine

/-! ## The bits left -/

theorem bitsLeft_eq (s : State) : bitsLeft s = s.reader.bits.length := by
  rw [length_bits, bitsLeft, Nat.add_comm, State.reader, State.rest, Memory.length_bytesFrom]

theorem bitsLeft_setReader {s : State} {r : BitSrc} (h : r.total = s.reader.total) :
    bitsLeft (s.setReader r) = r.bits.length := by
  rw [total_reader, BitSrc.total] at h
  rw [length_bits]
  show 8 * (s.srcLen.toNat - (s.ctx.sp + r.used)) + r.nacc = _
  omega

/-- A reading that gives a value leaves the stream with the bits it has not taken. -/
theorem bitsLeft_read {α : Type} {s : State} {x : Rd α} {a : α} {r : BitSrc} {k : Nat} (hx : x = .ok a r)
    (hreads : x.ReadsFrom s.reader) (hspends : x.Spends k s.reader) : bitsLeft (s.setReader r) + k ≤ bitsLeft s := by
  have hle := hspends a r hx
  rw [hx] at hreads
  rwa [bitsLeft_setReader hreads.1, bitsLeft_eq s]

/-! ## The fetch -/

theorem fetchRp_bitsLeft {s u : State} {i : Instr} (h : fetchRp s = .instr i u) : bitsLeft u < bitsLeft s := by
  unfold fetchRp at h
  split at h
  next i r hr => cases h; exact bitsLeft_read hr (decodeRp_readsFrom _) ((decodeRp_spends _).mono (by decide : 1 ≤ 8))
  next => cases h

theorem fetchBt_bitsLeft {s u : State} {i : Instr} (h : fetchBt s = .instr i u) : bitsLeft u < bitsLeft s := by
  unfold fetchBt at h
  split at h
  next i r hr =>
    cases h
    exact bitsLeft_read hr (decodeBt_readsFrom _ _ _) ((decodeBt_spends _ _ _).mono (by decide : 1 ≤ 8))
  next => cases h

theorem fetchHr_bitsLeft {s u : State} {i : Instr} (h : fetchHr s = .instr i u) : bitsLeft u < bitsLeft s := by
  unfold fetchHr at h
  split at h
  next i r hr => cases h; exact bitsLeft_read hr (decodeHr_readsFrom _ _) (decodeHr_spends _ _)
  next => cases h

/-- The symbol's code takes bits, its fields give none back. -/
theorem fetchLz_bitsLeft {s u : State} {i : Instr} (h : fetchLz s = .instr i u) : bitsLeft u < bitsLeft s := by
  unfold fetchLz at h
  split at h
  next => cases h
  next gs q hq =>
    split at h
    next => cases h
    next i r hr =>
      cases h
      have hd : decodeLz s.params.lzBufBits s.ctx.lz.tab s.reader = .ok i r := by rw [decodeLz, hq, Rd.bind_ok, hr]
      exact bitsLeft_read hd ((getCode_readsFrom _ _).bind fun _ r => lzFields_readsFrom _ _ r)
        (((getCode_spends _ _).mono (by decide : 1 ≤ 4)).bind fun _ r => lzFields_spends _ _ r)

/-- A fetched command has taken at least one bit. -/
theorem fetchCommand_bitsLeft {s u : State} {i : Instr} (h : fetchCommand s = .instr i u) : bitsLeft u < bitsLeft s := by
  unfold fetchCommand at h
  cases hc : Codec.ofSel s.codecSel with
  | rp => rw [hc] at h; exact fetchRp_bitsLeft h
  | bt => rw [hc] at h; exact fetchBt_bitsLeft h
  | hr => rw [hc] at h; exact fetchHr_bitsLeft h
  | lz => rw [hc] at h; exact fetchLz_bitsLeft h

/-- A command takes no bits back. -/
theorem CommandFrame.bitsLeft_le {c : Codec} {s t : State} (h : CommandFrame c s t) : bitsLeft t ≤ bitsLeft s := by
  have hsp := h.sp_le
  obtain ⟨_, sp, _, _, _, _, rfl⟩ := h.shape
  change s.ctx.sp ≤ sp at hsp
  show 8 * (s.srcLen.toNat - sp) + s.ctx.nacc ≤ 8 * (s.srcLen.toNat - s.ctx.sp) + s.ctx.nacc
  omega

/-! ## The start of a DECODE -/

theorem bitsLeft_fetched_le (k : Nat) (s : State) : bitsLeft (fetched k s) ≤ bitsLeft s := by
  show 8 * (s.srcLen.toNat - (s.ctx.sp + k)) + s.ctx.nacc ≤ 8 * (s.srcLen.toNat - s.ctx.sp) + s.ctx.nacc
  omega

/-- With an empty accumulator no more than the bytes of the input are left. -/
theorem bitsLeft_le_of_nacc {s : State} (h : s.ctx.nacc = 0) : bitsLeft s ≤ 8 * s.srcLen.toNat := by
  rw [bitsLeft, h]
  omega

section
variable {n : Nat} {s : State}

theorem fetchByte_bitsLeft {k : Byte → State → Flow} (h : bitsLeft s ≤ n)
    (hk : ∀ b t, bitsLeft t ≤ n → (k b t).Reaches (bitsLeft · ≤ n) (·.busy = false)) :
    (fetchByte s k).Reaches (bitsLeft · ≤ n) (·.busy = false) :=
  fetchByte_reaches (fun b => hk b _ ((bitsLeft_fetched_le 1 s).trans h)) rfl

theorem loadTriples_bitsLeft (k : Nat) (h : bitsLeft s ≤ n) :
    (loadTriples k s).Reaches (bitsLeft · ≤ n) (·.busy = false) := by
  induction k generalizing s with
  | zero => exact h
  | succ k ih =>
    refine fetchByte_bitsLeft h fun nd s h => fetchByte_bitsLeft h fun l s h => fetchByte_bitsLeft h fun r s h => ?_
    split_ifs
    · rfl
    · exact ih h

/-- A header leaves the accumulator as it is. -/
theorem readHeader_bitsLeft {c : Codec} {k : State → Flow} (hnacc : s.ctx.nacc = 0)
    (hk : ∀ h, bitsLeft (behindHeader h s) ≤ 8 * s.srcLen.toNat →
      (k (behindHeader h s)).Reaches (bitsLeft · ≤ n) (·.busy = false)) :
    (readHeader c s k).Reaches (bitsLeft · ≤ n) (·.busy = false) := by
  cases hh : s.header c with
  | ok h => rw [readHeader_of_ok hh]; exact hk h (bitsLeft_le_of_nacc (s := behindHeader h s) hnacc)
  | error e => rw [readHeader_of_error hh]; rfl

/-- The header and the tables of a stream give no bits back. -/
theorem decodeOp_bitsLeft (c : Codec) (hacc : s.ctx.acc = 0) (hnacc : s.ctx.nacc = 0) :
    (decodeOp c s).Reaches (bitsLeft · ≤ 8 * s.srcLen.toNat) (·.busy = false) := by
  cases c with
  | rp => exact readHeader_bitsLeft hnacc fun _ h => h
  | bt =>
    show (decodeBtOp s).Reaches _ _
    exact readHeader_bitsLeft hnacc fun _ h => fetchByte_bitsLeft h fun clue s h => fetchByte_bitsLeft h fun count s h =>
      loadTriples_bitsLeft _ (s := setBtHead clue count s) h
  | hr =>
    show (decodeHrOp s).Reaches _ _
    refine readHeader_bitsLeft hnacc fun hd h => ?_
    have hheld : (behindHeader hd s).reader.Held := by
      show s.ctx.nacc ≤ 7 ∧ s.ctx.acc.toNat < 2 ^ s.ctx.nacc
      rw [hnacc, hacc]
      decide
    split
    next tl r hr =>
      have hbits := (bits_of_getHrTab hheld hr).2
      refine le_trans (bitsLeft_read (k := 0) hr (getHrTab_readsFrom _) fun a r' ha => ?_) h
      cases hr.symm.trans ha
      rw [hbits, List.length_append]
      exact Nat.le_add_left _ _
    next => rfl
  | lz =>
    show (decodeLzOp s).Reaches _ _
    unfold decodeLzOp getLzTab
    split
    next ws r hr =>
      exact (bitsLeft_read hr (getWidths_readsFrom _ _) (getWidths_spends _ _)).trans (bitsLeft_le_of_nacc hnacc)
    next => rfl

end

theorem exec_decode_bitsLeft {c : Codec} {s t : State} (h : exec (.decode c) s = .next t) (hb : t.busy = true) :
    bitsLeft t ≤ 8 * s.srcLen.toNat := by
  suffices hbits : bitsLeft t ≤ 8 * s.srcLen.toNat ∨ t.busy = false from hbits.resolve_right (by simp [hb])
  refine (hostOp_next (R := (bitsLeft · ≤ 8 * s.srcLen.toNat)) (E := (·.busy = false)) (show execDecode c s = _ from h)
    ?_).2
  split_ifs
  · exact decodeOp_bitsLeft (s := beginOp c 4 s) c rfl rfl
  · rfl

/-! ## Runs that end -/

/-- An operation has ended, and no other is started. -/
structure HasEnded (s : State) : Prop where
  start : s.start = false
  busy : s.busy = false
  done : s.done = true

theorem WorkingOn.start {s t : State} (h : WorkingOn s t) : t.start = s.start := by
  obtain ⟨_, _, _, rfl⟩ := h
  rfl

theorem EndedFrom.hasEnded {s t : State} (h : EndedFrom s t) (hs : s.start = false) : HasEnded t := by
  cases h with
  | raised _ _ hu => exact ⟨hu.start.trans hs, rfl, rfl⟩
  | finished hu => exact ⟨hu.start.trans hs, rfl, rfl⟩
  | answered _ hu => exact ⟨hu.start.trans hs, rfl, rfl⟩

/-- An idle block stays as it is. -/
theorem HasEnded.run {s : State} (h : HasEnded s) (k : Nat) : Sys2Proof.core.run k s = .next s := by
  induction k with
  | zero => rfl
  | succ k ih => rw [core_run_succ (step_idle h.start h.busy), ih]

/-- A step of a running `DECODE` takes at least one bit of the stream, or is the last. -/
theorem Running.step {c : Codec} {s : State} (h : Running c s) :
    ∃ t, step s = .next t ∧ (Running c t ∧ bitsLeft t < bitsLeft s ∨ HasEnded t) := by
  obtain ⟨hb, -, ho⟩ := decoding_iff.1 h.decoding
  obtain ⟨t, ht⟩ := runFetched_next hb ho
  have ht := (step_busy h.start hb ho).trans ht
  refine ⟨t, ht, ?_⟩
  obtain ⟨hidle, -⟩ | ⟨-, -, he | ⟨i, u, hf, -, hc⟩⟩ | ⟨hidle, -⟩ := step_cases ht
  · exact absurd hb (by simp [hidle])
  · exact .inr (he.hasEnded h.start)
  · exact .inl ⟨h.of_workingOn ((fetchCommand_workingOn hf).trans hc.workingOn),
      hc.bitsLeft_le.trans_lt (fetchCommand_bitsLeft hf)⟩
  · exact absurd hb (by simp [hidle])

theorem Running.ends {c : Codec} {s : State} (h : Running c s) {n : Nat} (hn : bitsLeft s ≤ n) :
    ∃ t, Sys2Proof.core.run (n + 1) s = .next t ∧ HasEnded t := by
  induction n generalizing s with
  | zero =>
    obtain ⟨t, ht, ⟨-, hlt⟩ | he⟩ := h.step
    · omega
    · exact ⟨t, core_run_succ ht 0, he⟩
  | succ n ih =>
    obtain ⟨t, ht, ⟨hr, hlt⟩ | he⟩ := h.step
    · obtain ⟨u, hu, he⟩ := ih hr (by omega)
      exact ⟨u, (core_run_succ ht _).trans hu, he⟩
    · exact ⟨t, (core_run_succ ht _).trans (he.run _), he⟩

theorem decodeHostop_decode (sel : BitVec 2) : decodeHostop sel 4 = .decode (Codec.ofSel sel) := rfl

/-- `START` ends its operation within the step or comes to the commands of a stream. -/
theorem step_start_begins {s : State} (hb : s.busy = false) (hs : s.start = true) :
    ∃ t, step s = .next t ∧ ((∃ c, Running c t ∧ bitsLeft t ≤ 8 * s.srcLen.toNat) ∨ HasEnded t) := by
  have hop := hostopOf_decodeHostop s.codecSel s.op
  obtain ⟨t, ht⟩ := exec_hostop_idle hop hb
  refine ⟨t, (step_start hs).trans ht, ?_⟩
  obtain ⟨-, ⟨ho, hbegun⟩ | he⟩ := exec_hostop_next hop ht
  · have ho : s.op = 4 := ho
    rw [ho, decodeHostop_decode] at ht
    rw [ho] at hbegun
    have hrun := (running_beginOp (Codec.ofSel s.codecSel) s).of_workingOn hbegun.workingOn
    exact .inl ⟨_, hrun, exec_decode_bitsLeft ht hrun.clear.busy⟩
  · exact .inr (he.hasEnded rfl)

/-- Settles O49: the first step leaves at most the bits of the input, each further one takes a bit or is the last, and an
idle block stays as it is. -/
theorem everyOperationEnds : Obligations.EveryOperationEnds := by
  intro s hb hs
  obtain ⟨t, ht, ⟨c, hr, hn⟩ | he⟩ := step_start_begins hb hs
  · obtain ⟨u, hu, he⟩ := hr.ends hn
    exact ⟨u, (core_run_succ ht _).trans hu, he.busy, he.done⟩
  · exact ⟨t, (core_run_succ ht _).trans (he.run _), he.busy, he.done⟩

end Sys2Proof.Machine
end

section
/-! The bounds of the RefPack search (43 R277), which ask nothing of the chains. -/

namespace Sys2Proof.Machine

theorem two_le_rpCost (bias D L : Nat) : 2 ≤ rpCost bias D L := by
  unfold rpCost
  split_ifs <;> omega

/-- The bounds on a match at `cp` that hold whatever the chains hold; `RpFound`, of encoder states, says in addition that the
match repeats earlier bytes. -/
structure RpBounded (v : RpEnv) (cp : Nat) (b : RpBest) : Prop where
  dist_le : b.D ≤ Config.rpMaxDist
  len_le : b.L ≤ Config.rpMaxLen
  three_le_len : 3 ≤ b.L
  cost_lt : b.C < b.L
  inside : cp + b.L ≤ v.n

/-- What the walk keeps: no best match, the pseudo-match included, costs more than its length, so a candidate of greater
score costs less than its own. -/
structure RpBestOk (v : RpEnv) (cp : Nat) (b : RpBest) : Prop where
  cost_le : b.C ≤ b.L
  bounded : b.found = true → RpBounded v cp b

/-- The best match before the walk (43 R264). -/
theorem rpBestOk_pseudo (v : RpEnv) (cp : Nat) : RpBestOk v cp ⟨2, 2, 0, false⟩ := ⟨le_rfl, nofun⟩

/-- A candidate within the window keeps the bounds, on whichever side of `cp` it lies. -/
theorem RpBestOk.consider {v : RpEnv} {cp q : Nat} {b : RpBest} (h : RpBestOk v cp b) (hcp : cp ≤ v.n)
    (hq : cp - Config.rpMaxDist ≤ q) :
    RpBestOk v cp (rpConsider v cp (min Config.rpMaxLen (v.n - cp)) q b) := by
  have hb := h.cost_le
  have hlen := matchLen_le v.src (min Config.rpMaxLen (v.n - cp)) q cp
  unfold rpConsider
  dsimp only
  generalize matchLen v.src (min Config.rpMaxLen (v.n - cp)) q cp = L at hlen ⊢
  have hC := two_le_rpCost v.bias (cp - q) L
  split_ifs with hscore
  · have hlt : rpCost v.bias (cp - q) L < L := by omega
    refine ⟨hlt.le, fun _ => ⟨?_, ?_, ?_, hlt, ?_⟩⟩ <;> dsimp only <;> omega
  · exact h

theorem RpBestOk.walk {v : RpEnv} {cp : Nat} (hcp : cp ≤ v.n) (link : Sparse Nat) (f : Nat) (o : Option Nat) {b : RpBest}
    (h : RpBestOk v cp b) :
    RpBestOk v cp (rpWalk v link cp (min Config.rpMaxLen (v.n - cp)) (cp - Config.rpMaxDist) f o b) := by
  induction f generalizing o b with
  | zero => cases o <;> exact h
  | succ f ih =>
    cases o with
    | none => exact h
    | some q =>
      unfold rpWalk
      split_ifs with hmin
      · exact h
      · exact ih _ (h.consider hcp (not_lt.1 hmin))

theorem rpSearch_ok (v : RpEnv) (e : RpEnc) : RpBestOk v e.cp (rpSearch v e) := by
  unfold rpSearch
  split_ifs with hn
  · exact rpBestOk_pseudo v e.cp
  · exact (rpBestOk_pseudo v e.cp).walk (by omega) _ _ _

/-- Settles O52: the walk keeps the bounds at every candidate, and a found match has them. -/
theorem refPackMatchBounds : Obligations.RefPackMatchBounds := by
  intro v e hfound
  obtain ⟨hD, hL, hL3, hC, hn⟩ := (rpSearch_ok v e).bounded hfound
  exact ⟨hD, hL, hL3, hC, hn⟩

end Sys2Proof.Machine
end

section
/-! The code tables of a running `DECODE`: its start reads valid ones, and only a LightZhl rebuild writes them again. -/

namespace Sys2Proof

/-! ## Group widths -/

/-- A new order and new widths with their bases are a valid group table (46 R440, R444). -/
theorem LzTab.valid_of_perm {order ws : List Nat} (horder : order.Perm (List.range Config.lzNsym))
    (hlen : ws.length = Config.lzGroups) (hws : ∀ w ∈ ws, w ≤ Config.lzMaxWidth) :
    LzTab.Valid ⟨order, ws, lzBase ws⟩ where
  length_order := horder.length_eq.trans List.length_range
  nodup := horder.nodup_iff.2 List.nodup_range
  order_lt _ hs := List.mem_range.1 (horder.mem_iff.1 hs)
  length_nbits := hlen
  nbits_le := hws
  base_eq := rfl

/-- A rebuild carries sixteen widths of at most 12 bits (30 R151). -/
def RebuildsLegally (i : Instr) : Prop :=
  ∀ ws, i = .lzRecalc ws → ws.length = Config.lzGroups ∧ ∀ w ∈ ws, w ≤ Config.lzMaxWidth

theorem lzFields_yields_rebuildsLegally (bufBits s : Nat) (r : BitSrc) :
    (lzFields bufBits s r).Yields RebuildsLegally := by
  unfold lzFields
  split_ifs
  · exact Rd.yields_ok nofun r
  · exact Rd.yields_bind _ fun _ r => Rd.yields_ok nofun r
  · exact Rd.yields_bind _ fun _ _ => Rd.yields_bind _ fun _ r => Rd.yields_ok nofun r
  · refine (getWidths_yields _ r).bind fun ws r hws => Rd.yields_ok ?_ r
    rintro _ ⟨⟩
    exact hws
  · exact Rd.yields_ok nofun r

end Sys2Proof

namespace Sys2Proof.Machine

/-! ## The tables of one engine -/

/-- The tables of a `DECODE` of engine `c` are codes. -/
def TablesOk : Codec → State → Prop
  | .rp, _ => True
  | .bt, s => isNodeByte s.ctx.bt.isNode s.ctx.bt.clue = false
  | .hr, s => s.ctx.hr.tab.Valid ∧ s.ctx.hr.passes ≤ 2
  | .lz, s => s.ctx.lz.tab.Valid

theorem tablesValid_iff (s : State) : TablesValid s ↔ (s.busy = true → TablesOk (Codec.ofSel s.codecSel) s) := by
  rw [TablesValid, ← sel_ofSel s.codecSel, ofSel_sel]
  refine imp_congr_right fun _ => ?_
  cases Codec.ofSel s.codecSel <;> simp [TablesOk, Codec.sel, HrTab.valid_iff, LzTab.valid_iff]

/-- `t` has the tables of `s`. -/
structure SameTables (s t : State) : Prop where
  clue : t.ctx.bt.clue = s.ctx.bt.clue
  isNode : t.ctx.bt.isNode = s.ctx.bt.isNode
  hr : t.ctx.hr = s.ctx.hr
  lz : t.ctx.lz.tab = s.ctx.lz.tab

theorem SameTables.tablesOk {c : Codec} {s t : State} (h : SameTables s t) (hs : TablesOk c s) : TablesOk c t := by
  cases c with
  | rp => trivial
  | bt =>
    rw [TablesOk, h.clue, h.isNode]
    exact hs
  | hr =>
    rw [TablesOk, h.hr]
    exact hs
  | lz =>
    rw [TablesOk, h.lz]
    exact hs

/-! ## The start of a DECODE -/

/-- A BinaryTree `DECODE` loads no triple that names the clue (44 R304). -/
theorem loadTriples_tablesOk (n : Nat) {s : State} (h : TablesOk .bt s) :
    (loadTriples n s).Reaches (TablesOk .bt) (·.busy = false) := by
  induction n generalizing s with
  | zero => exact h
  | succ n ih =>
    refine fetchByte_reaches (fun nd => fetchByte_reaches (fun l => fetchByte_reaches (fun r => ?_) rfl) rfl) rfl
    split_ifs with hbad
    · rfl
    · refine ih (Bool.eq_false_iff.2 fun hnode => ?_)
      obtain hclue | hnode := (isNodeByte_setD s.ctx.bt.isNode nd s.ctx.bt.clue).1 hnode
      · exact hbad (.inl hclue.symm)
      · exact Bool.eq_false_iff.1 h hnode

/-- The magics of a Huffman stream announce at most two delta passes (30 R124). -/
theorem passesOf_le_two : ∀ m ∈ magics .hr, passesOf (BitVec.ofNat 16 m) ≤ 2 := by decide

theorem readHeader_tablesOk {c : Codec} {s : State} {k : State → Flow}
    (hk : ∀ h : Header, h.magic ∈ magics c → (k (behindHeader h s)).Reaches (TablesOk c) (·.busy = false)) :
    (readHeader c s k).Reaches (TablesOk c) (·.busy = false) := by
  cases hh : s.header c with
  | ok h =>
    rw [readHeader_of_ok hh]
    exact hk h (parseHeader_ok_magic hh).2
  | error e =>
    rw [readHeader_of_error hh]
    rfl

theorem decodeOp_tablesOk (c : Codec) (s : State) :
    (decodeOp c (beginOp c 4 s)).Reaches (TablesOk c) (·.busy = false) := by
  cases c with
  | rp => exact readHeader_tablesOk fun _ _ => trivial
  | bt =>
    show (decodeBtOp _).Reaches _ _
    exact readHeader_tablesOk fun _ _ => fetchByte_reaches (fun clue => fetchByte_reaches (fun count =>
      loadTriples_tablesOk _ (show isNodeByte [] clue = false from rfl)) rfl) rfl
  | hr =>
    show (decodeHrOp _).Reaches _ _
    refine readHeader_tablesOk fun h hmagic => ?_
    have hheld : (behindHeader h (beginOp .hr 4 s)).reader.Held := ⟨Nat.zero_le 7, Nat.one_pos⟩
    split
    next tl r hr => exact ⟨(bits_of_getHrTab hheld hr).1, passesOf_le_two _ hmagic⟩
    next => rfl
  | lz =>
    show (decodeLzOp _).Reaches _ _
    unfold decodeLzOp getLzTab
    split
    next ws r hr =>
      obtain ⟨hlen, hws⟩ := getWidths_yields _ _ ws r hr
      exact LzTab.valid_of_perm lzInitOrder_perm hlen hws
    next => rfl

theorem exec_decode_tablesOk {c : Codec} {s t : State} (h : exec (.decode c) s = .next t) (hb : t.busy = true) :
    TablesOk c t := by
  suffices TablesOk c t ∨ t.busy = false from this.resolve_right (by simp [hb])
  refine (hostOp_next (R := TablesOk c) (E := (·.busy = false)) (show execDecode c s = _ from h) ?_).2
  split_ifs
  · exact decodeOp_tablesOk c s
  · rfl

/-! ## The commands -/

theorem fetchCommand_sameTables {s u : State} {i : Instr} (h : fetchCommand s = .instr i u) : SameTables s u := by
  unfold fetchCommand at h
  cases hc : Codec.ofSel s.codecSel with
  | rp =>
    rw [hc] at h
    dsimp only [fetchRp] at h
    split at h <;> cases h
    exact ⟨rfl, rfl, rfl, rfl⟩
  | bt =>
    rw [hc] at h
    dsimp only [fetchBt] at h
    split at h <;> cases h
    exact ⟨rfl, rfl, rfl, rfl⟩
  | hr =>
    rw [hc] at h
    dsimp only [fetchHr] at h
    split at h <;> cases h
    exact ⟨rfl, rfl, rfl, rfl⟩
  | lz =>
    rw [hc] at h
    dsimp only [fetchLz] at h
    split at h
    · cases h
    · split at h <;> cases h
      exact ⟨rfl, rfl, rfl, rfl⟩

theorem fetchLz_rebuildsLegally {s u : State} {i : Instr} (h : fetchLz s = .instr i u) : RebuildsLegally i := by
  unfold fetchLz at h
  split at h
  next => cases h
  next gs r _ =>
    split at h
    next => cases h
    next hi =>
      cases h
      exact lzFields_yields_rebuildsLegally _ _ _ _ _ hi

theorem lzEmit_tablesOk (b : Byte) (s : State) (h : TablesOk .lz s) :
    (lzEmit b s).Reaches (TablesOk .lz) (·.busy = false) := lzEmit_reaches h rfl

theorem lzMatch_tablesOk (L D : Nat) {s : State} (h : TablesOk .lz s) :
    (lzMatch L D s).Reaches (TablesOk .lz) (·.busy = false) :=
  lzMatch_reaches (fun _ _ => rfl) lzEmit_tablesOk L D h

/-- The tables behind a rebuild (46 R438). -/
theorem tablesOk_rebuilt (s : State) {ws : List Nat} (hlen : ws.length = Config.lzGroups)
    (hws : ∀ w ∈ ws, w ≤ Config.lzMaxWidth) : TablesOk .lz (setLzWidths ws (lzRecalcOrder s)) := by
  rw [TablesOk, setLzWidths_ctx_lz, lzRecalcOrder_ctx_lz]
  dsimp only
  exact LzTab.valid_of_perm (lzSort_perm _) hlen hws

/-- A LightZhl symbol leaves the group table as it is, or is a rebuild: a sorted order under the widths it carries. -/
theorem exec_lz_tablesOk {i : Instr} {s t : State} (hi : IsCommand .lz i) (hlegal : RebuildsLegally i)
    (hs : TablesOk .lz s) (h : exec i s = .next t) (hb : t.busy = true) : TablesOk .lz t := by
  suffices TablesOk .lz t ∨ t.busy = false from this.resolve_right (by simp [hb])
  obtain ⟨hc, he⟩ := hi
  cases i with
  | lzLit b => exact (streamOp_next h (lzEmit_tablesOk b s hs)).2
  | lzMatchS L D => exact (streamOp_next h (lzMatch_tablesOk L D hs)).2
  | lzMatchX L D => exact (streamOp_next h (lzMatch_tablesOk L D hs)).2
  | lzRecalc ws =>
    obtain ⟨hlen, hws⟩ := hlegal ws rfl
    have hvalid := tablesOk_rebuilt s hlen hws
    exact (streamOp_next (R := TablesOk .lz) (E := (·.busy = false)) (show execLzRecalc ws s = _ from h) hvalid).2
  | lzEof => exact (streamOp_next (R := TablesOk .lz) (E := (·.busy = false)) (show execLzEof s = _ from h) rfl).2
  | _ => cases he <;> cases hc

/-- No command of another engine than LightZhl writes a table. -/
theorem CommandFrame.sameTables {c : Codec} {s t : State} (h : CommandFrame c s t) (hc : c ≠ .lz) :
    SameTables s t := by
  have hlz := congrArg LzCtx.tab (h.lz hc)
  obtain ⟨_, _, _, _, _, _, rfl⟩ := h.shape
  exact ⟨rfl, rfl, rfl, hlz⟩

/-- A fetched command of the running `DECODE` leaves valid tables. -/
theorem fetched_tablesOk {s u t : State} {i : Instr} (hf : fetchCommand s = .instr i u) (hx : exec i u = .next t)
    (hframe : CommandFrame i.engine u t) (hb : t.busy = true) (hs : TablesOk (Codec.ofSel s.codecSel) s) :
    TablesOk (Codec.ofSel s.codecSel) t := by
  have hi := (fetchCommand_command s i u hf).1
  have hu := (fetchCommand_sameTables hf).tablesOk hs
  by_cases hc : Codec.ofSel s.codecSel = .lz
  · rw [hc] at hi hu ⊢
    rw [fetchCommand, hc] at hf
    exact exec_lz_tablesOk hi (fetchLz_rebuildsLegally hf) hu hx hb
  · exact (hframe.sameTables (hi.2 ▸ hc)).tablesOk hu

/-- An operation that goes on behind its first step is a `DECODE` with valid tables. -/
theorem step_start_tablesOk {s t : State} (hs : s.start = true) (h : step s = .next t) (hb : t.busy = true) :
    TablesOk (Codec.ofSel s.codecSel) t ∧ t.codecSel = s.codecSel := by
  rw [step_start hs] at h
  obtain ⟨-, ⟨ho, hbegun⟩ | he⟩ := exec_hostop_next (hostopOf_decodeHostop s.codecSel s.op) h
  · have ho : s.op = 4 := ho
    rw [ho, decodeHostop_decode] at h
    exact ⟨exec_decode_tablesOk h hb, hbegun.workingOn.codecSel.trans (sel_ofSel _)⟩
  · simp [he.busy] at hb

/-- Settles O45: a `DECODE` starts with the tables its stream gives, each checked as it is read, and of the commands only
a LightZhl rebuild writes one, from widths checked the same way. -/
theorem stepKeepsTablesValid : Obligations.StepKeepsTablesValid := by
  intro s t hs h
  rw [tablesValid_iff] at hs ⊢
  intro hb
  cases hstart : s.start with
  | true =>
    obtain ⟨hok, hsel⟩ := step_start_tablesOk hstart h hb
    rwa [hsel]
  | false =>
    cases hbusy : s.busy with
    | false =>
      rw [step_idle hstart hbusy] at h
      cases h
      exact hs hb
    | true =>
      obtain ⟨hidle, -⟩ | ⟨-, -, he | ⟨i, u, hf, hx, hc⟩⟩ | ⟨hidle, -⟩ := step_cases h
      · simp [hidle] at hbusy
      · simp [he.busy] at hb
      · rw [((fetchCommand_workingOn hf).trans hc.workingOn).codecSel]
        exact fetched_tablesOk hf hx hc hb (hs hbusy)
      · simp [hidle] at hbusy

end Sys2Proof.Machine
end

section
/-! The expansion of a BinaryTree node (44 R309): what it puts out, and that it ends whatever the tables hold (R311,
R312). -/

namespace Sys2Proof.Machine

/-! ## Leaves put out -/

theorem mem_allBytes (v : Byte) : v ∈ allBytes :=
  List.mem_map.2 ⟨v.toNat, List.mem_range.2 v.isLt, toByte_toNat v⟩

/-- The triples that the node tables hold. -/
def loadedTriples (s : State) : List (Byte × Byte × Byte) :=
  (allBytes.filter (isNodeByte s.ctx.bt.isNode)).map fun v =>
    (v, s.ctx.bt.left.read v.toNat, s.ctx.bt.right.read v.toNat)

theorem mem_loadedTriples {s : State} {v : Byte} (hv : isNodeByte s.ctx.bt.isNode v = true) :
    (v, s.ctx.bt.left.read v.toNat, s.ctx.bt.right.read v.toNat) ∈ loadedTriples s :=
  List.mem_map_of_mem (List.mem_filter.2 ⟨mem_allBytes v, hv⟩)

theorem mem_nodeNames_loadedTriples {s : State} {v : Byte} :
    v ∈ nodeNames (loadedTriples s) ↔ isNodeByte s.ctx.bt.isNode v = true := by
  simp [nodeNames, loadedTriples, mem_allBytes]

theorem treeLoaded_loadedTriples (s : State) : TreeLoaded (loadedTriples s) s where
  isNode _ := mem_nodeNames_loadedTriples.symm
  children x hx := by
    obtain ⟨v, -, rfl⟩ := List.mem_map.1 hx
    exact ⟨rfl, rfl⟩

section
variable {isNode : Sparse Bool} {left right : Memory} {h : Nat} {v : Byte} {out : List Byte}

theorem btLeaves_leaf (h : Nat) (hv : isNodeByte isNode v = false) : btLeaves isNode left right h v = some [v] := by
  cases h <;> simp [btLeaves, hv]

/-- The leaves of a node are those of its left child, then those of its right child. -/
theorem btLeaves_succ_node (hv : isNodeByte isNode v = true) :
    btLeaves isNode left right (h + 1) v = some out ↔
      ∃ as bs, btLeaves isNode left right h (left.read v.toNat) = some as ∧
        btLeaves isNode left right h (right.read v.toNat) = some bs ∧ as ++ bs = out := by
  rw [btLeaves, if_pos hv]
  split
  next as bs ha hb => simp [ha, hb]
  next hnone =>
    exact ⟨nofun, fun ⟨as, bs, ha, hb, _⟩ => (hnone as bs ha hb).elim⟩

/-- A byte with a bound on its paths is a leaf, or a node whose children have the next smaller bound. -/
theorem btLeaves_cases (hout : btLeaves isNode left right h v = some out) :
    isNodeByte isNode v = false ∧ out = [v] ∨
    isNodeByte isNode v = true ∧ ∃ k as bs, h = k + 1 ∧ btLeaves isNode left right k (left.read v.toNat) = some as ∧
      btLeaves isNode left right k (right.read v.toNat) = some bs ∧ out = as ++ bs := by
  cases hv : isNodeByte isNode v with
  | false =>
    rw [btLeaves_leaf h hv] at hout
    cases hout
    exact .inl ⟨rfl, rfl⟩
  | true =>
    cases h with
    | zero =>
      rw [btLeaves, if_pos hv] at hout
      cases hout
    | succ k =>
      obtain ⟨as, bs, ha, hb, rfl⟩ := (btLeaves_succ_node hv).1 hout
      exact .inr ⟨rfl, k, as, bs, rfl, ha, hb, rfl⟩

/-- A bound on the paths may be widened. -/
theorem btLeaves_mono {k : Nat} (hk : h ≤ k) (hout : btLeaves isNode left right h v = some out) :
    btLeaves isNode left right k v = some out := by
  induction h using Nat.strong_induction_on generalizing k v out with
  | _ h ih =>
    obtain ⟨hv, rfl⟩ | ⟨hv, j, as, bs, rfl, ha, hb, rfl⟩ := btLeaves_cases hout
    · exact btLeaves_leaf k hv
    · obtain ⟨k, rfl⟩ : ∃ m, k = m + 1 := ⟨k - 1, by omega⟩
      have hjk : j ≤ k := Nat.le_of_succ_le_succ hk
      exact (btLeaves_succ_node hv).2 ⟨as, bs, ih j (Nat.lt_succ_self j) hjk ha, ih j (Nat.lt_succ_self j) hjk hb, rfl⟩

end

/-- Popping a byte puts out the leaves of its tree. -/
theorem expands_of_btLeaves {s : State} {h : Nat} {v : Byte} {out : List Byte}
    (hout : btLeaves s.ctx.bt.isNode s.ctx.bt.left s.ctx.bt.right h v = some out) :
    Expands (loadedTriples s) h v out := by
  induction h using Nat.strong_induction_on generalizing v out with
  | _ h ih =>
    obtain ⟨hv, rfl⟩ | ⟨hv, k, as, bs, rfl, ha, hb, rfl⟩ := btLeaves_cases hout
    · exact expands_leaf h (by simp [mem_nodeNames_loadedTriples, hv])
    · exact expands_node (mem_loadedTriples hv) (ih k (Nat.lt_succ_self k) ha) (ih k (Nat.lt_succ_self k) hb)

theorem exec_btNode (b : Byte) {s : State} (hd : s.decoding .bt = true) :
    exec (.btNode b) s = .next (btExpandNode b s).state := by
  show execBtNode b s = _
  exact streamOp_decoding _ hd

/-- Settles O31: the tree under the node expands into its leaves. -/
theorem binaryTreeNodeExpands : Obligations.BinaryTreeNodeExpands := by
  intro b s h out hd hout hdepth hroom
  rw [exec_btNode b hd, (expands_of_btLeaves hout).btExpandNode (treeLoaded_loadedTriples s) hdepth hroom, state_cont]

/-! ## One pop -/

section
variable {s : State} {v : Byte} {st : List Byte} (hst : s.ctx.bt.stack = v :: st) (f : Nat)
include hst

/-- A node pushes its right and then its left child (44 R309). -/
theorem btExpand_node (hv : isNodeByte s.ctx.bt.isNode v = true) (hfit : st.length + 2 ≤ s.params.btStackDepth) :
    btExpand (f + 1) s =
      btExpand f (setBtStack (s.ctx.bt.left.read v.toNat :: s.ctx.bt.right.read v.toNat :: st) s) := by
  rw [btExpand, hst]
  dsimp only
  rw [if_pos hv, if_neg (Nat.not_lt.2 hfit)]

theorem btExpand_overflow (hv : isNodeByte s.ctx.bt.isNode v = true) (hfull : s.params.btStackDepth < st.length + 2) :
    btExpand (f + 1) s = .ended (fail .stackOverflow (setBtStack st s)) := by
  rw [btExpand, hst]
  dsimp only
  rw [if_pos hv, if_pos hfull]

theorem btExpand_leaf (hv : isNodeByte s.ctx.bt.isNode v = false) (hroom : s.ctx.dp < s.ctx.ulen) :
    btExpand (f + 1) s = btExpand f (emitted [v] (setBtStack st s)) := by
  rw [btExpand, hst]
  dsimp only
  rw [if_neg (Bool.eq_false_iff.1 hv), emit_of_lt (s := setBtStack st s) hroom, andThen_cont]

theorem btExpand_overrun (hv : isNodeByte s.ctx.bt.isNode v = false) (hfull : s.ctx.ulen ≤ s.ctx.dp) :
    btExpand (f + 1) s = .ended (fail .outputOverrun (setBtStack st s)) := by
  rw [btExpand, hst]
  dsimp only
  rw [if_neg (Bool.eq_false_iff.1 hv), emit_of_ge (s := setBtStack st s) hfull, andThen_ended]

end

/-! ## The end of the loop -/

/-- The byte `v` has a tree with a bound on its paths. -/
def Bounded (s : State) (v : Byte) : Prop :=
  ∃ h out, btLeaves s.ctx.bt.isNode s.ctx.bt.left s.ctx.bt.right h v = some out

theorem bounded_leaf {s : State} {v : Byte} (hv : isNodeByte s.ctx.bt.isNode v = false) : Bounded s v :=
  ⟨0, _, btLeaves_leaf 0 hv⟩

theorem bounded_node {s : State} {v : Byte} (hv : isNodeByte s.ctx.bt.isNode v = true)
    (hl : Bounded s (s.ctx.bt.left.read v.toNat)) (hr : Bounded s (s.ctx.bt.right.read v.toNat)) : Bounded s v := by
  obtain ⟨h, as, ha⟩ := hl
  obtain ⟨k, bs, hb⟩ := hr
  exact ⟨max h k + 1, as ++ bs, (btLeaves_succ_node hv).2
    ⟨as, bs, btLeaves_mono (Nat.le_max_left h k) ha, btLeaves_mono (Nat.le_max_right h k) hb, rfl⟩⟩

/-- An expansion that has emptied its stack: every tree on it had a bound on its paths. -/
def Expanded (s t : State) : Prop := t.busy = s.busy ∧ t.ctx.bt.stack = [] ∧ ∀ v ∈ s.ctx.bt.stack, Bounded s v

/-- An expansion that has failed. -/
def ExpansionFailed (t : State) : Prop := FailedWith .stackOverflow t ∨ FailedWith .outputOverrun t

/-- Every pop takes from what is left of the output and the stack, an output byte counted twice (70 R556). -/
theorem btExpand_ends {f : Nat} {s : State} (hdp : s.ctx.dp ≤ s.ctx.ulen)
    (hstack : s.ctx.bt.stack.length ≤ s.params.btStackDepth)
    (hf : 2 * (s.ctx.ulen - s.ctx.dp) + (s.params.btStackDepth - s.ctx.bt.stack.length) < f) :
    (btExpand f s).Reaches (Expanded s) ExpansionFailed := by
  induction f generalizing s with
  | zero => omega
  | succ f ih =>
    cases hst : s.ctx.bt.stack with
    | nil =>
      rw [btExpand_done _ hst]
      exact ⟨rfl, hst, by simp [hst]⟩
    | cons v st =>
      rw [hst, List.length_cons] at hstack hf
      cases hv : isNodeByte s.ctx.bt.isNode v with
      | true =>
        rcases Nat.lt_or_ge s.params.btStackDepth (st.length + 2) with hfull | hfit
        · rw [btExpand_overflow hst f hv hfull]
          exact .inl (failedWith_fail _ _)
        · rw [btExpand_node hst f hv hfit]
          refine (ih (by simpa) (by simpa) (by simp; omega)).mono fun t ⟨hbusy, hempty, hall⟩ => ⟨hbusy, hempty, ?_⟩
          obtain ⟨hl, hrest⟩ := List.forall_mem_cons.1 hall
          obtain ⟨hr, htail⟩ := List.forall_mem_cons.1 hrest
          rw [hst]
          exact List.forall_mem_cons.2 ⟨bounded_node hv hl hr, htail⟩
      | false =>
        rcases Nat.lt_or_ge s.ctx.dp s.ctx.ulen with hroom | hfull
        · rw [btExpand_leaf hst f hv hroom]
          refine (ih (by simpa) (by simp; omega) (by simp; omega)).mono fun t ⟨hbusy, hempty, hall⟩ =>
            ⟨hbusy, hempty, ?_⟩
          rw [hst]
          exact List.forall_mem_cons.2 ⟨bounded_leaf hv, hall⟩
        · rw [btExpand_overrun hst f hv hfull]
          exact .inr (failedWith_fail _ _)

theorem btExpandNode_ends (b : Byte) {s : State} (hdp : s.ctx.dp ≤ s.ctx.ulen) (hdepth : 1 ≤ s.params.btStackDepth) :
    (btExpandNode b s).Reaches (Expanded (setBtStack [b] s)) ExpansionFailed :=
  btExpand_ends hdp hdepth (by unfold btExpandBound; simp; omega)

/-! ## The cycles of 44 R311 -/

/-- A node that is its own left child deepens the stack at every pop. -/
theorem btExpand_own_left {b : Byte} {f : Nat} {s : State} {st : List Byte} (hst : s.ctx.bt.stack = b :: st)
    (hb : isNodeByte s.ctx.bt.isNode b = true) (hleft : s.ctx.bt.left.read b.toNat = b)
    (hf : s.params.btStackDepth < st.length + 1 + f) (hpos : 1 ≤ f) :
    ∃ u, btExpand f s = .ended (fail .stackOverflow u) ∧ u.ctx.dp = s.ctx.dp := by
  induction f generalizing s st with
  | zero => omega
  | succ f ih =>
    rcases Nat.lt_or_ge s.params.btStackDepth (st.length + 2) with hfull | hfit
    · exact ⟨_, btExpand_overflow hst f hb hfull, rfl⟩
    · rw [btExpand_node hst f hb hfit, hleft]
      exact ih (s := setBtStack (b :: s.ctx.bt.right.read b.toNat :: st) s) rfl hb hleft (by simp; omega) (by omega)

/-- A node that is its own right child and has a leaf to the left puts that leaf out at every second pop. -/
theorem btExpand_own_right {b : Byte} {n f : Nat} {s : State} (hst : s.ctx.bt.stack = [b])
    (hb : isNodeByte s.ctx.bt.isNode b = true) (hright : s.ctx.bt.right.read b.toNat = b)
    (hdepth : 2 ≤ s.params.btStackDepth) (hleaf : isNodeByte s.ctx.bt.isNode (s.ctx.bt.left.read b.toNat) = false)
    (hn : s.ctx.dp + n = s.ctx.ulen) (hf : 2 * n + 2 ≤ f) :
    ∃ u, btExpand f s = .ended (fail .outputOverrun u) ∧ u.ctx.dp = s.ctx.ulen := by
  induction n generalizing s f with
  | zero =>
    obtain ⟨f, rfl⟩ : ∃ g, f = g + 2 := ⟨f - 2, by omega⟩
    rw [btExpand_node hst (f + 1) hb hdepth]
    exact ⟨_, btExpand_overrun (s := setBtStack _ s) rfl f hleaf hn.ge, hn⟩
  | succ n ih =>
    obtain ⟨f, rfl⟩ : ∃ g, f = g + 2 := ⟨f - 2, by omega⟩
    rw [btExpand_node hst (f + 1) hb hdepth, btExpand_leaf (s := setBtStack _ s) rfl f hleaf
      (show s.ctx.dp < s.ctx.ulen by omega), hright]
    exact ih (s := emitted _ (setBtStack [b] s)) rfl hb hright hdepth hleaf
      (show s.ctx.dp + 1 + n = s.ctx.ulen by omega) (by omega)

/-- Settles O32: the bound on the pops suffices, so the loop ends with an empty stack or a failure; an emptied stack means
a bound on the paths; and the two cycles are followed to their failures. -/
theorem binaryTreeExpansionEnds : Obligations.BinaryTreeExpansionEnds := by
  intro b s hd hdp hdepth
  have hends := btExpandNode_ends b hdp hdepth
  have hbusy : s.busy = true := (decoding_iff.1 hd).1
  rw [exec_btNode b hd]
  refine ⟨⟨_, rfl, ?_⟩, fun hcycle => ⟨_, rfl, ?_⟩, fun hb hleft => ?_, fun hb hright h2 hleaf => ?_⟩
  · obtain ⟨hrun, hempty, -⟩ | hfailed := hends.state
    · exact .inl ⟨hrun.trans hbusy, hempty⟩
    · exact .inr hfailed
  · obtain ⟨-, -, hall⟩ | hfailed := hends.state
    · obtain ⟨h, out, hout⟩ := hall b List.mem_cons_self
      exact absurd ((hcycle h).symm.trans hout) nofun
    · exact hfailed
  · obtain ⟨u, hu, hudp⟩ := btExpand_own_left (f := btExpandBound s) (s := setBtStack [b] s) rfl hb hleft
      (by unfold btExpandBound; simp; omega) (by unfold btExpandBound; omega)
    rw [btExpandNode, hu]
    exact ⟨_, rfl, failedWith_fail _ _, congrArg (BitVec.ofNat 32) hudp⟩
  · obtain ⟨u, hu, hudp⟩ := btExpand_own_right (n := s.ctx.ulen - s.ctx.dp) (f := btExpandBound s)
      (s := setBtStack [b] s) rfl hb hright h2 hleaf (by simp; omega) (by unfold btExpandBound; omega)
    rw [btExpandNode, hu]
    exact ⟨_, rfl, failedWith_fail _ _, congrArg (BitVec.ofNat 32) hudp⟩

end Sys2Proof.Machine
end

section
/-! The run item of Huffman-with-Runlength (45 R400): the last byte again and again, as far as the output goes. -/

namespace Sys2Proof.Machine

/-- A run without room: it fills the output, then `OUTPUT_OVERRUN`. -/
theorem emitRun_overrun (b : Byte) (k : Nat) {s : State} (h0 : s.ctx.dp ≤ s.ctx.ulen) (h : s.ctx.ulen < s.ctx.dp + k) :
    emitRun b k s =
      .ended (fail .outputOverrun (emitted (List.replicate (s.ctx.ulen - s.ctx.dp) b) s)) := by
  induction k generalizing s with
  | zero => omega
  | succ k ih =>
    rcases Nat.lt_or_ge s.ctx.dp s.ctx.ulen with hroom | hfull
    · have hleft : s.ctx.ulen - s.ctx.dp = s.ctx.ulen - (s.ctx.dp + 1) + 1 := by omega
      rw [emitRun, emit_of_lt hroom, andThen_cont, ih (by simp; omega) (by simp; omega), emitted_append, hleft,
        List.replicate_succ]
      rfl
    · rw [emitRun, emit_of_ge hfull, andThen_ended, Nat.sub_eq_zero_of_le hfull]
      rfl

theorem exec_hrRun (k : Nat) {s : State} (hd : s.decoding .hr = true) : exec (.hrRun k) s = (hrRunOp k s).outcome := by
  show execHrRun k s = _
  exact streamOp_decoding _ hd

/-- A run at the start of the output has no byte to repeat. -/
theorem hrRunOp_of_zero (k : Nat) {s : State} (h : s.ctx.dp = 0) : hrRunOp k s = .ended (fail .badRun s) := by
  rw [hrRunOp, if_pos h]

theorem hrRunOp_of_pos (k : Nat) {s : State} (h : 1 ≤ s.ctx.dp) :
    hrRunOp k s = emitRun (s.dst.read (s.ctx.dp - 1)) k s := by
  rw [hrRunOp, if_neg (Nat.one_le_iff_ne_zero.1 h)]

/-- Settles O33: behind the first byte the item is `emitRun` of the last one. -/
theorem huffmanRunRepeatsLastByte : Obligations.HuffmanRunRepeatsLastByte := by
  intro k s hd
  rw [exec_hrRun k hd]
  refine ⟨fun hpos hroom => ?_, fun hzero => ?_, fun hpos hdp hover => ?_⟩
  · rw [hrRunOp_of_pos k hpos, emitRun_ok _ k hroom, outcome_cont]
  · rw [hrRunOp_of_zero k hzero]
    exact ⟨_, rfl, failedWith_fail _ _, (WorkingOn.refl s).fail_inputsKept _⟩
  · rw [hrRunOp_of_pos k hpos, emitRun_overrun _ k hdp hover]
    refine ⟨_, rfl, failedWith_fail _ _, ?_, WorkingOn.fail_inputsKept _ ⟨_, _, _, rfl⟩⟩
    refine congrArg (BitVec.ofNat 32) ?_
    rw [emitted_ctx_dp, List.length_replicate, Nat.add_sub_of_le hdp]

end Sys2Proof.Machine
end

section
/-! The delta filter byte by byte (45 R352, R353), and the end item that undoes it on the output (45 R402). -/

namespace Sys2Proof.Machine

/-! ## The filter's bytes -/

/-- The filter takes from each byte the byte before it. -/
theorem getElem?_deltaFrom (prev : Byte) {x : List Byte} {i : Nat} (h : i < x.length) :
    (deltaFrom prev x)[i]? = some (x.getD i 0 - (prev :: x).getD i 0) := by
  induction x generalizing prev i with
  | nil => cases h
  | cons b bs ih =>
    cases i with
    | zero => rfl
    | succ i => exact ih b (Nat.lt_of_succ_lt_succ h)

/-- The inverse filter adds to each byte the one it has put before it. -/
theorem getElem?_undeltaFrom (prev : Byte) {y : List Byte} {i : Nat} (h : i < y.length) :
    (undeltaFrom prev y)[i]? = some (y.getD i 0 + (prev :: undeltaFrom prev y).getD i 0) := by
  induction y generalizing prev i with
  | nil => cases h
  | cons b bs ih =>
    cases i with
    | zero => rfl
    | succ i => exact ih (b + prev) (Nat.lt_of_succ_lt_succ h)

/-- The byte before byte `i` of a list, 0 before the first. -/
theorem getD_zero_cons (x : List Byte) (i : Nat) :
    ((0 : Byte) :: x).getD i 0 = if i = 0 then 0 else x.getD (i - 1) 0 := by
  cases i <;> rfl

/-- Settles O35: the inverse law holds pass by pass, and each element is read off its filter with 0 before the first. -/
theorem deltaFiltersInverse : Obligations.DeltaFiltersInverse := by
  refine ⟨deltaInverse_deltaForward, deltaUndo_deltaPasses, fun x i h => ?_, fun y i h => ?_⟩
  · rw [← getD_zero_cons]
    exact getElem?_deltaFrom 0 h
  · rw [← getD_zero_cons]
    exact getElem?_undeltaFrom 0 h

/-! ## The end item -/

theorem exec_hrEof {s : State} (hd : s.decoding .hr = true) :
    exec .hrEof s = (endHeaded s fun t => .ended (finish (undoDelta t))).outcome := by
  show execHrEof s = _
  rw [execHrEof, streamOp_decoding _ hd]

theorem length_undone (s : State) :
    (deltaUndo s.ctx.hr.passes (s.dst.bytesFrom 0 s.ctx.ulen)).length = s.ctx.ulen := by
  rw [length_deltaUndo, Memory.length_bytesFrom]

/-- The output is the inverse-filtered one. -/
theorem undoDelta_bytesFrom (s : State) :
    (undoDelta s).dst.bytesFrom 0 s.ctx.ulen = deltaUndo s.ctx.hr.passes (s.dst.bytesFrom 0 s.ctx.ulen) := by
  have hback := Memory.bytesFrom_writeList s.dst 0 (deltaUndo s.ctx.hr.passes (s.dst.bytesFrom 0 s.ctx.ulen))
  rwa [length_undone] at hback

theorem undoDelta_read_of_ge {s : State} {a : Nat} (h : s.ctx.ulen ≤ a) : (undoDelta s).dst.read a = s.dst.read a :=
  Memory.read_writeList_of_ge _ _ (by rwa [length_undone, Nat.zero_add])

/-- Settles O34: the item is the check of the length, and a success undoes the filter on the declared length. -/
theorem huffmanEndUndoesDelta : Obligations.HuffmanEndUndoesDelta := by
  intro s hd
  rw [exec_hrEof hd]
  refine ⟨fun heq => ?_, fun hne => ?_⟩
  · rw [endHeaded_of_eq _ heq]
    exact ⟨_, rfl, rfl, undoDelta_bytesFrom s, fun a ha => undoDelta_read_of_ge ha⟩
  · rw [endHeaded_of_ne _ hne]
    exact ⟨_, rfl, failedWith_fail _ _, (WorkingOn.refl s).fail_inputsKept _, rfl⟩

end Sys2Proof.Machine
end

section
/-! The code the Huffman encoder builds (45 R370 to R375): lengths of 1 to 15 bits for the counted symbols, and none for
the others. -/

namespace Sys2Proof.Machine

/-! ## Symbols in the table and outside -/

theorem codeOf_of_not_mem {t : HrTab} {s : Byte} (hs : s ∉ t.syms) : t.codeOf s = none := by
  rw [HrTab.codeOf, if_neg fun h => hs (List.contains_iff_mem.1 h)]

/-- A symbol of the table has a length of 1 to 15 bits. -/
theorem HrCoded.len_bounds {h : HrCtx} (hc : HrCoded h) {s : Byte} (hs : s ∈ h.tab.syms) :
    1 ≤ h.len.getD 0 s.toNat ∧ h.len.getD 0 s.toNat ≤ 15 := by
  have hcode := hc.code s hs
  obtain ⟨-, hat⟩ := HrTab.codeOf_eq_some hcode
  obtain ⟨k, hk, -⟩ := first_le_of_codeAt hat
  exact ⟨by omega, (code_bounds hc.valid hcode).1⟩

/-- A symbol outside the order keeps the default length. -/
theorem len_of_not_mem_hrSyms {pick : ChainsawPick} {cnt : Sparse Nat} {s : Byte} (hs : s ∉ hrSyms pick cnt) :
    (lenTable (hrOrder pick cnt) []).getD 0 s.toNat = 0 := by
  refine lenTable_other (fun hmem => hs ?_) []
  obtain ⟨x, hx, hval⟩ := List.mem_map.1 hmem
  exact List.mem_map.2 ⟨x, hx, by rw [hval, toByte_toNat]⟩

section
variable (passes runMin : Nat) (pick : ChainsawPick) (data : List Byte)

theorem hrBuild_cnt : (hrBuild passes runMin pick data).cnt = hrCntOf runMin data := by
  simp only [hrBuild, hrCntOf, hrToksOf]

theorem hrBuild_syms : (hrBuild passes runMin pick data).tab.syms = hrSyms pick (hrCntOf runMin data) := by
  rw [hrBuild_tab]

/-- The table's symbols are those counted (45 R382). -/
theorem mem_syms_iff_counted {s : Byte} :
    s ∈ (hrBuild passes runMin pick data).tab.syms ↔ 0 < (hrBuild passes runMin pick data).cnt.getD 0 s.toNat := by
  have hne : liveSyms (hrCntOf runMin data) ≠ [] := liveSyms_hrCounts_ne_nil (hrClue data) (hrToksOf runMin data)
  rw [hrBuild_syms, hrBuild_cnt, mem_hrSyms pick hne]

theorem len_of_not_mem_syms {s : Byte} (hs : s ∉ (hrBuild passes runMin pick data).tab.syms) :
    (hrBuild passes runMin pick data).len.getD 0 s.toNat = 0 := by
  rw [hrBuild_syms] at hs
  rw [hrBuild_len, len_of_not_mem_hrSyms hs]

end

theorem hrEncode_state (passes runMin : Nat) (pick : ChainsawPick) (input : List Byte) :
    (hrEncode passes runMin pick input).1 = hrBuild passes runMin pick (deltaPasses passes input) := by
  simp only [hrEncode]

/-- Settles O54: the symbols counted are those of the table, whose codes are the ones written, and every other symbol
has length 0. -/
theorem huffmanCodeBounded : Obligations.HuffmanCodeBounded := by
  intro passes runMin pick input
  rw [hrEncode_state]
  generalize deltaPasses passes input = data
  dsimp only
  have hc := hrCoded_hrBuild passes runMin pick data
  refine ⟨(HrTab.valid_iff _).2 hc.valid, fun s => ?_, fun s => ?_, fun s hcounted => ?_⟩
  · by_cases hs : s ∈ (hrBuild passes runMin pick data).tab.syms
    · exact (hc.len_bounds hs).2
    · rw [len_of_not_mem_syms passes runMin pick data hs]
      exact Nat.zero_le 15
  · by_cases hs : s ∈ (hrBuild passes runMin pick data).tab.syms
    · rw [hc.code s hs, if_neg (Nat.one_le_iff_ne_zero.1 (hc.len_bounds hs).1)]
    · rw [codeOf_of_not_mem hs, if_pos (len_of_not_mem_syms passes runMin pick data hs)]
  · exact (hc.len_bounds ((mem_syms_iff_counted passes runMin pick data).2 hcounted)).1

end Sys2Proof.Machine
end

section
/-! The group table at the head of a LightZhl stream (30 R151, 46 R444): sixteen fields of 4 bits, two to a byte. -/

namespace Sys2Proof

/-! ## The fields -/

/-- Field `g` of a table at the front of `m`: the high half of a byte, then the low one. -/
def tableField (m : Memory) (g : Nat) : Nat :=
  if g % 2 = 0 then (m.read (g / 2)).toNat / 16 else (m.read (g / 2)).toNat % 16

/-- The first `k` fields. -/
def tableFields (m : Memory) (k : Nat) : List Nat := (List.range k).map (tableField m)

theorem tableField_lt (m : Memory) (g : Nat) : tableField m g < 16 := by
  have := (m.read (g / 2)).isLt
  unfold tableField
  split_ifs <;> omega

theorem tableField_even (m : Memory) (n : Nat) : tableField m (2 * n) = (m.read n).toNat / 16 := by
  rw [tableField, if_pos (Nat.mul_mod_right 2 n), Nat.mul_div_cancel_left n Nat.two_pos]

theorem tableField_odd (m : Memory) (n : Nat) : tableField m (2 * n + 1) = (m.read n).toNat % 16 := by
  rw [tableField, if_neg (by omega), show (2 * n + 1) / 2 = n by omega]

@[simp] theorem length_tableFields (m : Memory) (k : Nat) : (tableFields m k).length = k := by simp [tableFields]

theorem tableFields_succ (m : Memory) (k : Nat) : tableFields m (k + 1) = tableFields m k ++ [tableField m k] := by
  simp [tableFields, List.range_succ]

theorem getD_tableFields (m : Memory) {k g : Nat} (h : g < k) : (tableFields m k).getD g 0 = tableField m g := by
  simp [tableFields, h]

theorem take_tableFields (m : Memory) {k g : Nat} (h : g ≤ k) : (tableFields m k).take g = tableFields m g := by
  rw [tableFields, ← List.map_take, List.take_range, Nat.min_eq_left h, tableFields]

theorem forall_mem_tableFields {m : Memory} {k : Nat} {p : Nat → Prop} (h : ∀ g, g < k → p (tableField m g)) :
    ∀ w ∈ tableFields m k, p w :=
  List.forall_mem_map.2 fun g hg => h g (List.mem_range.1 hg)

/-! ## Their bits -/

theorem widthsBits_append (vs ws : List Nat) : widthsBits (vs ++ ws) = widthsBits vs ++ widthsBits ws := by
  induction vs with
  | nil => rfl
  | cons v vs ih => rw [List.cons_append, widthsBits, widthsBits, ih, List.append_assoc]

@[simp] theorem length_widthsBits (ws : List Nat) : (widthsBits ws).length = 4 * ws.length := by
  induction ws with
  | nil => rfl
  | cons w ws ih => rw [widthsBits, List.length_append, length_natBits, ih, List.length_cons]; omega

/-- A byte is two fields, the high half first. -/
theorem byteBits_eq_halves (b : Byte) : byteBits b = natBits 4 (b.toNat / 16) ++ natBits 4 (b.toNat % 16) := by
  rw [byteBits, natBits_add 4 4, Nat.shiftRight_eq_div_pow]
  congr 1
  refine natBits_congr fun i hi => ?_
  rw [show (16 : Nat) = 2 ^ 4 from rfl, Nat.testBit_mod_two_pow, decide_eq_true hi, Bool.true_and]

theorem bytesBits_eq_widthsBits (m : Memory) (n : Nat) :
    bytesBits (m.bytesFrom 0 n) = widthsBits (tableFields m (2 * n)) := by
  induction n with
  | zero => rfl
  | succ n ih =>
    have hbyte : bytesBits (m.bytesFrom n 1) = widthsBits [tableField m (2 * n), tableField m (2 * n + 1)] := by
      rw [tableField_even, tableField_odd]
      simp [Memory.bytesFrom, bytesBits, widthsBits, byteBits_eq_halves]
    rw [Memory.bytesFrom_add, bytesBits_append, ih, Nat.zero_add, hbyte, ← widthsBits_append, Nat.mul_succ,
      tableFields_succ, tableFields_succ, List.append_assoc]
    rfl

/-- The stream begins with the fields of the bytes it has. -/
theorem bytesBits_eq_fields_append (m : Memory) {n k : Nat} (h : k ≤ 2 * n) :
    ∃ tail, bytesBits (m.bytesFrom 0 n) = widthsBits (tableFields m k) ++ tail := by
  refine ⟨widthsBits ((tableFields m (2 * n)).drop k), ?_⟩
  rw [bytesBits_eq_widthsBits, ← take_tableFields m h, ← widthsBits_append, List.take_append_drop]

/-! ## Reading them -/

/-- Legal widths are read one by one; what is asked for beyond them is read behind them. -/
theorem getWidths_behind {ws : List Nat} (h : ∀ w ∈ ws, w ≤ Config.lzMaxWidth) (k : Nat) {r : BitSrc}
    {tail : List Bool} (hr : r.Held) (hbits : r.bits = widthsBits ws ++ tail) :
    ∃ q, q.Held ∧ q.bits = tail ∧
      getWidths (ws.length + k) r = (getWidths k q).bind fun vs p => .ok (ws ++ vs) p := by
  induction ws generalizing r with
  | nil =>
    refine ⟨r, hr, hbits, ?_⟩
    rw [List.length_nil, Nat.zero_add]
    cases getWidths k r <;> rfl
  | cons w ws ih =>
    obtain ⟨hw, hws⟩ := List.forall_mem_cons.1 h
    rw [widthsBits, List.append_assoc] at hbits
    have hlt : w < 2 ^ 4 := Nat.lt_of_le_of_lt hw (by decide)
    obtain ⟨p, hp, hheld, hpbits⟩ := (reads_getbits .table (by decide) hlt).ok hr hbits
    obtain ⟨q, hq, hqbits, hrest⟩ := ih hws hheld hpbits
    refine ⟨q, hq, hqbits, ?_⟩
    rw [List.length_cons, Nat.add_right_comm, getWidths, hp, Rd.bind_ok, if_neg (Nat.not_lt.2 hw), hrest]
    cases getWidths k q <;> rfl

section
variable {r : BitSrc} (hr : r.Held)
include hr

theorem getWidths_badWidth (k : Nat) {w : Nat} {tail : List Bool} (hw : Config.lzMaxWidth < w) (hlt : w < 16)
    (hbits : r.bits = natBits 4 w ++ tail) :
    ∃ q, getWidths (k + 1) r = .err .badTable .table q ∧ q.Held ∧ q.bits = tail := by
  obtain ⟨q, hq, hheld, hqbits⟩ := (reads_getbits .table (nb := 4) (by decide) hlt).ok hr hbits
  exact ⟨q, by rw [getWidths, hq, Rd.bind_ok, if_pos hw], hheld, hqbits⟩

theorem getWidths_cut (k : Nat) (hbits : r.bits = []) :
    ∃ q, getWidths (k + 1) r = .err .truncated .table q ∧ q.bytes = [] := by
  have hspec := getbits_spec .table (nb := 4) (by decide) hr
  cases hget : getbits .table 4 r with
  | ok v q =>
    rw [hget, hbits] at hspec
    have hlen := congrArg List.length hspec.2
    rw [List.length_append, length_natBits, List.length_nil] at hlen
    omega
  | err e st q =>
    rw [hget] at hspec
    obtain ⟨rfl, rfl, -, hnil⟩ := hspec
    exact ⟨q, by rw [getWidths, hget]; rfl, hnil⟩

end

/-! ## The table -/

/-- The reader at the head of a stream of `n` bytes. -/
def headReader (m : Memory) (n : Nat) : BitSrc := ⟨m.bytesFrom 0 n, 0, 0, 0⟩

theorem headReader_held (m : Memory) (n : Nat) : (headReader m n).Held := ⟨Nat.zero_le 7, Nat.one_pos⟩

theorem headReader_bits (m : Memory) (n : Nat) : (headReader m n).bits = bytesBits (m.bytesFrom 0 n) := rfl

/-- A reader is ahead of the bits it has taken by those it holds. -/
theorem eight_mul_used {m : Memory} {n k : Nat} {r : BitSrc} (htotal : r.total = (headReader m n).total)
    (hbits : (headReader m n).bits.length = k + r.bits.length) : 8 * r.used = k + r.nacc := by
  simp only [BitSrc.total, headReader, Memory.length_bytesFrom] at htotal
  simp only [length_bits, headReader, Memory.length_bytesFrom] at hbits
  omega

section
variable {m : Memory} {n : Nat}

theorem getLzTab_ok (h8 : 8 ≤ n) (h : ∀ g, g < 16 → tableField m g ≤ 12) :
    ∃ r, getLzTab (headReader m n) = .ok (tableFields m 16) r ∧ r.used = 8 ∧ r.nacc = 0 := by
  obtain ⟨tail, hbits⟩ := bytesBits_eq_fields_append m (show 16 ≤ 2 * n by omega)
  obtain ⟨r, hr, hheld, htail⟩ :=
    (reads_getWidths (forall_mem_tableFields h)).ok (headReader_held m n) hbits
  rw [length_tableFields] at hr
  have htotal := getWidths_readsFrom 16 (headReader m n)
  rw [hr] at htotal
  have hused := eight_mul_used (k := 64) htotal.1 (by simp [headReader_bits, hbits, htail])
  have hnacc := hheld.1
  exact ⟨r, hr, by omega, by omega⟩

theorem getLzTab_badWidth {g : Nat} (hg : g < 16) (hn : g / 2 < n) (h : ∀ k, k < g → tableField m k ≤ 12)
    (hbad : 12 < tableField m g) :
    ∃ r, getLzTab (headReader m n) = .err .badTable .table r ∧ r.used = g / 2 + 1 := by
  obtain ⟨tail, hbits⟩ := bytesBits_eq_fields_append m (show g + 1 ≤ 2 * n by omega)
  have hsplit : (headReader m n).bits =
      widthsBits (tableFields m g) ++ (natBits 4 (tableField m g) ++ tail) := by
    rw [headReader_bits, hbits, tableFields_succ, widthsBits_append, List.append_assoc]
    simp [widthsBits]
  obtain ⟨q, hq, hqbits, hrest⟩ :=
    getWidths_behind (forall_mem_tableFields h) (15 - g + 1) (headReader_held m n) hsplit
  obtain ⟨r, hr, hheld, htail⟩ := getWidths_badWidth hq (15 - g) hbad (tableField_lt m g) hqbits
  rw [length_tableFields, show g + (15 - g + 1) = 16 by omega, hr] at hrest
  have htotal := getWidths_readsFrom 16 (headReader m n)
  rw [hrest] at htotal
  have hused := eight_mul_used (k := 4 * (g + 1)) htotal (by simp [headReader_bits, hbits, htail])
  have hnacc := hheld.1
  exact ⟨r, hrest, by omega⟩

theorem getLzTab_cut (hn : n < 8) (h : ∀ g, g / 2 < n → tableField m g ≤ 12) :
    ∃ r, getLzTab (headReader m n) = .err .truncated .table r ∧ r.used = n := by
  have hbits : (headReader m n).bits = widthsBits (tableFields m (2 * n)) ++ [] := by
    rw [headReader_bits, bytesBits_eq_widthsBits, List.append_nil]
  obtain ⟨q, hq, hqbits, hrest⟩ :=
    getWidths_behind (forall_mem_tableFields fun g hg => h g (by omega)) (15 - 2 * n + 1) (headReader_held m n) hbits
  obtain ⟨r, hr, hnil⟩ := getWidths_cut hq (15 - 2 * n) hqbits
  rw [length_tableFields, show 2 * n + (15 - 2 * n + 1) = 16 by omega, hr] at hrest
  have htotal := getWidths_readsFrom 16 (headReader m n)
  rw [hrest] at htotal
  have htotal : r.used + r.bytes.length = 0 + (m.bytesFrom 0 n).length := htotal
  rw [hnil, List.length_nil, Memory.length_bytesFrom, Nat.add_zero, Nat.zero_add] at htotal
  exact ⟨r, hrest, htotal⟩

end

/-! ## Bases -/

theorem getD_lzBaseFrom (b : Nat) {ws : List Nat} {g : Nat} (h : g < ws.length) :
    (lzBaseFrom b ws).getD g 0 = b + ((ws.take g).map fun w => 2 ^ w).sum := by
  induction ws generalizing b g with
  | nil => cases h
  | cons w ws ih =>
    cases g with
    | zero => rfl
    | succ g =>
      rw [List.take_succ_cons, List.map_cons, List.sum_cons, ← Nat.add_assoc]
      exact ih (b + 2 ^ w) (Nat.lt_of_succ_lt_succ h)

/-- A group starts behind the groups before it (46 R444). -/
theorem LzTab.start_lzBase (order : List Nat) {ws : List Nat} {g : Nat} (h : g < ws.length) :
    LzTab.start ⟨order, ws, lzBase ws⟩ g = ((ws.take g).map fun w => 2 ^ w).sum :=
  (getD_lzBaseFrom 0 h).trans (Nat.zero_add _)

end Sys2Proof

namespace Sys2Proof.Machine

/-! ## The start of a LightZhl DECODE -/

theorem reader_beginOp (c : Codec) (op : BitVec 3) (s : State) :
    (beginOp c op s).reader = headReader s.src s.srcLen.toNat := rfl

section
variable {s : State}

theorem decodeLzOp_ok {ws : List Nat} {r : BitSrc} (h : getLzTab s.reader = .ok ws r) :
    decodeOp .lz s = .cont (setLzWidths ws (s.setReader r)) := by
  show decodeLzOp s = _
  rw [decodeLzOp, h]

theorem decodeLzOp_err {e : Reject} {st : Stage} {r : BitSrc} (h : getLzTab s.reader = .err e st r) :
    decodeOp .lz s = .ended (failLz (Cause.ofReject e) st (s.setReader r)) := by
  show decodeLzOp s = _
  rw [decodeLzOp, h]

/-- A table that is refused ends the operation, the cursor behind the bytes fetched of it. -/
theorem exec_decodeLz_err (hb : s.busy = false) (hd : s.desc.lz.canDecode = true) {e : Reject} {st : Stage} {r : BitSrc}
    (h : getLzTab (headReader s.src s.srcLen.toNat) = .err e st r) :
    ∃ t, exec (.decode .lz) s = .next t ∧ FailedWith (Cause.ofReject e) t ∧ t.diag.stage = st ∧
      t.diag.sp = BitVec.ofNat 32 r.used ∧ InputsKept s t :=
  ⟨_, exec_decode_ended hb (decodeLzOp_err (s := beginOp .lz 4 s) h) hd, failedWith_failLz _ _ _, rfl,
    congrArg (BitVec.ofNat 32) (Nat.zero_add _), ⟨rfl, rfl, rfl, rfl, rfl, rfl⟩⟩

end

/-- Settles O25: `getLzTab` reads the sixteen fields, or stops at the first width above 12 or where the bytes end. -/
theorem decodeLoadsGroupTable : Obligations.DecodeLoadsGroupTable := by
  intro s hb hd field
  rw [show field = tableField s.src from rfl]
  refine ⟨fun h8 hws => ?_, fun g hg hn hws hbad => ?_, fun hn hws => ?_⟩
  · obtain ⟨r, hr, hused, hnacc⟩ := getLzTab_ok h8 hws
    have hvalid : LzTab.Valid ⟨lzInitOrder, tableFields s.src 16, lzBase (tableFields s.src 16)⟩ :=
      LzTab.valid_of_perm lzInitOrder_perm (length_tableFields _ _) (forall_mem_tableFields hws)
    obtain ⟨hbody, hdst, hkept, hfree⟩ := ((nothingPutOut_setReader (beginOp .lz 4 s) r).trans
      (nothingPutOut_setLzWidths (tableFields s.src 16) _)).bodyReached
    have hsp : ((beginOp .lz 4 s).setReader r).ctx.sp = 8 := (Nat.zero_add _).trans hused
    refine ⟨_, exec_decode_begun hb (decodeLzOp_ok (s := beginOp .lz 4 s) hr) hd, hsp ▸ hbody, hnacc, rfl,
      fun g hg => getD_tableFields s.src hg, fun g hg => ?_, fun p hp => getElem?_lzInitOrder hp,
      (LzTab.valid_iff _).2 hvalid, fun v => rfl, hdst, hkept, hfree⟩
    refine (LzTab.start_lzBase lzInitOrder (by rwa [length_tableFields])).trans ?_
    rw [take_tableFields s.src (Nat.le_of_lt hg), tableFields, List.map_map]
    rfl
  · obtain ⟨r, hr, hused⟩ := getLzTab_badWidth hg hn hws hbad
    obtain ⟨t, ht, hfail, hstage, hsp, hkept⟩ := exec_decodeLz_err hb hd hr
    exact ⟨t, ht, hfail, hstage, hused ▸ hsp, hkept⟩
  · obtain ⟨r, hr, hused⟩ := getLzTab_cut hn hws
    obtain ⟨t, ht, hfail, hstage, hsp, hkept⟩ := exec_decodeLz_err hb hd hr
    rw [hused, BitVec.ofNat_toNat, BitVec.setWidth_eq] at hsp
    exact ⟨t, ht, hfail, hstage, hsp, hkept⟩

end Sys2Proof.Machine
end

section
/-! The LightZhl symbols: literals and matches through the circular buffer (46 R431 to R437), and the end. -/

namespace Sys2Proof.Machine

/-! ## Literals and the end -/

/-- Settles O36: the literal is one byte of the LightZhl decoder's `emit`. -/
theorem lightZhlLiteralEmits : Obligations.LightZhlLiteralEmits := by
  intro b s hd
  show (_ → execLzLit b s = _) ∧ (_ → ∃ t, execLzLit b s = _ ∧ _)
  rw [execLzLit, streamOp_decoding _ hd]
  refine ⟨fun hroom => ?_, fun hfull => ?_⟩
  · rw [lzEmit_of_lt hroom]
    rfl
  · rw [lzEmit_of_ge hfull, outcome_ended]
    exact ⟨_, rfl, failedWith_failLz _ _ _, rfl, rfl, (WorkingOn.refl s).failLz_inputsKept _ _⟩

/-- Settles O40: the symbol finishes the operation, and no length is checked. -/
theorem lightZhlEndSucceeds : Obligations.LightZhlEndSucceeds := by
  intro s hd
  show execLzEof s = _
  rw [execLzEof, streamOp_decoding _ hd, outcome_ended]
  rfl

/-! ## Matches -/

/-- Both match symbols check the distance, then copy. -/
theorem exec_lzMatch {L D : Nat} {s : State} (hd : s.decoding .lz = true) {i : Instr}
    (hi : i ∈ [Instr.lzMatchS L D, .lzMatchX L D]) : exec i s = (lzMatch L D s).outcome := by
  rw [← streamOp_decoding (lzMatch L D) hd]
  simp only [List.mem_cons, List.not_mem_nil, or_false] at hi
  obtain rfl | rfl := hi <;> rfl

theorem lzMatch_badDistance {L D : Nat} {s : State} (h : D = 0 ∨ s.ctx.lz.wp < D) :
    lzMatch L D s = .ended (failLz .badDistance .disp s) := by rw [lzMatch, if_pos h]

theorem lzMatch_of_le {L D : Nat} {s : State} (h1 : 1 ≤ D) (h2 : D ≤ s.ctx.lz.wp) : lzMatch L D s = lzCopy D L s := by
  rw [lzMatch, if_neg (by omega)]

/-- `s` after the LightZhl decoder put out `out`, the circular buffer then being `m`. -/
def lzPutOut (out : List Byte) (m : Memory) (s : State) : State :=
  { s with
    dst := s.dst.writeList s.ctx.dp out
    ctx := { s.ctx with
      dp := s.ctx.dp + out.length
      lz := { s.ctx.lz with cbuf := m, wp := s.ctx.lz.wp + out.length } } }

theorem lzEmitRaw_eq_lzPutOut (b : Byte) (s : State) :
    lzEmitRaw b s = lzPutOut [b] (s.ctx.lz.cbuf.write (s.ctx.lz.wp % s.params.lzSize) b) s := rfl

theorem lzPutOut_lzPutOut (xs ys : List Byte) (m m' : Memory) (s : State) :
    lzPutOut ys m' (lzPutOut xs m s) = lzPutOut (xs ++ ys) m' s := by
  simp [lzPutOut, Memory.writeList_append, Nat.add_assoc]

/-- While the buffer mirrors the output, each byte the copy takes from it is the one `D` back in `DST`, and the byte put
out keeps it a mirror (46 R436, R437). -/
theorem lzCopy_eq_backBytes (L : Nat) {D : Nat} {s : State} (hm : Mirrored s) (h1 : 1 ≤ D) (h2 : D ≤ s.ctx.lz.wp)
    (h3 : D ≤ s.params.lzSize) (hroom : s.ctx.dp + L ≤ s.outLimit.toNat) :
    ∃ m, lzCopy D L s = .cont (lzPutOut (backBytes s.dst s.ctx.dp L D) m s) ∧
      Mirrored (lzPutOut (backBytes s.dst s.ctx.dp L D) m s) := by
  induction L generalizing s with
  | zero => exact ⟨s.ctx.lz.cbuf, rfl, hm⟩
  | succ L ih =>
    have hdp : D ≤ s.ctx.dp := hm.1 ▸ h2
    have hbyte : s.ctx.lz.cbuf.read ((s.ctx.lz.wp - D) % s.params.lzSize) = s.dst.read (s.ctx.dp - D) :=
      hm.2 D h1 h2 h3
    obtain ⟨m, hcopy, hmirror⟩ := ih (hm.lzEmitRaw (s.dst.read (s.ctx.dp - D))) (Nat.le_succ_of_le h2) h3
      (show s.ctx.dp + 1 + L ≤ s.outLimit.toNat by omega)
    refine ⟨m, ?_, ?_⟩
    · rw [lzCopy, hbyte, lzEmit_of_lt (by omega), andThen_cont, hcopy, lzEmitRaw_eq_lzPutOut,
        lzPutOut_lzPutOut, backBytes_succ s.dst h1 hdp]
      rfl
    · rw [lzEmitRaw_eq_lzPutOut, lzPutOut_lzPutOut] at hmirror
      rwa [backBytes_succ s.dst h1 hdp]

/-- Settles O37: `lzCopy_eq_backBytes`, whose bytes are those of RefPack's copy. -/
theorem lightZhlMatchCopiesOutput : Obligations.LightZhlMatchCopiesOutput := by
  intro L D s hd hbuf h1 h2 h3 hroom i hi
  have hm : Mirrored s := hbuf (decoding_iff.1 hd).1 (codecSel_of_decoding hd)
  obtain ⟨m, hcopy, hmirror⟩ := lzCopy_eq_backBytes L hm h1 h2 (Nat.le_of_lt h3) hroom
  refine ⟨_, ?_, fun _ _ => hmirror, ?_⟩
  · rw [exec_lzMatch hd hi, lzMatch_of_le h1 h2, hcopy, outcome_cont]
  · simp only [lzPutOut, length_backBytes]

/-- A copy without room fails at the limit. -/
theorem lzCopy_overrun (L D : Nat) {s : State} (h0 : s.ctx.dp ≤ s.outLimit.toNat)
    (hover : s.outLimit.toNat < s.ctx.dp + L) :
    ∃ u, lzCopy D L s = .ended (failLz .outputOverrun .copy u) ∧ WorkingOn s u ∧ u.ctx.dp = s.outLimit.toNat := by
  induction L generalizing s with
  | zero => omega
  | succ L ih =>
    rcases Nat.lt_or_ge s.ctx.dp s.outLimit.toNat with hlt | hge
    · rw [lzCopy, lzEmit_of_lt hlt, andThen_cont]
      generalize s.ctx.lz.cbuf.read ((s.ctx.lz.wp - D) % s.params.lzSize) = b
      obtain ⟨u, hcopy, hu, hdp⟩ := ih (s := lzEmitRaw b s) hlt (show s.outLimit.toNat < s.ctx.dp + 1 + L by omega)
      exact ⟨u, hcopy, WorkingOn.trans ⟨_, _, _, rfl⟩ hu, hdp⟩
    · rw [lzCopy, lzEmit_of_ge hge, andThen_ended]
      exact ⟨s, rfl, WorkingOn.refl s, Nat.le_antisymm h0 hge⟩

/-- Settles O38: the distance is checked before the copy, and the copy fails at its first byte beyond the limit. -/
theorem lightZhlMatchFailures : Obligations.LightZhlMatchFailures := by
  intro L D s hd i hi
  rw [exec_lzMatch hd hi]
  refine ⟨fun hdist => ?_, fun h1 h2 h0 hover => ?_⟩
  · rw [lzMatch_badDistance hdist, outcome_ended]
    exact ⟨_, rfl, failedWith_failLz _ _ _, rfl, rfl, rfl, rfl, (WorkingOn.refl s).failLz_inputsKept _ _⟩
  · obtain ⟨u, hcopy, hu, hdp⟩ := lzCopy_overrun L D h0 hover
    rw [lzMatch_of_le h1 h2, hcopy, outcome_ended]
    refine ⟨_, rfl, failedWith_failLz _ _ _, rfl, ?_, hu.failLz_inputsKept _ _⟩
    show BitVec.ofNat 32 u.ctx.dp = s.outLimit
    rw [hdp, BitVec.ofNat_toNat, BitVec.setWidth_eq]

end Sys2Proof.Machine
end

section
/-! The LightZhl coder model (46 R438 to R443): what aging and sorting give, and the widths the encoder chooses. -/

namespace Sys2Proof

namespace Sparse

variable {β : Type} {t : Sparse β} {k : Nat}

theorem getD_of_forall_lt (d : β) (h : ∀ e ∈ t, k < e.1) : t.getD d k = d := by
  cases hl : look t k with
  | none => rw [getD, hl, Option.getD_none]
  | some v => exact absurd (h _ (mem_of_look hl)) (lt_irrefl k)

/-- The entry at any index of a sorted list, its first entry apart. -/
theorem getD_cons_of_sorted {x : β} (h : sorted ((k, x) :: t) = true) (d : β) (a : Nat) :
    getD ((k, x) :: t) d a = if a = k then x else getD t d a := by
  obtain ⟨-, habove⟩ := (sorted_cons_iff k x t).1 h
  rw [getD, getD, look]
  split_ifs with hlt heq heq
  · omega
  · exact (getD_of_forall_lt d fun e he => hlt.trans (habove e he)).symm
  · rfl
  · rfl

end Sparse

namespace Machine

/-! ## Aging -/

/-- Every count is halved (46 R441); one that becomes 0 is no longer listed and reads as 0. -/
theorem getD_lzAge {t : Sparse Nat} (h : t.sorted = true) (v : Nat) : (lzAge t).getD 0 v = t.getD 0 v / 2 := by
  induction t with
  | nil => exact (Nat.zero_div 2).symm
  | cons e t ih =>
    obtain ⟨k, c⟩ := e
    obtain ⟨htail, habove⟩ := (Sparse.sorted_cons_iff k c t).1 h
    rw [Sparse.getD_cons_of_sorted h]
    by_cases hc : c / 2 = 0
    · rw [lzAge, if_pos hc, ih htail]
      split_ifs with hv
      · rw [hv, Sparse.getD_of_forall_lt 0 habove, hc]
      · rfl
    · have hsorted := sorted_lzAge h
      rw [lzAge, if_neg hc] at hsorted ⊢
      rw [Sparse.getD_cons_of_sorted hsorted, ih htail]
      split_ifs <;> rfl

/-! ## Sorting -/

/-- The order of 46 R440 on counts with their symbols: descending count, then descending symbol. -/
abbrev CountGe (x y : Nat × Nat) : Prop := y.1 < x.1 ∨ (x.1 = y.1 ∧ y.2 ≤ x.2)

/-- The symbols with their counts, sorted (46 R440). -/
def lzRanked (stat : Sparse Nat) : List (Nat × Nat) :=
  ((List.range Config.lzNsym).reverse.map fun s => (stat.getD 0 s, s)).insertionSort CountGe

theorem lzSort_eq (stat : Sparse Nat) : lzSort stat = (lzRanked stat).map Prod.snd := rfl

theorem lzRanked_pairwise (stat : Sparse Nat) : (lzRanked stat).Pairwise CountGe := by
  have htotal : Std.Total CountGe := ⟨fun x y => by unfold CountGe; omega⟩
  have htrans : IsTrans (Nat × Nat) CountGe := ⟨fun x y z => by unfold CountGe; omega⟩
  exact List.pairwise_insertionSort CountGe _

theorem fst_of_mem_lzRanked {stat : Sparse Nat} {e : Nat × Nat} (h : e ∈ lzRanked stat) : e.1 = stat.getD 0 e.2 := by
  obtain ⟨s, -, rfl⟩ := List.mem_map.1 ((List.mem_insertionSort CountGe).1 h)
  rfl

/-- No symbol occurs twice, so the order of the symbols is strict. -/
theorem lzSort_pairwise (stat : Sparse Nat) :
    (lzSort stat).Pairwise fun x y =>
      stat.getD 0 y < stat.getD 0 x ∨ stat.getD 0 x = stat.getD 0 y ∧ y < x := by
  have hnodup : (lzSort stat).Nodup := (lzSort_perm stat).nodup_iff.2 List.nodup_range
  rw [lzSort_eq] at hnodup ⊢
  refine List.pairwise_map.2 (List.Pairwise.imp_of_mem ?_ ((lzRanked_pairwise stat).and (List.pairwise_map.1 hnodup)))
  rintro x y hx hy ⟨hge, hne⟩
  rw [← fst_of_mem_lzRanked hx, ← fst_of_mem_lzRanked hy]
  omega

/-! ## The rebuild -/

/-- What `LZ.RECALC` leaves (46 R438). -/
theorem exec_lzRecalc {s : State} (hd : s.decoding .lz = true) (ws : List Nat) :
    exec (.lzRecalc ws) s = .next { s with ctx := { s.ctx with lz := { s.ctx.lz with
      stat := lzAge s.ctx.lz.stat, tab := ⟨lzSort (lzAge s.ctx.lz.stat), ws, lzBase ws⟩ } } } := by
  show execLzRecalc ws s = _
  rw [execLzRecalc, streamOp_decoding _ hd, outcome_cont, setLzWidths, lzRecalcOrder]

/-- Settles O39: the counts are aged, the order sorted by them, and the bases those of the new widths. -/
theorem lightZhlRebuildReorders : Obligations.LightZhlRebuildReorders := by
  intro ws s hd hstat
  have hsorted : s.ctx.lz.stat.sorted = true := (Bool.and_eq_true_iff.1 hstat).1
  have hexec := exec_lzRecalc hd ws
  have hperm := lzSort_perm (lzAge s.ctx.lz.stat)
  have hpairs := lzSort_pairwise (lzAge s.ctx.lz.stat)
  -- Under a name the order is not unfolded into a sort of 274 symbols.
  generalize lzSort (lzAge s.ctx.lz.stat) = order at hexec hperm hpairs
  exact ⟨_, hexec, rfl, getD_lzAge hsorted, hperm, hpairs, fun _ => LzTab.start_lzBase order⟩

/-! ## The group choice -/

theorem coverWidth_le (R f b : Nat) : coverWidth R f b ≤ b + f := by
  induction f generalizing b with
  | zero => exact le_rfl
  | succ f ih =>
    unfold coverWidth
    split_ifs
    · exact (ih (b + 1)).trans (by omega)
    · exact Nat.le_add_right b _

/-- The last group covers the positions that are left. -/
theorem le_two_pow_coverWidth {R f b : Nat} (h : R ≤ 2 ^ (b + f)) : R ≤ 2 ^ coverWidth R f b := by
  induction f generalizing b with
  | zero => exact h
  | succ f ih =>
    unfold coverWidth
    split_ifs with hlt
    · exact ih (by rwa [Nat.add_right_comm])
    · exact Nat.le_of_not_lt hlt

theorem targetWidth_le (pos target : Nat) (ws : List Nat) (f b : Nat) : targetWidth pos target ws f b ≤ b + f := by
  induction f generalizing b with
  | zero => exact le_rfl
  | succ f ih =>
    unfold targetWidth
    split_ifs
    · exact (ih (b + 1)).trans (by omega)
    · exact Nat.le_add_right b _

section
variable (total : Nat)

theorem length_calcGroupsFrom (g pos done : Nat) (ws : List Nat) : (calcGroupsFrom total g pos done ws).length = g := by
  induction g generalizing pos done ws with
  | zero => rfl
  | succ g ih =>
    unfold calcGroupsFrom
    split_ifs <;> exact congrArg (· + 1) (ih _ _ _)

theorem calcGroupsFrom_le (g pos done : Nat) (ws : List Nat) :
    ∀ w ∈ calcGroupsFrom total g pos done ws, w ≤ Config.lzMaxWidth := by
  induction g generalizing pos done ws with
  | zero => exact nofun
  | succ g ih =>
    unfold calcGroupsFrom
    split_ifs
    · exact List.forall_mem_cons.2 ⟨Nat.zero_le _, ih _ _ _⟩
    · exact List.forall_mem_cons.2 ⟨(coverWidth_le _ 10 0).trans (by decide), ih _ _ _⟩
    · exact List.forall_mem_cons.2 ⟨(targetWidth_le _ _ _ 10 0).trans (by decide), ih _ _ _⟩

/-- Unless no group remains, the groups reach the end of the alphabet: the last one covers what is left. -/
theorem calcGroupsFrom_covers {g pos : Nat} (h : 1 ≤ g ∨ Config.lzNsym ≤ pos) (done : Nat) (ws : List Nat) :
    Config.lzNsym ≤ pos + ((calcGroupsFrom total g pos done ws).map fun w => 2 ^ w).sum := by
  induction g generalizing pos done ws with
  | zero => exact (h.resolve_left (by decide)).trans (Nat.le_add_right _ _)
  | succ g ih =>
    unfold calcGroupsFrom
    split_ifs with hpos hg
    · exact hpos.trans (Nat.le_add_right _ _)
    · have hcover := le_two_pow_coverWidth (R := Config.lzNsym - pos) (f := 10) (b := 0)
        ((Nat.sub_le _ _).trans (by decide))
      simp only [List.map_cons, List.sum_cons]
      omega
    · rw [List.map_cons, List.sum_cons, ← Nat.add_assoc]
      exact ih (.inl (Nat.one_le_iff_ne_zero.2 hg)) _ _

end

/-- Settles O55: sixteen widths of at most 10 bits, the last of which covers the positions left. -/
theorem lightZhlGroupsLegal : Obligations.LightZhlGroupsLegal := by
  intro stat order
  refine ⟨length_calcGroupsFrom _ _ _ _ _, calcGroupsFrom_le _ _ _ _ _, ?_⟩
  have hcover := calcGroupsFrom_covers (order.map fun s => stat.getD 0 s + 1).sum (g := Config.lzGroups) (pos := 0)
    (.inl (by decide)) 0 (order.map fun s => stat.getD 0 s + 1)
  rwa [Nat.zero_add] at hcover

end Machine

end Sys2Proof
end

section
/-! The causes the readings of a stream can raise (60 R506): which of them each engine's words and tables are rejected
with. -/

namespace Sys2Proof

open Machine

/-! ## Readings -/

/-- A rejection raises a cause that a `DECODE` of engine `c` can end in. -/
def Rd.RejectsAs (c : Codec) {α : Type} (x : Rd α) : Prop :=
  ∀ e st r, x = .err e st r → Cause.ofReject e ∈ operationCauses c 4

theorem Rd.rejectsAs_ok (c : Codec) {α : Type} (a : α) (r : BitSrc) : (Rd.ok a r).RejectsAs c := nofun

theorem Rd.rejectsAs_err {c : Codec} {α : Type} {e : Reject} (h : Cause.ofReject e ∈ operationCauses c 4) (st : Stage)
    (r : BitSrc) : (Rd.err e st r : Rd α).RejectsAs c := by
  rintro _ _ _ ⟨⟩
  exact h

theorem Rd.RejectsAs.bind {c : Codec} {α β : Type} {x : Rd α} {f : α → BitSrc → Rd β} (hx : x.RejectsAs c)
    (hf : ∀ a r, (f a r).RejectsAs c) : (x.bind f).RejectsAs c := by
  cases x with
  | ok a r => exact hf a r
  | err e st r =>
    rintro _ _ _ ⟨⟩
    exact hx e st r rfl

/-- On every engine the stream can end too early. -/
theorem truncated_mem_operationCauses (c : Codec) : Cause.truncated ∈ operationCauses c 4 := by cases c <;> decide

theorem Rd.FailsAtEnd.rejectsAs {α : Type} {x : Rd α} (h : x.FailsAtEnd) (c : Codec) : x.RejectsAs c := by
  intro e st r he
  obtain ⟨rfl, -⟩ := h e st r he
  exact truncated_mem_operationCauses c

theorem refill_failsAtEnd (st : Stage) (nb : Nat) (bs : List Byte) (used : Nat) (acc : Word) (nacc : Nat) :
    (refill st nb bs used acc nacc).FailsAtEnd := by
  induction bs generalizing used acc nacc with
  | nil =>
    unfold refill
    split_ifs
    · exact Rd.failsAtEnd_ok _ _
    · rintro _ _ _ ⟨⟩
      exact ⟨rfl, rfl⟩
  | cons b bs ih =>
    unfold refill
    split_ifs
    · exact Rd.failsAtEnd_ok _ _
    · exact ih _ _ _

theorem getbits_failsAtEnd (st : Stage) (nb : Nat) (r : BitSrc) : (getbits st nb r).FailsAtEnd :=
  (refill_failsAtEnd _ _ _ _ _ _).bind fun _ _ => Rd.failsAtEnd_ok _ _

theorem getbits_rejectsAs (c : Codec) (st : Stage) (nb : Nat) (r : BitSrc) : (getbits st nb r).RejectsAs c :=
  (getbits_failsAtEnd st nb r).rejectsAs c

theorem decodeBt_failsAtEnd (clue : Byte) (isNode : Sparse Bool) (r : BitSrc) :
    (decodeBt clue isNode r).FailsAtEnd := by
  refine (getByte_failsAtEnd r).bind fun b r => ?_
  split_ifs
  · refine (getByte_failsAtEnd r).bind fun e r => ?_
    split_ifs
    · exact Rd.failsAtEnd_ok _ r
    · exact Rd.failsAtEnd_ok _ r
  · exact Rd.failsAtEnd_ok _ r
  · exact Rd.failsAtEnd_ok _ r

/-! ## Huffman readings -/

theorem countZeros_rejectsAs (z k : Nat) (r : BitSrc) : (countZeros z k r).RejectsAs .hr := by
  induction k generalizing z r with
  | zero =>
    refine (getbits_rejectsAs _ _ _ r).bind fun b r => ?_
    split_ifs
    · exact Rd.rejectsAs_err (by decide) _ r
    · exact Rd.rejectsAs_ok _ _ r
  | succ k ih =>
    refine (getbits_rejectsAs _ _ _ r).bind fun b r => ?_
    split_ifs
    · exact ih _ r
    · exact Rd.rejectsAs_ok _ _ r

theorem appendBits_rejectsAs (c : Codec) (m k : Nat) (r : BitSrc) : (appendBits m k r).RejectsAs c := by
  induction k generalizing m r with
  | zero => exact Rd.rejectsAs_ok _ _ r
  | succ k ih => exact (getbits_rejectsAs _ _ _ r).bind fun _ r => ih _ r

theorem getnum_rejectsAs (r : BitSrc) : (getnum r).RejectsAs .hr :=
  (countZeros_rejectsAs 0 15 r).bind fun z r => (appendBits_rejectsAs _ 1 z r).bind fun _ r => Rd.rejectsAs_ok _ _ r

theorem getsymFrom_rejectsAs (syms : List Byte) (ns : List Nat) (code first idx : Nat) (r : BitSrc) :
    (getsymFrom syms ns code first idx r).RejectsAs .hr := by
  induction ns generalizing code first idx r with
  | nil => exact Rd.rejectsAs_err (by decide) _ r
  | cons n ns ih =>
    refine (getbits_rejectsAs _ _ _ r).bind fun b r => ?_
    dsimp only
    split_ifs
    · exact Rd.rejectsAs_ok _ _ r
    · exact ih _ _ _ r

theorem decodeHr_rejectsAs (t : HrTab) (r : BitSrc) : (decodeHr t r).RejectsAs .hr := by
  refine (getsymFrom_rejectsAs _ _ _ _ _ r).bind fun s r => ?_
  split_ifs
  · exact Rd.rejectsAs_ok _ _ r
  · refine (getnum_rejectsAs r).bind fun k r => ?_
    split_ifs
    · exact Rd.rejectsAs_ok _ _ r
    · refine (getbits_rejectsAs _ _ _ r).bind fun b r => ?_
      split_ifs
      · exact Rd.rejectsAs_ok _ _ r
      · exact (getbits_rejectsAs _ _ _ r).bind fun _ r => Rd.rejectsAs_ok _ _ r

theorem getNums_rejectsAs (k : Nat) (r : BitSrc) : (getNums k r).RejectsAs .hr := by
  induction k generalizing r with
  | zero => exact Rd.rejectsAs_ok _ _ r
  | succ k ih => exact (getnum_rejectsAs r).bind fun _ r => (ih r).bind fun _ r => Rd.rejectsAs_ok _ _ r

theorem getLeaps_rejectsAs (k : Nat) (l : Leap) (r : BitSrc) : (getLeaps k l r).RejectsAs .hr := by
  induction k generalizing l r with
  | zero => exact Rd.rejectsAs_ok _ _ r
  | succ k ih =>
    refine (getnum_rejectsAs r).bind fun v r => ?_
    split_ifs
    · exact Rd.rejectsAs_err (by decide) _ r
    · exact ih _ r

theorem getHrTab_rejectsAs (r : BitSrc) : (getHrTab r).RejectsAs .hr := by
  refine (getbits_rejectsAs _ _ _ r).bind fun clue r => (getbits_rejectsAs _ _ _ r).bind fun maxlen r => ?_
  split_ifs
  · exact Rd.rejectsAs_err (by decide) _ r
  · refine (getNums_rejectsAs _ r).bind fun bl r => ?_
    split_ifs
    · exact Rd.rejectsAs_err (by decide) _ r
    · refine (getLeaps_rejectsAs _ _ r).bind fun l r => ?_
      split_ifs
      · exact Rd.rejectsAs_ok _ _ r
      · exact Rd.rejectsAs_err (by decide) _ r

/-! ## LightZhl readings -/

theorem getCode_rejectsAs (t : LzTab) (r : BitSrc) : (getCode t r).RejectsAs .lz := by
  refine (getbits_rejectsAs _ _ _ r).bind fun g r => (getbits_rejectsAs _ _ _ r).bind fun i r => ?_
  split_ifs
  · exact Rd.rejectsAs_err (by decide) _ r
  · exact Rd.rejectsAs_ok _ _ r

theorem getDisp_rejectsAs (bufBits : Nat) (r : BitSrc) : (getDisp bufBits r).RejectsAs .lz :=
  (getbits_rejectsAs _ _ _ r).bind fun _ r => (getbits_rejectsAs _ _ _ r).bind fun _ r => Rd.rejectsAs_ok _ _ r

theorem getWidths_rejectsAs (k : Nat) (r : BitSrc) : (getWidths k r).RejectsAs .lz := by
  induction k generalizing r with
  | zero => exact Rd.rejectsAs_ok _ _ r
  | succ k ih =>
    refine (getbits_rejectsAs _ _ _ r).bind fun w r => ?_
    split_ifs
    · exact Rd.rejectsAs_err (by decide) _ r
    · exact (ih r).bind fun _ r => Rd.rejectsAs_ok _ _ r

theorem lzFields_rejectsAs (bufBits s : Nat) (r : BitSrc) : (lzFields bufBits s r).RejectsAs .lz := by
  unfold lzFields
  split_ifs
  · exact Rd.rejectsAs_ok _ _ r
  · exact (getDisp_rejectsAs _ r).bind fun _ r => Rd.rejectsAs_ok _ _ r
  · exact (getbits_rejectsAs _ _ _ r).bind fun _ r => (getDisp_rejectsAs _ r).bind fun _ r => Rd.rejectsAs_ok _ _ r
  · exact (getWidths_rejectsAs _ r).bind fun _ r => Rd.rejectsAs_ok _ _ r
  · exact Rd.rejectsAs_ok _ _ r

end Sys2Proof
end

section
/-! Every failure of an operation is a raised one with a listed cause (60 R504, R506): the causes followed through the
pieces of work an operation consists of. -/

namespace Sys2Proof.Machine

/-! ## Listed failures -/

/-- The operation is under way. -/
def Busy (t : State) : Prop := t.busy = true

/-- If `t` reports a failure, it is a raised one (60 R504) with a cause of operation `op` on engine `c` (60 R506). -/
def FailureListed (c : Codec) (op : BitVec 3) (t : State) : Prop :=
  t.status ≠ .ok → FailedWith t.cause t ∧ t.cause ∈ operationCauses c op

/-- A piece of operation `op` on engine `c` goes on, or ends with a success or a listed failure. -/
def Flow.FailsAs (c : Codec) (op : BitVec 3) (f : Flow) : Prop := f.Reaches Busy (FailureListed c op)

section
variable {c : Codec} {op : BitVec 3}

theorem failsAs_raise {cause : Cause} (h : cause ∈ operationCauses c op) (d : Diag) (u : State) :
    (Flow.ended (raise cause d u)).FailsAs c op := fun _ => ⟨⟨rfl, rfl, rfl, rfl, rfl, rfl, rfl⟩, h⟩

theorem failsAs_fail {cause : Cause} (h : cause ∈ operationCauses c op) (u : State) :
    (Flow.ended (fail cause u)).FailsAs c op := failsAs_raise h _ _

theorem failsAs_failLz {cause : Cause} (h : cause ∈ operationCauses c op) (st : Stage) (u : State) :
    (Flow.ended (failLz cause st u)).FailsAs c op := failsAs_raise h _ _

theorem failsAs_refuse {cause : Cause} (h : cause ∈ operationCauses c op) (u : State) :
    (Flow.ended (refuse cause u)).FailsAs c op := failsAs_raise h _ _

theorem failsAs_finish (u : State) : (Flow.ended (finish u)).FailsAs c op := fun hne => absurd rfl hne

theorem failsAs_finishResult (v : Nat) (u : State) : (Flow.ended (finishResult v u)).FailsAs c op :=
  fun hne => absurd rfl hne

/-! ## The start of an operation -/

theorem noDirection_mem_operationCauses (c : Codec) (hop : op = 3 ∨ op = 4) :
    Cause.noDirection ∈ operationCauses c op := by
  obtain rfl | rfl := hop <;> cases c <;> decide

theorem badOp_mem_operationCauses (c : Codec) : ∀ op ∈ [5#3, 6#3, 7#3], Cause.badOp ∈ operationCauses c op := by
  cases c <;> decide

/-- The causes of a header, which `EXTRACT_SIZE` and `DECODE` share (40 R183, R185). -/
theorem headerCauses_subset (hc : c ≠ .lz) (hop : op = 2 ∨ op = 4) :
    [Cause.badMagic, .truncated, .lengthMismatch] ⊆ operationCauses c op := by
  obtain rfl | rfl := hop
  · cases c with
    | lz => exact absurd rfl hc
    | _ => decide
  · cases c with
    | lz => exact absurd rfl hc
    | _ => decide

theorem parseHeader_error_mem {m : Memory} {len maxLen : Nat} {cause : Cause} {sp : Nat}
    (h : parseHeader c m len maxLen = .error (cause, sp)) :
    cause ∈ [Cause.badMagic, .truncated, .lengthMismatch] := by
  by_cases hm : len < 2 ∨ beVal m 0 2 ∉ magics c
  · obtain ⟨sp', he⟩ := parseHeader_badMagic (maxLen := maxLen) hm
    rw [he] at h
    cases h
    decide
  · rw [not_or, not_not, Nat.not_lt] at hm
    obtain ⟨hlen, hmagic⟩ := hm
    rw [parseHeader_of_mem hlen hmagic] at h
    dsimp only at h
    split_ifs at h <;> cases h <;> decide

theorem extractSizeOp_failsAs (hc : c ≠ .lz) (s : State) : (Flow.ended (extractSizeOp c s)).FailsAs c 2 := by
  unfold extractSizeOp
  split
  next cause sp he => exact failsAs_refuse (headerCauses_subset hc (.inl rfl) (parseHeader_error_mem he)) _
  next => exact failsAs_finishResult _ _

theorem encodeOp_failsAs (c : Codec) (s : State) : (encodeOp c s).FailsAs c 3 := by
  cases c with
  | rp => exact failsAs_finish _
  | bt =>
    show (encodeBtOp s).FailsAs .bt 3
    unfold encodeBtOp
    split_ifs
    · exact failsAs_fail (by decide) s
    · exact failsAs_fail (by decide) s
    · exact failsAs_finish _
  | hr =>
    show (encodeHrOp s).FailsAs .hr 3
    unfold encodeHrOp
    split_ifs
    · exact failsAs_fail (by decide) s
    · exact failsAs_finish _
  | lz => exact failsAs_finish _

end

/-! ## The pieces of a `DECODE` -/

theorem outputOverrun_mem_operationCauses (c : Codec) : Cause.outputOverrun ∈ operationCauses c 4 := by
  cases c <;> decide

section
variable {c : Codec} {s : State}

theorem fetchByte_failsAs (h : Busy s) {k : Byte → State → Flow} (hk : ∀ b t, Busy t → (k b t).FailsAs c 4) :
    (fetchByte s k).FailsAs c 4 :=
  fetchByte_reaches (fun b => hk b _ h) (failsAs_fail (truncated_mem_operationCauses c) s)

theorem emit_failsAs (c : Codec) (b : Byte) (s : State) (h : Busy s) : (emit b s).FailsAs c 4 :=
  emit_reaches h (failsAs_fail (outputOverrun_mem_operationCauses c) s)

theorem lzEmit_failsAs (b : Byte) (s : State) (h : Busy s) : (lzEmit b s).FailsAs .lz 4 :=
  lzEmit_reaches h (failsAs_failLz (by decide) _ s)

theorem readHeader_failsAs (hc : c ≠ .lz) (h : Busy s) {k : State → Flow} (hk : ∀ t, Busy t → (k t).FailsAs c 4) :
    (readHeader c s k).FailsAs c 4 := by
  unfold readHeader
  split
  next cause sp he => exact failsAs_fail (headerCauses_subset hc (.inr rfl) (parseHeader_error_mem he)) _
  next => exact hk _ h

theorem loadTriples_failsAs (n : Nat) (h : Busy s) : (loadTriples n s).FailsAs .bt 4 := by
  induction n generalizing s with
  | zero => exact h
  | succ n ih =>
    refine fetchByte_failsAs h fun nd s h => fetchByte_failsAs h fun l s h => fetchByte_failsAs h fun r s h => ?_
    split_ifs
    · exact failsAs_fail (by decide) s
    · exact ih h

theorem decodeOp_failsAs (c : Codec) (h : Busy s) : (decodeOp c s).FailsAs c 4 := by
  cases c with
  | rp => exact readHeader_failsAs (c := .rp) nofun h fun _ h => h
  | bt =>
    show (decodeBtOp s).FailsAs .bt 4
    exact readHeader_failsAs (c := .bt) nofun h fun s h => fetchByte_failsAs h fun clue s h =>
      fetchByte_failsAs h fun count s h => loadTriples_failsAs _ h
  | hr =>
    show (decodeHrOp s).FailsAs .hr 4
    refine readHeader_failsAs (c := .hr) nofun h fun s h => ?_
    split
    next => exact h
    next e st r he => exact failsAs_fail (getHrTab_rejectsAs _ e st r he) _
  | lz =>
    show (decodeLzOp s).FailsAs .lz 4
    unfold decodeLzOp
    split
    next => exact h
    next e st r he => exact failsAs_failLz (getWidths_rejectsAs _ _ e st r he) st _

theorem lits_failsAs (P : Nat) (h : Busy s) : (lits P s).FailsAs .rp 4 :=
  lits_reaches (fun _ h => h) (fun s _ => failsAs_fail (by decide) s) (emit_failsAs .rp) P h

theorem copy_failsAs (L D : Nat) (h : Busy s) : (copy L D s).FailsAs .rp 4 := by
  unfold copy
  split_ifs
  · exact failsAs_fail (by decide) s
  · exact copyLoop_reaches (emit_failsAs .rp) D L h

theorem rpMatch_failsAs (P L D : Nat) (h : Busy s) : (rpMatch P L D s).FailsAs .rp 4 :=
  Flow.Reaches.andThen (lits_failsAs (s := setRpFields P L D s) P h) fun _ => copy_failsAs L D

theorem btExpandNode_failsAs (b : Byte) (h : Busy s) : (btExpandNode b s).FailsAs .bt 4 :=
  btExpand_reaches (fun _ _ h => h) (fun s _ => failsAs_fail (by decide) s) (emit_failsAs .bt) _ h

theorem hrRun_failsAs (k : Nat) (h : Busy s) : (hrRunOp k s).FailsAs .hr 4 := by
  unfold hrRunOp
  split_ifs
  · exact failsAs_fail (by decide) s
  · exact emitRun_reaches (emit_failsAs .hr) _ k h

theorem lzMatch_failsAs (L D : Nat) (h : Busy s) : (lzMatch L D s).FailsAs .lz 4 :=
  lzMatch_reaches (fun s _ => failsAs_failLz (by decide) _ s) lzEmit_failsAs L D h

/-- The end of a headed stream, with the last work `f` on its output. -/
theorem endHeaded_finish_failsAs (hc : c ≠ .lz) (f : State → State) (s : State) :
    (endHeaded s fun s => .ended (finish (f s))).FailsAs c 4 := by
  have hmem : Cause.lengthMismatch ∈ operationCauses c 4 := headerCauses_subset hc (.inr rfl) (by decide)
  unfold endHeaded
  split_ifs
  · exact failsAs_finish _
  · exact failsAs_fail hmem s

/-- The trailing literals come before the end of a RefPack stream. -/
theorem rpEof_failsAs (P : Nat) (h : Busy s) :
    ((lits P s).andThen fun s => endHeaded s fun s => .ended (finish s)).FailsAs .rp 4 :=
  Flow.Reaches.andThen (lits_failsAs P h) fun s _ => endHeaded_finish_failsAs (c := .rp) nofun id s

end

/-! ## The instructions -/

section
variable {c : Codec} {op : BitVec 3} {s t : State}

theorem streamOp_failsAs {f : State → Flow} (h : streamOp c s f = .next t) (hf : (f s).FailsAs c 4) :
    Busy t ∨ FailureListed c 4 t := (streamOp_next h hf).2

theorem hostOp_failsAs {f : State → Flow} (h : hostOp c op s f = .next t) (hf : (f (beginOp c op s)).FailsAs c op) :
    Busy t ∨ FailureListed c op t := (hostOp_next h hf).2

theorem exec_command_failsAs {i : Instr} (hi : IsCommand c i) (hs : Busy s) (h : exec i s = .next t) :
    Busy t ∨ FailureListed c 4 t := by
  obtain ⟨hop, rfl⟩ := hi
  cases i with
  | rpShort P L D => exact streamOp_failsAs h (rpMatch_failsAs P L D hs)
  | rpInt P L D => exact streamOp_failsAs h (rpMatch_failsAs P L D hs)
  | rpLong P L D => exact streamOp_failsAs h (rpMatch_failsAs P L D hs)
  | rpLiteral P => exact streamOp_failsAs (show execRpLiteral P s = _ from h) (lits_failsAs (s := setRpCount P s) P hs)
  | rpEof P => exact streamOp_failsAs (show execRpEof P s = _ from h) (rpEof_failsAs (s := setRpCount P s) P hs)
  | btLeaf b => exact streamOp_failsAs h (emit_failsAs .bt b s hs)
  | btNode b => exact streamOp_failsAs h (btExpandNode_failsAs b hs)
  | btEsc _ e => exact streamOp_failsAs h (emit_failsAs .bt e s hs)
  | btEnd b => exact streamOp_failsAs (show execBtEnd b s = _ from h) (endHeaded_finish_failsAs (c := .bt) nofun id s)
  | hrLit b => exact streamOp_failsAs h (emit_failsAs .hr b s hs)
  | hrRun k => exact streamOp_failsAs h (hrRun_failsAs k hs)
  | hrEsc b => exact streamOp_failsAs h (emit_failsAs .hr b s hs)
  | hrEof =>
    exact streamOp_failsAs (show execHrEof s = _ from h) (endHeaded_finish_failsAs (c := .hr) nofun undoDelta s)
  | lzLit b => exact streamOp_failsAs h (lzEmit_failsAs b s hs)
  | lzMatchS L D => exact streamOp_failsAs h (lzMatch_failsAs L D hs)
  | lzMatchX L D => exact streamOp_failsAs h (lzMatch_failsAs L D hs)
  | lzRecalc ws => exact streamOp_failsAs (show execLzRecalc ws s = _ from h) hs
  | lzEof => exact streamOp_failsAs (show execLzEof s = _ from h) (failsAs_finish s)
  | _ => cases hop

theorem exec_hostop_failsAs {i : Instr} (hi : hostopOf i = some (c, op)) (h : exec i s = .next t) :
    Busy t ∨ FailureListed c op t := by
  cases i with
  | about =>
    cases hi
    exact hostOp_failsAs (show execAbout c s = _ from h) (failsAs_finish _)
  | isValid =>
    cases hi
    refine hostOp_failsAs (show execIsValid c s = _ from h) ?_
    split_ifs with hc
    · subst hc
      exact failsAs_refuse (by decide) _
    · exact failsAs_finishResult _ _
  | extractSize =>
    cases hi
    refine hostOp_failsAs (show execExtractSize c s = _ from h) ?_
    split_ifs with hc
    · subst hc
      exact failsAs_refuse (by decide) _
    · exact extractSizeOp_failsAs hc _
  | encode =>
    cases hi
    refine hostOp_failsAs (show execEncode c s = _ from h) ?_
    split_ifs
    · exact encodeOp_failsAs c _
    · exact failsAs_fail (noDirection_mem_operationCauses c (.inl rfl)) _
  | decode =>
    cases hi
    refine hostOp_failsAs (show execDecode c s = _ from h) ?_
    split_ifs
    · exact decodeOp_failsAs c rfl
    · exact failsAs_fail (noDirection_mem_operationCauses c (.inr rfl)) _
  | hostopReserved5 =>
    cases hi
    exact hostOp_failsAs (show execHostopReserved5 c s = _ from h)
      (failsAs_refuse (badOp_mem_operationCauses c 5 (by decide)) _)
  | hostopReserved6 =>
    cases hi
    exact hostOp_failsAs (show execHostopReserved6 c s = _ from h)
      (failsAs_refuse (badOp_mem_operationCauses c 6 (by decide)) _)
  | hostopReserved7 =>
    cases hi
    exact hostOp_failsAs (show execHostopReserved7 c s = _ from h)
      (failsAs_refuse (badOp_mem_operationCauses c 7 (by decide)) _)
  | _ => cases hi

/-- A fetch fails as the reader of the running engine's words does. -/
theorem fetchCommand_failsAs (hs : Busy s) :
    (fetchCommand s).Reaches Busy (FailureListed (Codec.ofSel s.codecSel) 4) := by
  unfold fetchCommand
  cases Codec.ofSel s.codecSel with
  | rp =>
    dsimp only [fetchRp]
    split
    next => exact hs
    next e st r he => exact failsAs_fail ((decodeRp_failsAtEnd _).rejectsAs .rp e st r he) _
  | bt =>
    dsimp only [fetchBt]
    split
    next => exact hs
    next e st r he => exact failsAs_fail ((decodeBt_failsAtEnd _ _ _).rejectsAs .bt e st r he) _
  | hr =>
    dsimp only [fetchHr]
    split
    next => exact hs
    next e st r he => exact failsAs_fail (decodeHr_rejectsAs _ _ e st r he) _
  | lz =>
    dsimp only [fetchLz]
    split
    next e st r he => exact failsAs_failLz (getCode_rejectsAs _ _ e st r he) st _
    next =>
      split
      next e st r he => exact failsAs_failLz (lzFields_rejectsAs _ _ _ e st r he) st _
      next => exact hs

/-! ## The step -/

theorem step_failsAs (hrun : s.start = true ∨ s.busy = true) (h : step s = .next t) :
    Busy t ∨ FailureListed (Codec.ofSel s.codecSel) s.op t := by
  cases hs : s.start with
  | true =>
    rw [step_start hs] at h
    exact exec_hostop_failsAs (hostopOf_decodeHostop _ _) h
  | false =>
    have hb : s.busy = true := hrun.resolve_left (by simp [hs])
    have ho := step_busy_op hs hb h
    have hfetch := fetchCommand_failsAs hb
    rw [step_busy hs hb ho] at h
    rw [ho]
    cases hf : fetchCommand s with
    | ended u =>
      rw [hf] at h hfetch
      cases h
      exact .inr hfetch
    | instr i u =>
      rw [hf] at h hfetch
      exact exec_command_failsAs (fetchCommand_command s i u hf).1 hfetch h

end

/-- Settles O15: an operation ends by `raise` with a cause of its own, or by `finish` or `finishResult`, which report
`OK`. -/
theorem operationsFailOnlyAsListed : Obligations.OperationsFailOnlyAsListed := by
  intro s t hrun h hb hne
  have hidle : ¬Busy t := Bool.eq_false_iff.1 hb
  obtain ⟨hfailed, hmem⟩ := (step_failsAs hrun h).resolve_left hidle hne
  exact ⟨hfailed, step_inputsKept h, hmem⟩

end Sys2Proof.Machine
end

section
/-! Power-on reset (70 R541). -/

namespace Sys2Proof.Machine

/-- `OUT_LIMIT` starts as the largest length, which fits its 32 bits (70 R541). -/
theorem toNat_resetWith_outLimit (d : Descriptors) {p : Params} (hp : p.maxLen < 2 ^ 32) :
    (State.resetWith d p).outLimit.toNat = p.maxLen := Nat.mod_eq_of_lt hp

theorem free_directions (n : Nat) (size32 : Bool) :
    (Descriptor.free n size32).canEncode = true ∧ (Descriptor.free n size32).canDecode = true ∧
      (Descriptor.free n size32).size32 = size32 := ⟨rfl, rfl, rfl⟩

theorem reset_capabilities (c : Codec) :
    (State.reset.desc.of c).canEncode = true ∧ (State.reset.desc.of c).canDecode = true ∧
      (State.reset.desc.of c).size32 = decide (c = .rp ∨ c = .hr) := by
  cases c with
  | rp => exact free_directions 0 true
  | bt => exact free_directions 1 false
  | hr => exact free_directions 2 true
  | lz => exact free_directions 3 false

/-- Settles O13: the fields of `State.resetWith`, the capability bits, and the refusals of 40 R186. -/
theorem resetValues : Obligations.ResetValues := by
  refine ⟨fun d p hp => ?_, rfl, by decide, reset_capabilities,
    fun c d p he => ⟨_, exec_encode_noDirection (s := State.resetWith d p) rfl he, rfl, rfl⟩,
    fun c d p hd => ⟨_, exec_decode_noDirection (s := State.resetWith d p) rfl hd, rfl, rfl⟩⟩
  obtain ⟨-, hlen, -⟩ := hp
  exact ⟨rfl, rfl, rfl, rfl, rfl, rfl, rfl, rfl, rfl, rfl, toNat_resetWith_outLimit d hlen, rfl, rfl, rfl, rfl, rfl,
    rfl, rfl, rfl, rfl⟩

/-- Settles O41: nothing runs after reset, the memories are empty and the outcome registers clear. -/
theorem invariantHoldsAtReset : Obligations.InvariantHoldsAtReset where
  memories := ⟨rfl, rfl, rfl, rfl, rfl, rfl, rfl⟩
  registers := ⟨nofun, fun _ => rfl, rfl, fun _ => ⟨rfl, rfl⟩, fun _ => rfl⟩
  cursors := ⟨nofun, Nat.zero_le _⟩
  tables := nofun
  buffer := nofun

end Sys2Proof.Machine
end
